-- ==== Sys2Proof/Word.lean ====
section
/-! DEFINITION. The word types of the banked register access controller (rule R11): a downstream
register is one byte, a host command word has 32 bits. Everything else the controller counts or
compares is an unbounded natural (rules R11, R133, R229). -/

namespace Sys2Proof

/-- One downstream register, one payload byte, one FIFO byte (rule R11). -/
abbrev Byte := BitVec 8

/-- A command word (rule R90) or a response word (rule R99). -/
abbrev CmdWord := BitVec 32

end Sys2Proof
end

