-- ==== Sys2Proof/Config.lean ====
section
/-! DEFINITION. What is fixed for a run (rule R59): the constants the source fixes (rule R7), the
parameters it leaves open (rule R8) as plain data, the reference parameter set REF (rules R8, R9,
R171, R221), and the free values of the environment (rule R15), which have no body.

Every parameter is an ARGUMENT of the model: the machine state carries the parameter set in a field
no operation writes, so a statement about every state speaks of every parameter set. -/

namespace Sys2Proof

/-! ## Constants the source fixes (rule R7) -/

/-- `ADDR_LIMIT`: a flat address is valid only below it. -/
def addrLimit : Nat := 0x1C0
/-- `B0_BASE`, which is also `ANY_END`. -/
def b0Base : Nat := 0x30
/-- `B0_END`, which is also the start of the gap (`GAP_BASE`). -/
def b0End : Nat := 0x100
/-- `B1_BASE`, which is also the end of the gap (`GAP_END`). -/
def b1Base : Nat := 0x130
/-- `B1_LOCAL_SUB`: a bank-1 local offset is `addr - 0x100`. -/
def b1LocalSub : Nat := 0x100
/-- The window offsets of bank 1 that are state end here (rules R21, R74). -/
def b1OffsetEnd : Nat := 0xC0
/-- The physical window has 256 offsets (rule R61). -/
def windowSize : Nat := 0x100
/-- `FIFO_MAX`. -/
def fifoMax : Nat := 32
/-- `ABORT_ITERS`. -/
def abortIters : Nat := 2
/-- `POLL_ABORT`. -/
def pollAbort : Nat := 200
/-- `POLL_PRE`. -/
def pollPre : Nat := 200
/-- `POLL_READ`. -/
def pollRead : Nat := 250
/-- `EDID_BLOCK`. -/
def edidBlock : Nat := 128
/-- `CSC_MATRIX_LEN`. -/
def cscMatrixLen : Nat := 21
/-- `HIGH_CLOCK_HZ`. -/
def highClockHz : Nat := 80000000
/-- `IF_SPLIT`. -/
def ifSplit : Nat := 5

/-! ## The names the parameters use -/

/-- The two banks behind the window (rules R22, R26). -/
inductive Bank where
  | bank0
  | bank1
deriving DecidableEq, Repr, Inhabited

/-- The four status groups (rule R47). -/
inductive Group where
  | core
  | stat0
  | stat1
  | ext
deriving DecidableEq, Repr

/-- The interrupt sources the source document names, in the order of the `CLEAR_MAP` rows (rule R171). -/
inductive Source where
  | hotplug
  | rxSense
  | fifoError
  | busHang
  | audioOverflow
  | videoStable
deriving DecidableEq, Repr

/-- The colour modes of `CFG_IN_MODE` and `CFG_OUT_MODE` (rule R37). -/
inductive ColorMode where
  | rgb444
  | yuv422
  | yuv444
deriving DecidableEq, Repr

/-- The colorimetry operand of CSC_CFG (rule R98). -/
inductive Colorimetry where
  | unset
  | itu601
  | itu709
deriving DecidableEq, Repr

/-- `csc_op` (rule R219). -/
inductive CscOp where
  | bypass
  | rgb2yuv
  | yuv2rgb
deriving DecidableEq, Repr

/-- `GAP_POLICY` (rule R127, decision D10). -/
inductive GapPolicy where
  | refuse
  | invalidAddress
  | bank1Window
deriving DecidableEq, Repr

/-- One value for each status group. -/
structure PerGroup (α : Type) where
  core : α
  stat0 : α
  stat1 : α
  ext : α
deriving DecidableEq, Repr

/-- The value a `PerGroup` holds for one group. -/
def PerGroup.get {α : Type} (t : PerGroup α) : Group → α
  | .core => t.core
  | .stat0 => t.stat0
  | .stat1 => t.stat1
  | .ext => t.ext

/-- The `PerGroup` with the value of one group replaced. -/
def PerGroup.set {α : Type} (t : PerGroup α) (g : Group) (v : α) : PerGroup α :=
  match g with
  | .core => { t with core := v }
  | .stat0 => { t with stat0 := v }
  | .stat1 => { t with stat1 := v }
  | .ext => { t with ext := v }

/-- One value for each colour mode. -/
structure PerMode (α : Type) where
  rgb444 : α
  yuv422 : α
  yuv444 : α
deriving DecidableEq, Repr

/-- The value a `PerMode` holds for one colour mode. -/
def PerMode.get {α : Type} (t : PerMode α) : ColorMode → α
  | .rgb444 => t.rgb444
  | .yuv422 => t.yuv422
  | .yuv444 => t.yuv444

/-! ## The parameter set (rule R8) -/

/-- `BANKSEL_ADDR`, `BANKSEL_B0`, `BANKSEL_B1`. -/
structure BankParams where
  addr : Nat
  b0 : Byte
  b1 : Byte
deriving DecidableEq, Repr

/-- `SWRST_ADDR` with its two fields, and `HDCP_ADDR`. -/
structure ResetParams where
  swrstAddr : Nat
  swrstVid : Byte
  swrstAudFifo : Byte
  hdcpAddr : Nat
deriving DecidableEq, Repr

/-- The DDC registers, the values written to them and the DDC status bits. -/
structure DdcParams where
  ddcmAddr : Nat
  ddcmHost : Byte
  hdrAddr : Nat
  offAddr : Nat
  cntAddr : Nat
  segAddr : Nat
  cmdAddr : Nat
  statAddr : Nat
  fifoAddr : Nat
  hdrEdid : Byte
  cmdRead : Byte
  cmdFifoClr : Byte
  cmdAbort : Byte
  stDone : Byte
  stNack : Byte
  stWaitbus : Byte
  stArblose : Byte
deriving DecidableEq, Repr

/-- One row of `CLEAR_MAP` (rule R171). -/
structure ClearRow where
  group : Group
  statusBit : Byte
  clearRegister : Nat
  clearBit : Byte
deriving DecidableEq, Repr

/-- `CLEAR_MAP`: exactly six rows, one per source, in the quoted order (rule R171). -/
structure ClearMap where
  hotplug : ClearRow
  rxSense : ClearRow
  fifoError : ClearRow
  busHang : ClearRow
  audioOverflow : ClearRow
  videoStable : ClearRow
deriving DecidableEq, Repr

/-- `row(src)` of rule R171. -/
def ClearMap.row (m : ClearMap) : Source → ClearRow
  | .hotplug => m.hotplug
  | .rxSense => m.rxSense
  | .fifoError => m.fifoError
  | .busHang => m.busHang
  | .audioOverflow => m.audioOverflow
  | .videoStable => m.videoStable

/-- The sources in `CLEAR_MAP` row order (rule R171). -/
def clearOrder : List Source :=
  [.hotplug, .rxSense, .fifoError, .busHang, .audioOverflow, .videoStable]

/-- The interrupt registers: status groups, clear map, acknowledge strobe, level bits. -/
structure IrqParams where
  statAddr : PerGroup Nat
  clearMap : ClearMap
  ackAddr : Nat
  ackBit : Byte
  vidStableAddr : Nat
  vidStableBit : Byte
  hpdDetAddr : Nat
  hpdDetBit : Byte
deriving DecidableEq, Repr

/-- One pair of `CSC_FLAGS` (rule R221). -/
structure CscFlags where
  udfilt : Bool
  dither : Bool
deriving DecidableEq, Repr

/-- The four coefficient matrices of one conversion direction, by colorimetry and range (rule R220). -/
structure MatrixSet where
  itu601Limited : List Byte
  itu601Full : List Byte
  itu709Limited : List Byte
  itu709Full : List Byte
deriving DecidableEq, Repr

/-- One row of `AFE_TABLE` (rule R217). -/
structure AfeRow where
  addr : Nat
  mask : Byte
  valHigh : Byte
  valLow : Byte
deriving DecidableEq, Repr

/-- The registers and tables of the bridge mode-set sequencer. -/
structure BridgeParams where
  hdmiModeAddr : Nat
  hdmiModeBit : Byte
  aviAAddr : Nat
  aviBAddr : Nat
  aviCsumAddr : Nat
  inModeAddr : Nat
  inModeMask : Byte
  inModeEnc : PerMode Byte
  cscCtrlAddr : Nat
  cscCtrlMask : Byte
  cscBypass : Byte
  cscRgb2Yuv : Byte
  cscYuv2Rgb : Byte
  cscUdfilt : Byte
  cscDither : Byte
  cscFlags : PerMode (PerMode CscFlags)
  cscCoefAddr : Nat
  matrixRgb2Yuv : MatrixSet
  matrixYuv2Rgb : MatrixSet
  afeTable : List AfeRow
  clkgateAddr : Nat
  clkgateCsc : Byte
  aviCtrlAddr : Nat
  aviEn : Byte
  aviRpt : Byte
deriving DecidableEq, Repr

/-- The whole parameter set of rule R8. -/
structure Params where
  bank : BankParams
  rst : ResetParams
  ddc : DdcParams
  irq : IrqParams
  bridge : BridgeParams
  gapPolicy : GapPolicy
deriving DecidableEq, Repr

/-! ## The reference parameter set REF -/

/-- REF's synthetic matrix number `k`: byte `i` is `0x20*k + i` (rule R9). -/
def Params.refMatrix (k : Nat) : List Byte :=
  (List.range cscMatrixLen).map fun i => BitVec.ofNat 8 (0x20 * k + i)

/-- REF's `CLEAR_MAP` (rule R171). -/
def Params.refClearMap : ClearMap where
  hotplug := ⟨.stat0, 0x01, 0x00C, 0x01⟩
  rxSense := ⟨.stat0, 0x02, 0x00C, 0x02⟩
  fifoError := ⟨.stat0, 0x10, 0x00C, 0x10⟩
  busHang := ⟨.stat0, 0x04, 0x00C, 0x04⟩
  audioOverflow := ⟨.stat0, 0x80, 0x00C, 0x80⟩
  videoStable := ⟨.stat1, 0x10, 0x00D, 0x40⟩

/-- REF's `CSC_FLAGS`, input mode first (rule R221, an open parameter: decision D55). -/
def Params.refCscFlags : PerMode (PerMode CscFlags) where
  rgb444 := { rgb444 := ⟨false, false⟩, yuv422 := ⟨true, true⟩, yuv444 := ⟨false, true⟩ }
  yuv422 := { rgb444 := ⟨true, true⟩, yuv422 := ⟨false, false⟩, yuv444 := ⟨true, true⟩ }
  yuv444 := { rgb444 := ⟨false, true⟩, yuv422 := ⟨true, false⟩, yuv444 := ⟨false, false⟩ }

/-- The reference parameter set REF (rules R8, R9). DESIGN CHOICE (log entry 1): `State.reset` carries
REF; no statement about the machine rests on its values. -/
def Params.ref : Params where
  bank := { addr := 0x00F, b0 := 0x00, b1 := 0x01 }
  rst := { swrstAddr := 0x004, swrstVid := 0x08, swrstAudFifo := 0x14, hdcpAddr := 0x020 }
  ddc :=
    { ddcmAddr := 0x010, ddcmHost := 0x01, hdrAddr := 0x011, offAddr := 0x012, cntAddr := 0x013
      segAddr := 0x014, cmdAddr := 0x015, statAddr := 0x016, fifoAddr := 0x017, hdrEdid := 0xA0
      cmdRead := 0x03, cmdFifoClr := 0x09, cmdAbort := 0x0F, stDone := 0x80, stNack := 0x20
      stWaitbus := 0x10, stArblose := 0x08 }
  irq :=
    { statAddr := { core := 0x00E, stat0 := 0x006, stat1 := 0x007, ext := 0x0EE }
      clearMap := Params.refClearMap, ackAddr := 0x00E, ackBit := 0x01
      vidStableAddr := 0x00E, vidStableBit := 0x10, hpdDetAddr := 0x00E, hpdDetBit := 0x40 }
  bridge :=
    { hdmiModeAddr := 0x0C0, hdmiModeBit := 0x01, aviAAddr := 0x158, aviBAddr := 0x15E
      aviCsumAddr := 0x15D, inModeAddr := 0x070, inModeMask := 0xC0
      inModeEnc := { rgb444 := 0x00, yuv422 := 0x40, yuv444 := 0x80 }
      cscCtrlAddr := 0x072, cscCtrlMask := 0xC3, cscBypass := 0x00, cscRgb2Yuv := 0x02
      cscYuv2Rgb := 0x03, cscUdfilt := 0x40, cscDither := 0x80, cscFlags := Params.refCscFlags
      cscCoefAddr := 0x073
      matrixRgb2Yuv := ⟨refMatrix 0, refMatrix 1, refMatrix 2, refMatrix 3⟩
      matrixYuv2Rgb := ⟨refMatrix 4, refMatrix 5, refMatrix 6, refMatrix 7⟩
      afeTable := [⟨0x062, 0x90, 0x80, 0x10⟩, ⟨0x064, 0x89, 0x80, 0x09⟩]
      clkgateAddr := 0x060, clkgateCsc := 0x10, aviCtrlAddr := 0x0CD, aviEn := 0x01, aviRpt := 0x02 }
  gapPolicy := .refuse

/-! ## Free values (rule R15)

Each has no body, so nothing can be proved about the value it gives. Its argument is the counter
`Env.draws`, which every bus transaction and every free scheduling choice advances by one, so each
draw is fresh. -/

/-- The byte a read of a volatile or write-triggered register returns when the environment's script
holds no answer for it (rule R73, U3; log entry 3). -/
opaque Config.freeByte : Nat → Byte

/-- How many bytes of a failed write or burst the target took before it failed, and whether a failed
FIFO read popped (not zero) (rule R77, U5; log entry 5). -/
opaque Config.failTaken : Nat → Nat

/-- The downstream bank after a failed write to `BANKSEL_ADDR` (rule R77, U6) and after a write of a
byte that selects neither bank (rule R74, U8; log entries 5 and 6). -/
opaque Config.freeBank : Nat → Bank

/-- Which of several enabled agents moves when no scheduled turn is left (rules R28, R252, U12; log
entry 8). -/
opaque Config.freeChoice : Nat → Nat

end Sys2Proof
end

