-- ==== Sys2Proof/Syntax.lean ====
section
/-! DEFINITION. The fourteen operations of rule R96, one constructor per row of the opcode table, with
the operands of the seven formats of rules R91 to R98. -/

namespace Sys2Proof

/-- The latch an LDM selector names (rule R95). Selectors 9 to 15 are reserved and name none. -/
inductive LatchSel where
  | dmWidth
  | dmHeight
  | dmClockKhz
  | dmPixrep
  | dmRefresh
  | dmProgressive
  | cfgInMode
  | cfgOutMode
  | dviMode
deriving DecidableEq, Repr

/-- The operations of rule R96. -/
inductive Instr where
  /-- RD, format R (rules R92, R121). -/
  | rd (addr : BitVec 12)
  /-- WR, format R (rules R92, R122). -/
  | wr (addr : BitVec 12) (val : Byte)
  /-- UPD, format R (rules R92, R125). -/
  | upd (addr : BitVec 12) (mask : Byte) (val : Byte)
  /-- BWR, format B; the bytes are the port's payload (rules R93, R104, R128). -/
  | bwr (addr : BitVec 12) (len : BitVec 16)
  /-- RDBLK, format D (rules R94, R150). -/
  | rdblk (block : BitVec 8) (length : BitVec 16)
  /-- DDC_ABORT, format N (rule R145). -/
  | ddcAbort
  /-- IRQ_DISPATCH, format N, internal start only (rules R101, R170). -/
  | irqDispatch
  /-- HPD_TASK, format N, internal start only (rules R101, R191). -/
  | hpdTask
  /-- LDM, format L (rules R95, R206). -/
  | ldm (sel : LatchSel) (value : BitVec 24)
  /-- MODE_SET, format M; the infoframe bytes are the port's payload (rules R97, R104, R208). -/
  | modeSet (len : BitVec 8) (csum : Byte)
  /-- VID_EN, format N (rule R212). -/
  | vidEn
  /-- CSC_CFG, format C (rules R98, R218). -/
  | cscCfg (colorimetry : Colorimetry) (limited : Bool)
  /-- BR_ENABLE, format N (rule R226). -/
  | brEnable
  /-- BR_DISABLE, format N (rule R227). -/
  | brDisable
deriving DecidableEq, Repr

end Sys2Proof
end

