-- ==== Sys2Proof/WellFormed.lean ====
section
/-! DEFINITION. Which operand values are legal (the operand lines of rule R100). The reserved codes of
the fields (LDM selectors 9 to 15, colorimetry 3) have no constructor at all, so the decoder refuses
them; what is left is the range of each operand. -/

namespace Sys2Proof

/-- The `value` range of each LDM selector (rule R95). -/
def LatchSel.limit : LatchSel → Nat
  | .dmWidth => 0xFFFF
  | .dmHeight => 0xFFFF
  | .dmClockKhz => 0xFFFFFF
  | .dmPixrep => 0xFF
  | .dmRefresh => 0xFF
  | .dmProgressive => 1
  | .cfgInMode => 2
  | .cfgOutMode => 2
  | .dviMode => 1

/-- The operand ranges of rules R94, R95 and R97; every other operand admits all its values. -/
def Instr.wellFormed : Instr → Bool
  | .rd _ => true
  | .wr _ _ => true
  | .upd _ _ _ => true
  | .bwr _ _ => true
  | .rdblk _ length => decide (length.toNat ≤ edidBlock)
  | .ddcAbort => true
  | .irqDispatch => true
  | .hpdTask => true
  | .ldm sel value => decide (value.toNat ≤ sel.limit)
  | .modeSet len _ => decide (ifSplit ≤ len.toNat)
  | .vidEn => true
  | .cscCfg _ _ => true
  | .brEnable => true
  | .brDisable => true

end Sys2Proof
end

