-- ==== Sys2Proof/Decode.lean ====
section
/-! DEFINITION. The command decoder, total on every 32-bit word and refusing by name (rules R91 to
R103), the encoder written from the same formats, who may present which operation (rules R96, R101,
R255), the operand and payload checks of rule R100, the pseudo-operations (rule R106), the assembler
spelling (rule R105), and the host's view of the decoder.

Rule R100 in two parts: `decode` reads the fields of the word and refuses reserved opcodes, reserved
fields and reserved codes; `legalCommand` is the rest of the algorithm (the port, the operand ranges,
the payload's length). Both failures give `IllegalCommand`. -/

namespace Sys2Proof

/-- Why a word names no operation (rule R101). Every one of them is delivered as `IllegalCommand`. -/
inductive DecodeError where
  /-- Opcode 0x0 or 0xF. -/
  | reservedOpcode
  /-- A non-zero reserved field of the format. -/
  | reservedField
  /-- RD or WR with a non-zero mask field. -/
  | nonzeroMask
  /-- RD with a non-zero value field. -/
  | nonzeroVal
  /-- LDM selector 9 to 15. -/
  | reservedSelector
  /-- CSC_CFG colorimetry code 3. -/
  | reservedColorimetry
deriving DecidableEq, Repr

/-! ## Fields (rule R91) -/

/-- `word[31:28]`. -/
def opField (w : CmdWord) : BitVec 4 := w.extractLsb' 28 4
/-- `word[27:16]` of formats R and B. -/
def addrField (w : CmdWord) : BitVec 12 := w.extractLsb' 16 12
/-- `word[15:8]`: the mask of format R, the length of format M. -/
def midField (w : CmdWord) : Byte := w.extractLsb' 8 8
/-- `word[7:0]`: the value of format R, the checksum of format M. -/
def lowField (w : CmdWord) : Byte := w.extractLsb' 0 8
/-- `word[15:0]`: the length of formats B and D. -/
def halfField (w : CmdWord) : BitVec 16 := w.extractLsb' 0 16
/-- `word[23:16]`: the block of format D. -/
def blockField (w : CmdWord) : BitVec 8 := w.extractLsb' 16 8
/-- `word[27:24]`: the selector of format L, reserved in format D. -/
def selField (w : CmdWord) : BitVec 4 := w.extractLsb' 24 4
/-- `word[23:0]`: the value of format L. -/
def valueField (w : CmdWord) : BitVec 24 := w.extractLsb' 0 24
/-- `word[27:0]`: reserved in format N. -/
def restField (w : CmdWord) : BitVec 28 := w.extractLsb' 0 28
/-- `word[27:3]`: reserved in format C. -/
def zeroFieldC (w : CmdWord) : BitVec 25 := w.extractLsb' 3 25
/-- `word[2:1]`: the colorimetry of format C. -/
def colorField (w : CmdWord) : BitVec 2 := w.extractLsb' 1 2
/-- `word[0]`: the range of format C. -/
def rangeField (w : CmdWord) : BitVec 1 := w.extractLsb' 0 1

/-- The latch of an LDM selector; 9 to 15 are reserved (rule R95). -/
def decodeSel (s : BitVec 4) : Option LatchSel :=
  match s.toNat with
  | 0 => some .dmWidth
  | 1 => some .dmHeight
  | 2 => some .dmClockKhz
  | 3 => some .dmPixrep
  | 4 => some .dmRefresh
  | 5 => some .dmProgressive
  | 6 => some .cfgInMode
  | 7 => some .cfgOutMode
  | 8 => some .dviMode
  | _ => none

/-- The colorimetry of a format C code; 3 is illegal (rule R98). -/
def decodeColorimetry (c : BitVec 2) : Option Colorimetry :=
  match c.toNat with
  | 0 => some .unset
  | 1 => some .itu601
  | 2 => some .itu709
  | _ => none

/-- A format N word: bits 27 to 0 are zero (rule R98). -/
def decodeFormatN (w : CmdWord) (i : Instr) : Except DecodeError Instr :=
  if restField w = 0 then .ok i else .error .reservedField

/-- RD: format R with mask and value zero (rule R92). -/
def decodeRd (w : CmdWord) : Except DecodeError Instr :=
  if midField w ≠ 0 then .error .nonzeroMask
  else if lowField w ≠ 0 then .error .nonzeroVal
  else .ok (.rd (addrField w))

/-- WR: format R with mask zero (rule R92). -/
def decodeWr (w : CmdWord) : Except DecodeError Instr :=
  if midField w ≠ 0 then .error .nonzeroMask else .ok (.wr (addrField w) (lowField w))

/-- RDBLK: format D (rule R94). -/
def decodeRdblk (w : CmdWord) : Except DecodeError Instr :=
  if selField w = 0 then .ok (.rdblk (blockField w) (halfField w)) else .error .reservedField

/-- LDM: format L (rule R95). -/
def decodeLdm (w : CmdWord) : Except DecodeError Instr :=
  match decodeSel (selField w) with
  | some sel => .ok (.ldm sel (valueField w))
  | none => .error .reservedSelector

/-- MODE_SET: format M (rule R97). -/
def decodeModeSet (w : CmdWord) : Except DecodeError Instr :=
  if addrField w = 0 then .ok (.modeSet (midField w) (lowField w)) else .error .reservedField

/-- CSC_CFG: format C (rule R98). -/
def decodeCscCfg (w : CmdWord) : Except DecodeError Instr :=
  if zeroFieldC w = 0 then
    match decodeColorimetry (colorField w) with
    | some c => .ok (.cscCfg c (decide (rangeField w = 1)))
    | none => .error .reservedColorimetry
  else .error .reservedField

/-- The decoder of rules R91 to R103: one word, one operation or a named refusal. -/
def decode (w : CmdWord) : Except DecodeError Instr :=
  match (opField w).toNat with
  | 0x1 => decodeRd w
  | 0x2 => decodeWr w
  | 0x3 => .ok (.upd (addrField w) (midField w) (lowField w))
  | 0x4 => .ok (.bwr (addrField w) (halfField w))
  | 0x5 => decodeRdblk w
  | 0x6 => decodeFormatN w .ddcAbort
  | 0x7 => decodeFormatN w .irqDispatch
  | 0x8 => decodeFormatN w .hpdTask
  | 0x9 => decodeLdm w
  | 0xA => decodeModeSet w
  | 0xB => decodeFormatN w .vidEn
  | 0xC => decodeCscCfg w
  | 0xD => decodeFormatN w .brEnable
  | 0xE => decodeFormatN w .brDisable
  | _ => .error .reservedOpcode

/-! ## The encoder -/

/-- The selector code of a latch (rule R95). -/
def encodeSel : LatchSel → BitVec 4
  | .dmWidth => 0
  | .dmHeight => 1
  | .dmClockKhz => 2
  | .dmPixrep => 3
  | .dmRefresh => 4
  | .dmProgressive => 5
  | .cfgInMode => 6
  | .cfgOutMode => 7
  | .dviMode => 8

/-- The colorimetry code of format C (rule R98). -/
def encodeColorimetry : Colorimetry → BitVec 2
  | .unset => 0
  | .itu601 => 1
  | .itu709 => 2

/-- The command word of an operation (rules R91 to R98). -/
def encode : Instr → CmdWord
  | .rd addr => 0x1#4 ++ addr ++ 0#8 ++ 0#8
  | .wr addr val => 0x2#4 ++ addr ++ 0#8 ++ val
  | .upd addr mask val => 0x3#4 ++ addr ++ mask ++ val
  | .bwr addr len => 0x4#4 ++ addr ++ len
  | .rdblk block length => 0x5#4 ++ 0#4 ++ block ++ length
  | .ddcAbort => 0x6#4 ++ 0#28
  | .irqDispatch => 0x7#4 ++ 0#28
  | .hpdTask => 0x8#4 ++ 0#28
  | .ldm sel value => 0x9#4 ++ encodeSel sel ++ value
  | .modeSet len csum => 0xA#4 ++ 0#12 ++ len ++ csum
  | .vidEn => 0xB#4 ++ 0#28
  | .cscCfg c limited => 0xC#4 ++ 0#25 ++ encodeColorimetry c ++ BitVec.ofBool limited
  | .brEnable => 0xD#4 ++ 0#28
  | .brDisable => 0xE#4 ++ 0#28

/-! ## Who may present what, and the rest of rule R100 -/

/-- The "host" column of rule R96. -/
def hostMayStart : Instr → Bool
  | .irqDispatch => false
  | .hpdTask => false
  | .rd _ => true
  | .wr _ _ => true
  | .upd _ _ _ => true
  | .bwr _ _ => true
  | .rdblk _ _ => true
  | .ddcAbort => true
  | .ldm _ _ => true
  | .modeSet _ _ => true
  | .vidEn => true
  | .cscCfg _ _ => true
  | .brEnable => true
  | .brDisable => true

/-- The "aux" column of rule R96: the four primitives. -/
def auxMayStart : Instr → Bool
  | .rd _ => true
  | .wr _ _ => true
  | .upd _ _ _ => true
  | .bwr _ _ => true
  | .rdblk _ _ => false
  | .ddcAbort => false
  | .irqDispatch => false
  | .hpdTask => false
  | .ldm _ _ => false
  | .modeSet _ _ => false
  | .vidEn => false
  | .cscCfg _ _ => false
  | .brEnable => false
  | .brDisable => false

/-- The payload length the word states (rule R104); zero for an operation without a payload. -/
def payloadLength : Instr → Nat
  | .bwr _ len => len.toNat
  | .modeSet len _ => len.toNat
  | .rd _ => 0
  | .wr _ _ => 0
  | .upd _ _ _ => 0
  | .rdblk _ _ => 0
  | .ddcAbort => 0
  | .irqDispatch => 0
  | .hpdTask => 0
  | .ldm _ _ => 0
  | .vidEn => 0
  | .cscCfg _ _ => 0
  | .brEnable => 0
  | .brDisable => 0

/-- The checks of rule R100 that follow the fields: the port (`onHost` tells the host port from an
auxiliary one), the payload's length, the operand ranges. -/
def legalCommand (i : Instr) (onHost : Bool) (payload : List Byte) : Bool :=
  (if onHost then hostMayStart i else auxMayStart i)
    && decide (payload.length = payloadLength i) && i.wellFormed

/-! ## The host's view of the decoder -/

/-- The operation the decoder reads from an opcode-table word: every row has 32 bits, bit 0 the least
significant (rule R12); a command word is a number, so no byte order comes in (rule R67). -/
def decodeTableWord (_nbits w : Nat) : Option Instr :=
  match decode (BitVec.ofNat 32 w) with
  | .ok i => some i
  | .error _ => none

/-! ## Pseudo-operations and assembler spelling (rules R105, R106) -/

/-- `SETB addr, mask`. -/
def asmSetb (addr : BitVec 12) (mask : Byte) : Instr := .upd addr mask mask

/-- `CLRB addr, mask`. -/
def asmClrb (addr : BitVec 12) (mask : Byte) : Instr := .upd addr mask 0

/-- `PULSE addr, mask`: two commands. -/
def asmPulse (addr : BitVec 12) (mask : Byte) : List Instr := [asmSetb addr mask, asmClrb addr mask]

/-- A number in C notation, as the assembler writes it. -/
def asmNumber (n : Nat) : String := toString n

/-- A payload as a brace list of bytes; the two braces are characters 123 and 125. -/
def asmBytes (bytes : List Byte) : String :=
  String.singleton (Char.ofNat 123) ++ " ".intercalate (bytes.map fun b => asmNumber b.toNat)
    ++ String.singleton (Char.ofNat 125)

/-- The `NAME` of an LDM selector. -/
def asmLatch : LatchSel → String
  | .dmWidth => "WIDTH"
  | .dmHeight => "HEIGHT"
  | .dmClockKhz => "CLOCK_KHZ"
  | .dmPixrep => "PIXREP"
  | .dmRefresh => "REFRESH"
  | .dmProgressive => "PROGRESSIVE"
  | .cfgInMode => "IN_MODE"
  | .cfgOutMode => "OUT_MODE"
  | .dviMode => "DVI"

/-- The colorimetry operand of `CSC_CFG`. -/
def asmColorimetry : Colorimetry → String
  | .unset => "UNSET"
  | .itu601 => "ITU601"
  | .itu709 => "ITU709"

/-- The line of a host program for a command (rule R105); `none` for the two operations that cannot be
written in one. -/
def asmLine (payload : List Byte) : Instr → Option String
  | .rd addr => some ("RD " ++ asmNumber addr.toNat)
  | .wr addr val => some ("WR " ++ asmNumber addr.toNat ++ ", " ++ asmNumber val.toNat)
  | .upd addr mask val =>
    some ("UPD " ++ asmNumber addr.toNat ++ ", " ++ asmNumber mask.toNat ++ ", "
      ++ asmNumber val.toNat)
  | .bwr addr _ => some ("BWR " ++ asmNumber addr.toNat ++ ", " ++ asmBytes payload)
  | .rdblk block length =>
    some ("RDBLK " ++ asmNumber block.toNat ++ ", " ++ asmNumber length.toNat)
  | .ddcAbort => some "DDC_ABORT"
  | .irqDispatch => none
  | .hpdTask => none
  | .ldm sel value => some ("LDM " ++ asmLatch sel ++ ", " ++ asmNumber value.toNat)
  | .modeSet _ csum => some ("MODE_SET " ++ asmNumber csum.toNat ++ ", " ++ asmBytes payload)
  | .vidEn => some "VID_EN"
  | .cscCfg c limited =>
    some ("CSC_CFG " ++ asmColorimetry c ++ ", " ++ (if limited then "LIMITED" else "FULL"))
  | .brEnable => some "BR_ENABLE"
  | .brDisable => some "BR_DISABLE"

end Sys2Proof
end

