-- ==== Sys2Proof/Machine/State.lean ====
section
/-! DEFINITION. The state of the machine (rules R20 to R38, R58) as plain data, and its value at reset.

Beside what the spec gives the machine, State holds seven fields of the MODEL's own, marked below: the
parameter set (`cfg`), the port a command is being served for (`active`), the payload that came with an
auxiliary command (`given`), the environment's inputs (`env`), the commands the initiators will present
(`Port.inbox`) and the two output logs (`bus`, `events`). INVENTORY.md lists every field with its rule
and its reset value. -/

namespace Sys2Proof.Machine

/-! ## Agents (rules R14, R255, R259) -/

/-- A command port: the host's, or one of the auxiliary initiators' (rules R90, R256). -/
inductive PortId where
  | host
  | aux (k : Nat)
deriving DecidableEq, Repr

/-- An agent that can be inside an operation (rule R14; the environment never is). -/
inductive AgentId where
  | port (p : PortId)
  | dispatcher
  | task
deriving DecidableEq, Repr

/-! ## Enumerations of the state -/

/-- `ctx.connector_status` (rules R26, R29). -/
inductive ConnStatus where
  | unknown
  | connected
  | disconnected
deriving DecidableEq, Repr

/-- The status of a response (rule R241). Codes 7 to 15 are never produced. -/
inductive Status where
  | ok
  | invalidAddress
  | ioError
  | bankBoundaryViolation
  | protocolTimeout
  | protocolError
  | illegalCommand
deriving DecidableEq, Repr

/-- A response: the status and the data byte (rules R37, R99). -/
structure Response where
  status : Status
  data : Byte
deriving DecidableEq, Repr

/-! ## Sequencer positions (rule R25)

The position of an agent inside its operation is the list of pseudocode statements it still has to
execute, each with the loop variables it uses; `[]` is an idle agent. -/

/-- One invocation of a register primitive: RD, WR, UPD or BWR (rules R13, R120). -/
inductive Prim where
  | rd (addr : Nat)
  | wr (addr : Nat) (val : Byte)
  | upd (addr : Nat) (mask : Byte) (val : Byte)
  | bwr (addr : Nat) (bytes : List Byte)
deriving DecidableEq, Repr

/-- Which of its three call sites a `Poll` belongs to (rules R141, R145, R150). -/
inductive PollUse where
  /-- An abort iteration: iterations left after this one, and `any_done` so far. -/
  | abort (itersLeft : Nat) (anyDone : Bool)
  /-- Before a read command. -/
  | pre
  /-- After a read command. -/
  | post
deriving DecidableEq, Repr

/-- The three registers DDC_ABORT saves (rules R35, R145). -/
inductive SaveReg where
  | swrst
  | hdcp
  | ddcm
deriving DecidableEq, Repr

/-- The five handlers of IRQ_DISPATCH (rule R176). -/
inductive Handler where
  | fifoError
  | busHang
  | audioOverflow
  | videoStable
  | hotplug
deriving DecidableEq, Repr

/-- One pseudocode statement still to be executed. A statement runs at most one primitive. -/
inductive Stmt where
  /-- `return MemRead(addr, 1)`: the whole of RD (rule R121). -/
  | rdReturn (addr : Nat)
  /-- A primitive whose error ends the operation (rule R240). -/
  | prim (p : Prim)
  /-- A primitive whose error is logged and absorbed (rules R156, R183). -/
  | tryPrim (p : Prim)
  /-- `raise e`. -/
  | fail (e : Status)
  /-- The end of a sub-sequence whose errors the invoker absorbs (rules R178, R240). -/
  | absorb
  /-- The last statement of an internal operation: its running flag falls (rules R170, R191). -/
  | close
  /-- The load of LDM (rule R206). -/
  | load (sel : LatchSel) (value : BitVec 24)
  /-- The start of RDBLK (rule R150). -/
  | rdblk (block : Nat) (length : Nat)
  /-- `if BusHang(): DDC_ABORT()` (rules R143, R150). -/
  | hangCheck
  /-- The `while remaining > 0` of RDBLK with its loop variables (rule R150). -/
  | chunk (segment offset remaining : Nat)
  /-- `Poll` with the samples it may still take (rule R141). -/
  | poll (use : PollUse) (left : Nat)
  /-- `repeat chunk times` with the bytes still to drain (rule R150). -/
  | drain (left : Nat)
  /-- One save of DDC_ABORT (rule R145). -/
  | save (r : SaveReg)
  /-- `for iter` of DDC_ABORT: iterations left and `any_done` (rule R145). -/
  | abortIter (left : Nat) (anyDone : Bool)
  /-- One status read of the snapshot (rule R172). -/
  | snapRead (g : Group)
  /-- One row of the clear loop (rule R173). -/
  | clearRow (src : Source)
  /-- The ext self-clear (rule R174). -/
  | extClear
  /-- `if asserted(src): Handler()` (rule R176). -/
  | handler (h : Handler)
  /-- Step B of HPD_TASK (rule R191). -/
  | hpdRead
  /-- Step C of HPD_TASK with the level the detect bit was read at (rules R191, R193). -/
  | hpdUpdate (present : Bool)
  /-- The mode bit of MODE_SET (rule R207). -/
  | modeBit
  /-- VID_EN up to its first register step (rule R212). -/
  | vidEn
  /-- The input mode of VID_EN (rule R216). -/
  | inMode
  /-- CSC_CFG up to its first register step (rule R218). -/
  | csc (colorimetry : Colorimetry) (limited : Bool)
  /-- `ctx.need_csc <- b` (rule R223). -/
  | setNeedCsc (b : Bool)
  /-- `if ctx.need_csc: Upd(CLKGATE_ADDR, CLKGATE_CSC, ..)` (rules R226, R227). -/
  | gate (off : Bool)
deriving DecidableEq, Repr

/-- The abort save latches, sequencer variables of each agent (rule R35). -/
structure SaveLatches where
  swrst : Byte
  hdcp : Byte
  ddcm : Byte
deriving DecidableEq, Repr

/-- An agent's sequencer (rules R25, R35). -/
structure Sequencer where
  pos : List Stmt
  sav : SaveLatches
deriving DecidableEq, Repr

/-! ## Ports (rules R90, R255, R256) -/

/-- A command: the word and the payload its initiator fills before presenting it (rule R90). -/
structure Command where
  word : CmdWord
  payload : List Byte
deriving DecidableEq, Repr

/-- What every command port has of its own: its sequencer (rule R255; `payload`, `result` and `resp`
exist on the host port only and are fields of State). `inbox` is the MODEL's own: the commands the
initiator will present, an input. -/
structure Port where
  seq : Sequencer
  inbox : List Command
deriving DecidableEq, Repr

/-! ## The controller's records -/

/-- The DeviceContext, exactly seven fields (rule R26). -/
structure DeviceContext where
  currentBank : Bank
  lock : Option AgentId
  connectorStatus : ConnStatus
  dviMode : Bool
  needCsc : Bool
  audioChannelMask : Byte
  hotplugPending : Bool
deriving DecidableEq, Repr

/-- The mode and configuration latches LDM writes (rule R37). -/
structure Latches where
  dmWidth : BitVec 16
  dmHeight : BitVec 16
  dmClockKhz : BitVec 24
  dmPixrep : BitVec 8
  dmRefresh : BitVec 8
  dmProgressive : BitVec 1
  cfgInMode : ColorMode
  cfgOutMode : ColorMode
deriving DecidableEq, Repr

/-! ## Outputs and inputs -/

/-- One downstream bus transaction (rule R69); a failed read has no byte. -/
inductive BusOp where
  | read (off : Nat) (v : Option Byte)
  | write (off : Nat) (v : Byte) (completed : Bool)
  | burst (off : Nat) (bytes : List Byte) (completed : Bool)
deriving DecidableEq, Repr

/-- An output event (rule R38); `Log` events are not modelled (U13). -/
inductive Event where
  | notify (s : ConnStatus)
  | resp (p : PortId) (r : Response)
deriving DecidableEq, Repr

/-- One turn of the scheduler or the environment (rules R14, R36, R270). -/
inductive Turn where
  /-- An agent takes a step. -/
  | run (a : AgentId)
  /-- The downstream chip drives the interrupt line. -/
  | irq (level : Bool)
  /-- Device detach: the run is over. -/
  | detach
deriving DecidableEq, Repr

/-- The MODEL's own: the environment's answers and the scheduler's choices still to come, which are
free inputs of the step (rule R15). `sched` is the turns in order; `fails` says of each coming bus
transaction in order whether it fails (a transaction past its end completes); `answers` are the bytes
volatile registers will answer, by flat address, consumed one per read (rule R73); `draws` counts the
free values drawn. -/
structure Env where
  sched : List Turn
  fails : List Bool
  answers : List (Nat × Byte)
  draws : Nat
deriving DecidableEq, Repr

/-- The downstream byte registers `x[a]`, by flat address (rule R21). -/
abbrev Memory := List Host.Cell

/-! ## The state -/

/-- The state of the machine (rule R20). -/
structure State where
  /-- The parameter set (rules R8, R59): constant for a run. The MODEL's own place for it. -/
  cfg : Params
  /-- `x[a]` (rule R21). -/
  x : Memory
  /-- `hw_bank` (rule R22). -/
  hwBank : Bank
  /-- The DeviceContext (rule R26). -/
  ctx : DeviceContext
  /-- `task_running` (rule R34). -/
  taskRunning : Bool
  /-- `disp_running` (rule R36). -/
  dispRunning : Bool
  /-- `irq_line` (rule R36). -/
  irqLine : Bool
  /-- `snap[g]` (rule R36). -/
  snap : PerGroup Byte
  /-- The latches (rule R37). -/
  latches : Latches
  /-- `payload`, on the host port only (rules R37, R255). -/
  payload : List Byte
  /-- `result`, on the host port only (rules R37, R255). -/
  result : List Byte
  /-- `resp`, on the host port only (rules R37, R255). -/
  resp : Response
  /-- The host port (rule R90). -/
  hostPort : Port
  /-- The auxiliary ports; their number is `N_AUX` (rule R256). -/
  auxPorts : List Port
  /-- The port a command is being served for. The MODEL's own. -/
  active : PortId
  /-- The payload that came with the command last accepted at an auxiliary port: the second half of the
  pair of rule R90, which is no state of that port (rule R255). The MODEL's own (log entry 10). -/
  given : List Byte
  /-- The dispatcher's sequencer (rule R25). -/
  disp : Sequencer
  /-- The task executor's sequencer (rule R25). -/
  task : Sequencer
  /-- The bus transactions issued, the newest first. The MODEL's own log of an output. -/
  bus : List BusOp
  /-- The output events, the newest first (rule R38). The MODEL's own log of an output. -/
  events : List Event
  /-- The environment's inputs (rule R15). The MODEL's own. -/
  env : Env
deriving DecidableEq, Repr

/-- Why the machine stops. -/
inductive Fault where
  /-- Raised by a detach turn of the environment alone: the DeviceContext is torn down and the run is
  over (rule R270). Safe: nothing is claimed of a machine that is gone. -/
  | detached
deriving DecidableEq, Repr

/-- Why a step has no meaning. -/
inductive Refusal where
  /-- An instruction without a meaning; raised by no arm of `exec` (safe). -/
  | notModelled (mnemonic : String)
  /-- Raised by a primitive at an address of `[0x100,0x130)` under `GAP_POLICY` `refuse`: the rule
  asks the model to give the step no meaning (rules R66, R127, U1). Safe. -/
  | gapAddress
  /-- Raised by a bulk write that straddles the gap's edge under `GAP_POLICY` `bank1_window`, for
  which no bank and no offset are given (rule R127). Safe. -/
  | gapStraddle
  /-- Raised by a bus transaction whose window offset reaches no register of the model: bank-1 offsets
  0xC0 to 0xFF, or past the window (rules R21, R74, U9). Safe. -/
  | outsideWindow
deriving DecidableEq, Repr

/-! ## Reset (rules R58, R270, R271) -/

/-- An idle sequencer; the save latches are unspecified at reset, zero here (log entry 2). -/
def Sequencer.idle : Sequencer := { pos := [], sav := ⟨0, 0, 0⟩ }

/-- An idle port with nothing presented. -/
def Port.idle : Port := { seq := Sequencer.idle, inbox := [] }

/-- The machine right after device attach (rules R58, R271, R272), with the parameter set REF (log
entry 1), two auxiliary ports (rule R256) and no environment input. `resp` is unspecified at reset,
`Resp(OK, 0)` here (log entry 2). -/
def State.reset : State where
  cfg := Params.ref
  x := []
  hwBank := .bank0
  ctx :=
    { currentBank := .bank0, lock := none, connectorStatus := .unknown, dviMode := false
      needCsc := false, audioChannelMask := 0, hotplugPending := false }
  taskRunning := false
  dispRunning := false
  irqLine := false
  snap := ⟨0, 0, 0, 0⟩
  latches :=
    { dmWidth := 0, dmHeight := 0, dmClockKhz := 0, dmPixrep := 0, dmRefresh := 0
      dmProgressive := 0, cfgInMode := .rgb444, cfgOutMode := .rgb444 }
  payload := []
  result := []
  resp := ⟨.ok, 0⟩
  hostPort := Port.idle
  auxPorts := [Port.idle, Port.idle]
  active := .host
  given := []
  disp := Sequencer.idle
  task := Sequencer.idle
  bus := []
  events := []
  env := { sched := [], fails := [], answers := [], draws := 0 }

end Sys2Proof.Machine
end

