-- ==== Sys2Proof/Machine/Operands.lean ====
section
/-! DEFINITION. Operand forms: the flat address and its translation (rules R60 to R66), the range
checks of a bulk write (rules R129, R130, R132), the window offset and the register it reaches (rules
R61, R74), the classes of registers (rules R72 to R76), the constraints on a parameter set (rule R10),
and the values the bridge sequencer derives from its latches (rules R213 to R221). -/

namespace Sys2Proof.Machine

/-! ## Flat addresses (rules R60, R64, R65) -/

/-- The region of a flat address (rule R64). -/
inductive Region where
  | any
  | b0
  | gap
  | b1
  | invalid
deriving DecidableEq, Repr

/-- `region(addr)` (rule R64). -/
def region (addr : Nat) : Region :=
  if addr < b0Base then .any
  else if addr < b0End then .b0
  else if addr < b1Base then .gap
  else if addr < addrLimit then .b1
  else .invalid

/-- `translate(addr)`: the bank it needs and its window offset (rule R65); `none` where the region is
the gap or invalid. -/
def translate (addr : Nat) : Option (Option Bank × Nat) :=
  match region addr with
  | .any => some (none, addr)
  | .b0 => some (some .bank0, addr)
  | .b1 => some (some .bank1, addr - b1LocalSub)
  | .gap => none
  | .invalid => none

/-- A flat address that names a register (rule R21). -/
def isRegister (addr : Nat) : Bool :=
  decide (addr < b0End ∨ (b1Base ≤ addr ∧ addr < addrLimit))

/-- The register a window offset reaches while a bank is selected (rules R61, R74); `none` outside the
model (rule R21, U9). -/
def target (hw : Bank) (off : Nat) : Option Nat :=
  if off < b0Base then some off
  else match hw with
    | .bank0 => if off < windowSize then some off else none
    | .bank1 => if off < b1OffsetEnd then some (off + b1LocalSub) else none

/-! ## Bulk ranges (rules R129 to R132) -/

/-- `crosses(addr, n)` (rule R129), with `last >= 0x130` written as `addr + n > 0x130`. -/
def crosses (addr n : Nat) : Bool :=
  decide (1 ≤ n ∧ addr < b1Base ∧ b1Base < addr + n)

/-- `RangeCheck(addr, n)`: the error it raises, if any (rule R130). -/
def rangeCheck (addr n : Nat) : Option Status :=
  if addrLimit ≤ addr then some .invalidAddress
  else if 1 ≤ n ∧ addrLimit < addr + n then some .invalidAddress
  else if crosses addr n then some .bankBoundaryViolation
  else none

/-- Whether one of `addr .. addr+n-1` lies in the gap (rule R128). -/
def touchesGap (addr n : Nat) : Bool :=
  decide (1 ≤ n ∧ addr < b1Base ∧ b0End < addr + n)

/-- The bank a bulk write needs: that of its first address, and Bank0 where a range starts in the
any-bank region and extends to 0x30 or beyond (rules R128, R132). -/
def bulkBank (addr n : Nat) (need : Option Bank) : Option Bank :=
  if need = none ∧ b0Base < addr + n then some .bank0 else need

/-! ## Register classes (rules R72 to R76) -/

/-- The volatile registers (rule R73). -/
def isVolatile (c : Params) (a : Nat) : Bool :=
  decide (a ∈ [c.ddc.statAddr, c.ddc.fifoAddr, c.irq.statAddr.core, c.irq.statAddr.stat0,
    c.irq.statAddr.stat1, c.irq.statAddr.ext, c.irq.vidStableAddr, c.irq.hpdDetAddr])

/-- The registers whose write acts on the environment: the DDC command register (rule R75), the clear
registers and the acknowledge strobe (rule R76). Rule R72 leaves them out of the plain registers. -/
def isTriggered (c : Params) (a : Nat) : Bool :=
  decide (a ∈ c.ddc.cmdAddr :: c.irq.ackAddr :: clearOrder.map fun s =>
    (c.irq.clearMap.row s).clearRegister)

/-- A plain register stores what is written and reads it back (rule R72). The bank-select register
also reads as written (rule R39) and has its own rule for a write (rule R74). -/
def isPlain (c : Params) (a : Nat) : Bool := !isVolatile c a && !isTriggered c a

/-! ## Constraints on a parameter set (rule R10) -/

/-- A mask of exactly one bit. -/
def isOneBit (b : Byte) : Bool := decide (b ≠ 0 ∧ b &&& (b - 1) = 0)

/-- Every named register address except `BANKSEL_ADDR` (rule R8). -/
def namedAddrs (c : Params) : List Nat :=
  [c.rst.swrstAddr, c.rst.hdcpAddr, c.ddc.ddcmAddr, c.ddc.hdrAddr, c.ddc.offAddr, c.ddc.cntAddr,
    c.ddc.segAddr, c.ddc.cmdAddr, c.ddc.statAddr, c.ddc.fifoAddr, c.irq.statAddr.core,
    c.irq.statAddr.stat0, c.irq.statAddr.stat1, c.irq.statAddr.ext, c.irq.ackAddr,
    c.irq.vidStableAddr, c.irq.hpdDetAddr, c.bridge.hdmiModeAddr, c.bridge.aviAAddr,
    c.bridge.aviBAddr, c.bridge.aviCsumAddr, c.bridge.inModeAddr, c.bridge.cscCtrlAddr,
    c.bridge.cscCoefAddr, c.bridge.clkgateAddr, c.bridge.aviCtrlAddr]
    ++ clearOrder.map (fun s => (c.irq.clearMap.row s).clearRegister)
    ++ c.bridge.afeTable.map (fun r => r.addr)

/-- A bulk range inside one region, off the gap (PC4). -/
def bulkFits (addr n : Nat) : Bool :=
  decide (region addr = region (addr + n - 1) ∧ isRegister addr = true)

/-- A bulk range that does not write `BANKSEL_ADDR`. Rule R10 does not ask it: it is a hypothesis where a
statement needs it, since such a range is the hazard of rules R275 and R280. -/
def offBanksel (c : Params) (addr n : Nat) : Bool :=
  decide (¬(addr ≤ c.bank.addr ∧ c.bank.addr < addr + n))

/-- PC1 and PC2: the bank-select register is in the any-bank region, its two values differ in one bit
(rule R39), and no other named register shares its address. -/
def bankParamsOk (c : Params) : Bool :=
  decide (c.bank.addr < b0Base) && isOneBit (c.bank.b0 ^^^ c.bank.b1)
    && (namedAddrs c).all (fun a => decide (a ≠ c.bank.addr))

/-- PC5: one-bit error masks, pairwise disjoint, disjoint from `ST_DONE`. -/
def ddcParamsOk (d : DdcParams) : Bool :=
  isOneBit d.stNack && isOneBit d.stWaitbus && isOneBit d.stArblose
    && decide (d.stDone &&& (d.stNack ||| d.stWaitbus ||| d.stArblose) = 0)
    && decide (d.stNack ≠ d.stWaitbus ∧ d.stNack ≠ d.stArblose ∧ d.stWaitbus ≠ d.stArblose)

/-- PC6, and the one-bit masks of rule R171. -/
def irqParamsOk (q : IrqParams) : Bool :=
  clearOrder.all fun s => decide ((q.clearMap.row s).group ≠ .ext)
    && isOneBit (q.clearMap.row s).statusBit && isOneBit (q.clearMap.row s).clearBit

/-- A value lies inside a mask. -/
def within (v mask : Byte) : Bool := decide (v &&& ~~~mask = 0)

/-- PC7, and the matrices' 21 bytes (rule R8). -/
def bridgeParamsOk (b : BridgeParams) : Bool :=
  within b.inModeEnc.rgb444 b.inModeMask && within b.inModeEnc.yuv422 b.inModeMask
    && within b.inModeEnc.yuv444 b.inModeMask
    && within (b.cscBypass ||| b.cscUdfilt ||| b.cscDither) b.cscCtrlMask
    && within (b.cscRgb2Yuv ||| b.cscUdfilt ||| b.cscDither) b.cscCtrlMask
    && within (b.cscYuv2Rgb ||| b.cscUdfilt ||| b.cscDither) b.cscCtrlMask
    && b.afeTable.all (fun r => within r.valHigh r.mask && within r.valLow r.mask)
    && [b.matrixRgb2Yuv, b.matrixYuv2Rgb].all (fun m =>
      [m.itu601Limited, m.itu601Full, m.itu709Limited, m.itu709Full].all
        (fun l => decide (l.length = cscMatrixLen)))

/-- PC4 for the second infoframe block, which holds the payload bytes past the first five: the bytes
used lie in one region off the gap (rules R10, R208). -/
def secondBlockFits (b : BridgeParams) (payloadLen : Nat) : Bool :=
  decide (payloadLen ≤ ifSplit) || bulkFits b.aviBAddr (payloadLen - ifSplit)

/-- PC4, for infoframe payloads of at most `used` bytes. -/
def bulkTargetsOk (b : BridgeParams) (used : Nat) : Bool :=
  bulkFits b.aviAAddr ifSplit && bulkFits b.cscCoefAddr cscMatrixLen && secondBlockFits b used

/-- The constraints PC1 to PC7 of rule R10 on a parameter set whose infoframe payloads have at most
`used` bytes ("as used", PC4). -/
def paramsOkFor (c : Params) (used : Nat) : Bool :=
  bankParamsOk c && (namedAddrs c).all isRegister && bulkTargetsOk c.bridge used && ddcParamsOk c.ddc
    && irqParamsOk c.irq && bridgeParamsOk c.bridge

/-- The constraints as every operation but MODE_SET needs them: no second infoframe block is used. -/
def paramsOk (c : Params) : Bool := paramsOkFor c ifSplit

/-- The two bulk targets of fixed length keep off `BANKSEL_ADDR` (see `offBanksel`). -/
def bulksOffBanksel (c : Params) : Bool :=
  offBanksel c c.bridge.aviAAddr ifSplit && offBanksel c c.bridge.cscCoefAddr cscMatrixLen

/-! ## What the bridge sequencer derives (rules R213 to R221) -/

/-- `HighClock()` on unbounded naturals (rule R213). -/
def highClock (l : Latches) : Bool :=
  decide (highClockHz < (l.dmPixrep.toNat + 1) * l.dmClockKhz.toNat * 1000)

/-- `Colorimetry()`: the 16:9 test comes first (rule R214). -/
def deriveColorimetry (l : Latches) : Colorimetry :=
  if l.dmWidth.toNat * 9 = l.dmHeight.toNat * 16 then .itu709
  else if l.dmWidth.toNat * 3 = l.dmHeight.toNat * 4 then .itu601
  else .unset

/-- `LimitedRange()`: true for exactly 640 x 480 at 60 progressive (rule R215). -/
def limitedRange (l : Latches) : Bool :=
  decide (l.dmWidth.toNat = 640 ∧ l.dmHeight.toNat = 480 ∧ l.dmRefresh.toNat = 60
    ∧ l.dmProgressive = 1)

/-- `CscOp(in, out)` (rule R219). -/
def cscOp : ColorMode → ColorMode → CscOp
  | .rgb444, .rgb444 => .bypass
  | .rgb444, .yuv444 => .rgb2yuv
  | .rgb444, .yuv422 => .rgb2yuv
  | .yuv444, .rgb444 => .yuv2rgb
  | .yuv444, .yuv444 => .bypass
  | .yuv444, .yuv422 => .bypass
  | .yuv422, .rgb444 => .yuv2rgb
  | .yuv422, .yuv444 => .bypass
  | .yuv422, .yuv422 => .bypass

/-- The matrix of one direction: Unset uses ITU601, limited is 16-235 (rule R220). -/
def MatrixSet.pick (m : MatrixSet) (c : Colorimetry) (limited : Bool) : List Byte :=
  match c, limited with
  | .itu709, true => m.itu709Limited
  | .itu709, false => m.itu709Full
  | .itu601, true => m.itu601Limited
  | .itu601, false => m.itu601Full
  | .unset, true => m.itu601Limited
  | .unset, false => m.itu601Full

/-- The coefficient matrix CSC_CFG writes; none for Bypass (rules R218, R220). -/
def cscMatrix (b : BridgeParams) (op : CscOp) (c : Colorimetry) (limited : Bool) :
    Option (List Byte) :=
  match op with
  | .bypass => none
  | .rgb2yuv => some (MatrixSet.pick b.matrixRgb2Yuv c limited)
  | .yuv2rgb => some (MatrixSet.pick b.matrixYuv2Rgb c limited)

/-- `CSC_OP_ENC[csc_op]` (rule R8). -/
def cscOpEnc (b : BridgeParams) : CscOp → Byte
  | .bypass => b.cscBypass
  | .rgb2yuv => b.cscRgb2Yuv
  | .yuv2rgb => b.cscYuv2Rgb

/-- The value CSC_CFG puts into `CSC_CTRL` (rules R218, R222). -/
def cscCtrl (b : BridgeParams) (inMode outMode : ColorMode) : Byte :=
  let flags := (b.cscFlags.get inMode).get outMode
  cscOpEnc b (cscOp inMode outMode) ||| (if flags.udfilt then b.cscUdfilt else 0)
    ||| (if flags.dither then b.cscDither else 0)

/-- The colour mode of an LDM value 0, 1 or 2 (rules R95, R206). -/
def colorModeOf (value : Nat) : ColorMode :=
  match value with
  | 0 => .rgb444
  | 1 => .yuv422
  | _ => .yuv444

/-! ## RDBLK arithmetic (rule R152) -/

/-- `segment = block / 2`. -/
def edidSegment (block : Nat) : Nat := block / 2

/-- `offset = (block % 2) * length`, by the formula as written (conflict C3). -/
def edidOffset (block length : Nat) : Nat := (block % 2) * length

/-- `chunk = min(remaining, 32)`. -/
def chunkSize (remaining : Nat) : Nat := min remaining fifoMax

end Sys2Proof.Machine
end

