-- ==== Sys2Proof/Machine/Flags.lean ====
section
/-! DEFINITION. Every flag and status bit computation of the spec (rule R57): the status codes and the
response word (rules R99, R241), the DDC status sample (rule R141), the interrupt sources of a snapshot
(rule R171), the hotplug level (rule R193), the update formula (rule R125). -/

namespace Sys2Proof.Machine

/-- The status codes (rule R241). -/
def statusCode : Status → BitVec 4
  | .ok => 0
  | .invalidAddress => 1
  | .ioError => 2
  | .bankBoundaryViolation => 3
  | .protocolTimeout => 4
  | .protocolError => 5
  | .illegalCommand => 6

/-- The response as a word: `status[31:28] zero[27:8] data[7:0]` (rule R99). -/
def responseWord (r : Response) : CmdWord := statusCode r.status ++ 0#20 ++ r.data

/-- The byte UPD writes: `(old & ~mask) | (val & mask)` (rule R125). -/
def updValue (old mask val : Byte) : Byte := (old &&& ~~~mask) ||| (val &&& mask)

/-- `ST_ERR` (rule R8). -/
def stErr (d : DdcParams) : Byte := d.stNack ||| d.stWaitbus ||| d.stArblose

/-- What one status sample says (rule R141). -/
inductive Sample where
  | error (bits : Byte)
  | done
  | undecided
deriving DecidableEq, Repr

/-- The error bits are tested before the done bit; all other bits are ignored (rule R141). -/
def pollSample (d : DdcParams) (s : Byte) : Sample :=
  if s &&& stErr d ≠ 0 then .error (s &&& stErr d)
  else if s &&& d.stDone ≠ 0 then .done
  else .undecided

/-- How a `Poll` ends (rule R141). -/
inductive PollResult where
  | done
  | error (bits : Byte)
  | exhausted
deriving DecidableEq, Repr

/-- `asserted(src)` on a snapshot (rule R171). -/
def asserted (q : IrqParams) (snap : PerGroup Byte) (src : Source) : Bool :=
  decide (snap.get (q.clearMap.row src).group &&& (q.clearMap.row src).statusBit ≠ 0)

/-- The source whose assertion runs a handler (rule R170). -/
def handlerSource : Handler → Source
  | .fifoError => .fifoError
  | .busHang => .busHang
  | .audioOverflow => .audioOverflow
  | .videoStable => .videoStable
  | .hotplug => .hotplug

/-- The handlers in their fixed order (rule R176). -/
def handlerOrder : List Handler := [.fifoError, .busHang, .audioOverflow, .videoStable, .hotplug]

/-- The status groups in the order of the snapshot (rule R172). -/
def groupOrder : List Group := [.core, .stat0, .stat1, .ext]

/-- `BusHang()` on the status byte read (rule R143). -/
def hangBit (q : IrqParams) (s : Byte) : Bool :=
  decide (s &&& (q.clearMap.row .busHang).statusBit ≠ 0)

/-- The detect bit of the byte read (rule R191). -/
def hpdLevel (q : IrqParams) (s : Byte) : Bool := decide (s &&& q.hpdDetBit ≠ 0)

/-- `new_status` from the detect bit: never `Unknown` (rule R193). -/
def connOf (present : Bool) : ConnStatus := if present then .connected else .disconnected

end Sys2Proof.Machine
end

