-- ==== Sys2Proof/Machine/Ops.lean ====
section
/-! DEFINITION. The named operations every meaning is built from: the register file, the bus
transactions with their draws, the bank select and the lock, the four primitives, the positions of the
agents, and the delivery of an error or a response. -/

namespace Sys2Proof.Machine

/-! ## The register file (rules R21, R72) -/

/-- What a register never written since reset reads as. DESIGN CHOICE (log entry 7): the spec calls it
one unknown byte per register (rule R58, U2). -/
def Memory.unlisted : Byte := 0

/-- `x[a]`. -/
def Memory.read : Memory → Nat → Byte
  | [], _ => Memory.unlisted
  | c :: m, a => if c.1 = a then c.2 else Memory.read m a

/-- `x[a] <- v`, keeping the canonical form: addresses rising, no byte equal to the unlisted one. -/
def Memory.write : Memory → Nat → Byte → Memory
  | [], a, v => if v = Memory.unlisted then [] else [(a, v)]
  | c :: m, a, v =>
    if a < c.1 then (if v = Memory.unlisted then c :: m else (a, v) :: c :: m)
    else if a = c.1 then (if v = Memory.unlisted then m else (a, v) :: m)
    else c :: Memory.write m a v

/-- The canonical form: addresses strictly rising, every entry a register of rule R21, no entry equal
to what an unlisted address reads as. -/
abbrev Memory.wf (m : Memory) : Prop :=
  m.Pairwise (fun c d => c.1 < d.1) ∧ ∀ c ∈ m, isRegister c.1 = true ∧ c.2 ≠ Memory.unlisted

/-! ## Ports and positions (rules R25, R37, R90) -/

/-- The state of a port. -/
def State.port (s : State) : PortId → Port
  | .host => s.hostPort
  | .aux k => s.auxPorts.getD k Port.idle

/-- The state with one port replaced. -/
def State.setPort (s : State) (p : PortId) (q : Port) : State :=
  match p with
  | .host => { s with hostPort := q }
  | .aux k => { s with auxPorts := s.auxPorts.set k q }

/-- The payload of the command a port presented: the host's queue (rule R37), or what came with the
auxiliary command (rules R90, R255). -/
def State.payloadOf (s : State) : PortId → List Byte
  | .host => s.payload
  | .aux _ => s.given

/-- Whether a port exists: there are `N_AUX` auxiliary ones (rule R256). -/
def State.hasPort (s : State) : PortId → Bool
  | .host => true
  | .aux k => decide (k < s.auxPorts.length)

/-- An agent's sequencer. -/
def State.seqOf (s : State) : AgentId → Sequencer
  | .port p => (s.port p).seq
  | .dispatcher => s.disp
  | .task => s.task

/-- The state with an agent's sequencer replaced. -/
def State.setSeq (s : State) (a : AgentId) (q : Sequencer) : State :=
  match a with
  | .port p => s.setPort p { s.port p with seq := q }
  | .dispatcher => { s with disp := q }
  | .task => { s with task := q }

/-- The statements an agent still has to execute. -/
def State.pos (s : State) (a : AgentId) : List Stmt := (s.seqOf a).pos

/-- The state with an agent's position replaced. -/
def State.setPos (s : State) (a : AgentId) (k : List Stmt) : State :=
  s.setSeq a { s.seqOf a with pos := k }

/-- An agent inside no operation (rule R25). -/
def State.idle (s : State) (a : AgentId) : Bool := (s.pos a).isEmpty

/-- The address of a register DDC_ABORT saves (rule R145). -/
def saveAddr (c : Params) : SaveReg → Nat
  | .swrst => c.rst.swrstAddr
  | .hdcp => c.rst.hdcpAddr
  | .ddcm => c.ddc.ddcmAddr

/-- The save latches with one written (rule R35). -/
def SaveLatches.put (l : SaveLatches) (r : SaveReg) (v : Byte) : SaveLatches :=
  match r with
  | .swrst => { l with swrst := v }
  | .hdcp => { l with hdcp := v }
  | .ddcm => { l with ddcm := v }

/-- The state with one save latch of an agent written. -/
def State.save (s : State) (a : AgentId) (r : SaveReg) (v : Byte) : State :=
  s.setSeq a { s.seqOf a with sav := SaveLatches.put (s.seqOf a).sav r v }

/-! ## The environment's draws (rule R15) -/

/-- Whether the coming bus transaction fails (rule R69, U4; log entry 4). -/
def Env.nextFails (e : Env) : Bool := e.fails.headD false

/-- The environment after one bus transaction has drawn its outcome. -/
def Env.afterTransaction (e : Env) : Env := { e with fails := e.fails.tail, draws := e.draws + 1 }

/-- The script's first answer for a register, else a free byte (rule R73; log entry 3). -/
def Env.answer (e : Env) (a : Nat) : Byte :=
  match e.answers.find? (fun p => decide (p.1 = a)) with
  | some p => p.2
  | none => Config.freeByte e.draws

/-- The environment after a read took the register's first answer. -/
def Env.consume (e : Env) (a : Nat) : Env :=
  { e with answers := e.answers.eraseP (fun p => decide (p.1 = a)) }

/-- The state with a transaction appended to the bus log. -/
def State.logBus (s : State) (op : BusOp) : State := { s with bus := op :: s.bus }

/-- The state with an output event appended. -/
def State.emit (s : State) (ev : Event) : State := { s with events := ev :: s.events }

/-! ## Bus transactions (rules R69 to R77) -/

/-- The outcome of a piece of a primitive: a value, an error raised (rule R240), or no meaning. -/
inductive PRes (α : Type) where
  | ok (v : α) (s : State)
  | err (e : Status) (s : State)
  | stop (r : Refusal)
deriving Repr

/-- Sequencing: what follows a piece that gave a value. -/
def PRes.bind {α β : Type} (r : PRes α) (k : α → State → PRes β) : PRes β :=
  match r with
  | .ok v s => k v s
  | .err e s => .err e s
  | .stop x => .stop x

/-- The bank a byte written to `BANKSEL_ADDR` selects; any other byte leaves a free one (rule R74). -/
def bankOf (c : BankParams) (v : Byte) (free : Bank) : Bank :=
  if v = c.b0 then .bank0 else if v = c.b1 then .bank1 else free

/-- One byte of a write at a window offset: the bank-select register (rule R74), a plain register
(rule R72), or a register whose write acts on the environment alone (rules R71, R75, R76). -/
def storeByte (c : Params) (free : Bank) (off : Nat) (v : Byte) (st : Memory × Bank) :
    Memory × Bank :=
  match target st.2 off with
  | none => st
  | some a =>
    if a = c.bank.addr then (st.1.write a v, bankOf c.bank v free)
    else if isPlain c a then (st.1.write a v, st.2)
    else st

/-- The bytes of a write or burst, ascending from a window offset (rule R69). -/
def storeBytes (c : Params) (free : Bank) : Nat → List Byte → Memory × Bank → Memory × Bank
  | _, [], st => st
  | off, b :: bs, st => storeBytes c free (off + 1) bs (storeByte c free off b st)

/-- Whether every byte of a write or burst reaches a register of the model (rule R74, U9). -/
def reachesAll (c : Params) (free : Bank) : Nat → List Byte → Memory × Bank → Bool
  | _, [], _ => true
  | off, b :: bs, st =>
    (target st.2 off).isSome && reachesAll c free (off + 1) bs (storeByte c free off b st)

/-- Whether a write of `n` bytes at a window offset covers the bank-select register. -/
def coversBanksel (c : Params) (off n : Nat) : Bool :=
  decide (off ≤ c.bank.addr ∧ c.bank.addr < off + n)

/-- The state after the target took `bytes` at a window offset. -/
def State.store (s : State) (free : Bank) (off : Nat) (bytes : List Byte) : State :=
  { s with
    x := (storeBytes s.cfg free off bytes (s.x, s.hwBank)).1
    hwBank := (storeBytes s.cfg free off bytes (s.x, s.hwBank)).2 }

/-- The target after a FAILED write or burst: any number of the first bytes may have been stored, and
where the range covers the bank-select register the bank is free (rule R77; log entry 5). -/
def State.storeFailed (s : State) (free : Bank) (off : Nat) (bytes : List Byte) (taken : Nat) :
    State :=
  { s with
    x := (storeBytes s.cfg free off (bytes.take taken) (s.x, s.hwBank)).1
    hwBank :=
      if coversBanksel s.cfg off bytes.length then free
      else (storeBytes s.cfg free off (bytes.take taken) (s.x, s.hwBank)).2 }

/-- `BusWrite` or `BusBurst`, as the log records it: completes, or fails with `IoError` (rule R69). -/
def busOut (op : Bool → BusOp) (off : Nat) (bytes : List Byte) (s : State) : PRes Unit :=
  let free := Config.freeBank s.env.draws
  if reachesAll s.cfg free off bytes (s.x, s.hwBank) then
    if s.env.nextFails then
      .err .ioError
        ({ s.storeFailed free off bytes (Config.failTaken s.env.draws) with
            env := s.env.afterTransaction }.logBus (op false))
    else .ok () ({ s.store free off bytes with env := s.env.afterTransaction }.logBus (op true))
  else .stop .outsideWindow

/-- `BusWrite(off, v)` (rule R69). -/
def busWrite (off : Nat) (v : Byte) (s : State) : PRes Unit := busOut (.write off v) off [v] s

/-- `BusBurst(off, bytes)` (rule R69). -/
def busBurst (off : Nat) (bytes : List Byte) (s : State) : PRes Unit :=
  busOut (.burst off bytes) off bytes s

/-- Whether a read answers with a draw: the volatile registers (rule R73) and the write-triggered ones,
which are not plain (rule R72). -/
def readsDraw (c : Params) (a : Nat) : Bool := decide (a ≠ c.bank.addr) && !isPlain c a

/-- The value a completed read of a register returns (rules R72, R73). -/
def State.busValue (s : State) (a : Nat) : Byte :=
  if readsDraw s.cfg a then s.env.answer a else s.x.read a

/-- The environment after a completed read of a register: a draw was consumed (rule R73). -/
def State.envAfterRead (s : State) (a : Nat) : Env :=
  if readsDraw s.cfg a then (s.env.consume a).afterTransaction else s.env.afterTransaction

/-- The environment after a FAILED read: a FIFO read may have removed a byte (rule R77; log entry 5). -/
def State.envAfterFailedRead (s : State) (a : Nat) : Env :=
  { s.env.afterTransaction with
    answers :=
      if a = s.cfg.ddc.fifoAddr ∧ Config.failTaken s.env.draws ≠ 0 then (s.env.consume a).answers
      else s.env.answers }

/-- `BusRead(off)` (rule R69). -/
def busRead (off : Nat) (s : State) : PRes Byte :=
  match target s.hwBank off with
  | none => .stop .outsideWindow
  | some a =>
    if s.env.nextFails then
      .err .ioError ({ s with env := s.envAfterFailedRead a }.logBus (.read off none))
    else .ok (s.busValue a) ({ s with env := s.envAfterRead a }.logBus (.read off (some (s.busValue a))))

/-! ## The bank select and the prologue (rules R123, R124, R127) -/

/-- The byte a bank-select write carries (rule R124). -/
def selectByte (c : BankParams) : Bank → Byte
  | .bank0 => c.b0
  | .bank1 => c.b1

/-- `ctx.current_bank <- b`. -/
def State.setCurrentBank (s : State) (b : Bank) : State :=
  { s with ctx := { s.ctx with currentBank := b } }

/-- `BankSelect(need)`: one bus write; the shadow is updated only when it completed (rule R124). -/
def bankSelect (need : Bank) (s : State) : PRes Unit :=
  (busWrite s.cfg.bank.addr (selectByte s.cfg.bank need) s).bind fun _ s' =>
    .ok () (s'.setCurrentBank need)

/-- Selects the needed bank if it differs from the shadow (rules R24, R124). -/
def ensureBank (need : Option Bank) (s : State) : PRes Unit :=
  match need with
  | none => .ok () s
  | some b => if b = s.ctx.currentBank then .ok () s else bankSelect b s

/-- What `GAP_POLICY` makes of an access at a gap address: its bank and offset, or how it stops (rule
R127). -/
def gapAccess (addr : Nat) (s : State) : PRes (Option Bank × Nat) :=
  match s.cfg.gapPolicy with
  | .refuse => .stop .gapAddress
  | .invalidAddress => .err .invalidAddress s
  | .bank1Window => .ok (some .bank1, addr - b1LocalSub) s

/-- The bank and offset of a single access (rules R65, R123): the address check comes first. -/
def locate (addr : Nat) (s : State) : PRes (Option Bank × Nat) :=
  if addrLimit ≤ addr then .err .invalidAddress s
  else match translate addr with
    | some t => .ok t s
    | none => gapAccess addr s

/-- `Prologue(addr)`: the window offset, with the bank selected (rule R123). -/
def prologue (addr : Nat) (s : State) : PRes Nat :=
  (locate addr s).bind fun t s1 => (ensureBank t.1 s1).bind fun _ s2 => .ok t.2 s2

/-! ## The four primitives, with the lock held (rules R121, R122, R125, R128) -/

/-- RD inside the lock (rule R121). -/
def rdBody (addr : Nat) (s : State) : PRes Byte := (prologue addr s).bind busRead

/-- WR inside the lock (rule R122); a primitive without a value gives 0x00. -/
def wrBody (addr : Nat) (v : Byte) (s : State) : PRes Byte :=
  (prologue addr s).bind fun off s1 => (busWrite off v s1).bind fun _ s2 => .ok 0 s2

/-- UPD inside the lock: the write is always issued (rule R125). -/
def updBody (addr : Nat) (mask v : Byte) (s : State) : PRes Byte :=
  (prologue addr s).bind fun off s1 =>
    (busRead off s1).bind fun old s2 =>
      (busWrite off (updValue old mask v) s2).bind fun _ s3 => .ok 0 s3

/-- The bank and offset of a bulk range that passed its range checks (rules R127, R128, R132). -/
def locateBulk (addr n : Nat) (s : State) : PRes (Option Bank × Nat) :=
  if touchesGap addr n then
    match s.cfg.gapPolicy with
    | .refuse => .stop .gapAddress
    | .invalidAddress => .err .invalidAddress s
    | .bank1Window =>
      if b0End ≤ addr then .ok (some .bank1, addr - b1LocalSub) s else .stop .gapStraddle
  else match translate addr with
    | some t => .ok (bulkBank addr n t.1, t.2) s
    | none => gapAccess addr s

/-- BWR inside the lock (rules R128 to R132). -/
def bwrBody (addr : Nat) (bytes : List Byte) (s : State) : PRes Byte :=
  match rangeCheck addr bytes.length with
  | some e => .err e s
  | none =>
    if bytes.length = 0 then .ok 0 s
    else (locateBulk addr bytes.length s).bind fun t s1 =>
      (ensureBank t.1 s1).bind fun _ s2 => (busBurst t.2 bytes s2).bind fun _ s3 => .ok 0 s3

/-- The body of a primitive. -/
def primBody : Prim → State → PRes Byte
  | .rd addr => rdBody addr
  | .wr addr v => wrBody addr v
  | .upd addr mask v => updBody addr mask v
  | .bwr addr bytes => bwrBody addr bytes

/-! ## The lock (rules R28, R120) -/

/-- `ctx.lock <- l`. -/
def State.setLock (s : State) (l : Option AgentId) : State := { s with ctx := { s.ctx with lock := l } }

/-- The lock released, on success and on every error (rule R28). -/
def PRes.release {α : Type} : PRes α → PRes α
  | .ok v s => .ok v (s.setLock none)
  | .err e s => .err e (s.setLock none)
  | .stop r => .stop r

/-- A primitive by an agent: acquire the lock, run the body, release; `none` where the lock is held,
and the agent waits (rules R28, R120). -/
def runPrim (a : AgentId) (p : Prim) (s : State) : Option (PRes Byte) :=
  if s.ctx.lock.isSome then none else some (primBody p (s.setLock (some a))).release

/-! ## Ending an operation: responses and errors (rules R99, R240) -/

/-- The host's queue and response register after a command of a port ended: the host's command empties
`payload` and sets `resp`; no other port has either (rules R37, R104, R255). -/
def State.closeHost (s : State) (p : PortId) (r : Response) : State :=
  match p with
  | .host => { s with payload := [], resp := r }
  | .aux _ => s

/-- The response of a command is delivered on its port, which is idle again (rules R37, R90, R99,
R104, R255). -/
def State.respond (s : State) (p : PortId) (r : Response) : State :=
  ((s.setPort p { s.port p with seq := { (s.port p).seq with pos := [] } }).closeHost p r).emit
    (.resp p r)

/-- An operation ends at its outermost level: a response on a port; for the dispatcher and the task the
running flag falls and nobody is told (rules R240, R254). -/
def endOp (a : AgentId) (r : Response) (s : State) : State :=
  match a with
  | .port p => s.respond p r
  | .dispatcher => { s with dispRunning := false, disp := { s.disp with pos := [] } }
  | .task => { s with taskRunning := false, task := { s.task with pos := [] } }

/-- An agent goes on with statements `k`; an operation that has none left ends with OK. -/
def resumeWith (a : AgentId) (k : List Stmt) (s : State) : State :=
  if k.isEmpty then endOp a ⟨.ok, 0⟩ s else s.setPos a k

/-- What is left after the innermost absorbing invoker; `none` where nobody absorbs (rule R240). -/
def afterAbsorb : List Stmt → Option (List Stmt)
  | [] => none
  | .absorb :: k => some k
  | _ :: k => afterAbsorb k

/-- TAKING AN ERROR: `raise E` with statements `k` still to come. It ends the operation and every
invoker up to one that absorbs it, which goes on; at the outermost level it is delivered as the
response `(E, 0x00)`, or dropped as a log event. Nothing else happens (rule R240). -/
def raiseError (a : AgentId) (e : Status) (k : List Stmt) (s : State) : State :=
  match afterAbsorb k with
  | some k' => resumeWith a k' s
  | none => endOp a ⟨e, 0⟩ s

/-! ## Starting the internal operations (rules R190, R247, R253) -/

/-- ENTRY of the dispatcher: `disp_running` rises and the first statement is next; nothing is saved
(rules R170, R253). -/
def State.enterDispatch (s : State) (k : List Stmt) : State :=
  { s with dispRunning := true, disp := { s.disp with pos := k } }

/-- Step A of HPD_TASK: `task_running` rises and `hotplug_pending` falls in one step (rules R191,
R192). -/
def State.enterTask (s : State) (k : List Stmt) : State :=
  { s with
    taskRunning := true
    ctx := { s.ctx with hotplugPending := false }
    task := { s.task with pos := k } }

/-! ## Small writes of the sequences -/

/-- `ctx.need_csc <- b` (rule R223). -/
def State.setNeedCsc (s : State) (b : Bool) : State := { s with ctx := { s.ctx with needCsc := b } }

/-- `ctx.hotplug_pending <- true` (rule R181). -/
def State.setPending (s : State) : State := { s with ctx := { s.ctx with hotplugPending := true } }

/-- Step C of HPD_TASK: the status becomes the one read, and a change emits one notification (rules
R191, R194). -/
def State.updateConnector (s : State) (new : ConnStatus) : State :=
  { s with
    ctx := { s.ctx with connectorStatus := new }
    events := if new = s.ctx.connectorStatus then s.events else .notify new :: s.events }

/-- The effect of LDM (rule R206). -/
def State.loadLatch (s : State) (sel : LatchSel) (value : BitVec 24) : State :=
  match sel with
  | .dmWidth => { s with latches := { s.latches with dmWidth := value.setWidth 16 } }
  | .dmHeight => { s with latches := { s.latches with dmHeight := value.setWidth 16 } }
  | .dmClockKhz => { s with latches := { s.latches with dmClockKhz := value } }
  | .dmPixrep => { s with latches := { s.latches with dmPixrep := value.setWidth 8 } }
  | .dmRefresh => { s with latches := { s.latches with dmRefresh := value.setWidth 8 } }
  | .dmProgressive => { s with latches := { s.latches with dmProgressive := value.setWidth 1 } }
  | .cfgInMode => { s with latches := { s.latches with cfgInMode := colorModeOf value.toNat } }
  | .cfgOutMode => { s with latches := { s.latches with cfgOutMode := colorModeOf value.toNat } }
  | .dviMode => { s with ctx := { s.ctx with dviMode := decide (value.toNat = 1) } }

end Sys2Proof.Machine
end

