-- ==== Sys2Proof/Machine/Sequencer.lean ====
section
/-! DEFINITION. The sequencers: what one pseudocode statement of a composite operation does (rules
R141 to R156, R170 to R182, R191, R207 to R227), one step of an agent, and the run of an agent until
its operation ends or another turn is scheduled.

A statement runs AT MOST ONE primitive, and a primitive is one step: between any two statements every
other agent may move (rules R78, R80). -/

namespace Sys2Proof.Machine

/-- What one statement does: it is replaced by `push` (nothing, or the statements it unfolds to), it
returns, it raises, its agent waits for the lock, or the step has no meaning. -/
inductive StepRes where
  | go (push : List Stmt) (s : State)
  | ret (r : Response) (s : State)
  | raise (e : Status) (s : State)
  | wait
  | stop (r : Refusal)
deriving Repr

/-- A primitive invoked by a statement, with what follows its value and its error. -/
def withPrim (a : AgentId) (p : Prim) (s : State) (k : Byte → State → StepRes)
    (h : Status → State → StepRes) : StepRes :=
  match runPrim a p s with
  | none => .wait
  | some (.ok v s') => k v s'
  | some (.err e s') => h e s'
  | some (.stop r) => .stop r

/-- A primitive whose error propagates (rule R240). -/
def callPrim (a : AgentId) (p : Prim) (s : State) (k : Byte → State → StepRes) : StepRes :=
  withPrim a p s k .raise

/-! ## DDC engine (rules R141 to R156) -/

/-- `FifoClear()` (rule R142). -/
def fifoClear (c : Params) : Prim := .wr c.ddc.cmdAddr c.ddc.cmdFifoClr

/-- The abort sequence (rule R145). -/
def abortProgram (c : Params) : List Stmt :=
  [.save .swrst, .save .hdcp, .save .ddcm, .prim (.wr c.ddc.ddcmAddr c.ddc.ddcmHost),
    .abortIter abortIters false]

/-- One iteration of the abort sequence, or its end (rules R145, R147). -/
def stepAbortIter (left : Nat) (anyDone : Bool) (s : State) : StepRes :=
  match left with
  | 0 => if anyDone then .go [] s else .raise .protocolError s
  | left + 1 =>
    .go [.prim (.wr s.cfg.ddc.cmdAddr s.cfg.ddc.cmdAbort), .poll (.abort left anyDone) pollAbort] s

/-- What a call site does with the result of its `Poll` (rules R145, R150, R153). -/
def afterPoll (c : Params) : PollUse → PollResult → List Stmt
  | .abort left _, .done => [.abortIter left true]
  | .abort left d, .error _ => [.abortIter left d]
  | .abort left d, .exhausted => [.abortIter left d]
  | .pre, .done => []
  | .pre, .error _ => [.tryPrim (fifoClear c), .fail .protocolError]
  | .pre, .exhausted => [.fail .protocolTimeout]
  | .post, .done => []
  | .post, .error _ => [.fail .protocolError]
  | .post, .exhausted => [.fail .protocolTimeout]

/-- One sample of `Poll` with `left` samples still allowed (rule R141). -/
def stepPoll (a : AgentId) (use : PollUse) (left : Nat) (s : State) : StepRes :=
  match left with
  | 0 => .go (afterPoll s.cfg use .exhausted) s
  | left + 1 =>
    callPrim a (.rd s.cfg.ddc.statAddr) s fun v s' =>
      match pollSample s'.cfg.ddc v with
      | .error bits => .go (afterPoll s'.cfg use (.error bits)) s'
      | .done => .go (afterPoll s'.cfg use .done) s'
      | .undecided =>
        if left = 0 then .go (afterPoll s'.cfg use .exhausted) s' else .go [.poll use left] s'

/-- One chunk of RDBLK up to its first primitive (rule R150). -/
def chunkProgram (d : DdcParams) (segment offset remaining : Nat) : List Stmt :=
  [.prim (.wr d.cmdAddr d.cmdFifoClr), .poll .pre pollPre,
    .prim (.wr d.hdrAddr d.hdrEdid), .prim (.wr d.offAddr (BitVec.ofNat 8 offset)),
    .prim (.wr d.cntAddr (BitVec.ofNat 8 (chunkSize remaining))),
    .prim (.wr d.segAddr (BitVec.ofNat 8 segment)), .prim (.wr d.cmdAddr d.cmdRead),
    .poll .post pollRead, .drain (chunkSize remaining),
    .chunk segment (offset + chunkSize remaining) (remaining - chunkSize remaining)]

/-- The chunk loop of RDBLK (rule R150). -/
def stepChunk (segment offset remaining : Nat) (s : State) : StepRes :=
  if remaining = 0 then .go [] s else .go (chunkProgram s.cfg.ddc segment offset remaining) s

/-- One FIFO read of RDBLK (rule R150). -/
def stepDrain (a : AgentId) (left : Nat) (s : State) : StepRes :=
  match left with
  | 0 => .go [] s
  | left + 1 =>
    callPrim a (.rd s.cfg.ddc.fifoAddr) s fun v s' =>
      .go (if left = 0 then [] else [.drain left]) { s' with result := s'.result ++ [v] }

/-- The start of RDBLK (rules R150, R152). -/
def stepRdblk (block length : Nat) (s : State) : StepRes :=
  .go [.hangCheck, .prim (fifoClear s.cfg), .chunk (edidSegment block) (edidOffset block length) length]
    { s with result := [] }

/-- The entry check of RDBLK (rules R143, R150). -/
def stepHangCheck (a : AgentId) (s : State) : StepRes :=
  callPrim a (.rd (s.cfg.irq.statAddr.get (s.cfg.irq.clearMap.row .busHang).group)) s fun v s' =>
    .go (if hangBit s'.cfg.irq v then abortProgram s'.cfg else []) s'

/-- One save of the abort sequence (rule R145). -/
def stepSave (a : AgentId) (r : SaveReg) (s : State) : StepRes :=
  callPrim a (.rd (saveAddr s.cfg r)) s fun v s' => .go [] (s'.save a r v)

/-! ## Interrupt dispatcher (rules R170 to R182) -/

/-- IRQ_DISPATCH (rule R170). -/
def dispatchProgram (c : Params) : List Stmt :=
  groupOrder.map .snapRead ++ clearOrder.map .clearRow
    ++ [.extClear, .tryPrim (.upd c.irq.ackAddr c.irq.ackBit c.irq.ackBit),
      .tryPrim (.upd c.irq.ackAddr c.irq.ackBit 0)]
    ++ handlerOrder.map .handler ++ [.close]

/-- One status read of the snapshot; a failed one counts as 0x00 (rule R172). -/
def stepSnapRead (a : AgentId) (g : Group) (s : State) : StepRes :=
  withPrim a (.rd (s.cfg.irq.statAddr.get g)) s
    (fun v s' => .go [] { s' with snap := s'.snap.set g v })
    (fun _ s' => .go [] { s' with snap := s'.snap.set g 0 })

/-- One row of the clear loop (rule R173). -/
def stepClearRow (src : Source) (s : State) : StepRes :=
  .go
    (if asserted s.cfg.irq s.snap src then
      [.tryPrim (.wr (s.cfg.irq.clearMap.row src).clearRegister (s.cfg.irq.clearMap.row src).clearBit)]
    else [])
    s

/-- The ext self-clear, skipped for 0x00 (rule R174). -/
def stepExtClear (s : State) : StepRes :=
  .go (if s.snap.ext = 0 then [] else [.tryPrim (.wr s.cfg.irq.statAddr.ext s.snap.ext)]) s

/-- The statements of a handler whose source was asserted (rules R177 to R180); the hotplug handler
runs none (rule R181). -/
def handlerProgram (c : Params) : Handler → List Stmt
  | .fifoError => [.tryPrim (fifoClear c)]
  | .busHang => abortProgram c ++ [.absorb]
  | .audioOverflow =>
    [.tryPrim (.upd c.rst.swrstAddr c.rst.swrstAudFifo c.rst.swrstAudFifo),
      .tryPrim (.upd c.rst.swrstAddr c.rst.swrstAudFifo 0)]
  | .videoStable => [.tryPrim (.rd c.irq.vidStableAddr)]
  | .hotplug => []

/-- One handler (rules R176 to R181). -/
def stepHandler (h : Handler) (s : State) : StepRes :=
  if asserted s.cfg.irq s.snap (handlerSource h) then
    .go (handlerProgram s.cfg h) (if h = .hotplug then s.setPending else s)
  else .go [] s

/-! ## Hotplug task (rule R191) -/

/-- Steps B, C and D of HPD_TASK. -/
def taskProgram : List Stmt := [.hpdRead, .close]

/-- Step B: a failed read changes nothing (rule R196). -/
def stepHpdRead (a : AgentId) (s : State) : StepRes :=
  withPrim a (.rd s.cfg.irq.hpdDetAddr) s
    (fun v s' => .go [.hpdUpdate (hpdLevel s'.cfg.irq v)] s') (fun _ s' => .go [] s')

/-! ## Bridge sequencer (rules R207 to R227) -/

/-- The mode bit: set for HDMI, cleared for DVI (rule R207). -/
def stepModeBit (a : AgentId) (s : State) : StepRes :=
  callPrim a
    (.upd s.cfg.bridge.hdmiModeAddr s.cfg.bridge.hdmiModeBit
      (if s.ctx.dviMode then 0 else s.cfg.bridge.hdmiModeBit))
    s fun _ s' => .go [] s'

/-- MODE_SET: the mode bit, the two bursts, the checksum, VID_EN (rules R208, R209). -/
def modeSetProgram (b : BridgeParams) (csum : Byte) (d : List Byte) : List Stmt :=
  [.modeBit, .prim (.bwr b.aviAAddr (d.take ifSplit))]
    ++ (if ifSplit < d.length then [.prim (.bwr b.aviBAddr (d.drop ifSplit))] else [])
    ++ [.prim (.wr b.aviCsumAddr csum), .vidEn]

/-- The AFE updates of VID_EN, in table order (rule R217). -/
def afeProgram (b : BridgeParams) (high : Bool) : List Stmt :=
  b.afeTable.map fun r => .prim (.upd r.addr r.mask (if high then r.valHigh else r.valLow))

/-- VID_EN: the three derivations are made at its start (rule R212). -/
def stepVidEn (s : State) : StepRes :=
  .go
    ([.inMode, .csc (deriveColorimetry s.latches) (limitedRange s.latches)]
      ++ afeProgram s.cfg.bridge (highClock s.latches))
    s

/-- The input mode (rule R216). -/
def stepInMode (a : AgentId) (s : State) : StepRes :=
  callPrim a
    (.upd s.cfg.bridge.inModeAddr s.cfg.bridge.inModeMask
      (s.cfg.bridge.inModeEnc.get s.latches.cfgInMode))
    s fun _ s' => .go [] s'

/-- CSC_CFG with its two colour modes read (rules R218 to R223). -/
def cscProgram (b : BridgeParams) (inMode outMode : ColorMode) (c : Colorimetry) (limited : Bool) :
    List Stmt :=
  (match cscMatrix b (cscOp inMode outMode) c limited with
    | some m => [.prim (.bwr b.cscCoefAddr m)]
    | none => [])
    ++ [.prim (.upd b.cscCtrlAddr b.cscCtrlMask (cscCtrl b inMode outMode)),
      .setNeedCsc (decide (cscOp inMode outMode ≠ .bypass))]

/-- CSC_CFG (rule R218). -/
def stepCsc (c : Colorimetry) (limited : Bool) (s : State) : StepRes :=
  .go (cscProgram s.cfg.bridge s.latches.cfgInMode s.latches.cfgOutMode c limited) s

/-- The CSC clock gate, touched only if `need_csc` (rules R226, R227). -/
def stepGate (a : AgentId) (off : Bool) (s : State) : StepRes :=
  if s.ctx.needCsc then
    callPrim a
      (.upd s.cfg.bridge.clkgateAddr s.cfg.bridge.clkgateCsc
        (if off then s.cfg.bridge.clkgateCsc else 0))
      s fun _ s' => .go [] s'
  else .go [] s

/-- BR_ENABLE (rule R226). -/
def enableProgram (c : Params) : List Stmt :=
  [.gate false,
    .prim (.upd c.bridge.aviCtrlAddr (c.bridge.aviEn ||| c.bridge.aviRpt)
      (c.bridge.aviEn ||| c.bridge.aviRpt)),
    .prim (.upd c.rst.swrstAddr c.rst.swrstVid 0)]

/-- BR_DISABLE (rule R227). -/
def disableProgram (c : Params) : List Stmt :=
  [.gate true, .prim (.upd c.bridge.aviCtrlAddr (c.bridge.aviEn ||| c.bridge.aviRpt) 0),
    .prim (.upd c.rst.swrstAddr c.rst.swrstVid c.rst.swrstVid)]

/-! ## One statement, one step, one run -/

/-- What one statement of an agent does. -/
def stmtStep (a : AgentId) (m : Stmt) (s : State) : StepRes :=
  match m with
  | .rdReturn addr => callPrim a (.rd addr) s fun v s' => .ret ⟨.ok, v⟩ s'
  | .prim p => callPrim a p s fun _ s' => .go [] s'
  | .tryPrim p => withPrim a p s (fun _ s' => .go [] s') (fun _ s' => .go [] s')
  | .fail e => .raise e s
  | .absorb => .go [] s
  | .close => .go [] s
  | .load sel value => .go [] (s.loadLatch sel value)
  | .rdblk block length => stepRdblk block length s
  | .hangCheck => stepHangCheck a s
  | .chunk segment offset remaining => stepChunk segment offset remaining s
  | .poll use left => stepPoll a use left s
  | .drain left => stepDrain a left s
  | .save r => stepSave a r s
  | .abortIter left anyDone => stepAbortIter left anyDone s
  | .snapRead g => stepSnapRead a g s
  | .clearRow src => stepClearRow src s
  | .extClear => stepExtClear s
  | .handler h => stepHandler h s
  | .hpdRead => stepHpdRead a s
  | .hpdUpdate present => .go [] (s.updateConnector (connOf present))
  | .modeBit => stepModeBit a s
  | .vidEn => stepVidEn s
  | .inMode => stepInMode a s
  | .csc c limited => stepCsc c limited s
  | .setNeedCsc b => .go [] (s.setNeedCsc b)
  | .gate off => stepGate a off s

/-- What an agent's state becomes when its current statement did something and `k` was to come. -/
def settle (a : AgentId) (k : List Stmt) (s : State) : StepRes → Host.Outcome State Fault Refusal
  | .go push s' => .next (resumeWith a (push ++ k) s')
  | .ret r s' => .next (endOp a r s')
  | .raise e s' => .next (raiseError a e k s')
  | .wait => .next s
  | .stop r => .refused r

/-- One step of an agent: its next statement; an idle agent has no step (rules R25, R28). -/
def tick (a : AgentId) (s : State) : Host.Outcome State Fault Refusal :=
  match s.pos a with
  | [] => .next s
  | m :: k => settle a k s (stmtStep a m s)

/-- Whether an agent's run goes on: its operation has not ended, no other turn is scheduled, and the
lock is free. -/
def goesOn (a : AgentId) (s : State) : Bool :=
  !s.idle a && s.env.sched.isEmpty && s.ctx.lock.isNone

/-- An agent steps until its operation ends or another turn is scheduled, at most `n` statements. -/
def drive (a : AgentId) : Nat → State → Host.Outcome State Fault Refusal
  | 0, s => .next s
  | n + 1, s =>
    match tick a s with
    | .next s' => if goesOn a s' then drive a n s' else .next s'
    | .fault r => .fault r
    | .refused r => .refused r

/-- More statements than any operation has (rule R155 bounds the primitives by 2364); an agent stopped
here would go on in the next step. -/
def driveBound (c : Params) : Nat := 3000 + c.bridge.afeTable.length

/-- The run of an agent from its present position. -/
def runAgent (a : AgentId) (s : State) : Host.Outcome State Fault Refusal :=
  drive a (driveBound s.cfg) s

/-! ## Starting operations -/

/-- The step that starts an internal operation is an atomic step of its own (rule R191, step A; rules
R170, R253): where another turn is scheduled nothing more happens in it, else the run goes on. -/
def startInternal (a : AgentId) (s : State) : Host.Outcome State Fault Refusal :=
  if goesOn a s then runAgent a s else .next s

/-- A command of a port that fails rule R100: no effect but the response and the emptied payload. -/
def illegalCommand (p : PortId) (s : State) : State := s.respond p ⟨.illegalCommand, 0⟩

/-- A command of the active port, with the statements of its operation. A port inside an operation does
not accept one (rule R90); one that fails the checks of rule R100 is illegal. -/
def command (i : Instr) (program : List Stmt) (s : State) : Host.Outcome State Fault Refusal :=
  if s.idle (.port s.active) then
    if legalCommand i (decide (s.active = .host)) (s.payloadOf s.active) then
      runAgent (.port s.active) (s.setPos (.port s.active) program)
    else .next (illegalCommand s.active s)
  else .next s

end Sys2Proof.Machine
end

