-- ==== Sys2Proof/Machine/Bridge.lean ====
section
/-! DEFINITION. The bridge mode-set sequencer: LDM, MODE_SET, VID_EN, CSC_CFG, BR_ENABLE, BR_DISABLE
(rules R205 to R229). -/

namespace Sys2Proof.Machine

/-- LDM: no lock, no bus transaction (rule R206). -/
def execLdm (sel : LatchSel) (value : BitVec 24) (s : State) : Host.Outcome State Fault Refusal :=
  command (.ldm sel value) [.load sel value] s

/-- MODE_SET: the infoframe bytes are the active port's payload (rule R208). -/
def execModeSet (len : BitVec 8) (csum : Byte) (s : State) : Host.Outcome State Fault Refusal :=
  command (.modeSet len csum) (modeSetProgram s.cfg.bridge csum (s.payloadOf s.active)) s

/-- VID_EN (rule R212). -/
def execVidEn (s : State) : Host.Outcome State Fault Refusal := command .vidEn [.vidEn] s

/-- CSC_CFG with the operands of its word (rule R218). -/
def execCscCfg (c : Colorimetry) (limited : Bool) (s : State) :
    Host.Outcome State Fault Refusal :=
  command (.cscCfg c limited) [.csc c limited] s

/-- BR_ENABLE (rule R226). -/
def execBrEnable (s : State) : Host.Outcome State Fault Refusal :=
  command .brEnable (enableProgram s.cfg) s

/-- BR_DISABLE (rule R227). -/
def execBrDisable (s : State) : Host.Outcome State Fault Refusal :=
  command .brDisable (disableProgram s.cfg) s

end Sys2Proof.Machine
end

