-- ==== Sys2Proof/Machine/Ddc.lean ====
section
/-! DEFINITION. The DDC/EDID FIFO protocol engine: DDC_ABORT and RDBLK as commands (rules R140 to
R157). -/

namespace Sys2Proof.Machine

/-- DDC_ABORT (rule R145). -/
def execDdcAbort (s : State) : Host.Outcome State Fault Refusal :=
  command .ddcAbort (abortProgram s.cfg) s

/-- RDBLK (rule R150). -/
def execRdblk (block : BitVec 8) (length : BitVec 16) (s : State) :
    Host.Outcome State Fault Refusal :=
  command (.rdblk block length) [.rdblk block.toNat length.toNat] s

end Sys2Proof.Machine
end

