-- ==== Sys2Proof/Machine/Hotplug.lean ====
section
/-! DEFINITION. The hotplug state machine: HPD_TASK (rules R190 to R198). -/

namespace Sys2Proof.Machine

/-- HPD_TASK, in the task executor; at most one run at a time (rules R190, R191). -/
def execHpdTask (s : State) : Host.Outcome State Fault Refusal :=
  if s.taskRunning || !s.idle .task then .next s
  else startInternal .task (s.enterTask taskProgram)

end Sys2Proof.Machine
end

