-- ==== Sys2Proof/Machine/Irq.lean ====
section
/-! DEFINITION. The interrupt status dispatcher: IRQ_DISPATCH (rules R170 to R185). -/

namespace Sys2Proof.Machine

/-- IRQ_DISPATCH, in the dispatcher context; no dispatch starts while one runs (rules R170, R249). -/
def execIrqDispatch (s : State) : Host.Outcome State Fault Refusal :=
  if s.dispRunning || !s.idle .dispatcher then .next s
  else startInternal .dispatcher (s.enterDispatch (dispatchProgram s.cfg))

end Sys2Proof.Machine
end

