-- ==== Sys2Proof/Machine/RegAccess.lean ====
section
/-! DEFINITION. The register access primitives RD, WR, UPD, BWR as commands (rules R120 to R134). -/

namespace Sys2Proof.Machine

/-- RD (rule R121). -/
def execRd (addr : BitVec 12) (s : State) : Host.Outcome State Fault Refusal :=
  command (.rd addr) [.rdReturn addr.toNat] s

/-- WR (rule R122). -/
def execWr (addr : BitVec 12) (val : Byte) (s : State) : Host.Outcome State Fault Refusal :=
  command (.wr addr val) [.prim (.wr addr.toNat val)] s

/-- UPD (rule R125). -/
def execUpd (addr : BitVec 12) (mask val : Byte) (s : State) : Host.Outcome State Fault Refusal :=
  command (.upd addr mask val) [.prim (.upd addr.toNat mask val)] s

/-- BWR: the bytes are the active port's payload (rules R104, R128). -/
def execBwr (addr : BitVec 12) (len : BitVec 16) (s : State) : Host.Outcome State Fault Refusal :=
  command (.bwr addr len) [.prim (.bwr addr.toNat (s.payloadOf s.active))] s

end Sys2Proof.Machine
end

