-- ==== Sys2Proof/Machine/Dispatch.lean ====
section
/-! DEFINITION. One arm per operation of rule R96, each one call of its meaning. -/

namespace Sys2Proof.Machine

def exec (i : Instr) (s : State) : Host.Outcome State Fault Refusal :=
  match i with
  | .rd addr => Sys2Proof.Machine.execRd addr s
  | .wr addr val => Sys2Proof.Machine.execWr addr val s
  | .upd addr mask val => Sys2Proof.Machine.execUpd addr mask val s
  | .bwr addr len => Sys2Proof.Machine.execBwr addr len s
  | .rdblk block length => Sys2Proof.Machine.execRdblk block length s
  | .ddcAbort => Sys2Proof.Machine.execDdcAbort s
  | .irqDispatch => Sys2Proof.Machine.execIrqDispatch s
  | .hpdTask => Sys2Proof.Machine.execHpdTask s
  | .ldm sel value => Sys2Proof.Machine.execLdm sel value s
  | .modeSet len csum => Sys2Proof.Machine.execModeSet len csum s
  | .vidEn => Sys2Proof.Machine.execVidEn s
  | .cscCfg colorimetry limited => Sys2Proof.Machine.execCscCfg colorimetry limited s
  | .brEnable => Sys2Proof.Machine.execBrEnable s
  | .brDisable => Sys2Proof.Machine.execBrDisable s

end Sys2Proof.Machine
end

