-- ==== Sys2Proof/Machine/Sched.lean ====
section
/-! DEFINITION. Which agent moves and what it starts: accepting a command at a port (rules R90, R100),
the two asynchronous starts (rules R108, R190, R247), the scheduler (rules R14, R28, R252), and how a
word is placed for the host's question about one instruction.

The machine has no program counter and no instruction memory (rule R25): what it runs next is the next
command presented at a port, an operation in progress, or an operation a trigger starts. -/

namespace Sys2Proof.Machine

/-! ## Starting (rules R90, R100, R108) -/

/-- The payload of an accepted command: the host's queue holds it (rule R37); an auxiliary port has no
queue, the payload came with the word (rules R90, R255). -/
def State.givePayload (s : State) (p : PortId) (bytes : List Byte) : State :=
  match p with
  | .host => { s with payload := bytes }
  | .aux _ => { s with given := bytes }

/-- A port takes a command with its payload and is the one being served (rules R90, R104). -/
def State.takeCommand (s : State) (p : PortId) (c : Command) (rest : List Command) : State :=
  { (s.setPort p { s.port p with inbox := rest }).givePayload p c.payload with active := p }

/-- The word of an accepted command is decoded and its operation started; the two internal operations
are illegal from every port (rules R100, R101). -/
def runCommand (p : PortId) (w : CmdWord) (s : State) : Host.Outcome State Fault Refusal :=
  match decode w with
  | .error _ => .next (illegalCommand p s)
  | .ok i => if hostMayStart i then exec i s else .next (illegalCommand p s)

/-- An idle port accepts the next command presented to it (rule R90). -/
def acceptCommand (p : PortId) (s : State) : Host.Outcome State Fault Refusal :=
  match (s.port p).inbox with
  | [] => .next s
  | c :: rest => runCommand p c.word (s.takeCommand p c rest)

/-- The trigger of the dispatcher (rule R247). -/
def dispatchTriggered (s : State) : Bool := s.irqLine && !s.dispRunning

/-- The trigger of the task executor (rules R190, R250). -/
def taskTriggered (s : State) : Bool := s.ctx.hotplugPending && !s.taskRunning

/-- What an idle agent starts. -/
def startAgent (a : AgentId) (s : State) : Host.Outcome State Fault Refusal :=
  match a with
  | .port p => acceptCommand p s
  | .dispatcher => if dispatchTriggered s then exec .irqDispatch s else .next s
  | .task => if taskTriggered s then exec .hpdTask s else .next s

/-- An agent's turn: it goes on with its operation, or starts one. -/
def serve (a : AgentId) (s : State) : Host.Outcome State Fault Refusal :=
  if s.idle a then startAgent a s else runAgent a s

/-! ## The scheduler (rules R14, R28, R252) -/

/-- Whether an idle agent has something to start. -/
def canStart (a : AgentId) (s : State) : Bool :=
  match a with
  | .port p => !(s.port p).inbox.isEmpty
  | .dispatcher => dispatchTriggered s
  | .task => taskTriggered s

/-- The agents of a state. -/
def State.agents (s : State) : List AgentId :=
  .port .host :: (List.range s.auxPorts.length).map (fun k => .port (.aux k)) ++ [.dispatcher, .task]

/-- The agents that have a step: those inside an operation and those with something to start. -/
def enabledAgents (s : State) : List AgentId :=
  s.agents.filter fun a => !s.idle a || canStart a s

/-- The state after a free value was drawn. -/
def State.drawn (s : State) : State := { s with env := { s.env with draws := s.env.draws + 1 } }

/-- The scheduler past its last given turn: nobody moves if nobody can, the one enabled agent moves if
there is one, and among several the choice is free (rules R28, R252, U12; log entry 8). -/
def freeTurn (s : State) : Host.Outcome State Fault Refusal :=
  match enabledAgents s with
  | [] => .next s
  | [a] => serve a s
  | a :: as => serve ((a :: as).getD (Config.freeChoice s.env.draws % (a :: as).length) a) s.drawn

/-- One given turn: an agent moves, the environment drives the interrupt line, or the device is
detached (rules R14, R36, R270). -/
def takeTurn (t : Turn) (s : State) : Host.Outcome State Fault Refusal :=
  match t with
  | .run a => serve a s
  | .irq level => .next { s with irqLine := level }
  | .detach => .fault .detached

/-- The state with the given turns still to come. -/
def State.setSched (s : State) (l : List Turn) : State := { s with env := { s.env with sched := l } }

/-- One step of the machine. -/
def advance (s : State) : Host.Outcome State Fault Refusal :=
  match s.env.sched with
  | [] => freeTurn s
  | t :: rest => takeTurn t (s.setSched rest)

/-! ## Placing one instruction (log entry 9) -/

/-- A host command placed at the head of what the host presents, on an idle host port, with the host's
turn next. -/
def State.placeHost (s : State) (c : Command) : State :=
  (s.setPort .host
    { s.hostPort with
      seq := { s.hostPort.seq with pos := [] }
      inbox := c :: s.hostPort.inbox }).setSched [.run (.port .host)]

/-- The trigger of the dispatcher set, with an idle dispatcher whose turn is next. -/
def State.placeDispatch (s : State) : State :=
  { s with irqLine := true, dispRunning := false, disp := { s.disp with pos := [] } }.setSched
    [.run .dispatcher]

/-- The trigger of the task executor set, with an idle executor whose turn is next. -/
def State.placeTask (s : State) : State :=
  { s with
    taskRunning := false
    ctx := { s.ctx with hotplugPending := true }
    task := { s.task with pos := [] } }.setSched [.run .task]

/-- One opcode-table word placed so that the very next step runs it: an internal operation by its
trigger, any other word as a host command with a payload of zeros of the length the word states. -/
def State.placeWord (s : State) (nbits w : Nat) : State :=
  match decodeTableWord nbits w with
  | some .irqDispatch => s.placeDispatch
  | some .hpdTask => s.placeTask
  | some i => s.placeHost ⟨BitVec.ofNat 32 w, List.replicate (payloadLength i) 0⟩
  | none => s.placeHost ⟨BitVec.ofNat 32 w, []⟩

end Sys2Proof.Machine
end

