-- ==== Sys2Proof/Machine/Step.lean ====
section
/-! DEFINITION. The step of the machine, and where the host places one instruction. -/

namespace Sys2Proof.Machine

/-- One step (rules R14, R90, R108): one turn of the scheduler. -/
def step (s : State) : Host.Outcome State Fault Refusal := advance s

/-- The state whose very next step runs the opcode-table word `w` (log entry 9). -/
def State.withFetchWord (s : State) (nbits w : Nat) : State := s.placeWord nbits w

end Sys2Proof.Machine
end

