-- ==== Sys2Proof/Safety.lean ====
section
/-! DEFINITION. The words the statements use: what a good state is, and what the rules say the effect
of an undisturbed primitive is, written from the rules and not from the meanings (rules R72 to R74,
R121 to R134). -/

namespace Sys2Proof.Machine

/-- A step or a meaning answers a next state with a property. -/
abbrev Nexts (o : Host.Outcome State Fault Refusal) (P : State → Prop) : Prop :=
  ∃ t, o = .next t ∧ P t

/-! ## Good states -/

/-- What every step keeps: the register file in canonical form with only the registers of rule R21; the
lock free between steps (rule R28: it is held only inside a primitive); the running flags up exactly
while the dispatcher and the task are inside a run (rules R34, R36, R249). -/
abbrev Settled (s : State) : Prop :=
  Memory.wf s.x ∧ s.ctx.lock = none ∧ s.dispRunning = !s.idle .dispatcher
    ∧ s.taskRunning = !s.idle .task

/-- No coming bus transaction fails (rule R69). -/
abbrev BusFine (s : State) : Prop := s.env.fails = []

/-- Nobody else moves while an operation runs: no turn is scheduled (rules R80, R279). -/
abbrev Alone (s : State) : Prop := s.env.sched = []

/-- The bank parameters meet PC1 and PC2, the shadow agrees with the downstream bank (rules R10, R27,
R84), and no coming transaction fails. -/
abbrev Fine (s : State) : Prop :=
  bankParamsOk s.cfg = true ∧ s.ctx.currentBank = s.hwBank ∧ BusFine s

/-- The port being served exists and is idle, its payload has the length the operation states, the
operation may be started there with its operands (rule R100), and the lock is free. -/
abbrev Ready (i : Instr) (s : State) : Prop :=
  s.hasPort s.active = true ∧ s.idle (.port s.active) = true ∧ s.ctx.lock = none
    ∧ legalCommand i (decide (s.active = .host)) (s.payloadOf s.active) = true

/-- A successful response with a data byte (rule R99). -/
def okResp (v : Byte) : Response := ⟨.ok, v⟩

/-! ## The effect of an undisturbed primitive, by the rules -/

/-- A completed bank-select write: the byte is in the register, the downstream bank and the shadow are
the bank selected, one transaction was issued (rules R39, R74, R124). -/
def State.afterSelect (s : State) (b : Bank) : State :=
  { s with
    x := s.x.write s.cfg.bank.addr (selectByte s.cfg.bank b)
    hwBank := b
    ctx := { s.ctx with currentBank := b }
    env := s.env.afterTransaction
    bus := .write s.cfg.bank.addr (selectByte s.cfg.bank b) true :: s.bus }

/-- The bank an access needs is selected, by one select if it differs from the shadow (rule R24). -/
def State.switched (s : State) (need : Option Bank) : State :=
  match need with
  | none => s
  | some b => if b = s.ctx.currentBank then s else s.afterSelect b

/-- One completed bus read of a register (rules R72, R73). -/
def State.didRead (s : State) (off a : Nat) : State :=
  { s with env := s.envAfterRead a, bus := .read off (some (s.busValue a)) :: s.bus }

/-- What one byte written to a register leaves in the register file (rules R39, R72). -/
def State.storedIn (s : State) (a : Nat) (v : Byte) : Memory :=
  if a = s.cfg.bank.addr ∨ isPlain s.cfg a = true then s.x.write a v else s.x

/-- One completed bus write of a register (rules R72, R74). -/
def State.didWrite (s : State) (off a : Nat) (v : Byte) : State :=
  { s with
    x := s.storedIn a v
    hwBank :=
      if a = s.cfg.bank.addr then bankOf s.cfg.bank v (Config.freeBank s.env.draws) else s.hwBank
    env := s.env.afterTransaction
    bus := .write off v true :: s.bus }

/-- The bank a flat address needs (rule R65). -/
def needOf (addr : Nat) : Option Bank := ((translate addr).getD (none, 0)).1

/-- The window offset of a flat address (rule R65). -/
def offOf (addr : Nat) : Nat := ((translate addr).getD (none, 0)).2

/-- A completed RD (rule R121). -/
def State.rdAt (s : State) (addr : Nat) : State :=
  (s.switched (needOf addr)).didRead (offOf addr) addr

/-- The byte a completed RD returns (rule R121). -/
def State.rdValue (s : State) (addr : Nat) : Byte := (s.switched (needOf addr)).busValue addr

/-- A completed WR (rule R122). -/
def State.wrAt (s : State) (addr : Nat) (v : Byte) : State :=
  (s.switched (needOf addr)).didWrite (offOf addr) addr v

/-- A completed UPD (rule R125). -/
def State.updAt (s : State) (addr : Nat) (mask v : Byte) : State :=
  (s.rdAt addr).didWrite (offOf addr) addr (updValue (s.rdValue addr) mask v)

/-- The register file after bytes were stored at ascending flat addresses, plain targets only (rules
R72, R128). -/
def storedList (c : Params) : Nat → List Byte → Memory → Memory
  | _, [], m => m
  | addr, b :: bs, m =>
    storedList c (addr + 1) bs (if isPlain c addr then m.write addr b else m)

/-- A completed BWR whose range does not cover the bank-select register (rules R128, R132, R134). -/
def State.bwrAt (s : State) (addr : Nat) (bytes : List Byte) : State :=
  let u := s.switched (bulkBank addr bytes.length (needOf addr))
  { u with
    x := storedList u.cfg addr bytes u.x
    env := u.env.afterTransaction
    bus := .burst (offOf addr) bytes true :: u.bus }

/-- What a completed primitive leaves (rules R121, R122, R125, R128). -/
def State.primAt (s : State) : Prim → State
  | .rd addr => s.rdAt addr
  | .wr addr v => s.wrAt addr v
  | .upd addr mask v => s.updAt addr mask v
  | .bwr addr bytes => s.bwrAt addr bytes

/-- The registers a primitive writes (rules R122, R125, R128). -/
def Prim.writes : Prim → Nat → Prop
  | .rd _, _ => False
  | .wr addr _, a => a = addr
  | .upd addr _ _, a => a = addr
  | .bwr addr bytes, a => addr ≤ a ∧ a < addr + bytes.length

/-- The state a primitive ended in, completed or failed. -/
def PRes.endState {α : Type} : PRes α → Option State
  | .ok _ s => some s
  | .err _ s => some s
  | .stop _ => none

/-! ## The effect of the bridge sequences, by the rules -/

/-- The clock gate step of BR_ENABLE and BR_DISABLE (rules R226, R227). -/
def State.gateAt (s : State) (v : Byte) : State :=
  if s.ctx.needCsc then s.updAt s.cfg.bridge.clkgateAddr s.cfg.bridge.clkgateCsc v else s

/-- BR_ENABLE (rule R226). -/
def State.enabledAt (s : State) : State :=
  ((s.gateAt 0).updAt s.cfg.bridge.aviCtrlAddr (s.cfg.bridge.aviEn ||| s.cfg.bridge.aviRpt)
    (s.cfg.bridge.aviEn ||| s.cfg.bridge.aviRpt)).updAt s.cfg.rst.swrstAddr s.cfg.rst.swrstVid 0

/-- BR_DISABLE (rule R227). -/
def State.disabledAt (s : State) : State :=
  ((s.gateAt s.cfg.bridge.clkgateCsc).updAt s.cfg.bridge.aviCtrlAddr
    (s.cfg.bridge.aviEn ||| s.cfg.bridge.aviRpt) 0).updAt s.cfg.rst.swrstAddr s.cfg.rst.swrstVid
    s.cfg.rst.swrstVid

/-- The `csc_op` table of rule R219: the diagonal and the two cells between YUV modes are Bypass, an RGB
input needs RGB2YUV, an RGB output YUV2RGB. -/
def cscCell (inMode outMode : ColorMode) : CscOp :=
  if inMode = outMode then .bypass
  else if inMode = .rgb444 then .rgb2yuv
  else if outMode = .rgb444 then .yuv2rgb
  else .bypass

/-- The matrix of one direction by the rule: ITU709 has its own, every other colorimetry uses ITU601
(rules R218, R220). -/
def matrixBy (m : MatrixSet) (c : Colorimetry) (limited : Bool) : List Byte :=
  if c = .itu709 then (if limited then m.itu709Limited else m.itu709Full)
  else (if limited then m.itu601Limited else m.itu601Full)

/-- What the matrix step of CSC_CFG writes, nothing for Bypass (rules R218, R220). -/
def matrixSteps (b : BridgeParams) (op : CscOp) (c : Colorimetry) (limited : Bool) : List Prim :=
  if op = .rgb2yuv then [.bwr b.cscCoefAddr (matrixBy b.matrixRgb2Yuv c limited)]
  else if op = .yuv2rgb then [.bwr b.cscCoefAddr (matrixBy b.matrixYuv2Rgb c limited)]
  else []

/-- The byte CSC_CFG puts into the `CSC_CTRL_MASK` bits: the operation's code and the pair's two flags
(rules R218, R221, R222). -/
def ctrlBy (b : BridgeParams) (inMode outMode : ColorMode) : Byte :=
  (if cscCell inMode outMode = .rgb2yuv then b.cscRgb2Yuv
    else if cscCell inMode outMode = .yuv2rgb then b.cscYuv2Rgb else b.cscBypass)
    ||| (if ((b.cscFlags.get inMode).get outMode).udfilt = true then b.cscUdfilt else 0)
    ||| (if ((b.cscFlags.get inMode).get outMode).dither = true then b.cscDither else 0)

/-- CSC_CFG (rule R218): the matrix, the control register, then `need_csc`. -/
def State.cscAt (s : State) (c : Colorimetry) (limited : Bool) : State :=
  (((matrixSteps s.cfg.bridge (cscCell s.latches.cfgInMode s.latches.cfgOutMode) c limited).foldl
      State.primAt s).updAt s.cfg.bridge.cscCtrlAddr s.cfg.bridge.cscCtrlMask
    (ctrlBy s.cfg.bridge s.latches.cfgInMode s.latches.cfgOutMode)).setNeedCsc
    (decide (cscCell s.latches.cfgInMode s.latches.cfgOutMode ≠ .bypass))

/-- The AFE updates, in table order (rule R217). -/
def State.afeAt (s : State) (high : Bool) (rows : List AfeRow) : State :=
  rows.foldl (fun u r => u.updAt r.addr r.mask (if high then r.valHigh else r.valLow)) s

/-- VID_EN (rule R212). -/
def State.vidAt (s : State) : State :=
  ((s.updAt s.cfg.bridge.inModeAddr s.cfg.bridge.inModeMask
    (s.cfg.bridge.inModeEnc.get s.latches.cfgInMode)).cscAt (deriveColorimetry s.latches)
    (limitedRange s.latches)).afeAt (highClock s.latches) s.cfg.bridge.afeTable

/-- The two infoframe bursts of MODE_SET (rules R208, R209). -/
def State.infoframeAt (s : State) (d : List Byte) : State :=
  if ifSplit < d.length then
    (s.bwrAt s.cfg.bridge.aviAAddr (d.take ifSplit)).bwrAt s.cfg.bridge.aviBAddr (d.drop ifSplit)
  else s.bwrAt s.cfg.bridge.aviAAddr (d.take ifSplit)

/-- MODE_SET (rule R208). -/
def State.modeSetAt (s : State) (csum : Byte) (d : List Byte) : State :=
  ((((s.updAt s.cfg.bridge.hdmiModeAddr s.cfg.bridge.hdmiModeBit
    (if s.ctx.dviMode then 0 else s.cfg.bridge.hdmiModeBit)).infoframeAt d).wrAt
    s.cfg.bridge.aviCsumAddr csum).vidAt)

/-! ## The bridge sequences as lists of steps, by the rules

What is done before an error stays done and what comes after it is not run (rules R210, R223), so the
sequences are also written as the steps they consist of. -/

/-- One step of a bridge sequence: a primitive, or the assignment of `need_csc`. -/
inductive BridgeStep where
  | prim (p : Prim)
  | needCsc (b : Bool)
deriving DecidableEq, Repr

/-- What a completed step leaves. -/
def State.bridgeStepAt (s : State) : BridgeStep → State
  | .prim p => s.primAt p
  | .needCsc b => s.setNeedCsc b

/-- The steps of BR_ENABLE and BR_DISABLE, by the values they force (rules R226, R227). -/
def toggleSteps (s : State) (gate avi vid : Byte) : List BridgeStep :=
  (if s.ctx.needCsc then [.prim (.upd s.cfg.bridge.clkgateAddr s.cfg.bridge.clkgateCsc gate)] else [])
    ++ [.prim (.upd s.cfg.bridge.aviCtrlAddr (s.cfg.bridge.aviEn ||| s.cfg.bridge.aviRpt) avi),
      .prim (.upd s.cfg.rst.swrstAddr s.cfg.rst.swrstVid vid)]

/-- The steps of CSC_CFG (rule R218). -/
def cscSteps (s : State) (c : Colorimetry) (limited : Bool) : List BridgeStep :=
  (matrixSteps s.cfg.bridge (cscCell s.latches.cfgInMode s.latches.cfgOutMode) c limited).map .prim
    ++ [.prim (.upd s.cfg.bridge.cscCtrlAddr s.cfg.bridge.cscCtrlMask
        (ctrlBy s.cfg.bridge s.latches.cfgInMode s.latches.cfgOutMode)),
      .needCsc (decide (cscCell s.latches.cfgInMode s.latches.cfgOutMode ≠ .bypass))]

/-- The steps of VID_EN (rule R212). -/
def vidSteps (s : State) : List BridgeStep :=
  .prim (.upd s.cfg.bridge.inModeAddr s.cfg.bridge.inModeMask
      (s.cfg.bridge.inModeEnc.get s.latches.cfgInMode))
    :: cscSteps s (deriveColorimetry s.latches) (limitedRange s.latches)
    ++ s.cfg.bridge.afeTable.map fun r =>
      .prim (.upd r.addr r.mask (if highClock s.latches then r.valHigh else r.valLow))

/-- The steps of MODE_SET on payload `d` (rules R207 to R209). -/
def modeSetSteps (s : State) (csum : Byte) (d : List Byte) : List BridgeStep :=
  [.prim (.upd s.cfg.bridge.hdmiModeAddr s.cfg.bridge.hdmiModeBit
      (if s.ctx.dviMode then 0 else s.cfg.bridge.hdmiModeBit)),
    .prim (.bwr s.cfg.bridge.aviAAddr (d.take 5))]
    ++ (if 5 < d.length then [.prim (.bwr s.cfg.bridge.aviBAddr (d.drop 5))] else [])
    ++ .prim (.wr s.cfg.bridge.aviCsumAddr csum) :: vidSteps s

/-- The steps of a bridge operation; none for any other (rules R208, R212, R218, R226, R227). -/
def bridgeSteps (s : State) : Instr → List BridgeStep
  | .modeSet _ csum => modeSetSteps s csum (s.payloadOf s.active)
  | .vidEn => vidSteps s
  | .cscCfg c limited => cscSteps s c limited
  | .brEnable =>
    toggleSteps s 0 (s.cfg.bridge.aviEn ||| s.cfg.bridge.aviRpt) 0
  | .brDisable => toggleSteps s s.cfg.bridge.clkgateCsc 0 s.cfg.rst.swrstVid
  | .rd _ => []
  | .wr _ _ => []
  | .upd _ _ _ => []
  | .bwr _ _ => []
  | .rdblk _ _ => []
  | .ddcAbort => []
  | .irqDispatch => []
  | .hpdTask => []
  | .ldm _ _ => []

/-- The parameter set meets PC1 to PC7 for the payload presented, and no bulk target of the bridge
sequencer covers `BANKSEL_ADDR` (rules R10, R275, R280). -/
abbrev TargetsOk (s : State) : Prop :=
  paramsOkFor s.cfg (s.payloadOf s.active).length = true ∧ bulksOffBanksel s.cfg = true
    ∧ offBanksel s.cfg s.cfg.bridge.aviBAddr ((s.payloadOf s.active).length - 5) = true

/-! ## The effect of the DDC operations, by the rules -/

/-- The error bits of a status byte (rules R8, R141). -/
def errorBits (d : DdcParams) (v : Byte) : Byte := v &&& (d.stNack ||| d.stWaitbus ||| d.stArblose)

/-- `Poll(n)`: an error bit ends it first, then the done bit; all other bits are ignored (rule R141). -/
def State.pollAt : Nat → State → PollResult × State
  | 0, s => (.exhausted, s)
  | n + 1, s =>
    if errorBits s.cfg.ddc (s.rdValue s.cfg.ddc.statAddr) ≠ 0 then
      (.error (errorBits s.cfg.ddc (s.rdValue s.cfg.ddc.statAddr)), s.rdAt s.cfg.ddc.statAddr)
    else if s.rdValue s.cfg.ddc.statAddr &&& s.cfg.ddc.stDone ≠ 0 then
      (.done, s.rdAt s.cfg.ddc.statAddr)
    else State.pollAt n (s.rdAt s.cfg.ddc.statAddr)

/-- One save of an agent: the register's byte goes to the latch (rules R35, R145). -/
def State.saveAt (s : State) (a : AgentId) (r : SaveReg) (addr : Nat) : State :=
  (s.rdAt addr).save a r (s.rdValue addr)

/-- One abort iteration: the command, then `Poll(200)` (rule R145). -/
def State.iterAt (s : State) : PollResult × State :=
  (s.wrAt s.cfg.ddc.cmdAddr s.cfg.ddc.cmdAbort).pollAt 200

/-- The start of DDC_ABORT by an agent: three saves, then the mastership write (rule R145). -/
def State.abortStart (a : AgentId) (s : State) : State :=
  (((s.saveAt a .swrst s.cfg.rst.swrstAddr).saveAt a .hdcp s.cfg.rst.hdcpAddr).saveAt a .ddcm
    s.cfg.ddc.ddcmAddr).wrAt s.cfg.ddc.ddcmAddr s.cfg.ddc.ddcmHost

/-- DDC_ABORT by an agent: whether one of its two polls ended Done, and the state (rules R145 to
R147). -/
def State.abortAt (a : AgentId) (s : State) : Bool × State :=
  let i := (s.abortStart a).iterAt
  (decide (i.1 = .done) || decide (i.2.iterAt.1 = .done), i.2.iterAt.2)

/-- The FIFO reads of one chunk, appended to `result` (rule R150). -/
def State.drainAt : Nat → State → State
  | 0, s => s
  | n + 1, s =>
    State.drainAt n { s.rdAt s.cfg.ddc.fifoAddr with
      result := s.result ++ [s.rdValue s.cfg.ddc.fifoAddr] }

/-- The chunk sizes of a block read: 32 bytes each except possibly the last (rule R152). -/
def chunkSizes (length : Nat) : List Nat :=
  List.replicate (length / 32) 32 ++ (if length % 32 = 0 then [] else [length % 32])

/-- The five writes that program and start one read command (rule R150). -/
def State.programAt (s : State) (segment offset n : Nat) : State :=
  ((((s.wrAt s.cfg.ddc.hdrAddr s.cfg.ddc.hdrEdid).wrAt s.cfg.ddc.offAddr (BitVec.ofNat 8 offset)).wrAt
    s.cfg.ddc.cntAddr (BitVec.ofNat 8 n)).wrAt s.cfg.ddc.segAddr (BitVec.ofNat 8 segment)).wrAt
    s.cfg.ddc.cmdAddr s.cfg.ddc.cmdRead

/-- One chunk of a block read and how it ends (rules R150, R153): an error bit before the command is
cleaned up by one more FIFO clear. -/
def State.chunkAt (s : State) (segment offset n : Nat) : Status × State :=
  let p := (s.wrAt s.cfg.ddc.cmdAddr s.cfg.ddc.cmdFifoClr).pollAt 200
  match p.1 with
  | .error _ => (.protocolError, p.2.wrAt s.cfg.ddc.cmdAddr s.cfg.ddc.cmdFifoClr)
  | .exhausted => (.protocolTimeout, p.2)
  | .done =>
    let q := (p.2.programAt segment offset n).pollAt 250
    match q.1 with
    | .error _ => (.protocolError, q.2)
    | .exhausted => (.protocolTimeout, q.2)
    | .done => (.ok, q.2.drainAt n)

/-- The chunks of a block read, up to the first that fails (rule R150). -/
def State.chunksAt (segment : Nat) : Nat → List Nat → State → Status × State
  | _, [], s => (.ok, s)
  | offset, n :: ns, s =>
    let r := s.chunkAt segment offset n
    if r.1 = .ok then State.chunksAt segment (offset + n) ns r.2 else r

/-- The register that shows the bus hang (rule R143). -/
def hangAddr (q : IrqParams) : Nat := q.statAddr.get q.clearMap.busHang.group

/-- The entry of RDBLK: the hang check, and DDC_ABORT where the bit is set; whether RDBLK goes on (rules
R143, R150). -/
def State.hangCheckedAt (s : State) : Bool × State :=
  if s.rdValue (hangAddr s.cfg.irq) &&& s.cfg.irq.clearMap.busHang.statusBit ≠ 0 then
    (s.rdAt (hangAddr s.cfg.irq)).abortAt (.port .host)
  else (true, s.rdAt (hangAddr s.cfg.irq))

/-- RDBLK by the host and how it ends (rules R150 to R153). -/
def State.rdblkAt (s : State) (block length : Nat) : Status × State :=
  let h := ({ s with result := [] } : State).hangCheckedAt
  if h.1 then
    (h.2.wrAt s.cfg.ddc.cmdAddr s.cfg.ddc.cmdFifoClr).chunksAt (block / 2) ((block % 2) * length)
      (chunkSizes length)
  else (.protocolError, h.2)

/-! ## The effect of the interrupt dispatcher, by the rules -/

/-- One status read of the snapshot (rule R172). -/
def State.snapReadAt (s : State) (g : Group) : State :=
  { s.rdAt (s.cfg.irq.statAddr.get g) with
    snap := s.snap.set g (s.rdValue (s.cfg.irq.statAddr.get g)) }

/-- The snapshot (rule R172). -/
def State.snapAt (s : State) : State :=
  (((s.snapReadAt .core).snapReadAt .stat0).snapReadAt .stat1).snapReadAt .ext

/-- Whether the snapshot held asserts the source of a row (rule R171). -/
def State.shows (s : State) (row : ClearRow) : Bool :=
  decide (s.snap.get row.group &&& row.statusBit ≠ 0)

/-- One row of the clear loop (rule R173). -/
def State.clearAt (s : State) (row : ClearRow) : State :=
  if s.shows row then s.wrAt row.clearRegister row.clearBit else s

/-- The clear loop, in row order, and the ext self-clear (rules R173, R174). -/
def State.clearsAt (s : State) : State :=
  let m := s.cfg.irq.clearMap
  let u := (((((s.clearAt m.hotplug).clearAt m.rxSense).clearAt m.fifoError).clearAt
    m.busHang).clearAt m.audioOverflow).clearAt m.videoStable
  if s.snap.ext = 0 then u else u.wrAt s.cfg.irq.statAddr.ext s.snap.ext

/-- A bit pulsed: set, then cleared (rules R175, R179). -/
def State.pulseAt (s : State) (addr : Nat) (bit : Byte) : State :=
  (s.updAt addr bit bit).updAt addr bit 0

/-- A handler that runs where the snapshot shows its source (rule R176). -/
def State.ifShown (s : State) (row : ClearRow) (f : State → State) : State :=
  if s.shows row then f s else s

/-- The handlers in their fixed order (rules R176 to R181). -/
def State.handlersAt (s : State) : State :=
  let c := s.cfg
  ((((s.ifShown c.irq.clearMap.fifoError fun u => u.wrAt c.ddc.cmdAddr c.ddc.cmdFifoClr).ifShown
      c.irq.clearMap.busHang fun u => (u.abortAt .dispatcher).2).ifShown
      c.irq.clearMap.audioOverflow fun u => u.pulseAt c.rst.swrstAddr c.rst.swrstAudFifo).ifShown
      c.irq.clearMap.videoStable fun u => u.rdAt c.irq.vidStableAddr).ifShown
      c.irq.clearMap.hotplug State.setPending

/-- IRQ_DISPATCH (rule R170). -/
def State.dispatchAt (s : State) : State :=
  (s.snapAt.clearsAt.pulseAt s.cfg.irq.ackAddr s.cfg.irq.ackBit).handlersAt

/-! ## The sequences whichever transactions fail, by the rules

Each primitive here is the machine's, with the lock held: its value, its error, or no meaning. What one
leaves that fails is what the statements about failed RD, WR, UPD and BWR commands say (rule R77). What
the sequence does next is written here from the rules. -/

/-- A primitive of an agent that finds the lock free (rules R28, R120). -/
def State.prim (s : State) (a : AgentId) (p : Prim) : PRes Byte :=
  (primBody p (s.setLock (some a))).release

/-- A primitive whose failure ends the operation with `IoError` (rules R148, R150). -/
def State.callRun (s : State) (a : AgentId) (p : Prim) : PRes Byte :=
  match s.prim a p with
  | .ok v t => .ok v t
  | .err _ t => .err .ioError t
  | .stop r => .stop r

/-- A best-effort primitive: one that fails counts as 0x00 and what follows still runs (rules R156, R172,
R183). -/
def State.attemptRun (s : State) (a : AgentId) (p : Prim) : PRes Byte :=
  match s.prim a p with
  | .ok v t => .ok v t
  | .err _ t => .ok 0 t
  | .stop r => .stop r

/-- Steps one after the other, up to the first that raises. -/
def State.inTurn : List (State → PRes Unit) → State → PRes Unit
  | [], s => .ok () s
  | f :: fs, s => (f s).bind fun _ t => State.inTurn fs t

/-- A step that calls a primitive. -/
def calls (a : AgentId) (p : Prim) (s : State) : PRes Unit := (s.callRun a p).bind fun _ t => .ok () t

/-- A step that attempts a primitive. -/
def attempts (a : AgentId) (p : Prim) (s : State) : PRes Unit :=
  (s.attemptRun a p).bind fun _ t => .ok () t

/-- `Poll(n)` (rule R141). -/
def State.pollRun (a : AgentId) : Nat → State → PRes PollResult
  | 0, s => .ok .exhausted s
  | n + 1, s =>
    (s.callRun a (.rd s.cfg.ddc.statAddr)).bind fun v t =>
      if errorBits s.cfg.ddc v ≠ 0 then .ok (.error (errorBits s.cfg.ddc v)) t
      else if v &&& s.cfg.ddc.stDone ≠ 0 then .ok .done t
      else State.pollRun a n t

/-- One save of the abort sequence (rule R145). -/
def State.saveRun (s : State) (a : AgentId) (r : SaveReg) (addr : Nat) : PRes Unit :=
  (s.callRun a (.rd addr)).bind fun v t => .ok () (t.save a r v)

/-- One abort iteration: whether its poll was Done (rule R145). -/
def State.iterRun (s : State) (a : AgentId) : PRes Bool :=
  (s.callRun a (.wr s.cfg.ddc.cmdAddr s.cfg.ddc.cmdAbort)).bind fun _ t =>
    (t.pollRun a 200).bind fun r u => .ok (decide (r = .done)) u

/-- DDC_ABORT (rules R145 to R148). -/
def State.abortRun (s : State) (a : AgentId) : PRes Unit :=
  (State.inTurn
    [(·.saveRun a .swrst s.cfg.rst.swrstAddr), (·.saveRun a .hdcp s.cfg.rst.hdcpAddr),
      (·.saveRun a .ddcm s.cfg.ddc.ddcmAddr), calls a (.wr s.cfg.ddc.ddcmAddr s.cfg.ddc.ddcmHost)]
    s).bind fun _ t =>
  (t.iterRun a).bind fun first u =>
  (u.iterRun a).bind fun second v =>
  if first = true ∨ second = true then .ok () v else .err .protocolError v

/-- The FIFO reads of one chunk, each byte appended to `result` (rule R150). -/
def State.drainRun (a : AgentId) : Nat → State → PRes Unit
  | 0, s => .ok () s
  | n + 1, s =>
    (s.callRun a (.rd s.cfg.ddc.fifoAddr)).bind fun v t =>
      State.drainRun a n { t with result := t.result ++ [v] }

/-- The FIFO clear (rule R142). -/
def fifoClearOf (c : Params) : Prim := .wr c.ddc.cmdAddr c.ddc.cmdFifoClr

/-- One chunk of a block read (rules R150, R153); the clean-up after an error bit before the command is
best effort (rule R156). -/
def State.chunkRun (s : State) (a : AgentId) (segment offset n : Nat) : PRes Unit :=
  (s.callRun a (fifoClearOf s.cfg)).bind fun _ t =>
  (t.pollRun a 200).bind fun first u =>
  match first with
  | .error _ => (u.attemptRun a (fifoClearOf s.cfg)).bind fun _ v => .err .protocolError v
  | .exhausted => .err .protocolTimeout u
  | .done =>
    (State.inTurn
      [calls a (.wr s.cfg.ddc.hdrAddr s.cfg.ddc.hdrEdid),
        calls a (.wr s.cfg.ddc.offAddr (BitVec.ofNat 8 offset)),
        calls a (.wr s.cfg.ddc.cntAddr (BitVec.ofNat 8 n)),
        calls a (.wr s.cfg.ddc.segAddr (BitVec.ofNat 8 segment)),
        calls a (.wr s.cfg.ddc.cmdAddr s.cfg.ddc.cmdRead)] u).bind fun _ v =>
    (v.pollRun a 250).bind fun second w =>
    match second with
    | .error _ => .err .protocolError w
    | .exhausted => .err .protocolTimeout w
    | .done => w.drainRun a n

/-- The chunks of a block read, up to the first that fails (rule R150). -/
def State.chunksRun (a : AgentId) (segment : Nat) : Nat → List Nat → State → PRes Unit
  | _, [], s => .ok () s
  | offset, n :: ns, s =>
    (s.chunkRun a segment offset n).bind fun _ t => State.chunksRun a segment (offset + n) ns t

/-- RDBLK (rules R150 to R156). -/
def State.rdblkRun (s : State) (a : AgentId) (block length : Nat) : PRes Unit :=
  (({ s with result := [] } : State).callRun a (.rd (hangAddr s.cfg.irq))).bind fun v t =>
  (if v &&& s.cfg.irq.clearMap.busHang.statusBit ≠ 0 then t.abortRun a else .ok () t).bind fun _ u =>
  (u.callRun a (fifoClearOf s.cfg)).bind fun _ w =>
  w.chunksRun a (block / 2) ((block % 2) * length) (chunkSizes length)

/-- How a command of the host ends: OK or the error raised, as the response (rules R99, R240). -/
def hostOutcome : PRes Unit → Host.Outcome State Fault Refusal
  | .ok _ t => .next (t.respond .host (okResp 0))
  | .err e t => .next (t.respond .host ⟨e, 0⟩)
  | .stop r => .refused r

/-- One status read of the snapshot; a group whose read fails is 0x00 (rule R172). -/
def snapReads (g : Group) (s : State) : PRes Unit :=
  (s.attemptRun .dispatcher (.rd (s.cfg.irq.statAddr.get g))).bind fun v t =>
    .ok () { t with snap := t.snap.set g v }

/-- A step that runs where the snapshot shows the source of a row (rules R173, R176). -/
def whereShown (row : ClearRow) (f : State → PRes Unit) (s : State) : PRes Unit :=
  if s.shows row then f s else .ok () s

/-- The clear write of a row whose source the snapshot shows (rule R173). -/
def clears (row : ClearRow) : State → PRes Unit :=
  whereShown row (attempts .dispatcher (.wr row.clearRegister row.clearBit))

/-- The ext self-clear, skipped for 0x00 (rule R174). -/
def extClears (s : State) : PRes Unit :=
  if s.snap.ext = 0 then .ok () s
  else attempts .dispatcher (.wr s.cfg.irq.statAddr.ext s.snap.ext) s

/-- A bit pulsed: set, then cleared, whether or not the set failed (rules R175, R179). -/
def pulses (addr : Nat) (bit : Byte) : List (State → PRes Unit) :=
  [attempts .dispatcher (.upd addr bit bit), attempts .dispatcher (.upd addr bit 0)]

/-- DDC_ABORT in the dispatcher: any error it ends with is absorbed (rule R178). -/
def abortsAbsorbed (s : State) : PRes Unit :=
  match s.abortRun .dispatcher with
  | .ok _ t => .ok () t
  | .err _ t => .ok () t
  | .stop r => .stop r

/-- The steps of IRQ_DISPATCH: the snapshot, the clear loop, the ext self-clear, the strobe, the handlers
(rule R170). -/
def dispatchSteps (c : Params) : List (State → PRes Unit) :=
  [snapReads .core, snapReads .stat0, snapReads .stat1, snapReads .ext,
    clears c.irq.clearMap.hotplug, clears c.irq.clearMap.rxSense, clears c.irq.clearMap.fifoError,
    clears c.irq.clearMap.busHang, clears c.irq.clearMap.audioOverflow,
    clears c.irq.clearMap.videoStable, extClears]
    ++ pulses c.irq.ackAddr c.irq.ackBit
    ++ [whereShown c.irq.clearMap.fifoError (attempts .dispatcher (fifoClearOf c)),
      whereShown c.irq.clearMap.busHang abortsAbsorbed,
      whereShown c.irq.clearMap.audioOverflow
        (State.inTurn (pulses c.rst.swrstAddr c.rst.swrstAudFifo)),
      whereShown c.irq.clearMap.videoStable (attempts .dispatcher (.rd c.irq.vidStableAddr)),
      whereShown c.irq.clearMap.hotplug fun s => .ok () s.setPending]

/-- How a dispatch ends: it never fails as a whole (rules R170, R183). -/
def dispatchOutcome : PRes Unit → Host.Outcome State Fault Refusal
  | .ok _ t => .next { t with dispRunning := false, disp := { t.disp with pos := [] } }
  | .err _ t => .next { t with dispRunning := false, disp := { t.disp with pos := [] } }
  | .stop r => .refused r

/-! ## The gap, by the policies -/

/-- The outcome of a command whose access lies in the gap, `done` and `v` being what it leaves and
answers under `bank1_window` (rule R127). -/
def gapOutcome (s : State) (done : State) (v : Byte) : Host.Outcome State Fault Refusal :=
  match s.cfg.gapPolicy with
  | .refuse => .refused .gapAddress
  | .invalidAddress => .next (s.respond s.active ⟨.invalidAddress, 0⟩)
  | .bank1Window => .next (done.respond s.active (okResp v))

/-- A completed burst through bank 1 at an any-bank offset `a`; a byte on the bank-select register selects
the bank (rules R74, R127). -/
def State.windowBurst (s : State) (a : Nat) (bytes : List Byte) : State :=
  let u := s.switched (some .bank1)
  { u with
    x := storedList u.cfg a bytes u.x
    hwBank :=
      match if a ≤ u.cfg.bank.addr then bytes[u.cfg.bank.addr - a]? else none with
      | some b => bankOf u.cfg.bank b (Config.freeBank u.env.draws)
      | none => u.hwBank
    env := u.env.afterTransaction
    bus := .burst a bytes true :: u.bus }

/-! ## The environment's script -/

/-- The bytes the script still holds for one register, in order (rule R73). -/
def Env.scriptOf (e : Env) (a : Nat) : List Byte :=
  (e.answers.filter fun p => decide (p.1 = a)).map fun p => p.2

/-- `Poll(n)` on a script of status bytes: its result, and the bytes it left (rule R141). -/
def pollScript (d : DdcParams) : Nat → List Byte → PollResult × List Byte
  | 0, l => (.exhausted, l)
  | _ + 1, [] => (.exhausted, [])
  | n + 1, b :: l =>
    if errorBits d b ≠ 0 then (.error (errorBits d b), l)
    else if b &&& d.stDone ≠ 0 then (.done, l)
    else pollScript d n l

/-- A status byte that answers a `Poll` with Done (rule R141). -/
def isDoneByte (d : DdcParams) (b : Byte) : Prop := errorBits d b = 0 ∧ b &&& d.stDone ≠ 0

/-! ## Agents and the bus log -/

/-- The agent that runs an operation: the two internal ones have their own context (rule R255). -/
def agentOf (i : Instr) (s : State) : AgentId :=
  match i with
  | .irqDispatch => .dispatcher
  | .hpdTask => .task
  | .rd _ => .port s.active
  | .wr _ _ => .port s.active
  | .upd _ _ _ => .port s.active
  | .bwr _ _ => .port s.active
  | .rdblk _ _ => .port s.active
  | .ddcAbort => .port s.active
  | .ldm _ _ => .port s.active
  | .modeSet _ _ => .port s.active
  | .vidEn => .port s.active
  | .cscCfg _ _ => .port s.active
  | .brEnable => .port s.active
  | .brDisable => .port s.active

/-- The window offset a transaction starts at. -/
def BusOp.offset : BusOp → Nat
  | .read off _ => off
  | .write off _ _ => off
  | .burst off _ _ => off

/-- A completed write of a byte at a window offset. -/
def BusOp.isWriteOf (off : Nat) (v : Byte) (op : BusOp) : Bool := decide (op = .write off v true)

/-- The offset and byte a single-byte write put on the bus. -/
def BusOp.written : BusOp → Option (Nat × Byte)
  | .read _ _ => none
  | .write off v _ => some (off, v)
  | .burst _ _ _ => none

/-- A read at a window offset. -/
def BusOp.isReadAt (off : Nat) (op : BusOp) : Bool :=
  match op with
  | .read o _ => decide (o = off)
  | .write _ _ _ => false
  | .burst _ _ _ => false

/-- A transaction that failed (rule R69). -/
def BusOp.failed : BusOp → Bool
  | .read _ v => v.isNone
  | .write _ _ ok => !ok
  | .burst _ _ ok => !ok

/-- What answering a command of an idle port leaves (rules R90, R99, R255): every port is as before, one
`Resp` event was emitted, and where the port is the host's its queue is empty and `resp` holds the
response; an auxiliary port has neither. -/
def Answered (s t : State) (r : Response) : Prop :=
  (∀ p, t.port p = s.port p)
    ∧ t.payload = (if s.active = .host then [] else s.payload)
    ∧ t.resp = (if s.active = .host then r else s.resp)
    ∧ t.events = .resp s.active r :: s.events

/-- What a primitive of a command leaves that failed with `IoError` in its bank-select write (rules R77,
R124, R126): one failed transaction, the shadow as before, no register but the bank select touched. -/
def SelectFailed (s : State) (b : Bank) (t : State) : Prop :=
  t = { s with
    x := t.x, hwBank := t.hwBank, payload := t.payload, resp := t.resp, events := t.events
    env := s.env.afterTransaction
    bus := .write s.cfg.bank.addr (selectByte s.cfg.bank b) false :: s.bus }
  ∧ Answered s t ⟨.ioError, 0⟩ ∧ ∀ a, a ≠ s.cfg.bank.addr → t.x.read a = s.x.read a

/-- The outcomes of the select of an access that needs `need`: one completed transaction where the bank
differs from the shadow, none otherwise (rule R124). -/
def selectFlags (s : State) (need : Option Bank) : List Bool :=
  if need = none ∨ need = some s.ctx.currentBank then [] else [false]

/-- What a command leaves whose data read of a register failed, `u` being the state before that
transaction (rules R77, R126): one failed read, every register as before. -/
def ReadFailed (s u : State) (addr : Nat) (t : State) : Prop :=
  t = { u with
    payload := t.payload, resp := t.resp, events := t.events, env := u.envAfterFailedRead addr
    bus := .read (offOf addr) none :: u.bus }
  ∧ Answered s t ⟨.ioError, 0⟩

/-- What a command leaves whose data write of a register failed, `u` being the state before that
transaction (rules R77, R126): the old or the new byte there, every other register as before. -/
def WriteFailed (s u : State) (addr : Nat) (v : Byte) (t : State) : Prop :=
  t = { u with
    x := t.x, hwBank := t.hwBank, payload := t.payload, resp := t.resp, events := t.events
    env := u.env.afterTransaction, bus := .write (offOf addr) v false :: u.bus }
  ∧ Answered s t ⟨.ioError, 0⟩ ∧ (addr ≠ s.cfg.bank.addr → t.hwBank = u.hwBank)
  ∧ (t.x.read addr = u.x.read addr ∨ t.x.read addr = v)
  ∧ ∀ a, a ≠ addr → t.x.read a = u.x.read a

/-- What a BWR leaves whose burst failed, `u` being the state before that transaction (rules R77, R128):
some prefix of the bytes stored in the plain registers of the range. -/
def BurstFailed (s u : State) (addr : Nat) (bytes : List Byte) (t : State) : Prop :=
  t = { u with
    x := t.x, payload := t.payload, resp := t.resp, events := t.events
    env := u.env.afterTransaction, bus := .burst (offOf addr) bytes false :: u.bus }
  ∧ Answered s t ⟨.ioError, 0⟩
  ∧ ∃ k, k ≤ bytes.length ∧ t.x = storedList u.cfg addr (bytes.take k) u.x

/-- What a DDC_ABORT of the host leaves whose transaction number `k`, counted from 0, failed (rules R77,
R126, R148): the response is `IoError`, the transactions before it are those of the whole sequence and
none follows it; no register but the bank select and `DDCM` changed, and `DDCM` holds what it held or
`DDCM_HOST`. -/
def AbortFailed (s : State) (k : Nat) (t : State) : Prop :=
  t = { s with
    x := t.x, hwBank := t.hwBank, ctx := { s.ctx with currentBank := t.ctx.currentBank }
    resp := ⟨.ioError, 0⟩, hostPort := t.hostPort, bus := t.bus, env := t.env
    events := .resp .host ⟨.ioError, 0⟩ :: s.events }
  ∧ t.idle (.port .host) = true
  ∧ (∃ op done later, op.failed = true ∧ t.bus = op :: done
      ∧ (s.abortAt (.port .host)).2.bus = later ++ done ∧ done.length = s.bus.length + k)
  ∧ (t.x.read s.cfg.ddc.ddcmAddr = s.x.read s.cfg.ddc.ddcmAddr
      ∨ t.x.read s.cfg.ddc.ddcmAddr = s.cfg.ddc.ddcmHost)
  ∧ ∀ a, a ≠ s.cfg.bank.addr → a ≠ s.cfg.ddc.ddcmAddr → t.x.read a = s.x.read a

/-- The bank BankSelect selects for a single access, also for one in the gap under `bank1_window` (rules
R65, R127). -/
def selectNeed (s : State) (addr : Nat) : Option Bank :=
  if s.cfg.gapPolicy = .bank1Window ∧ 0x100 ≤ addr ∧ addr < 0x130 then some .bank1 else needOf addr

/-- The bank BankSelect selects for a bulk write, also for one that starts in the gap under
`bank1_window`; a range with another byte in the gap has none (rules R127, R128, R132). -/
def selectNeedBulk (s : State) (addr n : Nat) : Option Bank :=
  if touchesGap addr n = true then
    if s.cfg.gapPolicy = .bank1Window ∧ 0x100 ≤ addr then some .bank1 else none
  else bulkBank addr n (needOf addr)

/-- No agent but the task executor has a statement of HPD_TASK to come (rules R29, R191). -/
def OnlyTaskSamples (s : State) : Prop :=
  ∀ a, a ≠ .task → .hpdRead ∉ s.pos a ∧ ∀ present, .hpdUpdate present ∉ s.pos a

end Sys2Proof.Machine
end

