-- ==== Sys2Proof/Certificates/Slice0/Obligations.lean ====
section
/-! DEFINITION. The statements for the provers, from the numbered rules of the spec. `Ready i s` is the
hypothesis on a port that accepts operation `i`; `Fine s` says that no coming bus transaction fails, that
the shadow agrees with the downstream bank and that the bank parameters meet PC1 and PC2; `Alone s` says
that no other agent is scheduled; `paramsOk` is PC1 to PC7 where no second infoframe block is used,
`TargetsOk` is PC1 to PC7 for the payload presented. The effects `rdAt`, `wrAt`, `updAt`, `bwrAt` and the
sequences over them are written in Safety.lean from the rules. -/

open Sys2Proof Sys2Proof.Machine

/-! ## Encoding -/

/-- Decoding the encoded word of any operation, with any operands, gives it back (rules R91 to R103). The
encoding is the spec's own (D1 to D4); that operands out of range decode here and are refused when the
command runs is the model's split of R100 (log entry 17). -/
def Obligations.DecodeOfEncodeIsIdentity : Prop :=
  ∀ i : Instr, decode (encode i) = .ok i

/-- A word that decodes is the encoded word of what it decodes to: no reserved bit is dropped and no two
words are one command. That reserved bits are refused is the spec's own choice (R101, D4). -/
def Obligations.EncodeOfDecodeIsIdentity : Prop :=
  ∀ (w : CmdWord) (i : Instr), decode w = .ok i → encode i = w

/-- The assembler vectors V1 to V11, one word at least for each command a host can write. The encoding is
the spec's own (D1). -/
def Obligations.VectorWordsDecode : Prop :=
  decode 0x11580000 = .ok (.rd 0x158) ∧ decode 0x20C10001 = .ok (.wr 0x0C1 0x01)
    ∧ decode 0x30CD0303 = .ok (.upd 0x0CD 0x03 0x03) ∧ decode 0x41580005 = .ok (.bwr 0x158 5)
    ∧ decode 0x50010080 = .ok (.rdblk 1 128) ∧ decode 0x60000000 = .ok .ddcAbort
    ∧ decode 0x92024414 = .ok (.ldm .dmClockKhz 148500) ∧ decode 0xA0000D57 = .ok (.modeSet 13 0x57)
    ∧ decode 0xB0000000 = .ok .vidEn ∧ decode 0xC0000005 = .ok (.cscCfg .itu709 true)
    ∧ decode 0xD0000000 = .ok .brEnable ∧ decode 0xE0000000 = .ok .brDisable

/-- Which words the DECODER refuses: a reserved opcode, a non-zero reserved field, RD with a mask or a
value, WR with a mask, a reserved selector, colorimetry code 3 (the spec's own choices, D4). That every
other word names an operation is the MODEL's own split of R100 (log entry 17, DESIGN CHOICE): what R100
also refuses, RDBLK with a length above 128, LDM with a value out of range, MODE_SET with a length below
5 (V16a to V16c), a payload of another length, decodes and is refused when the command runs
(`IllegalOperandsHaveNoEffect`). -/
def Obligations.DecoderRefusesExactlyTheReservedWords : Prop :=
  ∀ w : CmdWord, (∃ e, decode w = .error e) ↔
    (opField w = 0x0 ∨ opField w = 0xF
      ∨ (opField w ∈ [0x6#4, 0x7#4, 0x8#4, 0xB#4, 0xD#4, 0xE#4] ∧ restField w ≠ 0)
      ∨ (opField w = 0x1 ∧ (midField w ≠ 0 ∨ lowField w ≠ 0))
      ∨ (opField w = 0x2 ∧ midField w ≠ 0)
      ∨ (opField w = 0x5 ∧ selField w ≠ 0)
      ∨ (opField w = 0x9 ∧ 8 < (selField w).toNat)
      ∨ (opField w = 0xA ∧ addrField w ≠ 0)
      ∨ (opField w = 0xC ∧ (zeroFieldC w ≠ 0 ∨ colorField w = 3)))

/-! ## The step -/

/-- When an idle port has its turn and the next command presented to it decodes to an operation a port
may start, the step is `exec` of that operation, on the state in which the port took the command and its
payload and is the one served; whether the turn was scheduled or the port is the only enabled agent. -/
def Obligations.StepRunsDecodedCommand : Prop :=
  ∀ (s : State) (p : PortId) (c : Command) (cs : List Command) (i : Instr),
    s.idle (.port p) = true → (s.port p).inbox = c :: cs → decode c.word = .ok i →
    hostMayStart i = true →
    (∀ rest, s.env.sched = .run (.port p) :: rest →
      step s = exec i ((s.setSched rest).takeCommand p c cs))
    ∧ (s.env.sched = [] → enabledAgents s = [.port p] → step s = exec i (s.takeCommand p c cs))

/-- The two asynchronous starts: an idle dispatcher whose turn it is runs IRQ_DISPATCH exactly when the
line is high and no dispatch runs; an idle task executor runs HPD_TASK exactly when the flag is pending
and no task runs. The level-sensitive line and the one run at a time's flag are the spec's own choices
(D30, D31). -/
def Obligations.TurnsStartInternalOperations : Prop :=
  ∀ (s : State) (rest : List Turn),
    (s.env.sched = .run .dispatcher :: rest → s.idle .dispatcher = true →
      step s = if s.irqLine = true ∧ s.dispRunning = false then exec .irqDispatch (s.setSched rest)
        else .next (s.setSched rest))
    ∧ (s.env.sched = .run .task :: rest → s.idle .task = true →
      step s = if s.ctx.hotplugPending = true ∧ s.taskRunning = false
        then exec .hpdTask (s.setSched rest) else .next (s.setSched rest))

/-- A word that names no operation, or one of the two internal operations, presented to any port: the
command is taken, the response is `IllegalCommand`, and nothing but the port's inbox, the payload it
brought, the host's queue and response where it is the host's, the events, the port served and the turn
taken changes. That such a word is refused so is the spec's own choice (D3, D4, D5). -/
def Obligations.PortsRefuseUndecodableAndInternalWords : Prop :=
  ∀ (s : State) (p : PortId) (c : Command) (cs : List Command) (rest : List Turn),
    s.hasPort p = true → s.idle (.port p) = true → (s.port p).inbox = c :: cs →
    s.env.sched = .run (.port p) :: rest →
    ((∃ e, decode c.word = .error e) ∨ decode c.word = .ok .irqDispatch
      ∨ decode c.word = .ok .hpdTask) →
    Nexts (step s) fun t =>
      t = { s with
        hostPort := t.hostPort, auxPorts := t.auxPorts, active := p
        payload := if p = .host then [] else s.payload
        resp := if p = .host then ⟨.illegalCommand, 0⟩ else s.resp
        given := if p = .host then s.given else c.payload
        events := .resp p ⟨.illegalCommand, 0⟩ :: s.events, env := { s.env with sched := rest } }
      ∧ t.port p = { s.port p with inbox := cs }
      ∧ ∀ q, q ≠ p → t.port q = s.port q

/-- An operation a port presents whose operands are out of range, whose payload has the wrong length, or
which its port may not start: `IllegalCommand`, the payload emptied, and nothing else. That it is
refused so is the spec's own choice (D4, D5); that the check is made when the command runs is the
model's split of R100 (log entry 17). -/
def Obligations.IllegalOperandsHaveNoEffect : Prop :=
  ∀ (i : Instr) (s : State), hostMayStart i = true → s.hasPort s.active = true →
    s.idle (.port s.active) = true →
    ((s.active ≠ .host ∧ auxMayStart i = false) ∨ (s.payloadOf s.active).length ≠ payloadLength i
      ∨ i.wellFormed = false) →
    Nexts (exec i s) fun t =>
      t = { s with
        hostPort := t.hostPort, auxPorts := t.auxPorts, payload := t.payload, resp := t.resp
        events := t.events }
      ∧ Answered s t ⟨.illegalCommand, 0⟩

/-- One given turn with another one after it (the model's scheduler, log entry 8) takes one turn and runs
at most one primitive: register file, bank and bus log are untouched, or are what ONE primitive of one
agent left of them; so between the primitives of a composite operation any other agent may move. One
primitive is at most three bus transactions. The lock per primitive is the spec's own choice (D15). -/
def Obligations.ScheduledTurnRunsAtMostOnePrimitive : Prop :=
  ∀ (s t : State) (a : Turn) (b : Turn) (rest : List Turn), s.env.sched = a :: b :: rest →
    step s = .next t →
    t.env.sched = b :: rest
    ∧ ((t.bus = s.bus ∧ t.x = s.x ∧ t.hwBank = s.hwBank)
      ∨ ∃ (g : AgentId) (p : Prim) (u w : State) (r : PRes Byte),
          u.cfg = s.cfg ∧ u.x = s.x ∧ u.hwBank = s.hwBank ∧ u.ctx = s.ctx
          ∧ u.env.fails = s.env.fails ∧ u.env.answers = s.env.answers ∧ u.bus = s.bus
          ∧ runPrim g p u = some r ∧ r.endState = some w
          ∧ t.bus = w.bus ∧ t.x = w.x ∧ t.hwBank = w.hwBank)
    ∧ ∃ l, l.length ≤ 3 ∧ t.bus = l ++ s.bus

/-- No error stops the machine: the only fault is the detach of the device. -/
def Obligations.OnlyDetachStopsTheMachine : Prop :=
  ∀ (s : State) (f : Fault), step s = .fault f ↔ (f = .detached ∧ ∃ rest, s.env.sched = .detach :: rest)

/-! ## Invariants -/

/-- Every step from every settled state leaves a settled state. -/
def Obligations.EveryStepKeepsSettled : Prop :=
  ∀ s t : State, Settled s → step s = .next t → Settled t

/-- The state after reset is settled, no agent is inside HPD_TASK, and its parameter set meets PC1 to PC7
for every infoframe payload of at most 103 bytes, which is what REF has room for. That reset carries REF
is the model's choice (log entry 1). -/
def Obligations.ResetIsSettled : Prop :=
  Settled State.reset ∧ OnlyTaskSamples State.reset
    ∧ ∀ used, used ≤ 103 → paramsOkFor State.reset.cfg used = true

/-- Configuration is constant for a run, and `audio_channel_mask` is inert (the spec's own choice, D51): no
step writes them or changes the number of ports. -/
def Obligations.EveryStepKeepsConfiguration : Prop :=
  ∀ s t : State, step s = .next t →
    t.cfg = s.cfg ∧ t.ctx.audioChannelMask = s.ctx.audioChannelMask
      ∧ t.auxPorts.length = s.auxPorts.length

/-- The connector status never returns to Unknown. -/
def Obligations.ConnectorNeverReturnsToUnknown : Prop :=
  ∀ s t : State, step s = .next t → s.ctx.connectorStatus ≠ .unknown →
    t.ctx.connectorStatus ≠ .unknown

/-- Only HPD_TASK changes the connector status or notifies: every other operation leaves the status and
the notifications emitted as they were. -/
def Obligations.OnlyTheTaskChangesTheConnector : Prop :=
  ∀ (i : Instr) (s t : State), i ≠ .hpdTask → exec i s = .next t →
    t.ctx.connectorStatus = s.ctx.connectorStatus
      ∧ ∀ c, t.events.count (.notify c) = s.events.count (.notify c)

/-- In every state in which no agent but the task executor is inside HPD_TASK, every step keeps that so,
and a step that is not the task's (a given turn of another agent or of the environment, or a free turn
while the task has nothing to do) leaves the connector status and the notifications as they were. -/
def Obligations.OnlyTaskTurnsChangeTheConnector : Prop :=
  ∀ s t : State, OnlyTaskSamples s → step s = .next t →
    OnlyTaskSamples t
    ∧ (((∃ a rest, s.env.sched = a :: rest ∧ a ≠ .run .task)
          ∨ (s.env.sched = [] ∧ AgentId.task ∉ enabledAgents s)) →
        t.ctx.connectorStatus = s.ctx.connectorStatus
        ∧ ∀ c, t.events.count (.notify c) = s.events.count (.notify c))

/-- Every operation ends: run alone from an idle agent with the lock free, whatever the environment
answers and whichever transactions fail, its agent is idle again. -/
def Obligations.EveryOperationEnds : Prop :=
  ∀ (i : Instr) (s t : State), Alone s → s.ctx.lock = none → s.idle (agentOf i s) = true →
    exec i s = .next t → t.idle (agentOf i s) = true

/-- The values rule R58 gives for reset. -/
def Obligations.ResetValues : Prop :=
  State.reset.ctx = { currentBank := .bank0, lock := none, connectorStatus := .unknown, dviMode := false
                      needCsc := false, audioChannelMask := 0x00, hotplugPending := false }
    ∧ State.reset.taskRunning = false ∧ State.reset.dispRunning = false
    ∧ State.reset.hwBank = .bank0
    ∧ State.reset.latches = { dmWidth := 0, dmHeight := 0, dmClockKhz := 0, dmPixrep := 0
                              dmRefresh := 0, dmProgressive := 0, cfgInMode := .rgb444
                              cfgOutMode := .rgb444 }
    ∧ State.reset.result = [] ∧ State.reset.payload = []
    ∧ (∀ a, State.reset.idle a = true)

/-! ## Register access: RD, WR, UPD, BWR -/

/-- `region(addr)`, and the bank and window offset each region needs: none and `addr` in the any-bank
region, bank 0 and `addr`, bank 1 and `addr - 0x100`; the gap and invalid addresses have neither. -/
def Obligations.RegionsOfTheFlatAddressSpace : Prop :=
  ∀ addr : Nat,
    (region addr = if addr < 0x30 then .any else if addr < 0x100 then .b0
      else if addr < 0x130 then .gap else if addr < 0x1C0 then .b1 else .invalid)
    ∧ translate addr = (if addr < 0x30 then some (none, addr)
      else if addr < 0x100 then some (some .bank0, addr)
      else if addr < 0x130 then none
      else if addr < 0x1C0 then some (some .bank1, addr - 0x100) else none)

/-- RD of any register of the file: the bank it needs is selected first if the shadow differs, one bus
read is issued, the response carries the byte, and nothing else changes. -/
def Obligations.RdAnswersTheRegister : Prop :=
  ∀ (addr : BitVec 12) (s : State), Ready (.rd addr) s → Fine s → isRegister addr.toNat = true →
    exec (.rd addr) s = .next ((s.rdAt addr.toNat).respond s.active (okResp (s.rdValue addr.toNat)))

/-- WR of any register, the bank-select register among them. -/
def Obligations.WrWritesTheRegister : Prop :=
  ∀ (addr : BitVec 12) (v : Byte) (s : State), Ready (.wr addr v) s → Fine s →
    isRegister addr.toNat = true →
    exec (.wr addr v) s = .next ((s.wrAt addr.toNat v).respond s.active (okResp 0))

/-- UPD of any register: one read, then one write of `(old & ~mask) | (val & mask)`, always issued. The
formula is general knowledge, and that the write is issued also where it changes nothing is the spec's
own choice: R125 marks both so (D14). -/
def Obligations.UpdReadsThenWritesTheRegister : Prop :=
  ∀ (addr : BitVec 12) (m v : Byte) (s : State), Ready (.upd addr m v) s → Fine s →
    isRegister addr.toNat = true →
    exec (.upd addr m v) s = .next ((s.updAt addr.toNat m v).respond s.active (okResp 0))

/-- What a RD, a WR and a UPD leave in the register file and the banks: a plain register holds the byte
written and every other register but the bank select is unchanged; afterwards shadow and bank are the
bank the address needs, or as before for an any-bank address. The formula of UPD is general knowledge
(R125, D14); that a register is plain is the spec's own choice (D17). -/
def Obligations.PrimitivesChangeOnlyTheirRegister : Prop :=
  ∀ (s : State) (addr : Nat) (m v : Byte), Fine s → Memory.wf s.x → isRegister addr = true →
    addr ≠ s.cfg.bank.addr →
    (∀ a, a ≠ s.cfg.bank.addr → (s.rdAt addr).x.read a = s.x.read a)
    ∧ (∀ a, a ≠ s.cfg.bank.addr → a ≠ addr → (s.wrAt addr v).x.read a = s.x.read a
        ∧ (s.updAt addr m v).x.read a = s.x.read a)
    ∧ (isPlain s.cfg addr = true → s.rdValue addr = s.x.read addr
        ∧ (s.wrAt addr v).x.read addr = v
        ∧ (s.updAt addr m v).x.read addr = (s.x.read addr &&& ~~~m) ||| (v &&& m))
    ∧ (∀ t ∈ [s.rdAt addr, s.wrAt addr v, s.updAt addr m v],
        t.hwBank = (needOf addr).getD s.hwBank
        ∧ t.ctx = { s.ctx with currentBank := (needOf addr).getD s.ctx.currentBank })

/-- A plain register reads back the byte last written: WR, then RD of the same address on the same
port. That a register is plain is the spec's own choice (D17). -/
def Obligations.ReadAfterWriteAnswersTheByte : Prop :=
  ∀ (addr : BitVec 12) (v : Byte) (s : State), Ready (.wr addr v) s → Fine s → Memory.wf s.x →
    isRegister addr.toNat = true → addr.toNat ≠ s.cfg.bank.addr → isPlain s.cfg addr.toNat = true →
    Nexts (exec (.wr addr v) s) fun t =>
      Nexts (exec (.rd addr) t) fun u =>
        u.events = .resp s.active ⟨.ok, v⟩ :: t.events ∧ (s.active = .host → u.resp = ⟨.ok, v⟩)

/-- Any-bank addresses never trigger a bank switch, whatever the environment answers: RD, WR and UPD
below 0x30 issue transactions at that one offset only and leave the shadow as it was. -/
def Obligations.AnyBankAddressesNeverSwitch : Prop :=
  ∀ (addr : BitVec 12) (m v : Byte) (s t : State), addr.toNat < 0x30 →
    (exec (.rd addr) s = .next t ∨ exec (.wr addr v) s = .next t ∨ exec (.upd addr m v) s = .next t) →
    t.ctx.currentBank = s.ctx.currentBank
      ∧ ∃ l, t.bus = l ++ s.bus ∧ ∀ op ∈ l, op.offset = addr.toNat

/-- An address at or above 0x1C0 gives `InvalidAddress` before any bus transaction: only the response
changes. -/
def Obligations.InvalidAddressHasNoEffect : Prop :=
  ∀ (addr : BitVec 12) (m v : Byte) (s : State), 0x1C0 ≤ addr.toNat →
    (Ready (.rd addr) s → exec (.rd addr) s = .next (s.respond s.active ⟨.invalidAddress, 0⟩))
    ∧ (Ready (.wr addr v) s →
        exec (.wr addr v) s = .next (s.respond s.active ⟨.invalidAddress, 0⟩))
    ∧ (Ready (.upd addr m v) s →
        exec (.upd addr m v) s = .next (s.respond s.active ⟨.invalidAddress, 0⟩))

/-- A failed bank-select write ends RD, WR, UPD and BWR with `IoError` and the shadow keeps its value; the
data transaction is not issued and no register but the bank select changed. That the shadow keeps its
value is the spec's own choice (R124, D9). An access in the gap selects bank 1 under `bank1_window`;
`GAP_POLICY` is open (R127, D10). -/
def Obligations.FailedBankSelectKeepsTheShadow : Prop :=
  ∀ (addr : BitVec 12) (m v : Byte) (len : BitVec 16) (s : State) (b : Bank) (l : List Bool),
    bankParamsOk s.cfg = true → s.env.fails = true :: l → b ≠ s.ctx.currentBank →
    (selectNeed s addr.toNat = some b →
      (Ready (.rd addr) s → Nexts (exec (.rd addr) s) (SelectFailed s b))
      ∧ (Ready (.wr addr v) s → Nexts (exec (.wr addr v) s) (SelectFailed s b))
      ∧ (Ready (.upd addr m v) s → Nexts (exec (.upd addr m v) s) (SelectFailed s b)))
    ∧ (Ready (.bwr addr len) s → 1 ≤ len.toNat → rangeCheck addr.toNat len.toNat = none →
      selectNeedBulk s addr.toNat len.toNat = some b →
      Nexts (exec (.bwr addr len) s) (SelectFailed s b))

/-- A failed data transaction, after the bank select completed where one was needed: `IoError`. A failed
read of RD or UPD leaves every register as it was and UPD writes nothing; a failed write of WR or UPD
leaves the old or the new byte; a failed burst leaves a prefix of its bytes stored; no other register
changed. What a failed write or burst leaves is the spec's own choice (D9, D13), as is that UPD always
issues its write (R125, D14). -/
def Obligations.FailedWriteLeavesOldOrNewByte : Prop :=
  ∀ (addr : BitVec 12) (m v : Byte) (len : BitVec 16) (s : State) (l : List Bool),
    bankParamsOk s.cfg = true → s.ctx.currentBank = s.hwBank → Memory.wf s.x →
    (isRegister addr.toNat = true →
      (s.env.fails = selectFlags s (needOf addr.toNat) ++ true :: l →
        (Ready (.rd addr) s → Nexts (exec (.rd addr) s)
          (ReadFailed s (s.switched (needOf addr.toNat)) addr.toNat))
        ∧ (Ready (.upd addr m v) s → Nexts (exec (.upd addr m v) s)
          (ReadFailed s (s.switched (needOf addr.toNat)) addr.toNat))
        ∧ (Ready (.wr addr v) s → Nexts (exec (.wr addr v) s)
          (WriteFailed s (s.switched (needOf addr.toNat)) addr.toNat v)))
      ∧ (s.env.fails = selectFlags s (needOf addr.toNat) ++ false :: true :: l →
        Ready (.upd addr m v) s → Nexts (exec (.upd addr m v) s)
          (WriteFailed s (s.rdAt addr.toNat) addr.toNat
            ((s.rdValue addr.toNat &&& ~~~m) ||| (v &&& m)))))
    ∧ (Ready (.bwr addr len) s → 1 ≤ len.toNat → rangeCheck addr.toNat len.toNat = none →
      touchesGap addr.toNat len.toNat = false → offBanksel s.cfg addr.toNat len.toNat = true →
      s.env.fails = selectFlags s (bulkBank addr.toNat len.toNat (needOf addr.toNat)) ++ true :: l →
      Nexts (exec (.bwr addr len) s)
        (BurstFailed s (s.switched (bulkBank addr.toNat len.toNat (needOf addr.toNat))) addr.toNat
          (s.payloadOf s.active)))

/-- RD, WR, UPD and BWR in the gap `[0x100,0x130)`: no meaning under `refuse`, `InvalidAddress` without
effect under `invalid_address`, the any-bank register `addr - 0x100` after a switch to bank 1 under
`bank1_window`; a BWR also where only a part of its range lies in the gap, after its range checks. The
three policies are the spec's own, and which holds is open (R127, D10); that a BWR which starts below
the gap has no meaning under `bank1_window` is the model's choice (log entry 13). -/
def Obligations.GapPolicyDecidesGapAccesses : Prop :=
  ∀ (addr : BitVec 12) (m v : Byte) (len : BitVec 16) (s u : State) (a : Nat), Fine s →
    u = s.switched (some .bank1) → a = addr.toNat - 0x100 →
    (0x100 ≤ addr.toNat → addr.toNat < 0x130 →
      (Ready (.rd addr) s → exec (.rd addr) s = gapOutcome s (u.didRead a a) (u.busValue a))
      ∧ (Ready (.wr addr v) s → exec (.wr addr v) s = gapOutcome s (u.didWrite a a v) 0)
      ∧ (Ready (.upd addr m v) s → exec (.upd addr m v) s
          = gapOutcome s
              ((u.didRead a a).didWrite a a ((u.busValue a &&& ~~~m) ||| (v &&& m))) 0))
    ∧ (Ready (.bwr addr len) s → rangeCheck addr.toNat len.toNat = none →
      touchesGap addr.toNat len.toNat = true →
      exec (.bwr addr len) s =
        if s.cfg.gapPolicy = .bank1Window ∧ addr.toNat < 0x100 then .refused .gapStraddle
        else gapOutcome s (s.windowBurst a (s.payloadOf s.active)) 0)

/-- BWR of a range that passes the range checks, keeps off the gap and does not cover the bank select:
one burst, after one select where the needed bank differs (Bank0 for a range that starts in the any-bank
region and reaches 0x30). That such a range is legal and selects Bank0 is the spec's own choice (R132,
D11), as is the one burst, ascending (D13). -/
def Obligations.BwrIssuesOneBurst : Prop :=
  ∀ (addr : BitVec 12) (len : BitVec 16) (s : State), Ready (.bwr addr len) s → Fine s →
    1 ≤ len.toNat → rangeCheck addr.toNat len.toNat = none →
    touchesGap addr.toNat len.toNat = false →
    ¬(addr.toNat ≤ s.cfg.bank.addr ∧ s.cfg.bank.addr < addr.toNat + len.toNat) →
    exec (.bwr addr len) s
      = .next ((s.bwrAt addr.toNat (s.payloadOf s.active)).respond s.active (okResp 0))

/-- What that burst leaves: byte `i` of the payload at `addr + i` where that register is plain, every
register outside the range but the bank select as before. The order of the bytes is the spec's
own choice (D13), as are the plain registers (D17). -/
def Obligations.BwrStoresBytesAscending : Prop :=
  ∀ (addr : Nat) (bytes : List Byte) (s : State), Memory.wf s.x →
    ¬(addr ≤ s.cfg.bank.addr ∧ s.cfg.bank.addr < addr + bytes.length) →
    (∀ (i : Nat) (h : i < bytes.length), isPlain s.cfg (addr + i) = true →
      (s.bwrAt addr bytes).x.read (addr + i) = bytes[i])
    ∧ ∀ a, a ≠ s.cfg.bank.addr → (a < addr ∨ addr + bytes.length ≤ a) →
      (s.bwrAt addr bytes).x.read a = s.x.read a

/-- A bulk write whose payload covers the bank-select register (a hazard): one burst, the shadow is not
updated, and the downstream bank is the one the byte selects. -/
def Obligations.BwrOverTheBankSelectChangesTheBank : Prop :=
  ∀ (addr : BitVec 12) (len : BitVec 16) (s : State) (v : Byte), Ready (.bwr addr len) s → Fine s →
    addr.toNat ≤ s.cfg.bank.addr → addr.toNat + len.toNat ≤ 0x30 →
    (s.payloadOf s.active)[s.cfg.bank.addr - addr.toNat]? = some v →
    Nexts (exec (.bwr addr len) s) fun t =>
      t.ctx = s.ctx ∧ t.hwBank = bankOf s.cfg.bank v (Config.freeBank s.env.draws)
      ∧ t.bus = .burst addr.toNat (s.payloadOf s.active) true :: s.bus
      ∧ Answered s t (okResp 0)

/-- `RangeCheck`: the start address first, then the end of the range, then the boundary. The end
check and its place before the boundary are the spec's own choice (R130, D11). -/
def Obligations.RangeCheckOrder : Prop :=
  ∀ addr n : Nat,
    rangeCheck addr n =
      if 0x1C0 ≤ addr then some .invalidAddress
      else if 1 ≤ n ∧ addr + n > 0x1C0 then some .invalidAddress
      else if 1 ≤ n ∧ addr < 0x130 ∧ addr + n - 1 ≥ 0x130 then some .bankBoundaryViolation
      else none

/-- A bulk write that fails a range check, or that is empty: the status of the check (OK for an
empty one at a valid address), no bus transaction, no bank switch, only the response changes. The
end check and the empty write are the spec's own choices (D11, D12). -/
def Obligations.BwrChecksPrecedeAnyTransaction : Prop :=
  ∀ (addr : BitVec 12) (len : BitVec 16) (s : State), Ready (.bwr addr len) s →
    (∀ e, rangeCheck addr.toNat len.toNat = some e →
      exec (.bwr addr len) s = .next (s.respond s.active ⟨e, 0⟩))
    ∧ (len = 0 → addr.toNat < 0x1C0 →
      exec (.bwr addr len) s = .next (s.respond s.active (okResp 0)))

/-! ## DDC engine -/

/-- DDC_ABORT ends, whatever the status register answers, with OK or `ProtocolError`; `DDCM` holds
`DDCM_HOST`, the three saved bytes are what the registers held, and no register is restored or otherwise
changed (that nothing is restored is the spec's own reading, R146, U7; log entry 22). -/
def Obligations.DdcAbortCompletes : Prop :=
  ∀ s : State, Ready .ddcAbort s → Alone s → Fine s → paramsOk s.cfg = true → Memory.wf s.x →
    Nexts (exec .ddcAbort s) fun t =>
      t = { s with
        x := t.x, hwBank := t.hwBank, ctx := { s.ctx with currentBank := t.ctx.currentBank }
        resp := t.resp, hostPort := t.hostPort, events := t.events, bus := t.bus, env := t.env }
      ∧ t.ctx.currentBank = t.hwBank ∧ t.idle (.port .host) = true
      ∧ (t.resp = okResp 0 ∨ t.resp = ⟨.protocolError, 0⟩)
      ∧ (∀ a, a ≠ s.cfg.bank.addr → a ≠ s.cfg.ddc.ddcmAddr → t.x.read a = s.x.read a)
      ∧ (isPlain s.cfg s.cfg.ddc.ddcmAddr = true →
          t.x.read s.cfg.ddc.ddcmAddr = s.cfg.ddc.ddcmHost
          ∧ t.hostPort.seq.sav.ddcm = s.x.read s.cfg.ddc.ddcmAddr)
      ∧ (isPlain s.cfg s.cfg.rst.swrstAddr = true →
          t.hostPort.seq.sav.swrst = s.x.read s.cfg.rst.swrstAddr)
      ∧ (isPlain s.cfg s.cfg.rst.hdcpAddr = true →
          t.hostPort.seq.sav.hdcp = s.x.read s.cfg.rst.hdcpAddr)

/-- Two iterations run unconditionally: on a DDC engine in the any-bank region with a command register
and a status register of their own, DDC_ABORT issues exactly two abort commands and 2 to 400 status
reads, whatever is answered. -/
def Obligations.DdcAbortIssuesExactlyTwoAborts : Prop :=
  ∀ s : State, Ready .ddcAbort s → Alone s → Fine s → paramsOk s.cfg = true →
    s.cfg.ddc.cmdAddr < 0x30 → s.cfg.ddc.statAddr < 0x30 →
    s.cfg.ddc.ddcmAddr ≠ s.cfg.ddc.cmdAddr → s.cfg.ddc.ddcmAddr ≠ s.cfg.ddc.statAddr →
    s.cfg.rst.swrstAddr ≠ s.cfg.ddc.statAddr → s.cfg.rst.hdcpAddr ≠ s.cfg.ddc.statAddr →
    Nexts (exec .ddcAbort s) fun t => ∃ l, t.bus = l ++ s.bus
      ∧ l.countP (BusOp.isWriteOf s.cfg.ddc.cmdAddr s.cfg.ddc.cmdAbort) = 2
      ∧ 2 ≤ l.countP (BusOp.isReadAt s.cfg.ddc.statAddr)
      ∧ l.countP (BusOp.isReadAt s.cfg.ddc.statAddr) ≤ 400

/-- The result of DDC_ABORT: it succeeds exactly when at least one of its two polls of the status
bytes answers Done; two exhausted polls give `ProtocolError`, not `ProtocolTimeout`. In a poll an
error bit wins over the done bit of the same sample, and only the error bits and the done bit count.
Both are the spec's own choices (D18, D20). -/
def Obligations.DdcAbortSucceedsIffAPollIsDone : Prop :=
  (∀ s : State, Ready .ddcAbort s → Alone s → Fine s → paramsOk s.cfg = true →
    400 ≤ (s.env.scriptOf s.cfg.ddc.statAddr).length →
    s.cfg.ddc.ddcmAddr ≠ s.cfg.ddc.statAddr → s.cfg.rst.swrstAddr ≠ s.cfg.ddc.statAddr →
    s.cfg.rst.hdcpAddr ≠ s.cfg.ddc.statAddr →
    Nexts (exec .ddcAbort s) fun t =>
      t.resp =
        if (pollScript s.cfg.ddc 200 (s.env.scriptOf s.cfg.ddc.statAddr)).1 = .done
            ∨ (pollScript s.cfg.ddc 200
                (pollScript s.cfg.ddc 200 (s.env.scriptOf s.cfg.ddc.statAddr)).2).1 = .done
        then okResp 0 else ⟨.protocolError, 0⟩)
  ∧ ∀ (d : DdcParams) (v w : Byte),
      (v &&& (d.stNack ||| d.stWaitbus ||| d.stArblose) ≠ 0 →
        pollSample d v = .error (v &&& (d.stNack ||| d.stWaitbus ||| d.stArblose)))
      ∧ (v &&& (d.stNack ||| d.stWaitbus ||| d.stArblose) = 0 →
        (v &&& d.stDone ≠ 0 → pollSample d v = .done)
        ∧ (v &&& d.stDone = 0 → pollSample d v = .undecided))
      ∧ ((v ^^^ w) &&& (d.stDone ||| d.stNack ||| d.stWaitbus ||| d.stArblose) = 0 →
        pollSample d v = pollSample d w)

/-- DDC_ABORT in full, whatever the status register answers: three saves, the mastership write,
twice the abort command and a poll, in that order (`abortAt`), and the response that follows from
the two polls; and where a transaction fails, whichever it is, the operation ends there with
`IoError`, and no later step is run. The poll's details, the verdict, that nothing is restored and
that the first failure ends it are the spec's own choices (D18, D20, D21, D22; log entry 22); what a
failed write leaves is D9. -/
def Obligations.DdcAbortFollowsItsRule : Prop :=
  (∀ s : State, Ready .ddcAbort s → Alone s → Fine s → paramsOk s.cfg = true →
    exec .ddcAbort s = .next ((s.abortAt (.port .host)).2.respond .host
      (if (s.abortAt (.port .host)).1 then okResp 0 else ⟨.protocolError, 0⟩)))
  ∧ ∀ (s : State) (k : Nat) (l : List Bool), Ready .ddcAbort s → Alone s → paramsOk s.cfg = true →
    s.ctx.currentBank = s.hwBank → Memory.wf s.x →
    s.env.fails = List.replicate k false ++ true :: l →
    s.bus.length + k < (s.abortAt (.port .host)).2.bus.length →
    Nexts (exec .ddcAbort s) (AbortFailed s k)

/-- RDBLK ends, whatever the environment answers, with OK, `ProtocolTimeout` or `ProtocolError`; on OK
the result holds exactly `length` bytes; the controller's own state but its draws is left alone. Which
exhausted poll gives which error is in part the spec's own choice (D19, D20). -/
def Obligations.RdblkCompletes : Prop :=
  ∀ (block : BitVec 8) (length : BitVec 16) (s : State), Ready (.rdblk block length) s → Alone s →
    Fine s → paramsOk s.cfg = true →
    Nexts (exec (.rdblk block length) s) fun t =>
      t = { s with
        x := t.x, hwBank := t.hwBank, ctx := { s.ctx with currentBank := t.ctx.currentBank }
        result := t.result, resp := t.resp, hostPort := t.hostPort, events := t.events, bus := t.bus
        env := t.env }
      ∧ t.ctx.currentBank = t.hwBank ∧ t.idle (.port .host) = true
      ∧ t.resp ∈ [okResp 0, ⟨.protocolTimeout, 0⟩, ⟨.protocolError, 0⟩]
      ∧ (t.resp = okResp 0 → t.result.length = length.toNat)
      ∧ ∀ a, a ∉ [s.cfg.bank.addr, s.cfg.ddc.ddcmAddr, s.cfg.ddc.hdrAddr, s.cfg.ddc.offAddr,
          s.cfg.ddc.cntAddr, s.cfg.ddc.segAddr] → t.x.read a = s.x.read a

/-- A clean block read: the bus-hang bit reads 0 and every status sample is Done. The response is
OK, the result is the FIFO bytes in order, and with the DDC registers and the hang group in the
any-bank region `2 + 8 * ceil(length/32) + length` transactions were issued, whose writes are, in
order, the FIFO clear and then for chunk `k` the FIFO clear, the header, the offset `(block % 2) *
length + 32 * k`, the count `min(32, length - 32 * k)`, the segment `block / 2` and the read
command. The order of the register writes and the hang check are the spec's own choices (D24,
D25). -/
def Obligations.RdblkCleanReadReturnsTheFifoBytes : Prop :=
  ∀ (block : BitVec 8) (length : BitVec 16) (s : State) (hang : Byte) (bytes more : List Byte),
    Ready (.rdblk block length) s → Alone s → Fine s → paramsOk s.cfg = true →
    s.cfg.ddc.statAddr ≠ s.cfg.ddc.fifoAddr →
    s.cfg.irq.statAddr.get s.cfg.irq.clearMap.busHang.group ≠ s.cfg.ddc.statAddr →
    s.cfg.irq.statAddr.get s.cfg.irq.clearMap.busHang.group ≠ s.cfg.ddc.fifoAddr →
    (s.env.scriptOf (s.cfg.irq.statAddr.get s.cfg.irq.clearMap.busHang.group)).head? = some hang →
    hang &&& s.cfg.irq.clearMap.busHang.statusBit = 0 →
    2 * ((length.toNat + 31) / 32) ≤ (s.env.scriptOf s.cfg.ddc.statAddr).length →
    (∀ b ∈ s.env.scriptOf s.cfg.ddc.statAddr, isDoneByte s.cfg.ddc b) →
    s.env.scriptOf s.cfg.ddc.fifoAddr = bytes ++ more → bytes.length = length.toNat →
    Nexts (exec (.rdblk block length) s) fun t =>
      t.resp = okResp 0 ∧ t.result = bytes
      ∧ (s.cfg.irq.statAddr.get s.cfg.irq.clearMap.busHang.group < 0x30 →
          s.cfg.ddc.hdrAddr < 0x30 → s.cfg.ddc.offAddr < 0x30 → s.cfg.ddc.cntAddr < 0x30 →
          s.cfg.ddc.segAddr < 0x30 → s.cfg.ddc.cmdAddr < 0x30 → s.cfg.ddc.statAddr < 0x30 →
          s.cfg.ddc.fifoAddr < 0x30 →
          ∃ l, t.bus = l ++ s.bus
            ∧ l.length = 2 + 8 * ((length.toNat + 31) / 32) + length.toNat
            ∧ l.reverse.filterMap BusOp.written
              = (s.cfg.ddc.cmdAddr, s.cfg.ddc.cmdFifoClr)
                :: (List.range ((length.toNat + 31) / 32)).flatMap fun k =>
                  [(s.cfg.ddc.cmdAddr, s.cfg.ddc.cmdFifoClr),
                    (s.cfg.ddc.hdrAddr, s.cfg.ddc.hdrEdid),
                    (s.cfg.ddc.offAddr,
                      BitVec.ofNat 8 ((block.toNat % 2) * length.toNat + 32 * k)),
                    (s.cfg.ddc.cntAddr, BitVec.ofNat 8 (min 32 (length.toNat - 32 * k))),
                    (s.cfg.ddc.segAddr, BitVec.ofNat 8 (block.toNat / 2)),
                    (s.cfg.ddc.cmdAddr, s.cfg.ddc.cmdRead)])

/-- RDBLK in full, whatever is answered (`rdblkAt`): the hang check, DDC_ABORT where the bit is set
(`ProtocolError` where neither poll is Done), the FIFO clear, and chunk by chunk the FIFO clear, the
poll of 200, the five writes, the poll of 250 and the FIFO reads; an error bit in a poll gives
`ProtocolError` (in the first poll after one more FIFO clear), an exhausted poll `ProtocolTimeout`.
And whichever transactions fail (`rdblkRun`): a failed primitive, wherever it stands, ends RDBLK there
with `IoError`, but for the clean-up FIFO clear; `refused` only where the downstream bank is not the
shadow's (as a failed select may leave it) and an offset reaches no register (R74, U9). The poll's
details, the exhausted first poll, the failures, the writes' order and the hang check are the spec's own
choices (D18, D19, D22, D24, D25). -/
def Obligations.RdblkFollowsItsRule : Prop :=
  ∀ (block : BitVec 8) (length : BitVec 16) (s : State), Ready (.rdblk block length) s → Alone s →
    paramsOk s.cfg = true →
    (Fine s →
      exec (.rdblk block length) s = .next ((s.rdblkAt block.toNat length.toNat).2.respond .host
        ⟨(s.rdblkAt block.toNat length.toNat).1, 0⟩))
    ∧ exec (.rdblk block length) s
      = hostOutcome (s.rdblkRun (.port .host) block.toNat length.toNat)

/-- The clean-up FIFO clear after an error bit in the poll before a command is best effort: whichever
chunk `j` and sample showed the bit, and whether or not DDC_ABORT ran, where a transaction of that clear
fails RDBLK still ends with `ProtocolError`, `result` holds the bytes of the chunks before, nothing
more is issued, and no register but possibly the bank select changed since the poll. That it is best
effort is the spec's own choice (D22). -/
def Obligations.RdblkCleanupFailureIsAbsorbed : Prop :=
  ∀ (block : BitVec 8) (length : BitVec 16) (s h u0 u : State) (bits : Byte) (j k : Nat)
    (l : List Bool),
    Ready (.rdblk block length) s → Alone s → paramsOk s.cfg = true →
    s.ctx.currentBank = s.hwBank → s.env.fails = List.replicate k false ++ true :: l →
    ({ s with result := [] } : State).hangCheckedAt = (true, h) →
    j < (chunkSizes length.toNat).length →
    (h.wrAt s.cfg.ddc.cmdAddr s.cfg.ddc.cmdFifoClr).chunksAt (block.toNat / 2)
      ((block.toNat % 2) * length.toNat) ((chunkSizes length.toNat).take j) = (.ok, u0) →
    (u0.wrAt s.cfg.ddc.cmdAddr s.cfg.ddc.cmdFifoClr).pollAt 200 = (.error bits, u) →
    u.bus.length ≤ s.bus.length + k →
    s.bus.length + k < (u.wrAt s.cfg.ddc.cmdAddr s.cfg.ddc.cmdFifoClr).bus.length →
    Nexts (exec (.rdblk block length) s) fun t =>
      t.resp = ⟨.protocolError, 0⟩ ∧ t.result = u.result
      ∧ t.bus.length = s.bus.length + k + 1 ∧ (∃ m, t.bus = m ++ u.bus)
      ∧ ∀ a, a ≠ s.cfg.bank.addr → t.x.read a = u.x.read a

/-- `segment = block / 2`, `offset = (block % 2) * length`, chunks of `min(remaining, 32)` bytes, that is
`ceil(length/32)` chunks of 32 bytes each except possibly the last, and no offset of a legal block read
exceeds a byte: the last chunk starts at most at 224. -/
def Obligations.EdidAddressingNeverTruncates : Prop :=
  ∀ (block : BitVec 8) (length : Nat), length ≤ 128 →
    edidSegment block.toNat = block.toNat / 2
    ∧ edidOffset block.toNat length = (block.toNat % 2) * length
    ∧ (BitVec.ofNat 8 (edidSegment block.toNat)).toNat = block.toNat / 2
    ∧ (∀ remaining, chunkSize remaining = min remaining 32)
    ∧ (chunkSizes length).length = (length + 31) / 32 ∧ (chunkSizes length).sum = length
    ∧ (∀ (k : Nat) (h : k < (chunkSizes length).length),
        (chunkSizes length)[k] = min (length - 32 * k) 32)
    ∧ ∀ k, 32 * k < length →
        edidOffset block.toNat length + 32 * k ≤ 224
        ∧ (BitVec.ofNat 8 (edidOffset block.toNat length + 32 * k)).toNat
            = edidOffset block.toNat length + 32 * k

/-! ## Interrupt dispatcher and hotplug task -/

/-- IRQ_DISPATCH ends, whatever the environment answers: the dispatcher is idle again, the pending flag
is as before or set by a snapshot that shows the hotplug bit, the connector status is untouched, and no
register changed but the bank select, `SWRST` and `DDCM`, these two only where the snapshot shows
audio-overflow or bus-hang. That the handlers look at the snapshot is the spec's own choice (D29). -/
def Obligations.IrqDispatchCompletes : Prop :=
  ∀ s : State, s.dispRunning = false → s.idle .dispatcher = true → s.ctx.lock = none → Alone s →
    Fine s → paramsOk s.cfg = true →
    Nexts (exec .irqDispatch s) fun t =>
      t = { s with
        x := t.x, hwBank := t.hwBank
        ctx := { s.ctx with
          currentBank := t.ctx.currentBank
          hotplugPending := s.ctx.hotplugPending || asserted s.cfg.irq t.snap .hotplug }
        snap := t.snap, disp := { pos := [], sav := t.disp.sav }, bus := t.bus, env := t.env }
      ∧ t.ctx.currentBank = t.hwBank
      ∧ ∀ a, a ≠ s.cfg.bank.addr →
          (asserted s.cfg.irq t.snap .audioOverflow = true → a ≠ s.cfg.rst.swrstAddr) →
          (asserted s.cfg.irq t.snap .busHang = true → a ≠ s.cfg.ddc.ddcmAddr) →
          t.x.read a = s.x.read a

/-- A dispatch whose snapshot asserts hotplug alone: four status reads, one write of the hotplug clear
bit, the two acknowledge updates, the pending flag, and nothing else. The shape of the clear write and
of the strobe is the spec's own choice (D27, D28). -/
def Obligations.HotplugOnlyDispatch : Prop :=
  ∀ (s s1 s2 s3 s4 : State) (snap : PerGroup Byte), s.dispRunning = false →
    s.idle .dispatcher = true → s.ctx.lock = none → Alone s → Fine s → paramsOk s.cfg = true →
    s1 = s.rdAt s.cfg.irq.statAddr.core → s2 = s1.rdAt s.cfg.irq.statAddr.stat0 →
    s3 = s2.rdAt s.cfg.irq.statAddr.stat1 → s4 = s3.rdAt s.cfg.irq.statAddr.ext →
    snap = { core := s.rdValue s.cfg.irq.statAddr.core, stat0 := s1.rdValue s.cfg.irq.statAddr.stat0
             stat1 := s2.rdValue s.cfg.irq.statAddr.stat1
             ext := s3.rdValue s.cfg.irq.statAddr.ext } →
    (∀ src, asserted s.cfg.irq snap src = decide (src = .hotplug)) → snap.ext = 0 →
    exec .irqDispatch s =
      .next { ((s4.wrAt s.cfg.irq.clearMap.hotplug.clearRegister
          s.cfg.irq.clearMap.hotplug.clearBit).updAt s.cfg.irq.ackAddr s.cfg.irq.ackBit
          s.cfg.irq.ackBit).updAt s.cfg.irq.ackAddr s.cfg.irq.ackBit 0 with
        snap := snap
        ctx := { (((s4.wrAt s.cfg.irq.clearMap.hotplug.clearRegister
          s.cfg.irq.clearMap.hotplug.clearBit).updAt s.cfg.irq.ackAddr s.cfg.irq.ackBit
          s.cfg.irq.ackBit).updAt s.cfg.irq.ackAddr s.cfg.irq.ackBit 0).ctx with
            hotplugPending := true } }

/-- IRQ_DISPATCH in full, for any snapshot and whatever is answered (`dispatchAt`): four status
reads, one clear write per asserted row in row order, the ext write-back unless it is 0x00, the two
acknowledge updates, then for each asserted source its handler in the fixed order: the FIFO clear,
DDC_ABORT (its result ignored), the soft-reset pulse, the video-stable read, the pending flag. And
whichever transactions fail (`dispatchSteps`): a group whose read failed counts as 0x00, a failed clear,
set or handler is absorbed and every later step still runs, the clearing half of each pulse among them;
`refused` only where the downstream bank is not the shadow's (as a failed select may leave it) and an
offset reaches no register (R74, U9). One clear write per row, the two pulses, the snapshot for the handlers and a failed read as
0x00 are the spec's own choices (D26 to D29). -/
def Obligations.DispatchFollowsItsRule : Prop :=
  ∀ s : State, s.dispRunning = false → s.idle .dispatcher = true → s.ctx.lock = none → Alone s →
    paramsOk s.cfg = true →
    (Fine s → exec .irqDispatch s = .next s.dispatchAt)
    ∧ exec .irqDispatch s
      = dispatchOutcome (State.inTurn (dispatchSteps s.cfg) { s with dispRunning := true })

/-- Step A of HPD_TASK is an atomic step of its own: with another turn scheduled it lowers the
pending flag and raises `task_running`, and nothing else happens in it, so any agent may move before
the detect bit is read; and a run already started never lowers the flag again, so an interrupt
dispatched after step A causes another run. When the flag falls is the spec's own choice (D31); that
a turn with another after it is one step is the model's scheduler (log entry 8). -/
def Obligations.TaskStartIsAStepOfItsOwn : Prop :=
  ∀ (s : State) (rest : List Turn), s.env.sched = .run .task :: rest →
    (∀ b more, rest = b :: more → s.idle .task = true → s.ctx.hotplugPending = true →
      s.taskRunning = false →
      Nexts (step s) fun t =>
        t = { s with
          taskRunning := true, ctx := { s.ctx with hotplugPending := false }
          task := { s.task with pos := t.task.pos }, env := { s.env with sched := rest } }
        ∧ t.idle .task = false)
    ∧ ∀ t, (∃ present, s.task.pos ∈ [taskProgram, [.hpdUpdate present, .close], [.close]]) →
        step s = .next t → t.ctx.hotplugPending = s.ctx.hotplugPending

/-- HPD_TASK: the pending flag falls, the detect bit is read once, the status becomes Connected
where it reads 1 and Disconnected where it reads 0, exactly one notification is emitted if that is a
change and none otherwise, and nothing else changes. The flag's fall and the bit's meaning are the
spec's own choices (D31, D32). -/
def Obligations.HpdTaskSamplesAndNotifiesOnChange : Prop :=
  ∀ (s : State) (new : ConnStatus), s.taskRunning = false → s.idle .task = true →
    s.ctx.lock = none → Alone s → Fine s → isRegister s.cfg.irq.hpdDetAddr = true →
    new = (if s.rdValue s.cfg.irq.hpdDetAddr &&& s.cfg.irq.hpdDetBit ≠ 0 then .connected
      else .disconnected) →
    exec .hpdTask s =
      .next { s.rdAt s.cfg.irq.hpdDetAddr with
        ctx := { (s.rdAt s.cfg.irq.hpdDetAddr).ctx with
          connectorStatus := new, hotplugPending := false }
        events := if new = s.ctx.connectorStatus then s.events else .notify new :: s.events }

/-- A failed read of the detect bit, in its bank select or, after a select or without one, in the read:
the run ends with no change of the status and no notification, and nothing more is issued. The spec's
own choice (D33). -/
def Obligations.HpdTaskFailedReadChangesNothing : Prop :=
  ∀ (s : State) (k : Nat) (l : List Bool), s.taskRunning = false → s.idle .task = true →
    s.ctx.lock = none → Alone s → s.env.fails = List.replicate k false ++ true :: l →
    bankParamsOk s.cfg = true → s.ctx.currentBank = s.hwBank →
    isRegister s.cfg.irq.hpdDetAddr = true →
    s.bus.length + k < (s.rdAt s.cfg.irq.hpdDetAddr).bus.length →
    Nexts (exec .hpdTask s) fun t =>
      t = { s with
        x := t.x, hwBank := t.hwBank
        ctx := { s.ctx with hotplugPending := false, currentBank := t.ctx.currentBank }
        bus := t.bus, env := t.env }
      ∧ t.bus.length = s.bus.length + k + 1
      ∧ ∀ a, a ≠ s.cfg.bank.addr → t.x.read a = s.x.read a

/-! ## Bridge sequencer -/

/-- LDM, selector by selector, with a value in its range: the one latch is loaded, no lock is taken and
no bus transaction issued; a value out of its range loads nothing. The operation is the spec's own
(D35). -/
def Obligations.LdmLoadsOneLatch : Prop :=
  ∀ (v : BitVec 24) (s : State),
    (Ready (.ldm .dmWidth v) s → exec (.ldm .dmWidth v) s = .next
      ({ s with latches := { s.latches with dmWidth := v.setWidth 16 } }.respond s.active (okResp 0)))
    ∧ (Ready (.ldm .dmHeight v) s → exec (.ldm .dmHeight v) s = .next
      ({ s with latches := { s.latches with dmHeight := v.setWidth 16 } }.respond s.active (okResp 0)))
    ∧ (Ready (.ldm .dmClockKhz v) s → exec (.ldm .dmClockKhz v) s = .next
      ({ s with latches := { s.latches with dmClockKhz := v } }.respond s.active (okResp 0)))
    ∧ (Ready (.ldm .dmPixrep v) s → exec (.ldm .dmPixrep v) s = .next
      ({ s with latches := { s.latches with dmPixrep := v.setWidth 8 } }.respond s.active (okResp 0)))
    ∧ (Ready (.ldm .dmRefresh v) s → exec (.ldm .dmRefresh v) s = .next
      ({ s with latches := { s.latches with dmRefresh := v.setWidth 8 } }.respond s.active (okResp 0)))
    ∧ (Ready (.ldm .dmProgressive v) s → exec (.ldm .dmProgressive v) s = .next
      ({ s with latches := { s.latches with dmProgressive := v.setWidth 1 } }.respond s.active
        (okResp 0)))
    ∧ (Ready (.ldm .cfgInMode v) s → ∀ m, [ColorMode.rgb444, .yuv422, .yuv444][v.toNat]? = some m →
      exec (.ldm .cfgInMode v) s = .next
        ({ s with latches := { s.latches with cfgInMode := m } }.respond s.active (okResp 0)))
    ∧ (Ready (.ldm .cfgOutMode v) s → ∀ m, [ColorMode.rgb444, .yuv422, .yuv444][v.toNat]? = some m →
      exec (.ldm .cfgOutMode v) s = .next
        ({ s with latches := { s.latches with cfgOutMode := m } }.respond s.active (okResp 0)))
    ∧ (Ready (.ldm .dviMode v) s → exec (.ldm .dviMode v) s = .next
      ({ s with ctx := { s.ctx with dviMode := decide (v = 1) } }.respond s.active (okResp 0)))
    ∧ ∀ sel, s.hasPort s.active = true → s.idle (.port s.active) = true →
      (Instr.ldm sel v).wellFormed = false →
      exec (.ldm sel v) s = .next (s.respond s.active ⟨.illegalCommand, 0⟩)

/-- MODE_SET whose second block lies in one region (PC4 for its payload): the mode bit, bytes 0 to
4, the remaining bytes if any, the checksum, then VID_EN. The bit's polarity and the payload's shape
are the spec's own choices (D36, D37). -/
def Obligations.ModeSetWritesModeInfoframeAndVideo : Prop :=
  ∀ (len : BitVec 8) (csum : Byte) (s : State), Ready (.modeSet len csum) s → Alone s → Fine s →
    TargetsOk s →
    exec (.modeSet len csum) s
      = .next ((s.modeSetAt csum s.payload).respond s.active (okResp 0))

/-- MODE_SET whose remaining bytes run past a range check: the register layer's own error, after the mode
bit and block A were written, and without the checksum and VID_EN. That the first error ends the
sequence and nothing is undone is the spec's own choice (D38). -/
def Obligations.ModeSetOverlongPayloadFails : Prop :=
  ∀ (len : BitVec 8) (csum : Byte) (s : State) (e : Status), Ready (.modeSet len csum) s → Alone s →
    Fine s → paramsOk s.cfg = true → bulksOffBanksel s.cfg = true → 5 < len.toNat →
    rangeCheck s.cfg.bridge.aviBAddr (len.toNat - 5) = some e →
    exec (.modeSet len csum) s
      = .next (((s.updAt s.cfg.bridge.hdmiModeAddr s.cfg.bridge.hdmiModeBit
          (if s.ctx.dviMode then 0 else s.cfg.bridge.hdmiModeBit)).bwrAt s.cfg.bridge.aviAAddr
          (s.payload.take 5)).respond s.active ⟨e, 0⟩)

/-- VID_EN: the input mode, CSC_CFG with the derived colorimetry and range, the AFE updates in table
order. -/
def Obligations.VidEnProgramsTheVideoPath : Prop :=
  ∀ s : State, Ready .vidEn s → Alone s → Fine s → paramsOk s.cfg = true →
    bulksOffBanksel s.cfg = true → exec .vidEn s = .next (s.vidAt.respond s.active (okResp 0))

/-- `HighClock`, `Colorimetry` and `LimitedRange`, on unbounded naturals. That the arithmetic is
unbounded is the spec's own choice (D39). -/
def Obligations.VideoDerivations : Prop :=
  ∀ l : Latches,
    (highClock l = true ↔ (l.dmPixrep.toNat + 1) * l.dmClockKhz.toNat > 80000)
    ∧ (deriveColorimetry l = .itu709 ↔ l.dmWidth.toNat * 9 = l.dmHeight.toNat * 16)
    ∧ (deriveColorimetry l = .itu601 ↔
        l.dmWidth.toNat * 9 ≠ l.dmHeight.toNat * 16 ∧ l.dmWidth.toNat * 3 = l.dmHeight.toNat * 4)
    ∧ (limitedRange l = true ↔
        l.dmWidth = 640 ∧ l.dmHeight = 480 ∧ l.dmRefresh = 60 ∧ l.dmProgressive = 1)
    ∧ (limitedRange l = true → deriveColorimetry l = .itu601)

/-- CSC_CFG: for a conversion the matrix of (operation, colorimetry, range), then the control
register, then `need_csc`. One UPD of the control register, after the matrix, and what the range
selects are the spec's own choices (D40, D43). -/
def Obligations.CscCfgWritesMatrixAndControl : Prop :=
  ∀ (c : Colorimetry) (limited : Bool) (s : State), Ready (.cscCfg c limited) s → Alone s → Fine s →
    paramsOk s.cfg = true → bulksOffBanksel s.cfg = true →
    exec (.cscCfg c limited) s = .next ((s.cscAt c limited).respond s.active (okResp 0))

/-- The nine cells of the `csc_op` table (the diagonal and RGB444 to YUV444 are the source's, the other
five the spec's, D41), and what CSC_CFG does with each: Bypass writes no matrix, RGB2YUV and YUV2RGB the
matrix of their direction, of ITU709 for that colorimetry and of ITU601 for ITU601 and for Unset (D42),
verbatim; then the operation's code and the pair's two flags go into `CSC_CTRL`, and `need_csc` is set
exactly for a conversion. -/
def Obligations.CscCfgBypassAndConversion : Prop :=
  ∀ (c : Colorimetry) (limited : Bool) (s : State),
    [cscOp .rgb444 .rgb444, cscOp .rgb444 .yuv444, cscOp .rgb444 .yuv422,
        cscOp .yuv444 .rgb444, cscOp .yuv444 .yuv444, cscOp .yuv444 .yuv422,
        cscOp .yuv422 .rgb444, cscOp .yuv422 .yuv444, cscOp .yuv422 .yuv422]
      = [.bypass, .rgb2yuv, .rgb2yuv, .yuv2rgb, .bypass, .bypass, .yuv2rgb, .bypass, .bypass]
    ∧ s.cscAt c limited =
      (let b := s.cfg.bridge
       let i := s.latches.cfgInMode
       let o := s.latches.cfgOutMode
       let pick := fun m : MatrixSet => match c, limited with
         | .itu709, true => m.itu709Limited
         | .itu709, false => m.itu709Full
         | .itu601, true => m.itu601Limited
         | .itu601, false => m.itu601Full
         | .unset, true => m.itu601Limited
         | .unset, false => m.itu601Full
       let flags := (b.cscFlags.get i).get o
       let code := match cscOp i o with
         | .bypass => b.cscBypass
         | .rgb2yuv => b.cscRgb2Yuv
         | .yuv2rgb => b.cscYuv2Rgb
       let u := match cscOp i o with
         | .bypass => s
         | .rgb2yuv => s.bwrAt b.cscCoefAddr (pick b.matrixRgb2Yuv)
         | .yuv2rgb => s.bwrAt b.cscCoefAddr (pick b.matrixYuv2Rgb)
       (u.updAt b.cscCtrlAddr b.cscCtrlMask
          (code ||| (if flags.udfilt then b.cscUdfilt else 0)
            ||| (if flags.dither then b.cscDither else 0))).setNeedCsc
        (match cscOp i o with
         | .bypass => false
         | .rgb2yuv => true
         | .yuv2rgb => true))

/-- BR_ENABLE: the gate if `need_csc`, the infoframe bits, the video reset released (fixed values and
not a toggle, and which of them enable has: the spec's own reading, D45, C8). -/
def Obligations.BrEnableForcesEnabledBits : Prop :=
  ∀ s : State, Ready .brEnable s → Alone s → Fine s → paramsOk s.cfg = true →
    exec .brEnable s = .next (s.enabledAt.respond s.active (okResp 0))

/-- BR_DISABLE: the same three steps with the complementary values (the spec's own reading, D45, C8). -/
def Obligations.BrDisableForcesDisabledBits : Prop :=
  ∀ s : State, Ready .brDisable s → Alone s → Fine s → paramsOk s.cfg = true →
    exec .brDisable s = .next (s.disabledAt.respond s.active (okResp 0))

/-- Repeated BR_ENABLE is idempotent, and so is repeated BR_DISABLE: on plain registers nobody else
writes, a second call leaves every register but the bank select as the first one did. -/
def Obligations.BrEnableIsIdempotent : Prop :=
  ∀ (i : Instr) (s t u : State), i ∈ [Instr.brEnable, Instr.brDisable] → Ready i s → Alone s →
    Fine s → paramsOk s.cfg = true → Memory.wf s.x →
    isPlain s.cfg s.cfg.bridge.clkgateAddr = true → isPlain s.cfg s.cfg.bridge.aviCtrlAddr = true →
    isPlain s.cfg s.cfg.rst.swrstAddr = true →
    exec i s = .next t → exec i t = .next u →
    ∀ a, a ≠ s.cfg.bank.addr → u.x.read a = t.x.read a

/-- A bridge sequence stops at its first error, wherever it falls: where `done` steps of MODE_SET,
VID_EN, CSC_CFG, BR_ENABLE or BR_DISABLE completed and a transaction of the next primitive `p`
fails, the operation ends with `IoError`; what `done` did stays, `need_csc` among it (so a CSC_CFG
that fails leaves `need_csc` as it was), no later step is run, and no register but the bank select
and those `p` writes changed. That the first error ends it and nothing is undone is the spec's own
choice (D38). -/
def Obligations.BridgeSequenceStopsAtFirstError : Prop :=
  ∀ (i : Instr) (s u : State) (done rest : List BridgeStep) (p : Prim) (k : Nat) (l : List Bool),
    Ready i s → Alone s → TargetsOk s → s.ctx.currentBank = s.hwBank → Memory.wf s.x →
    bridgeSteps s i = done ++ .prim p :: rest → u = done.foldl State.bridgeStepAt s →
    s.env.fails = List.replicate k false ++ true :: l →
    u.bus.length ≤ s.bus.length + k → s.bus.length + k < (u.primAt p).bus.length →
    Nexts (exec i s) fun t =>
      t = { u with
        x := t.x, hwBank := t.hwBank, ctx := { u.ctx with currentBank := t.ctx.currentBank }
        payload := t.payload, resp := t.resp, events := t.events, env := t.env, bus := t.bus }
      ∧ Answered s t ⟨.ioError, 0⟩
      ∧ t.bus.length = s.bus.length + k + 1 ∧ (∃ m, t.bus = m ++ u.bus)
      ∧ (∀ c limited, i = .cscCfg c limited → t.ctx.needCsc = s.ctx.needCsc)
      ∧ ∀ a, a ≠ s.cfg.bank.addr → ¬p.writes a → t.x.read a = u.x.read a
end

