-- ==== Sys2Proof/Laws/Memory.lean ====
section
/-! SUPPORT. The laws of the register file: a read after a write gives the value written, a write leaves
every other register alone, and a write keeps the canonical form. -/

namespace Sys2Proof.Machine

@[simp] theorem Memory.read_nil (a : Nat) : Memory.read [] a = Memory.unlisted := rfl

theorem Memory.read_cons (c : Host.Cell) (m : Memory) (a : Nat) :
    Memory.read (c :: m) a = if c.1 = a then c.2 else Memory.read m a := rfl

/-- A register below every listed address reads as unlisted. -/
theorem Memory.read_of_lt {m : Memory} {a : Nat} (h : ∀ c ∈ m, a < c.1) :
    Memory.read m a = Memory.unlisted := by
  induction m with
  | nil => rfl
  | cons c m ih =>
    have hc : a < c.1 := h c (by simp)
    rw [Memory.read_cons, if_neg (by omega)]
    exact ih fun d hd => h d (by simp [hd])

theorem Memory.read_write_other {m : Memory} {a b : Nat} (v : Byte) (h : b ≠ a) :
    Memory.read (Memory.write m a v) b = Memory.read m b := by
  induction m with
  | nil =>
    unfold Memory.write
    split
    · rfl
    · simp [Memory.read_cons, Ne.symm h]
  | cons c m ih =>
    unfold Memory.write
    split
    · split
      · rfl
      · simp [Memory.read_cons, Ne.symm h]
    · split
      · rename_i hac
        split
        · simp [Memory.read_cons, ← hac, Ne.symm h]
        · simp [Memory.read_cons, ← hac, Ne.symm h]
      · simp [Memory.read_cons, ih]

theorem Memory.read_write_same {m : Memory} (hm : m.Pairwise fun c d => c.1 < d.1) (a : Nat)
    (v : Byte) : Memory.read (Memory.write m a v) a = v := by
  induction m with
  | nil =>
    unfold Memory.write
    split
    · simp_all
    · simp [Memory.read_cons]
  | cons c m ih =>
    rw [List.pairwise_cons] at hm
    unfold Memory.write
    split
    · rename_i hac
      split
      · rename_i hv
        rw [hv]
        exact Memory.read_of_lt fun d hd => by
          rcases List.mem_cons.mp hd with rfl | hd
          · exact hac
          · exact lt_trans hac (hm.1 d hd)
      · simp [Memory.read_cons]
    · split
      · rename_i hac
        split
        · rename_i hv
          rw [hv]
          exact Memory.read_of_lt fun d hd => hac ▸ hm.1 d hd
        · simp [Memory.read_cons]
      · rename_i hac
        rw [Memory.read_cons, if_neg (Ne.symm hac)]
        exact ih hm.2

/-- The addresses listed after a write were listed before, or are the address written. -/
theorem Memory.mem_write {m : Memory} {a : Nat} {v : Byte} {c : Host.Cell}
    (h : c ∈ Memory.write m a v) : c ∈ m ∨ (c = (a, v) ∧ v ≠ Memory.unlisted) := by
  induction m with
  | nil =>
    unfold Memory.write at h
    split at h
    · simp at h
    · rename_i hv
      exact .inr ⟨by simpa using h, hv⟩
  | cons d m ih =>
    unfold Memory.write at h
    split at h
    · split at h
      · exact .inl h
      · rename_i hv
        rcases List.mem_cons.mp h with h | h
        · exact .inr ⟨h, hv⟩
        · exact .inl h
    · split at h
      · split at h
        · exact .inl (List.mem_cons_of_mem _ h)
        · rename_i hv
          rcases List.mem_cons.mp h with h | h
          · exact .inr ⟨h, hv⟩
          · exact .inl (List.mem_cons_of_mem _ h)
      · rcases List.mem_cons.mp h with h | h
        · exact .inl (h ▸ List.mem_cons_self ..)
        · rcases ih h with h | h
          · exact .inl (List.mem_cons_of_mem _ h)
          · exact .inr h

theorem Memory.write_pairwise {m : Memory} (hm : m.Pairwise fun c d => c.1 < d.1) (a : Nat)
    (v : Byte) : (Memory.write m a v).Pairwise fun c d => c.1 < d.1 := by
  induction m with
  | nil =>
    unfold Memory.write
    split
    · exact List.Pairwise.nil
    · simp
  | cons c m ih =>
    have hm' := hm
    rw [List.pairwise_cons] at hm
    unfold Memory.write
    split
    · rename_i hac
      split
      · exact hm'
      · refine List.pairwise_cons.mpr ⟨fun d hd => ?_, hm'⟩
        rcases List.mem_cons.mp hd with rfl | hd
        · exact hac
        · exact lt_trans hac (hm.1 d hd)
    · rename_i hle
      split
      · rename_i hac
        split
        · exact hm.2
        · exact List.pairwise_cons.mpr ⟨fun d hd => hac ▸ hm.1 d hd, hm.2⟩
      · rename_i hac
        refine List.pairwise_cons.mpr ⟨fun d hd => ?_, ih hm.2⟩
        rcases Memory.mem_write hd with hd | ⟨rfl, _⟩
        · exact hm.1 d hd
        · exact lt_of_le_of_ne (not_lt.mp hle) (Ne.symm hac)

/-- Every write to a register keeps the canonical form. -/
theorem Memory.wf_write {m : Memory} (hm : Memory.wf m) {a : Nat} (ha : isRegister a = true)
    (v : Byte) : Memory.wf (Memory.write m a v) := by
  refine ⟨Memory.write_pairwise hm.1 a v, fun c hc => ?_⟩
  rcases Memory.mem_write hc with hc | ⟨rfl, hv⟩
  · exact hm.2 c hc
  · exact ⟨ha, hv⟩

theorem Memory.wf_nil : Memory.wf [] := by decide

end Sys2Proof.Machine
end

