-- ==== Sys2Proof/Laws/State.lean ====
section
/-! SUPPORT. For each update of the state, one lemma per field it leaves alone and per field it sets,
so that no proof unfolds a record update. -/

namespace Sys2Proof.Machine

/-! ## setPort -/

@[simp] theorem State.setPort_cfg (s : State) (p : PortId) (q : Port) :
    (s.setPort p q).cfg = s.cfg := by cases p <;> rfl

@[simp] theorem State.setPort_x (s : State) (p : PortId) (q : Port) :
    (s.setPort p q).x = s.x := by cases p <;> rfl

@[simp] theorem State.setPort_hwBank (s : State) (p : PortId) (q : Port) :
    (s.setPort p q).hwBank = s.hwBank := by cases p <;> rfl

@[simp] theorem State.setPort_ctx (s : State) (p : PortId) (q : Port) :
    (s.setPort p q).ctx = s.ctx := by cases p <;> rfl

@[simp] theorem State.setPort_taskRunning (s : State) (p : PortId) (q : Port) :
    (s.setPort p q).taskRunning = s.taskRunning := by cases p <;> rfl

@[simp] theorem State.setPort_dispRunning (s : State) (p : PortId) (q : Port) :
    (s.setPort p q).dispRunning = s.dispRunning := by cases p <;> rfl

@[simp] theorem State.setPort_irqLine (s : State) (p : PortId) (q : Port) :
    (s.setPort p q).irqLine = s.irqLine := by cases p <;> rfl

@[simp] theorem State.setPort_snap (s : State) (p : PortId) (q : Port) :
    (s.setPort p q).snap = s.snap := by cases p <;> rfl

@[simp] theorem State.setPort_latches (s : State) (p : PortId) (q : Port) :
    (s.setPort p q).latches = s.latches := by cases p <;> rfl

@[simp] theorem State.setPort_result (s : State) (p : PortId) (q : Port) :
    (s.setPort p q).result = s.result := by cases p <;> rfl

@[simp] theorem State.setPort_payload (s : State) (p : PortId) (q : Port) :
    (s.setPort p q).payload = s.payload := by cases p <;> rfl

@[simp] theorem State.setPort_resp (s : State) (p : PortId) (q : Port) :
    (s.setPort p q).resp = s.resp := by cases p <;> rfl

@[simp] theorem State.setPort_given (s : State) (p : PortId) (q : Port) :
    (s.setPort p q).given = s.given := by cases p <;> rfl

@[simp] theorem State.setPort_active (s : State) (p : PortId) (q : Port) :
    (s.setPort p q).active = s.active := by cases p <;> rfl

@[simp] theorem State.setPort_disp (s : State) (p : PortId) (q : Port) :
    (s.setPort p q).disp = s.disp := by cases p <;> rfl

@[simp] theorem State.setPort_task (s : State) (p : PortId) (q : Port) :
    (s.setPort p q).task = s.task := by cases p <;> rfl

@[simp] theorem State.setPort_bus (s : State) (p : PortId) (q : Port) :
    (s.setPort p q).bus = s.bus := by cases p <;> rfl

@[simp] theorem State.setPort_events (s : State) (p : PortId) (q : Port) :
    (s.setPort p q).events = s.events := by cases p <;> rfl

@[simp] theorem State.setPort_env (s : State) (p : PortId) (q : Port) :
    (s.setPort p q).env = s.env := by cases p <;> rfl

/-! ## setSeq -/

@[simp] theorem State.setSeq_cfg (s : State) (a : AgentId) (q : Sequencer) :
    (s.setSeq a q).cfg = s.cfg := by
  rcases a with (_ | k) | _ | _ <;> rfl

@[simp] theorem State.setSeq_x (s : State) (a : AgentId) (q : Sequencer) :
    (s.setSeq a q).x = s.x := by
  rcases a with (_ | k) | _ | _ <;> rfl

@[simp] theorem State.setSeq_hwBank (s : State) (a : AgentId) (q : Sequencer) :
    (s.setSeq a q).hwBank = s.hwBank := by
  rcases a with (_ | k) | _ | _ <;> rfl

@[simp] theorem State.setSeq_ctx (s : State) (a : AgentId) (q : Sequencer) :
    (s.setSeq a q).ctx = s.ctx := by
  rcases a with (_ | k) | _ | _ <;> rfl

@[simp] theorem State.setSeq_taskRunning (s : State) (a : AgentId) (q : Sequencer) :
    (s.setSeq a q).taskRunning = s.taskRunning := by
  rcases a with (_ | k) | _ | _ <;> rfl

@[simp] theorem State.setSeq_dispRunning (s : State) (a : AgentId) (q : Sequencer) :
    (s.setSeq a q).dispRunning = s.dispRunning := by
  rcases a with (_ | k) | _ | _ <;> rfl

@[simp] theorem State.setSeq_irqLine (s : State) (a : AgentId) (q : Sequencer) :
    (s.setSeq a q).irqLine = s.irqLine := by
  rcases a with (_ | k) | _ | _ <;> rfl

@[simp] theorem State.setSeq_snap (s : State) (a : AgentId) (q : Sequencer) :
    (s.setSeq a q).snap = s.snap := by
  rcases a with (_ | k) | _ | _ <;> rfl

@[simp] theorem State.setSeq_latches (s : State) (a : AgentId) (q : Sequencer) :
    (s.setSeq a q).latches = s.latches := by
  rcases a with (_ | k) | _ | _ <;> rfl

@[simp] theorem State.setSeq_result (s : State) (a : AgentId) (q : Sequencer) :
    (s.setSeq a q).result = s.result := by
  rcases a with (_ | k) | _ | _ <;> rfl

@[simp] theorem State.setSeq_payload (s : State) (a : AgentId) (q : Sequencer) :
    (s.setSeq a q).payload = s.payload := by
  rcases a with (_ | k) | _ | _ <;> rfl

@[simp] theorem State.setSeq_resp (s : State) (a : AgentId) (q : Sequencer) :
    (s.setSeq a q).resp = s.resp := by
  rcases a with (_ | k) | _ | _ <;> rfl

@[simp] theorem State.setSeq_given (s : State) (a : AgentId) (q : Sequencer) :
    (s.setSeq a q).given = s.given := by
  rcases a with (_ | k) | _ | _ <;> rfl

@[simp] theorem State.setSeq_active (s : State) (a : AgentId) (q : Sequencer) :
    (s.setSeq a q).active = s.active := by
  rcases a with (_ | k) | _ | _ <;> rfl

@[simp] theorem State.setSeq_bus (s : State) (a : AgentId) (q : Sequencer) :
    (s.setSeq a q).bus = s.bus := by
  rcases a with (_ | k) | _ | _ <;> rfl

@[simp] theorem State.setSeq_events (s : State) (a : AgentId) (q : Sequencer) :
    (s.setSeq a q).events = s.events := by
  rcases a with (_ | k) | _ | _ <;> rfl

@[simp] theorem State.setSeq_env (s : State) (a : AgentId) (q : Sequencer) :
    (s.setSeq a q).env = s.env := by
  rcases a with (_ | k) | _ | _ <;> rfl

/-! ## setPos -/

@[simp] theorem State.setPos_cfg (s : State) (a : AgentId) (k : List Stmt) :
    (s.setPos a k).cfg = s.cfg := by
  rcases a with (_ | k) | _ | _ <;> rfl

@[simp] theorem State.setPos_x (s : State) (a : AgentId) (k : List Stmt) :
    (s.setPos a k).x = s.x := by
  rcases a with (_ | k) | _ | _ <;> rfl

@[simp] theorem State.setPos_hwBank (s : State) (a : AgentId) (k : List Stmt) :
    (s.setPos a k).hwBank = s.hwBank := by
  rcases a with (_ | k) | _ | _ <;> rfl

@[simp] theorem State.setPos_ctx (s : State) (a : AgentId) (k : List Stmt) :
    (s.setPos a k).ctx = s.ctx := by
  rcases a with (_ | k) | _ | _ <;> rfl

@[simp] theorem State.setPos_taskRunning (s : State) (a : AgentId) (k : List Stmt) :
    (s.setPos a k).taskRunning = s.taskRunning := by
  rcases a with (_ | k) | _ | _ <;> rfl

@[simp] theorem State.setPos_dispRunning (s : State) (a : AgentId) (k : List Stmt) :
    (s.setPos a k).dispRunning = s.dispRunning := by
  rcases a with (_ | k) | _ | _ <;> rfl

@[simp] theorem State.setPos_irqLine (s : State) (a : AgentId) (k : List Stmt) :
    (s.setPos a k).irqLine = s.irqLine := by
  rcases a with (_ | k) | _ | _ <;> rfl

@[simp] theorem State.setPos_snap (s : State) (a : AgentId) (k : List Stmt) :
    (s.setPos a k).snap = s.snap := by
  rcases a with (_ | k) | _ | _ <;> rfl

@[simp] theorem State.setPos_latches (s : State) (a : AgentId) (k : List Stmt) :
    (s.setPos a k).latches = s.latches := by
  rcases a with (_ | k) | _ | _ <;> rfl

@[simp] theorem State.setPos_result (s : State) (a : AgentId) (k : List Stmt) :
    (s.setPos a k).result = s.result := by
  rcases a with (_ | k) | _ | _ <;> rfl

@[simp] theorem State.setPos_payload (s : State) (a : AgentId) (k : List Stmt) :
    (s.setPos a k).payload = s.payload := by
  rcases a with (_ | k) | _ | _ <;> rfl

@[simp] theorem State.setPos_resp (s : State) (a : AgentId) (k : List Stmt) :
    (s.setPos a k).resp = s.resp := by
  rcases a with (_ | k) | _ | _ <;> rfl

@[simp] theorem State.setPos_given (s : State) (a : AgentId) (k : List Stmt) :
    (s.setPos a k).given = s.given := by
  rcases a with (_ | k) | _ | _ <;> rfl

@[simp] theorem State.setPos_active (s : State) (a : AgentId) (k : List Stmt) :
    (s.setPos a k).active = s.active := by
  rcases a with (_ | k) | _ | _ <;> rfl

@[simp] theorem State.setPos_bus (s : State) (a : AgentId) (k : List Stmt) :
    (s.setPos a k).bus = s.bus := by
  rcases a with (_ | k) | _ | _ <;> rfl

@[simp] theorem State.setPos_events (s : State) (a : AgentId) (k : List Stmt) :
    (s.setPos a k).events = s.events := by
  rcases a with (_ | k) | _ | _ <;> rfl

@[simp] theorem State.setPos_env (s : State) (a : AgentId) (k : List Stmt) :
    (s.setPos a k).env = s.env := by
  rcases a with (_ | k) | _ | _ <;> rfl

/-! ## save -/

@[simp] theorem State.save_cfg (s : State) (a : AgentId) (r : SaveReg) (v : Byte) :
    (s.save a r v).cfg = s.cfg := by
  rcases a with (_ | k) | _ | _ <;> rfl

@[simp] theorem State.save_x (s : State) (a : AgentId) (r : SaveReg) (v : Byte) :
    (s.save a r v).x = s.x := by
  rcases a with (_ | k) | _ | _ <;> rfl

@[simp] theorem State.save_hwBank (s : State) (a : AgentId) (r : SaveReg) (v : Byte) :
    (s.save a r v).hwBank = s.hwBank := by
  rcases a with (_ | k) | _ | _ <;> rfl

@[simp] theorem State.save_ctx (s : State) (a : AgentId) (r : SaveReg) (v : Byte) :
    (s.save a r v).ctx = s.ctx := by
  rcases a with (_ | k) | _ | _ <;> rfl

@[simp] theorem State.save_taskRunning (s : State) (a : AgentId) (r : SaveReg) (v : Byte) :
    (s.save a r v).taskRunning = s.taskRunning := by
  rcases a with (_ | k) | _ | _ <;> rfl

@[simp] theorem State.save_dispRunning (s : State) (a : AgentId) (r : SaveReg) (v : Byte) :
    (s.save a r v).dispRunning = s.dispRunning := by
  rcases a with (_ | k) | _ | _ <;> rfl

@[simp] theorem State.save_irqLine (s : State) (a : AgentId) (r : SaveReg) (v : Byte) :
    (s.save a r v).irqLine = s.irqLine := by
  rcases a with (_ | k) | _ | _ <;> rfl

@[simp] theorem State.save_snap (s : State) (a : AgentId) (r : SaveReg) (v : Byte) :
    (s.save a r v).snap = s.snap := by
  rcases a with (_ | k) | _ | _ <;> rfl

@[simp] theorem State.save_latches (s : State) (a : AgentId) (r : SaveReg) (v : Byte) :
    (s.save a r v).latches = s.latches := by
  rcases a with (_ | k) | _ | _ <;> rfl

@[simp] theorem State.save_result (s : State) (a : AgentId) (r : SaveReg) (v : Byte) :
    (s.save a r v).result = s.result := by
  rcases a with (_ | k) | _ | _ <;> rfl

@[simp] theorem State.save_payload (s : State) (a : AgentId) (r : SaveReg) (v : Byte) :
    (s.save a r v).payload = s.payload := by
  rcases a with (_ | k) | _ | _ <;> rfl

@[simp] theorem State.save_resp (s : State) (a : AgentId) (r : SaveReg) (v : Byte) :
    (s.save a r v).resp = s.resp := by
  rcases a with (_ | k) | _ | _ <;> rfl

@[simp] theorem State.save_given (s : State) (a : AgentId) (r : SaveReg) (v : Byte) :
    (s.save a r v).given = s.given := by
  rcases a with (_ | k) | _ | _ <;> rfl

@[simp] theorem State.save_active (s : State) (a : AgentId) (r : SaveReg) (v : Byte) :
    (s.save a r v).active = s.active := by
  rcases a with (_ | k) | _ | _ <;> rfl

@[simp] theorem State.save_bus (s : State) (a : AgentId) (r : SaveReg) (v : Byte) :
    (s.save a r v).bus = s.bus := by
  rcases a with (_ | k) | _ | _ <;> rfl

@[simp] theorem State.save_events (s : State) (a : AgentId) (r : SaveReg) (v : Byte) :
    (s.save a r v).events = s.events := by
  rcases a with (_ | k) | _ | _ <;> rfl

@[simp] theorem State.save_env (s : State) (a : AgentId) (r : SaveReg) (v : Byte) :
    (s.save a r v).env = s.env := by
  rcases a with (_ | k) | _ | _ <;> rfl

/-! ## logBus -/

@[simp] theorem State.logBus_cfg (s : State) (op : BusOp) :
    (s.logBus op).cfg = s.cfg := rfl

@[simp] theorem State.logBus_x (s : State) (op : BusOp) :
    (s.logBus op).x = s.x := rfl

@[simp] theorem State.logBus_hwBank (s : State) (op : BusOp) :
    (s.logBus op).hwBank = s.hwBank := rfl

@[simp] theorem State.logBus_ctx (s : State) (op : BusOp) :
    (s.logBus op).ctx = s.ctx := rfl

@[simp] theorem State.logBus_taskRunning (s : State) (op : BusOp) :
    (s.logBus op).taskRunning = s.taskRunning := rfl

@[simp] theorem State.logBus_dispRunning (s : State) (op : BusOp) :
    (s.logBus op).dispRunning = s.dispRunning := rfl

@[simp] theorem State.logBus_irqLine (s : State) (op : BusOp) :
    (s.logBus op).irqLine = s.irqLine := rfl

@[simp] theorem State.logBus_snap (s : State) (op : BusOp) :
    (s.logBus op).snap = s.snap := rfl

@[simp] theorem State.logBus_latches (s : State) (op : BusOp) :
    (s.logBus op).latches = s.latches := rfl

@[simp] theorem State.logBus_result (s : State) (op : BusOp) :
    (s.logBus op).result = s.result := rfl

@[simp] theorem State.logBus_payload (s : State) (op : BusOp) :
    (s.logBus op).payload = s.payload := rfl

@[simp] theorem State.logBus_resp (s : State) (op : BusOp) :
    (s.logBus op).resp = s.resp := rfl

@[simp] theorem State.logBus_given (s : State) (op : BusOp) :
    (s.logBus op).given = s.given := rfl

@[simp] theorem State.logBus_hostPort (s : State) (op : BusOp) :
    (s.logBus op).hostPort = s.hostPort := rfl

@[simp] theorem State.logBus_auxPorts (s : State) (op : BusOp) :
    (s.logBus op).auxPorts = s.auxPorts := rfl

@[simp] theorem State.logBus_active (s : State) (op : BusOp) :
    (s.logBus op).active = s.active := rfl

@[simp] theorem State.logBus_disp (s : State) (op : BusOp) :
    (s.logBus op).disp = s.disp := rfl

@[simp] theorem State.logBus_task (s : State) (op : BusOp) :
    (s.logBus op).task = s.task := rfl

@[simp] theorem State.logBus_bus (s : State) (op : BusOp) :
    (s.logBus op).bus = op :: s.bus := rfl

@[simp] theorem State.logBus_events (s : State) (op : BusOp) :
    (s.logBus op).events = s.events := rfl

@[simp] theorem State.logBus_env (s : State) (op : BusOp) :
    (s.logBus op).env = s.env := rfl

/-! ## emit -/

@[simp] theorem State.emit_cfg (s : State) (ev : Event) :
    (s.emit ev).cfg = s.cfg := rfl

@[simp] theorem State.emit_x (s : State) (ev : Event) :
    (s.emit ev).x = s.x := rfl

@[simp] theorem State.emit_hwBank (s : State) (ev : Event) :
    (s.emit ev).hwBank = s.hwBank := rfl

@[simp] theorem State.emit_ctx (s : State) (ev : Event) :
    (s.emit ev).ctx = s.ctx := rfl

@[simp] theorem State.emit_taskRunning (s : State) (ev : Event) :
    (s.emit ev).taskRunning = s.taskRunning := rfl

@[simp] theorem State.emit_dispRunning (s : State) (ev : Event) :
    (s.emit ev).dispRunning = s.dispRunning := rfl

@[simp] theorem State.emit_irqLine (s : State) (ev : Event) :
    (s.emit ev).irqLine = s.irqLine := rfl

@[simp] theorem State.emit_snap (s : State) (ev : Event) :
    (s.emit ev).snap = s.snap := rfl

@[simp] theorem State.emit_latches (s : State) (ev : Event) :
    (s.emit ev).latches = s.latches := rfl

@[simp] theorem State.emit_result (s : State) (ev : Event) :
    (s.emit ev).result = s.result := rfl

@[simp] theorem State.emit_payload (s : State) (ev : Event) :
    (s.emit ev).payload = s.payload := rfl

@[simp] theorem State.emit_resp (s : State) (ev : Event) :
    (s.emit ev).resp = s.resp := rfl

@[simp] theorem State.emit_given (s : State) (ev : Event) :
    (s.emit ev).given = s.given := rfl

@[simp] theorem State.emit_hostPort (s : State) (ev : Event) :
    (s.emit ev).hostPort = s.hostPort := rfl

@[simp] theorem State.emit_auxPorts (s : State) (ev : Event) :
    (s.emit ev).auxPorts = s.auxPorts := rfl

@[simp] theorem State.emit_active (s : State) (ev : Event) :
    (s.emit ev).active = s.active := rfl

@[simp] theorem State.emit_disp (s : State) (ev : Event) :
    (s.emit ev).disp = s.disp := rfl

@[simp] theorem State.emit_task (s : State) (ev : Event) :
    (s.emit ev).task = s.task := rfl

@[simp] theorem State.emit_bus (s : State) (ev : Event) :
    (s.emit ev).bus = s.bus := rfl

@[simp] theorem State.emit_events (s : State) (ev : Event) :
    (s.emit ev).events = ev :: s.events := rfl

@[simp] theorem State.emit_env (s : State) (ev : Event) :
    (s.emit ev).env = s.env := rfl

/-! ## setCurrentBank -/

@[simp] theorem State.setCurrentBank_cfg (s : State) (b : Bank) :
    (s.setCurrentBank b).cfg = s.cfg := rfl

@[simp] theorem State.setCurrentBank_x (s : State) (b : Bank) :
    (s.setCurrentBank b).x = s.x := rfl

@[simp] theorem State.setCurrentBank_hwBank (s : State) (b : Bank) :
    (s.setCurrentBank b).hwBank = s.hwBank := rfl

@[simp] theorem State.setCurrentBank_ctx (s : State) (b : Bank) :
    (s.setCurrentBank b).ctx = { s.ctx with currentBank := b } := rfl

@[simp] theorem State.setCurrentBank_taskRunning (s : State) (b : Bank) :
    (s.setCurrentBank b).taskRunning = s.taskRunning := rfl

@[simp] theorem State.setCurrentBank_dispRunning (s : State) (b : Bank) :
    (s.setCurrentBank b).dispRunning = s.dispRunning := rfl

@[simp] theorem State.setCurrentBank_irqLine (s : State) (b : Bank) :
    (s.setCurrentBank b).irqLine = s.irqLine := rfl

@[simp] theorem State.setCurrentBank_snap (s : State) (b : Bank) :
    (s.setCurrentBank b).snap = s.snap := rfl

@[simp] theorem State.setCurrentBank_latches (s : State) (b : Bank) :
    (s.setCurrentBank b).latches = s.latches := rfl

@[simp] theorem State.setCurrentBank_result (s : State) (b : Bank) :
    (s.setCurrentBank b).result = s.result := rfl

@[simp] theorem State.setCurrentBank_payload (s : State) (b : Bank) :
    (s.setCurrentBank b).payload = s.payload := rfl

@[simp] theorem State.setCurrentBank_resp (s : State) (b : Bank) :
    (s.setCurrentBank b).resp = s.resp := rfl

@[simp] theorem State.setCurrentBank_given (s : State) (b : Bank) :
    (s.setCurrentBank b).given = s.given := rfl

@[simp] theorem State.setCurrentBank_hostPort (s : State) (b : Bank) :
    (s.setCurrentBank b).hostPort = s.hostPort := rfl

@[simp] theorem State.setCurrentBank_auxPorts (s : State) (b : Bank) :
    (s.setCurrentBank b).auxPorts = s.auxPorts := rfl

@[simp] theorem State.setCurrentBank_active (s : State) (b : Bank) :
    (s.setCurrentBank b).active = s.active := rfl

@[simp] theorem State.setCurrentBank_disp (s : State) (b : Bank) :
    (s.setCurrentBank b).disp = s.disp := rfl

@[simp] theorem State.setCurrentBank_task (s : State) (b : Bank) :
    (s.setCurrentBank b).task = s.task := rfl

@[simp] theorem State.setCurrentBank_bus (s : State) (b : Bank) :
    (s.setCurrentBank b).bus = s.bus := rfl

@[simp] theorem State.setCurrentBank_events (s : State) (b : Bank) :
    (s.setCurrentBank b).events = s.events := rfl

@[simp] theorem State.setCurrentBank_env (s : State) (b : Bank) :
    (s.setCurrentBank b).env = s.env := rfl

/-! ## setLock -/

@[simp] theorem State.setLock_cfg (s : State) (l : Option AgentId) :
    (s.setLock l).cfg = s.cfg := rfl

@[simp] theorem State.setLock_x (s : State) (l : Option AgentId) :
    (s.setLock l).x = s.x := rfl

@[simp] theorem State.setLock_hwBank (s : State) (l : Option AgentId) :
    (s.setLock l).hwBank = s.hwBank := rfl

@[simp] theorem State.setLock_ctx (s : State) (l : Option AgentId) :
    (s.setLock l).ctx = { s.ctx with lock := l } := rfl

@[simp] theorem State.setLock_taskRunning (s : State) (l : Option AgentId) :
    (s.setLock l).taskRunning = s.taskRunning := rfl

@[simp] theorem State.setLock_dispRunning (s : State) (l : Option AgentId) :
    (s.setLock l).dispRunning = s.dispRunning := rfl

@[simp] theorem State.setLock_irqLine (s : State) (l : Option AgentId) :
    (s.setLock l).irqLine = s.irqLine := rfl

@[simp] theorem State.setLock_snap (s : State) (l : Option AgentId) :
    (s.setLock l).snap = s.snap := rfl

@[simp] theorem State.setLock_latches (s : State) (l : Option AgentId) :
    (s.setLock l).latches = s.latches := rfl

@[simp] theorem State.setLock_result (s : State) (l : Option AgentId) :
    (s.setLock l).result = s.result := rfl

@[simp] theorem State.setLock_payload (s : State) (l : Option AgentId) :
    (s.setLock l).payload = s.payload := rfl

@[simp] theorem State.setLock_resp (s : State) (l : Option AgentId) :
    (s.setLock l).resp = s.resp := rfl

@[simp] theorem State.setLock_given (s : State) (l : Option AgentId) :
    (s.setLock l).given = s.given := rfl

@[simp] theorem State.setLock_hostPort (s : State) (l : Option AgentId) :
    (s.setLock l).hostPort = s.hostPort := rfl

@[simp] theorem State.setLock_auxPorts (s : State) (l : Option AgentId) :
    (s.setLock l).auxPorts = s.auxPorts := rfl

@[simp] theorem State.setLock_active (s : State) (l : Option AgentId) :
    (s.setLock l).active = s.active := rfl

@[simp] theorem State.setLock_disp (s : State) (l : Option AgentId) :
    (s.setLock l).disp = s.disp := rfl

@[simp] theorem State.setLock_task (s : State) (l : Option AgentId) :
    (s.setLock l).task = s.task := rfl

@[simp] theorem State.setLock_bus (s : State) (l : Option AgentId) :
    (s.setLock l).bus = s.bus := rfl

@[simp] theorem State.setLock_events (s : State) (l : Option AgentId) :
    (s.setLock l).events = s.events := rfl

@[simp] theorem State.setLock_env (s : State) (l : Option AgentId) :
    (s.setLock l).env = s.env := rfl

/-! ## setSched -/

@[simp] theorem State.setSched_cfg (s : State) (l : List Turn) :
    (s.setSched l).cfg = s.cfg := rfl

@[simp] theorem State.setSched_x (s : State) (l : List Turn) :
    (s.setSched l).x = s.x := rfl

@[simp] theorem State.setSched_hwBank (s : State) (l : List Turn) :
    (s.setSched l).hwBank = s.hwBank := rfl

@[simp] theorem State.setSched_ctx (s : State) (l : List Turn) :
    (s.setSched l).ctx = s.ctx := rfl

@[simp] theorem State.setSched_taskRunning (s : State) (l : List Turn) :
    (s.setSched l).taskRunning = s.taskRunning := rfl

@[simp] theorem State.setSched_dispRunning (s : State) (l : List Turn) :
    (s.setSched l).dispRunning = s.dispRunning := rfl

@[simp] theorem State.setSched_irqLine (s : State) (l : List Turn) :
    (s.setSched l).irqLine = s.irqLine := rfl

@[simp] theorem State.setSched_snap (s : State) (l : List Turn) :
    (s.setSched l).snap = s.snap := rfl

@[simp] theorem State.setSched_latches (s : State) (l : List Turn) :
    (s.setSched l).latches = s.latches := rfl

@[simp] theorem State.setSched_result (s : State) (l : List Turn) :
    (s.setSched l).result = s.result := rfl

@[simp] theorem State.setSched_payload (s : State) (l : List Turn) :
    (s.setSched l).payload = s.payload := rfl

@[simp] theorem State.setSched_resp (s : State) (l : List Turn) :
    (s.setSched l).resp = s.resp := rfl

@[simp] theorem State.setSched_given (s : State) (l : List Turn) :
    (s.setSched l).given = s.given := rfl

@[simp] theorem State.setSched_hostPort (s : State) (l : List Turn) :
    (s.setSched l).hostPort = s.hostPort := rfl

@[simp] theorem State.setSched_auxPorts (s : State) (l : List Turn) :
    (s.setSched l).auxPorts = s.auxPorts := rfl

@[simp] theorem State.setSched_active (s : State) (l : List Turn) :
    (s.setSched l).active = s.active := rfl

@[simp] theorem State.setSched_disp (s : State) (l : List Turn) :
    (s.setSched l).disp = s.disp := rfl

@[simp] theorem State.setSched_task (s : State) (l : List Turn) :
    (s.setSched l).task = s.task := rfl

@[simp] theorem State.setSched_bus (s : State) (l : List Turn) :
    (s.setSched l).bus = s.bus := rfl

@[simp] theorem State.setSched_events (s : State) (l : List Turn) :
    (s.setSched l).events = s.events := rfl

@[simp] theorem State.setSched_env (s : State) (l : List Turn) :
    (s.setSched l).env = { s.env with sched := l } := rfl

/-! ## setNeedCsc -/

@[simp] theorem State.setNeedCsc_cfg (s : State) (b : Bool) :
    (s.setNeedCsc b).cfg = s.cfg := rfl

@[simp] theorem State.setNeedCsc_x (s : State) (b : Bool) :
    (s.setNeedCsc b).x = s.x := rfl

@[simp] theorem State.setNeedCsc_hwBank (s : State) (b : Bool) :
    (s.setNeedCsc b).hwBank = s.hwBank := rfl

@[simp] theorem State.setNeedCsc_ctx (s : State) (b : Bool) :
    (s.setNeedCsc b).ctx = { s.ctx with needCsc := b } := rfl

@[simp] theorem State.setNeedCsc_taskRunning (s : State) (b : Bool) :
    (s.setNeedCsc b).taskRunning = s.taskRunning := rfl

@[simp] theorem State.setNeedCsc_dispRunning (s : State) (b : Bool) :
    (s.setNeedCsc b).dispRunning = s.dispRunning := rfl

@[simp] theorem State.setNeedCsc_irqLine (s : State) (b : Bool) :
    (s.setNeedCsc b).irqLine = s.irqLine := rfl

@[simp] theorem State.setNeedCsc_snap (s : State) (b : Bool) :
    (s.setNeedCsc b).snap = s.snap := rfl

@[simp] theorem State.setNeedCsc_latches (s : State) (b : Bool) :
    (s.setNeedCsc b).latches = s.latches := rfl

@[simp] theorem State.setNeedCsc_result (s : State) (b : Bool) :
    (s.setNeedCsc b).result = s.result := rfl

@[simp] theorem State.setNeedCsc_payload (s : State) (b : Bool) :
    (s.setNeedCsc b).payload = s.payload := rfl

@[simp] theorem State.setNeedCsc_resp (s : State) (b : Bool) :
    (s.setNeedCsc b).resp = s.resp := rfl

@[simp] theorem State.setNeedCsc_given (s : State) (b : Bool) :
    (s.setNeedCsc b).given = s.given := rfl

@[simp] theorem State.setNeedCsc_hostPort (s : State) (b : Bool) :
    (s.setNeedCsc b).hostPort = s.hostPort := rfl

@[simp] theorem State.setNeedCsc_auxPorts (s : State) (b : Bool) :
    (s.setNeedCsc b).auxPorts = s.auxPorts := rfl

@[simp] theorem State.setNeedCsc_active (s : State) (b : Bool) :
    (s.setNeedCsc b).active = s.active := rfl

@[simp] theorem State.setNeedCsc_disp (s : State) (b : Bool) :
    (s.setNeedCsc b).disp = s.disp := rfl

@[simp] theorem State.setNeedCsc_task (s : State) (b : Bool) :
    (s.setNeedCsc b).task = s.task := rfl

@[simp] theorem State.setNeedCsc_bus (s : State) (b : Bool) :
    (s.setNeedCsc b).bus = s.bus := rfl

@[simp] theorem State.setNeedCsc_events (s : State) (b : Bool) :
    (s.setNeedCsc b).events = s.events := rfl

@[simp] theorem State.setNeedCsc_env (s : State) (b : Bool) :
    (s.setNeedCsc b).env = s.env := rfl

/-! ## setPending -/

@[simp] theorem State.setPending_cfg (s : State) :
    (s.setPending).cfg = s.cfg := rfl

@[simp] theorem State.setPending_x (s : State) :
    (s.setPending).x = s.x := rfl

@[simp] theorem State.setPending_hwBank (s : State) :
    (s.setPending).hwBank = s.hwBank := rfl

@[simp] theorem State.setPending_ctx (s : State) :
    (s.setPending).ctx = { s.ctx with hotplugPending := true } := rfl

@[simp] theorem State.setPending_taskRunning (s : State) :
    (s.setPending).taskRunning = s.taskRunning := rfl

@[simp] theorem State.setPending_dispRunning (s : State) :
    (s.setPending).dispRunning = s.dispRunning := rfl

@[simp] theorem State.setPending_irqLine (s : State) :
    (s.setPending).irqLine = s.irqLine := rfl

@[simp] theorem State.setPending_snap (s : State) :
    (s.setPending).snap = s.snap := rfl

@[simp] theorem State.setPending_latches (s : State) :
    (s.setPending).latches = s.latches := rfl

@[simp] theorem State.setPending_result (s : State) :
    (s.setPending).result = s.result := rfl

@[simp] theorem State.setPending_payload (s : State) :
    (s.setPending).payload = s.payload := rfl

@[simp] theorem State.setPending_resp (s : State) :
    (s.setPending).resp = s.resp := rfl

@[simp] theorem State.setPending_given (s : State) :
    (s.setPending).given = s.given := rfl

@[simp] theorem State.setPending_hostPort (s : State) :
    (s.setPending).hostPort = s.hostPort := rfl

@[simp] theorem State.setPending_auxPorts (s : State) :
    (s.setPending).auxPorts = s.auxPorts := rfl

@[simp] theorem State.setPending_active (s : State) :
    (s.setPending).active = s.active := rfl

@[simp] theorem State.setPending_disp (s : State) :
    (s.setPending).disp = s.disp := rfl

@[simp] theorem State.setPending_task (s : State) :
    (s.setPending).task = s.task := rfl

@[simp] theorem State.setPending_bus (s : State) :
    (s.setPending).bus = s.bus := rfl

@[simp] theorem State.setPending_events (s : State) :
    (s.setPending).events = s.events := rfl

@[simp] theorem State.setPending_env (s : State) :
    (s.setPending).env = s.env := rfl

/-! ## updateConnector -/

@[simp] theorem State.updateConnector_cfg (s : State) (n : ConnStatus) :
    (s.updateConnector n).cfg = s.cfg := rfl

@[simp] theorem State.updateConnector_x (s : State) (n : ConnStatus) :
    (s.updateConnector n).x = s.x := rfl

@[simp] theorem State.updateConnector_hwBank (s : State) (n : ConnStatus) :
    (s.updateConnector n).hwBank = s.hwBank := rfl

@[simp] theorem State.updateConnector_ctx (s : State) (n : ConnStatus) :
    (s.updateConnector n).ctx = { s.ctx with connectorStatus := n } := rfl

@[simp] theorem State.updateConnector_taskRunning (s : State) (n : ConnStatus) :
    (s.updateConnector n).taskRunning = s.taskRunning := rfl

@[simp] theorem State.updateConnector_dispRunning (s : State) (n : ConnStatus) :
    (s.updateConnector n).dispRunning = s.dispRunning := rfl

@[simp] theorem State.updateConnector_irqLine (s : State) (n : ConnStatus) :
    (s.updateConnector n).irqLine = s.irqLine := rfl

@[simp] theorem State.updateConnector_snap (s : State) (n : ConnStatus) :
    (s.updateConnector n).snap = s.snap := rfl

@[simp] theorem State.updateConnector_latches (s : State) (n : ConnStatus) :
    (s.updateConnector n).latches = s.latches := rfl

@[simp] theorem State.updateConnector_result (s : State) (n : ConnStatus) :
    (s.updateConnector n).result = s.result := rfl

@[simp] theorem State.updateConnector_payload (s : State) (n : ConnStatus) :
    (s.updateConnector n).payload = s.payload := rfl

@[simp] theorem State.updateConnector_resp (s : State) (n : ConnStatus) :
    (s.updateConnector n).resp = s.resp := rfl

@[simp] theorem State.updateConnector_given (s : State) (n : ConnStatus) :
    (s.updateConnector n).given = s.given := rfl

@[simp] theorem State.updateConnector_hostPort (s : State) (n : ConnStatus) :
    (s.updateConnector n).hostPort = s.hostPort := rfl

@[simp] theorem State.updateConnector_auxPorts (s : State) (n : ConnStatus) :
    (s.updateConnector n).auxPorts = s.auxPorts := rfl

@[simp] theorem State.updateConnector_active (s : State) (n : ConnStatus) :
    (s.updateConnector n).active = s.active := rfl

@[simp] theorem State.updateConnector_disp (s : State) (n : ConnStatus) :
    (s.updateConnector n).disp = s.disp := rfl

@[simp] theorem State.updateConnector_task (s : State) (n : ConnStatus) :
    (s.updateConnector n).task = s.task := rfl

@[simp] theorem State.updateConnector_bus (s : State) (n : ConnStatus) :
    (s.updateConnector n).bus = s.bus := rfl

@[simp] theorem State.updateConnector_events (s : State) (n : ConnStatus) :
    (s.updateConnector n).events = if n = s.ctx.connectorStatus then s.events else .notify n :: s.events := rfl

@[simp] theorem State.updateConnector_env (s : State) (n : ConnStatus) :
    (s.updateConnector n).env = s.env := rfl

/-! ## respond -/

@[simp] theorem State.respond_cfg (s : State) (p : PortId) (r : Response) :
    (s.respond p r).cfg = s.cfg := by cases p <;> rfl

@[simp] theorem State.respond_x (s : State) (p : PortId) (r : Response) :
    (s.respond p r).x = s.x := by cases p <;> rfl

@[simp] theorem State.respond_hwBank (s : State) (p : PortId) (r : Response) :
    (s.respond p r).hwBank = s.hwBank := by cases p <;> rfl

@[simp] theorem State.respond_ctx (s : State) (p : PortId) (r : Response) :
    (s.respond p r).ctx = s.ctx := by cases p <;> rfl

@[simp] theorem State.respond_taskRunning (s : State) (p : PortId) (r : Response) :
    (s.respond p r).taskRunning = s.taskRunning := by cases p <;> rfl

@[simp] theorem State.respond_dispRunning (s : State) (p : PortId) (r : Response) :
    (s.respond p r).dispRunning = s.dispRunning := by cases p <;> rfl

@[simp] theorem State.respond_irqLine (s : State) (p : PortId) (r : Response) :
    (s.respond p r).irqLine = s.irqLine := by cases p <;> rfl

@[simp] theorem State.respond_snap (s : State) (p : PortId) (r : Response) :
    (s.respond p r).snap = s.snap := by cases p <;> rfl

@[simp] theorem State.respond_latches (s : State) (p : PortId) (r : Response) :
    (s.respond p r).latches = s.latches := by cases p <;> rfl

@[simp] theorem State.respond_result (s : State) (p : PortId) (r : Response) :
    (s.respond p r).result = s.result := by cases p <;> rfl

@[simp] theorem State.respond_given (s : State) (p : PortId) (r : Response) :
    (s.respond p r).given = s.given := by cases p <;> rfl

@[simp] theorem State.respond_active (s : State) (p : PortId) (r : Response) :
    (s.respond p r).active = s.active := by cases p <;> rfl

@[simp] theorem State.respond_disp (s : State) (p : PortId) (r : Response) :
    (s.respond p r).disp = s.disp := by cases p <;> rfl

@[simp] theorem State.respond_task (s : State) (p : PortId) (r : Response) :
    (s.respond p r).task = s.task := by cases p <;> rfl

@[simp] theorem State.respond_bus (s : State) (p : PortId) (r : Response) :
    (s.respond p r).bus = s.bus := by cases p <;> rfl

@[simp] theorem State.respond_events (s : State) (p : PortId) (r : Response) :
    (s.respond p r).events = .resp p r :: s.events := by cases p <;> rfl

@[simp] theorem State.respond_env (s : State) (p : PortId) (r : Response) :
    (s.respond p r).env = s.env := by cases p <;> rfl

/-! ## enterDispatch -/

@[simp] theorem State.enterDispatch_cfg (s : State) (k : List Stmt) :
    (s.enterDispatch k).cfg = s.cfg := rfl

@[simp] theorem State.enterDispatch_x (s : State) (k : List Stmt) :
    (s.enterDispatch k).x = s.x := rfl

@[simp] theorem State.enterDispatch_hwBank (s : State) (k : List Stmt) :
    (s.enterDispatch k).hwBank = s.hwBank := rfl

@[simp] theorem State.enterDispatch_ctx (s : State) (k : List Stmt) :
    (s.enterDispatch k).ctx = s.ctx := rfl

@[simp] theorem State.enterDispatch_taskRunning (s : State) (k : List Stmt) :
    (s.enterDispatch k).taskRunning = s.taskRunning := rfl

@[simp] theorem State.enterDispatch_dispRunning (s : State) (k : List Stmt) :
    (s.enterDispatch k).dispRunning = true := rfl

@[simp] theorem State.enterDispatch_irqLine (s : State) (k : List Stmt) :
    (s.enterDispatch k).irqLine = s.irqLine := rfl

@[simp] theorem State.enterDispatch_snap (s : State) (k : List Stmt) :
    (s.enterDispatch k).snap = s.snap := rfl

@[simp] theorem State.enterDispatch_latches (s : State) (k : List Stmt) :
    (s.enterDispatch k).latches = s.latches := rfl

@[simp] theorem State.enterDispatch_result (s : State) (k : List Stmt) :
    (s.enterDispatch k).result = s.result := rfl

@[simp] theorem State.enterDispatch_payload (s : State) (k : List Stmt) :
    (s.enterDispatch k).payload = s.payload := rfl

@[simp] theorem State.enterDispatch_resp (s : State) (k : List Stmt) :
    (s.enterDispatch k).resp = s.resp := rfl

@[simp] theorem State.enterDispatch_given (s : State) (k : List Stmt) :
    (s.enterDispatch k).given = s.given := rfl

@[simp] theorem State.enterDispatch_hostPort (s : State) (k : List Stmt) :
    (s.enterDispatch k).hostPort = s.hostPort := rfl

@[simp] theorem State.enterDispatch_auxPorts (s : State) (k : List Stmt) :
    (s.enterDispatch k).auxPorts = s.auxPorts := rfl

@[simp] theorem State.enterDispatch_active (s : State) (k : List Stmt) :
    (s.enterDispatch k).active = s.active := rfl

@[simp] theorem State.enterDispatch_disp (s : State) (k : List Stmt) :
    (s.enterDispatch k).disp = { s.disp with pos := k } := rfl

@[simp] theorem State.enterDispatch_task (s : State) (k : List Stmt) :
    (s.enterDispatch k).task = s.task := rfl

@[simp] theorem State.enterDispatch_bus (s : State) (k : List Stmt) :
    (s.enterDispatch k).bus = s.bus := rfl

@[simp] theorem State.enterDispatch_events (s : State) (k : List Stmt) :
    (s.enterDispatch k).events = s.events := rfl

@[simp] theorem State.enterDispatch_env (s : State) (k : List Stmt) :
    (s.enterDispatch k).env = s.env := rfl

/-! ## enterTask -/

@[simp] theorem State.enterTask_cfg (s : State) (k : List Stmt) :
    (s.enterTask k).cfg = s.cfg := rfl

@[simp] theorem State.enterTask_x (s : State) (k : List Stmt) :
    (s.enterTask k).x = s.x := rfl

@[simp] theorem State.enterTask_hwBank (s : State) (k : List Stmt) :
    (s.enterTask k).hwBank = s.hwBank := rfl

@[simp] theorem State.enterTask_ctx (s : State) (k : List Stmt) :
    (s.enterTask k).ctx = { s.ctx with hotplugPending := false } := rfl

@[simp] theorem State.enterTask_taskRunning (s : State) (k : List Stmt) :
    (s.enterTask k).taskRunning = true := rfl

@[simp] theorem State.enterTask_dispRunning (s : State) (k : List Stmt) :
    (s.enterTask k).dispRunning = s.dispRunning := rfl

@[simp] theorem State.enterTask_irqLine (s : State) (k : List Stmt) :
    (s.enterTask k).irqLine = s.irqLine := rfl

@[simp] theorem State.enterTask_snap (s : State) (k : List Stmt) :
    (s.enterTask k).snap = s.snap := rfl

@[simp] theorem State.enterTask_latches (s : State) (k : List Stmt) :
    (s.enterTask k).latches = s.latches := rfl

@[simp] theorem State.enterTask_result (s : State) (k : List Stmt) :
    (s.enterTask k).result = s.result := rfl

@[simp] theorem State.enterTask_payload (s : State) (k : List Stmt) :
    (s.enterTask k).payload = s.payload := rfl

@[simp] theorem State.enterTask_resp (s : State) (k : List Stmt) :
    (s.enterTask k).resp = s.resp := rfl

@[simp] theorem State.enterTask_given (s : State) (k : List Stmt) :
    (s.enterTask k).given = s.given := rfl

@[simp] theorem State.enterTask_hostPort (s : State) (k : List Stmt) :
    (s.enterTask k).hostPort = s.hostPort := rfl

@[simp] theorem State.enterTask_auxPorts (s : State) (k : List Stmt) :
    (s.enterTask k).auxPorts = s.auxPorts := rfl

@[simp] theorem State.enterTask_active (s : State) (k : List Stmt) :
    (s.enterTask k).active = s.active := rfl

@[simp] theorem State.enterTask_disp (s : State) (k : List Stmt) :
    (s.enterTask k).disp = s.disp := rfl

@[simp] theorem State.enterTask_task (s : State) (k : List Stmt) :
    (s.enterTask k).task = { s.task with pos := k } := rfl

@[simp] theorem State.enterTask_bus (s : State) (k : List Stmt) :
    (s.enterTask k).bus = s.bus := rfl

@[simp] theorem State.enterTask_events (s : State) (k : List Stmt) :
    (s.enterTask k).events = s.events := rfl

@[simp] theorem State.enterTask_env (s : State) (k : List Stmt) :
    (s.enterTask k).env = s.env := rfl

/-! ## didRead -/

@[simp] theorem State.didRead_cfg (s : State) (off a : Nat) :
    (s.didRead off a).cfg = s.cfg := rfl

@[simp] theorem State.didRead_x (s : State) (off a : Nat) :
    (s.didRead off a).x = s.x := rfl

@[simp] theorem State.didRead_hwBank (s : State) (off a : Nat) :
    (s.didRead off a).hwBank = s.hwBank := rfl

@[simp] theorem State.didRead_ctx (s : State) (off a : Nat) :
    (s.didRead off a).ctx = s.ctx := rfl

@[simp] theorem State.didRead_taskRunning (s : State) (off a : Nat) :
    (s.didRead off a).taskRunning = s.taskRunning := rfl

@[simp] theorem State.didRead_dispRunning (s : State) (off a : Nat) :
    (s.didRead off a).dispRunning = s.dispRunning := rfl

@[simp] theorem State.didRead_irqLine (s : State) (off a : Nat) :
    (s.didRead off a).irqLine = s.irqLine := rfl

@[simp] theorem State.didRead_snap (s : State) (off a : Nat) :
    (s.didRead off a).snap = s.snap := rfl

@[simp] theorem State.didRead_latches (s : State) (off a : Nat) :
    (s.didRead off a).latches = s.latches := rfl

@[simp] theorem State.didRead_result (s : State) (off a : Nat) :
    (s.didRead off a).result = s.result := rfl

@[simp] theorem State.didRead_payload (s : State) (off a : Nat) :
    (s.didRead off a).payload = s.payload := rfl

@[simp] theorem State.didRead_resp (s : State) (off a : Nat) :
    (s.didRead off a).resp = s.resp := rfl

@[simp] theorem State.didRead_given (s : State) (off a : Nat) :
    (s.didRead off a).given = s.given := rfl

@[simp] theorem State.didRead_hostPort (s : State) (off a : Nat) :
    (s.didRead off a).hostPort = s.hostPort := rfl

@[simp] theorem State.didRead_auxPorts (s : State) (off a : Nat) :
    (s.didRead off a).auxPorts = s.auxPorts := rfl

@[simp] theorem State.didRead_active (s : State) (off a : Nat) :
    (s.didRead off a).active = s.active := rfl

@[simp] theorem State.didRead_disp (s : State) (off a : Nat) :
    (s.didRead off a).disp = s.disp := rfl

@[simp] theorem State.didRead_task (s : State) (off a : Nat) :
    (s.didRead off a).task = s.task := rfl

@[simp] theorem State.didRead_bus (s : State) (off a : Nat) :
    (s.didRead off a).bus = .read off (some (s.busValue a)) :: s.bus := rfl

@[simp] theorem State.didRead_events (s : State) (off a : Nat) :
    (s.didRead off a).events = s.events := rfl

@[simp] theorem State.didRead_env (s : State) (off a : Nat) :
    (s.didRead off a).env = s.envAfterRead a := rfl

/-! ## didWrite -/

@[simp] theorem State.didWrite_cfg (s : State) (off a : Nat) (v : Byte) :
    (s.didWrite off a v).cfg = s.cfg := rfl

@[simp] theorem State.didWrite_x (s : State) (off a : Nat) (v : Byte) :
    (s.didWrite off a v).x = s.storedIn a v := rfl

@[simp] theorem State.didWrite_hwBank (s : State) (off a : Nat) (v : Byte) :
    (s.didWrite off a v).hwBank = if a = s.cfg.bank.addr then bankOf s.cfg.bank v (Config.freeBank s.env.draws) else s.hwBank := rfl

@[simp] theorem State.didWrite_ctx (s : State) (off a : Nat) (v : Byte) :
    (s.didWrite off a v).ctx = s.ctx := rfl

@[simp] theorem State.didWrite_taskRunning (s : State) (off a : Nat) (v : Byte) :
    (s.didWrite off a v).taskRunning = s.taskRunning := rfl

@[simp] theorem State.didWrite_dispRunning (s : State) (off a : Nat) (v : Byte) :
    (s.didWrite off a v).dispRunning = s.dispRunning := rfl

@[simp] theorem State.didWrite_irqLine (s : State) (off a : Nat) (v : Byte) :
    (s.didWrite off a v).irqLine = s.irqLine := rfl

@[simp] theorem State.didWrite_snap (s : State) (off a : Nat) (v : Byte) :
    (s.didWrite off a v).snap = s.snap := rfl

@[simp] theorem State.didWrite_latches (s : State) (off a : Nat) (v : Byte) :
    (s.didWrite off a v).latches = s.latches := rfl

@[simp] theorem State.didWrite_result (s : State) (off a : Nat) (v : Byte) :
    (s.didWrite off a v).result = s.result := rfl

@[simp] theorem State.didWrite_payload (s : State) (off a : Nat) (v : Byte) :
    (s.didWrite off a v).payload = s.payload := rfl

@[simp] theorem State.didWrite_resp (s : State) (off a : Nat) (v : Byte) :
    (s.didWrite off a v).resp = s.resp := rfl

@[simp] theorem State.didWrite_given (s : State) (off a : Nat) (v : Byte) :
    (s.didWrite off a v).given = s.given := rfl

@[simp] theorem State.didWrite_hostPort (s : State) (off a : Nat) (v : Byte) :
    (s.didWrite off a v).hostPort = s.hostPort := rfl

@[simp] theorem State.didWrite_auxPorts (s : State) (off a : Nat) (v : Byte) :
    (s.didWrite off a v).auxPorts = s.auxPorts := rfl

@[simp] theorem State.didWrite_active (s : State) (off a : Nat) (v : Byte) :
    (s.didWrite off a v).active = s.active := rfl

@[simp] theorem State.didWrite_disp (s : State) (off a : Nat) (v : Byte) :
    (s.didWrite off a v).disp = s.disp := rfl

@[simp] theorem State.didWrite_task (s : State) (off a : Nat) (v : Byte) :
    (s.didWrite off a v).task = s.task := rfl

@[simp] theorem State.didWrite_bus (s : State) (off a : Nat) (v : Byte) :
    (s.didWrite off a v).bus = .write off v true :: s.bus := rfl

@[simp] theorem State.didWrite_events (s : State) (off a : Nat) (v : Byte) :
    (s.didWrite off a v).events = s.events := rfl

@[simp] theorem State.didWrite_env (s : State) (off a : Nat) (v : Byte) :
    (s.didWrite off a v).env = s.env.afterTransaction := rfl

/-! ## afterSelect -/

@[simp] theorem State.afterSelect_cfg (s : State) (b : Bank) :
    (s.afterSelect b).cfg = s.cfg := rfl

@[simp] theorem State.afterSelect_x (s : State) (b : Bank) :
    (s.afterSelect b).x = s.x.write s.cfg.bank.addr (selectByte s.cfg.bank b) := rfl

@[simp] theorem State.afterSelect_hwBank (s : State) (b : Bank) :
    (s.afterSelect b).hwBank = b := rfl

@[simp] theorem State.afterSelect_ctx (s : State) (b : Bank) :
    (s.afterSelect b).ctx = { s.ctx with currentBank := b } := rfl

@[simp] theorem State.afterSelect_taskRunning (s : State) (b : Bank) :
    (s.afterSelect b).taskRunning = s.taskRunning := rfl

@[simp] theorem State.afterSelect_dispRunning (s : State) (b : Bank) :
    (s.afterSelect b).dispRunning = s.dispRunning := rfl

@[simp] theorem State.afterSelect_irqLine (s : State) (b : Bank) :
    (s.afterSelect b).irqLine = s.irqLine := rfl

@[simp] theorem State.afterSelect_snap (s : State) (b : Bank) :
    (s.afterSelect b).snap = s.snap := rfl

@[simp] theorem State.afterSelect_latches (s : State) (b : Bank) :
    (s.afterSelect b).latches = s.latches := rfl

@[simp] theorem State.afterSelect_result (s : State) (b : Bank) :
    (s.afterSelect b).result = s.result := rfl

@[simp] theorem State.afterSelect_payload (s : State) (b : Bank) :
    (s.afterSelect b).payload = s.payload := rfl

@[simp] theorem State.afterSelect_resp (s : State) (b : Bank) :
    (s.afterSelect b).resp = s.resp := rfl

@[simp] theorem State.afterSelect_given (s : State) (b : Bank) :
    (s.afterSelect b).given = s.given := rfl

@[simp] theorem State.afterSelect_hostPort (s : State) (b : Bank) :
    (s.afterSelect b).hostPort = s.hostPort := rfl

@[simp] theorem State.afterSelect_auxPorts (s : State) (b : Bank) :
    (s.afterSelect b).auxPorts = s.auxPorts := rfl

@[simp] theorem State.afterSelect_active (s : State) (b : Bank) :
    (s.afterSelect b).active = s.active := rfl

@[simp] theorem State.afterSelect_disp (s : State) (b : Bank) :
    (s.afterSelect b).disp = s.disp := rfl

@[simp] theorem State.afterSelect_task (s : State) (b : Bank) :
    (s.afterSelect b).task = s.task := rfl

@[simp] theorem State.afterSelect_bus (s : State) (b : Bank) :
    (s.afterSelect b).bus = .write s.cfg.bank.addr (selectByte s.cfg.bank b) true :: s.bus := rfl

@[simp] theorem State.afterSelect_events (s : State) (b : Bank) :
    (s.afterSelect b).events = s.events := rfl

@[simp] theorem State.afterSelect_env (s : State) (b : Bank) :
    (s.afterSelect b).env = s.env.afterTransaction := rfl

/-! ## switched -/

@[simp] theorem State.switched_cfg (s : State) (n : Option Bank) :
    (s.switched n).cfg = s.cfg := by
  unfold State.switched
  split
  · rfl
  · split <;> rfl

@[simp] theorem State.switched_taskRunning (s : State) (n : Option Bank) :
    (s.switched n).taskRunning = s.taskRunning := by
  unfold State.switched
  split
  · rfl
  · split <;> rfl

@[simp] theorem State.switched_dispRunning (s : State) (n : Option Bank) :
    (s.switched n).dispRunning = s.dispRunning := by
  unfold State.switched
  split
  · rfl
  · split <;> rfl

@[simp] theorem State.switched_irqLine (s : State) (n : Option Bank) :
    (s.switched n).irqLine = s.irqLine := by
  unfold State.switched
  split
  · rfl
  · split <;> rfl

@[simp] theorem State.switched_snap (s : State) (n : Option Bank) :
    (s.switched n).snap = s.snap := by
  unfold State.switched
  split
  · rfl
  · split <;> rfl

@[simp] theorem State.switched_latches (s : State) (n : Option Bank) :
    (s.switched n).latches = s.latches := by
  unfold State.switched
  split
  · rfl
  · split <;> rfl

@[simp] theorem State.switched_result (s : State) (n : Option Bank) :
    (s.switched n).result = s.result := by
  unfold State.switched
  split
  · rfl
  · split <;> rfl

@[simp] theorem State.switched_payload (s : State) (n : Option Bank) :
    (s.switched n).payload = s.payload := by
  unfold State.switched
  split
  · rfl
  · split <;> rfl

@[simp] theorem State.switched_resp (s : State) (n : Option Bank) :
    (s.switched n).resp = s.resp := by
  unfold State.switched
  split
  · rfl
  · split <;> rfl

@[simp] theorem State.switched_given (s : State) (n : Option Bank) :
    (s.switched n).given = s.given := by
  unfold State.switched
  split
  · rfl
  · split <;> rfl

@[simp] theorem State.switched_hostPort (s : State) (n : Option Bank) :
    (s.switched n).hostPort = s.hostPort := by
  unfold State.switched
  split
  · rfl
  · split <;> rfl

@[simp] theorem State.switched_auxPorts (s : State) (n : Option Bank) :
    (s.switched n).auxPorts = s.auxPorts := by
  unfold State.switched
  split
  · rfl
  · split <;> rfl

@[simp] theorem State.switched_active (s : State) (n : Option Bank) :
    (s.switched n).active = s.active := by
  unfold State.switched
  split
  · rfl
  · split <;> rfl

@[simp] theorem State.switched_disp (s : State) (n : Option Bank) :
    (s.switched n).disp = s.disp := by
  unfold State.switched
  split
  · rfl
  · split <;> rfl

@[simp] theorem State.switched_task (s : State) (n : Option Bank) :
    (s.switched n).task = s.task := by
  unfold State.switched
  split
  · rfl
  · split <;> rfl

@[simp] theorem State.switched_events (s : State) (n : Option Bank) :
    (s.switched n).events = s.events := by
  unfold State.switched
  split
  · rfl
  · split <;> rfl

/-! ## loadLatch -/

@[simp] theorem State.loadLatch_cfg (s : State) (l : LatchSel) (v : BitVec 24) :
    (s.loadLatch l v).cfg = s.cfg := by cases l <;> rfl

@[simp] theorem State.loadLatch_x (s : State) (l : LatchSel) (v : BitVec 24) :
    (s.loadLatch l v).x = s.x := by cases l <;> rfl

@[simp] theorem State.loadLatch_hwBank (s : State) (l : LatchSel) (v : BitVec 24) :
    (s.loadLatch l v).hwBank = s.hwBank := by cases l <;> rfl

@[simp] theorem State.loadLatch_taskRunning (s : State) (l : LatchSel) (v : BitVec 24) :
    (s.loadLatch l v).taskRunning = s.taskRunning := by cases l <;> rfl

@[simp] theorem State.loadLatch_dispRunning (s : State) (l : LatchSel) (v : BitVec 24) :
    (s.loadLatch l v).dispRunning = s.dispRunning := by cases l <;> rfl

@[simp] theorem State.loadLatch_irqLine (s : State) (l : LatchSel) (v : BitVec 24) :
    (s.loadLatch l v).irqLine = s.irqLine := by cases l <;> rfl

@[simp] theorem State.loadLatch_snap (s : State) (l : LatchSel) (v : BitVec 24) :
    (s.loadLatch l v).snap = s.snap := by cases l <;> rfl

@[simp] theorem State.loadLatch_result (s : State) (l : LatchSel) (v : BitVec 24) :
    (s.loadLatch l v).result = s.result := by cases l <;> rfl

@[simp] theorem State.loadLatch_payload (s : State) (l : LatchSel) (v : BitVec 24) :
    (s.loadLatch l v).payload = s.payload := by cases l <;> rfl

@[simp] theorem State.loadLatch_resp (s : State) (l : LatchSel) (v : BitVec 24) :
    (s.loadLatch l v).resp = s.resp := by cases l <;> rfl

@[simp] theorem State.loadLatch_given (s : State) (l : LatchSel) (v : BitVec 24) :
    (s.loadLatch l v).given = s.given := by cases l <;> rfl

@[simp] theorem State.loadLatch_hostPort (s : State) (l : LatchSel) (v : BitVec 24) :
    (s.loadLatch l v).hostPort = s.hostPort := by cases l <;> rfl

@[simp] theorem State.loadLatch_auxPorts (s : State) (l : LatchSel) (v : BitVec 24) :
    (s.loadLatch l v).auxPorts = s.auxPorts := by cases l <;> rfl

@[simp] theorem State.loadLatch_active (s : State) (l : LatchSel) (v : BitVec 24) :
    (s.loadLatch l v).active = s.active := by cases l <;> rfl

@[simp] theorem State.loadLatch_disp (s : State) (l : LatchSel) (v : BitVec 24) :
    (s.loadLatch l v).disp = s.disp := by cases l <;> rfl

@[simp] theorem State.loadLatch_task (s : State) (l : LatchSel) (v : BitVec 24) :
    (s.loadLatch l v).task = s.task := by cases l <;> rfl

@[simp] theorem State.loadLatch_bus (s : State) (l : LatchSel) (v : BitVec 24) :
    (s.loadLatch l v).bus = s.bus := by cases l <;> rfl

@[simp] theorem State.loadLatch_events (s : State) (l : LatchSel) (v : BitVec 24) :
    (s.loadLatch l v).events = s.events := by cases l <;> rfl

@[simp] theorem State.loadLatch_env (s : State) (l : LatchSel) (v : BitVec 24) :
    (s.loadLatch l v).env = s.env := by cases l <;> rfl

/-! ## bwrAt, rdAt, wrAt, updAt -/

@[simp] theorem State.rdAt_cfg (s : State) (addr : Nat) :
    (s.rdAt addr).cfg = s.cfg := by simp [State.rdAt]

@[simp] theorem State.rdAt_taskRunning (s : State) (addr : Nat) :
    (s.rdAt addr).taskRunning = s.taskRunning := by simp [State.rdAt]

@[simp] theorem State.rdAt_dispRunning (s : State) (addr : Nat) :
    (s.rdAt addr).dispRunning = s.dispRunning := by simp [State.rdAt]

@[simp] theorem State.rdAt_irqLine (s : State) (addr : Nat) :
    (s.rdAt addr).irqLine = s.irqLine := by simp [State.rdAt]

@[simp] theorem State.rdAt_snap (s : State) (addr : Nat) :
    (s.rdAt addr).snap = s.snap := by simp [State.rdAt]

@[simp] theorem State.rdAt_latches (s : State) (addr : Nat) :
    (s.rdAt addr).latches = s.latches := by simp [State.rdAt]

@[simp] theorem State.rdAt_result (s : State) (addr : Nat) :
    (s.rdAt addr).result = s.result := by simp [State.rdAt]

@[simp] theorem State.rdAt_payload (s : State) (addr : Nat) :
    (s.rdAt addr).payload = s.payload := by simp [State.rdAt]

@[simp] theorem State.rdAt_resp (s : State) (addr : Nat) :
    (s.rdAt addr).resp = s.resp := by simp [State.rdAt]

@[simp] theorem State.rdAt_given (s : State) (addr : Nat) :
    (s.rdAt addr).given = s.given := by simp [State.rdAt]

@[simp] theorem State.rdAt_hostPort (s : State) (addr : Nat) :
    (s.rdAt addr).hostPort = s.hostPort := by simp [State.rdAt]

@[simp] theorem State.rdAt_auxPorts (s : State) (addr : Nat) :
    (s.rdAt addr).auxPorts = s.auxPorts := by simp [State.rdAt]

@[simp] theorem State.rdAt_active (s : State) (addr : Nat) :
    (s.rdAt addr).active = s.active := by simp [State.rdAt]

@[simp] theorem State.rdAt_disp (s : State) (addr : Nat) :
    (s.rdAt addr).disp = s.disp := by simp [State.rdAt]

@[simp] theorem State.rdAt_task (s : State) (addr : Nat) :
    (s.rdAt addr).task = s.task := by simp [State.rdAt]

@[simp] theorem State.rdAt_events (s : State) (addr : Nat) :
    (s.rdAt addr).events = s.events := by simp [State.rdAt]

@[simp] theorem State.wrAt_cfg (s : State) (addr : Nat) (v : Byte) :
    (s.wrAt addr v).cfg = s.cfg := by simp [State.wrAt]

@[simp] theorem State.wrAt_taskRunning (s : State) (addr : Nat) (v : Byte) :
    (s.wrAt addr v).taskRunning = s.taskRunning := by simp [State.wrAt]

@[simp] theorem State.wrAt_dispRunning (s : State) (addr : Nat) (v : Byte) :
    (s.wrAt addr v).dispRunning = s.dispRunning := by simp [State.wrAt]

@[simp] theorem State.wrAt_irqLine (s : State) (addr : Nat) (v : Byte) :
    (s.wrAt addr v).irqLine = s.irqLine := by simp [State.wrAt]

@[simp] theorem State.wrAt_snap (s : State) (addr : Nat) (v : Byte) :
    (s.wrAt addr v).snap = s.snap := by simp [State.wrAt]

@[simp] theorem State.wrAt_latches (s : State) (addr : Nat) (v : Byte) :
    (s.wrAt addr v).latches = s.latches := by simp [State.wrAt]

@[simp] theorem State.wrAt_result (s : State) (addr : Nat) (v : Byte) :
    (s.wrAt addr v).result = s.result := by simp [State.wrAt]

@[simp] theorem State.wrAt_payload (s : State) (addr : Nat) (v : Byte) :
    (s.wrAt addr v).payload = s.payload := by simp [State.wrAt]

@[simp] theorem State.wrAt_resp (s : State) (addr : Nat) (v : Byte) :
    (s.wrAt addr v).resp = s.resp := by simp [State.wrAt]

@[simp] theorem State.wrAt_given (s : State) (addr : Nat) (v : Byte) :
    (s.wrAt addr v).given = s.given := by simp [State.wrAt]

@[simp] theorem State.wrAt_hostPort (s : State) (addr : Nat) (v : Byte) :
    (s.wrAt addr v).hostPort = s.hostPort := by simp [State.wrAt]

@[simp] theorem State.wrAt_auxPorts (s : State) (addr : Nat) (v : Byte) :
    (s.wrAt addr v).auxPorts = s.auxPorts := by simp [State.wrAt]

@[simp] theorem State.wrAt_active (s : State) (addr : Nat) (v : Byte) :
    (s.wrAt addr v).active = s.active := by simp [State.wrAt]

@[simp] theorem State.wrAt_disp (s : State) (addr : Nat) (v : Byte) :
    (s.wrAt addr v).disp = s.disp := by simp [State.wrAt]

@[simp] theorem State.wrAt_task (s : State) (addr : Nat) (v : Byte) :
    (s.wrAt addr v).task = s.task := by simp [State.wrAt]

@[simp] theorem State.wrAt_events (s : State) (addr : Nat) (v : Byte) :
    (s.wrAt addr v).events = s.events := by simp [State.wrAt]

@[simp] theorem State.updAt_cfg (s : State) (addr : Nat) (m v : Byte) :
    (s.updAt addr m v).cfg = s.cfg := by simp [State.updAt]

@[simp] theorem State.updAt_taskRunning (s : State) (addr : Nat) (m v : Byte) :
    (s.updAt addr m v).taskRunning = s.taskRunning := by simp [State.updAt]

@[simp] theorem State.updAt_dispRunning (s : State) (addr : Nat) (m v : Byte) :
    (s.updAt addr m v).dispRunning = s.dispRunning := by simp [State.updAt]

@[simp] theorem State.updAt_irqLine (s : State) (addr : Nat) (m v : Byte) :
    (s.updAt addr m v).irqLine = s.irqLine := by simp [State.updAt]

@[simp] theorem State.updAt_snap (s : State) (addr : Nat) (m v : Byte) :
    (s.updAt addr m v).snap = s.snap := by simp [State.updAt]

@[simp] theorem State.updAt_latches (s : State) (addr : Nat) (m v : Byte) :
    (s.updAt addr m v).latches = s.latches := by simp [State.updAt]

@[simp] theorem State.updAt_result (s : State) (addr : Nat) (m v : Byte) :
    (s.updAt addr m v).result = s.result := by simp [State.updAt]

@[simp] theorem State.updAt_payload (s : State) (addr : Nat) (m v : Byte) :
    (s.updAt addr m v).payload = s.payload := by simp [State.updAt]

@[simp] theorem State.updAt_resp (s : State) (addr : Nat) (m v : Byte) :
    (s.updAt addr m v).resp = s.resp := by simp [State.updAt]

@[simp] theorem State.updAt_given (s : State) (addr : Nat) (m v : Byte) :
    (s.updAt addr m v).given = s.given := by simp [State.updAt]

@[simp] theorem State.updAt_hostPort (s : State) (addr : Nat) (m v : Byte) :
    (s.updAt addr m v).hostPort = s.hostPort := by simp [State.updAt]

@[simp] theorem State.updAt_auxPorts (s : State) (addr : Nat) (m v : Byte) :
    (s.updAt addr m v).auxPorts = s.auxPorts := by simp [State.updAt]

@[simp] theorem State.updAt_active (s : State) (addr : Nat) (m v : Byte) :
    (s.updAt addr m v).active = s.active := by simp [State.updAt]

@[simp] theorem State.updAt_disp (s : State) (addr : Nat) (m v : Byte) :
    (s.updAt addr m v).disp = s.disp := by simp [State.updAt]

@[simp] theorem State.updAt_task (s : State) (addr : Nat) (m v : Byte) :
    (s.updAt addr m v).task = s.task := by simp [State.updAt]

@[simp] theorem State.updAt_events (s : State) (addr : Nat) (m v : Byte) :
    (s.updAt addr m v).events = s.events := by simp [State.updAt]

@[simp] theorem State.bwrAt_cfg (s : State) (addr : Nat) (l : List Byte) :
    (s.bwrAt addr l).cfg = s.cfg := by simp [State.bwrAt]

@[simp] theorem State.bwrAt_taskRunning (s : State) (addr : Nat) (l : List Byte) :
    (s.bwrAt addr l).taskRunning = s.taskRunning := by simp [State.bwrAt]

@[simp] theorem State.bwrAt_dispRunning (s : State) (addr : Nat) (l : List Byte) :
    (s.bwrAt addr l).dispRunning = s.dispRunning := by simp [State.bwrAt]

@[simp] theorem State.bwrAt_irqLine (s : State) (addr : Nat) (l : List Byte) :
    (s.bwrAt addr l).irqLine = s.irqLine := by simp [State.bwrAt]

@[simp] theorem State.bwrAt_snap (s : State) (addr : Nat) (l : List Byte) :
    (s.bwrAt addr l).snap = s.snap := by simp [State.bwrAt]

@[simp] theorem State.bwrAt_latches (s : State) (addr : Nat) (l : List Byte) :
    (s.bwrAt addr l).latches = s.latches := by simp [State.bwrAt]

@[simp] theorem State.bwrAt_result (s : State) (addr : Nat) (l : List Byte) :
    (s.bwrAt addr l).result = s.result := by simp [State.bwrAt]

@[simp] theorem State.bwrAt_payload (s : State) (addr : Nat) (l : List Byte) :
    (s.bwrAt addr l).payload = s.payload := by simp [State.bwrAt]

@[simp] theorem State.bwrAt_resp (s : State) (addr : Nat) (l : List Byte) :
    (s.bwrAt addr l).resp = s.resp := by simp [State.bwrAt]

@[simp] theorem State.bwrAt_given (s : State) (addr : Nat) (l : List Byte) :
    (s.bwrAt addr l).given = s.given := by simp [State.bwrAt]

@[simp] theorem State.bwrAt_hostPort (s : State) (addr : Nat) (l : List Byte) :
    (s.bwrAt addr l).hostPort = s.hostPort := by simp [State.bwrAt]

@[simp] theorem State.bwrAt_auxPorts (s : State) (addr : Nat) (l : List Byte) :
    (s.bwrAt addr l).auxPorts = s.auxPorts := by simp [State.bwrAt]

@[simp] theorem State.bwrAt_active (s : State) (addr : Nat) (l : List Byte) :
    (s.bwrAt addr l).active = s.active := by simp [State.bwrAt]

@[simp] theorem State.bwrAt_disp (s : State) (addr : Nat) (l : List Byte) :
    (s.bwrAt addr l).disp = s.disp := by simp [State.bwrAt]

@[simp] theorem State.bwrAt_task (s : State) (addr : Nat) (l : List Byte) :
    (s.bwrAt addr l).task = s.task := by simp [State.bwrAt]

@[simp] theorem State.bwrAt_events (s : State) (addr : Nat) (l : List Byte) :
    (s.bwrAt addr l).events = s.events := by simp [State.bwrAt]

/-! ## Sequencers and ports read back -/

theorem State.port_setPort_self (s : State) {p : PortId} (q : Port) (h : s.hasPort p = true) :
    (s.setPort p q).port p = q := by
  cases p with
  | host => rfl
  | aux k =>
    have hk : k < s.auxPorts.length := by simpa [State.hasPort] using h
    simp [State.setPort, State.port, List.getD, hk]

theorem State.port_setPort_other (s : State) {p p' : PortId} (q : Port) (h : p' ≠ p) :
    (s.setPort p q).port p' = s.port p' := by
  cases p <;> cases p' <;> simp_all [State.setPort, State.port, List.getD, List.getElem?_set]
  rw [if_neg (Ne.symm h)]

@[simp] theorem State.hasPort_setPort (s : State) (p p' : PortId) (q : Port) :
    (s.setPort p q).hasPort p' = s.hasPort p' := by
  cases p <;> cases p' <;> first
    | rfl
    | simp only [State.setPort, State.hasPort, List.length_set]

/-- What the host's answer does to the host's queue and response (rules R37, R104, R255). -/
@[simp] theorem State.respond_host_payload (s : State) (r : Response) :
    (s.respond .host r).payload = [] := rfl

@[simp] theorem State.respond_host_resp (s : State) (r : Response) :
    (s.respond .host r).resp = r := rfl

/-- An auxiliary port has no queue and no response register (rule R255). -/
@[simp] theorem State.respond_aux_payload (s : State) (k : Nat) (r : Response) :
    (s.respond (.aux k) r).payload = s.payload := rfl

@[simp] theorem State.respond_aux_resp (s : State) (k : Nat) (r : Response) :
    (s.respond (.aux k) r).resp = s.resp := rfl

theorem State.port_congr {s t : State} (h1 : t.hostPort = s.hostPort) (h2 : t.auxPorts = s.auxPorts)
    (p : PortId) : t.port p = s.port p := by
  cases p <;> simp [State.port, h1, h2]

theorem State.closeHost_port (s : State) (p p' : PortId) (r : Response) :
    (s.closeHost p r).port p' = s.port p' := by cases p <;> rfl

/-- What answering leaves on the port: it is idle. -/
theorem State.respond_port_self (s : State) {p : PortId} (r : Response) (h : s.hasPort p = true) :
    (s.respond p r).port p = { s.port p with seq := { (s.port p).seq with pos := [] } } := by
  show ((s.setPort p _).closeHost p r).port p = _
  rw [State.closeHost_port, State.port_setPort_self s _ h]

theorem State.respond_port_other (s : State) {p p' : PortId} (r : Response) (h : p' ≠ p) :
    (s.respond p r).port p' = s.port p' := by
  show ((s.setPort p _).closeHost p r).port p' = _
  rw [State.closeHost_port, State.port_setPort_other s _ h]

@[simp] theorem State.hasPort_respond (s : State) (p p' : PortId) (r : Response) :
    (s.respond p r).hasPort p' = s.hasPort p' := by
  show ((s.setPort p _).closeHost p r).hasPort p' = _
  rw [← State.hasPort_setPort s p p' { s.port p with seq := { (s.port p).seq with pos := [] } }]
  cases p <;> rfl

/-- Answering changes the ports, the host's queue and response, and the events alone. -/
theorem State.respond_frame (s : State) (p : PortId) (r : Response) :
    s.respond p r = { s with
      hostPort := (s.respond p r).hostPort, auxPorts := (s.respond p r).auxPorts
      payload := (s.respond p r).payload, resp := (s.respond p r).resp
      events := (s.respond p r).events } := by cases p <;> rfl

/-- Answering a command of an idle port leaves every port as it was, sets the host's queue and response
where the port is the host's, and emits one event. -/
theorem State.respond_answered {s t : State} (r : Response) (h : t.hasPort s.active = true)
    (hp : ∀ p, t.port p = s.port p) (hid : s.idle (.port s.active) = true)
    (he : t.events = s.events) (hq : t.payload = s.payload) (hr : t.resp = s.resp) :
    Answered s (t.respond s.active r) r := by
  refine ⟨fun p => ?_, ?_, ?_, by simp [he]⟩
  · by_cases hne : p = s.active
    · have hpos : (s.port s.active).seq.pos = [] := by
        simpa [State.idle, State.pos, State.seqOf] using hid
      rw [hne, State.respond_port_self t r h, hp, ← hpos]
    · rw [State.respond_port_other t r hne, hp]
  · cases s.active <;> simp [hq]
  · cases s.active <;> simp [hr]

/-- Taking a command changes the port's inbox, the payload it brought and the port served. -/
theorem State.takeCommand_frame (s : State) (p : PortId) (c : Command) (cs : List Command) :
    s.takeCommand p c cs = { s with
      hostPort := (s.takeCommand p c cs).hostPort, auxPorts := (s.takeCommand p c cs).auxPorts
      payload := (s.takeCommand p c cs).payload, given := (s.takeCommand p c cs).given
      active := p } := by cases p <;> rfl

/-- The payload of a command just taken is what came with it. -/
@[simp] theorem State.payloadOf_takeCommand (s : State) (p : PortId) (c : Command)
    (cs : List Command) : (s.takeCommand p c cs).payloadOf p = c.payload := by cases p <;> rfl

theorem State.payloadOf_congr {s t : State} (h1 : t.payload = s.payload) (h2 : t.given = s.given)
    (p : PortId) : t.payloadOf p = s.payloadOf p := by
  cases p <;> simp [State.payloadOf, h1, h2]

/-- An agent whose port exists; the dispatcher and the task always do. -/
def State.hasAgent (s : State) : AgentId → Bool
  | .port p => s.hasPort p
  | .dispatcher => true
  | .task => true

theorem State.seqOf_setSeq_self (s : State) {a : AgentId} (q : Sequencer) (h : s.hasAgent a = true) :
    (s.setSeq a q).seqOf a = q := by
  cases a with
  | port p =>
    show ((s.setPort p _).port p).seq = q
    rw [State.port_setPort_self s _ h]
  | dispatcher => rfl
  | task => rfl

theorem State.pos_setPos_self (s : State) {a : AgentId} (k : List Stmt) (h : s.hasAgent a = true) :
    (s.setPos a k).pos a = k := by
  simp [State.setPos, State.pos, State.seqOf_setSeq_self s _ h]

/-- The position of an agent depends only on the sequencers and the ports. -/
theorem State.pos_congr {s t : State} (h1 : t.hostPort = s.hostPort) (h2 : t.auxPorts = s.auxPorts)
    (h3 : t.disp = s.disp) (h4 : t.task = s.task) (a : AgentId) : t.pos a = s.pos a := by
  rcases a with (_ | k) | _ | _ <;>
    simp [State.pos, State.seqOf, State.port, h1, h2, h3, h4]

theorem State.seqOf_congr {s t : State} (h1 : t.hostPort = s.hostPort) (h2 : t.auxPorts = s.auxPorts)
    (h3 : t.disp = s.disp) (h4 : t.task = s.task) (a : AgentId) : t.seqOf a = s.seqOf a := by
  rcases a with (_ | k) | _ | _ <;> simp [State.seqOf, State.port, h1, h2, h3, h4]

end Sys2Proof.Machine
end

