-- ==== Sys2Proof/Laws/Bus.lean ====
section
/-! SUPPORT. What a bus transaction and a primitive can do, whatever the environment answers (one frame
lemma per operation), and what they do exactly when nothing fails and the shadow agrees. -/

namespace Sys2Proof.Machine

/-! ## Window offsets -/

theorem target_isRegister {b : Bank} {off a : Nat} (h : target b off = some a) :
    isRegister a = true := by
  unfold target at h
  have e1 : b0Base = 48 := rfl
  have e2 : windowSize = 256 := rfl
  have e3 : b1OffsetEnd = 192 := rfl
  have e4 : b1LocalSub = 256 := rfl
  have e5 : b0End = 256 := rfl
  have e6 : b1Base = 304 := rfl
  have e7 : addrLimit = 448 := rfl
  split at h
  · simp only [Option.some.injEq] at h
    simp only [isRegister, decide_eq_true_eq]; omega
  · cases b <;> simp only at h <;> split at h <;>
      simp only [Option.some.injEq, reduceCtorEq] at h <;>
      (simp only [isRegister, decide_eq_true_eq]; omega)

/-- A translated address is reached through its offset while the bank it needs is selected (rules R65,
R74). -/
theorem target_of_translate {addr off : Nat} {need : Option Bank} {hw : Bank}
    (h : translate addr = some (need, off)) (hb : ∀ b, need = some b → hw = b) :
    target hw off = some addr := by
  unfold translate region at h
  have e1 : b0Base = 48 := rfl
  have e2 : windowSize = 256 := rfl
  have e3 : b1OffsetEnd = 192 := rfl
  have e4 : b1LocalSub = 256 := rfl
  have e5 : b0End = 256 := rfl
  have e6 : b1Base = 304 := rfl
  have e7 : addrLimit = 448 := rfl
  unfold target
  by_cases h1 : addr < b0Base
  · simp [h1] at h
    obtain ⟨rfl, rfl⟩ := h
    simp [h1]
  by_cases h2 : addr < b0End
  · simp [h1, h2] at h
    obtain ⟨rfl, rfl⟩ := h
    rw [hb .bank0 rfl]
    simp only [h1, if_false]
    rw [if_pos (by omega)]
  by_cases h3 : addr < b1Base
  · simp [h1, h2, h3] at h
  by_cases h4 : addr < addrLimit
  · simp [h1, h2, h3, h4] at h
    obtain ⟨rfl, rfl⟩ := h
    rw [hb .bank1 rfl]
    rw [if_neg (by omega)]
    simp only
    rw [if_pos (by omega)]
    simp only [Option.some.injEq]; omega
  · simp [h1, h2, h3, h4] at h

theorem translate_of_isRegister {addr : Nat} (h : isRegister addr = true) :
    translate addr = some (needOf addr, offOf addr) := by
  have e5 : b0End = 256 := rfl
  have e6 : b1Base = 304 := rfl
  have e7 : addrLimit = 448 := rfl
  have : ∃ t, translate addr = some t := by
    simp only [isRegister, decide_eq_true_eq] at h
    unfold translate region
    by_cases h1 : addr < b0Base
    · simp [h1]
    by_cases h2 : addr < b0End
    · simp [h1, h2]
    by_cases h3 : addr < b1Base
    · omega
    by_cases h4 : addr < addrLimit
    · simp [h1, h2, h3, h4]
    · omega
  obtain ⟨t, ht⟩ := this
  simp [needOf, offOf, ht]

theorem lt_limit_of_isRegister {addr : Nat} (h : isRegister addr = true) : addr < addrLimit := by
  have e5 : b0End = 256 := rfl
  have e7 : addrLimit = 448 := rfl
  simp only [isRegister, decide_eq_true_eq] at h
  omega

/-! ## The frame of a bus transaction and of a primitive -/

/-- What register traffic can change at all: the register file (in canonical form still), the two banks,
the environment's draws and the bus log, which only grows, by at most `n` transactions. -/
structure BusFrame (n : Nat) (s t : State) : Prop where
  frame : t = { s with
    x := t.x, hwBank := t.hwBank, ctx := { s.ctx with currentBank := t.ctx.currentBank }
    env := t.env, bus := t.bus }
  sched : t.env.sched = s.env.sched
  wf : Memory.wf s.x → Memory.wf t.x
  log : ∃ l : List BusOp, l.length ≤ n ∧ t.bus = l ++ s.bus

theorem BusFrame.refl (s : State) : BusFrame 0 s s :=
  ⟨rfl, rfl, id, [], by simp, rfl⟩

theorem BusFrame.trans {m n : Nat} {s t u : State} (h : BusFrame m s t) (h' : BusFrame n t u) :
    BusFrame (n + m) s u := by
  obtain ⟨l, hl, hb⟩ := h.log
  obtain ⟨l', hl', hb'⟩ := h'.log
  refine ⟨?_, h'.sched.trans h.sched, h'.wf ∘ h.wf, l' ++ l, by simp; omega, by simp [hb', hb]⟩
  have h1 := h.frame
  have h2 := h'.frame
  rw [h1] at h2
  exact h2

theorem BusFrame.mono {m n : Nat} {s t : State} (h : BusFrame m s t) (hmn : m ≤ n) :
    BusFrame n s t := by
  obtain ⟨l, hl, hb⟩ := h.log
  exact ⟨h.frame, h.sched, h.wf, l, by omega, hb⟩

/-- Whatever a piece of a primitive answers, its state has a property. -/
def PRes.Leaves {α : Type} (r : PRes α) (P : State → Prop) : Prop :=
  match r with
  | .ok _ s => P s
  | .err _ s => P s
  | .stop _ => True

theorem PRes.Leaves.bind {α β : Type} {r : PRes α} {k : α → State → PRes β} {m n : Nat} {s : State}
    (hr : r.Leaves (BusFrame m s)) (hk : ∀ v t, (k v t).Leaves (BusFrame n t)) :
    (r.bind k).Leaves (BusFrame (n + m) s) := by
  cases r with
  | ok v t =>
    have := hk v t
    show (k v t).Leaves _
    cases h : k v t with
    | ok w u => rw [h] at this; exact BusFrame.trans hr this
    | err e u => rw [h] at this; exact BusFrame.trans hr this
    | stop x => trivial
  | err e t => exact BusFrame.mono hr (by omega)
  | stop x => trivial

theorem PRes.Leaves.mono {α : Type} {r : PRes α} {m n : Nat} {s : State}
    (hr : r.Leaves (BusFrame m s)) (h : m ≤ n) : r.Leaves (BusFrame n s) := by
  cases r with
  | ok v t => exact BusFrame.mono hr h
  | err e t => exact BusFrame.mono hr h
  | stop x => trivial

theorem storeByte_wf (c : Params) (free : Bank) (off : Nat) (v : Byte) (st : Memory × Bank)
    (h : Memory.wf st.1) : Memory.wf (storeByte c free off v st).1 := by
  unfold storeByte
  split
  · exact h
  · rename_i a ha
    have hr := target_isRegister ha
    split
    · exact Memory.wf_write h hr v
    · split
      · exact Memory.wf_write h hr v
      · exact h

theorem storeBytes_wf (c : Params) (free : Bank) (off : Nat) (bytes : List Byte)
    (st : Memory × Bank) (h : Memory.wf st.1) : Memory.wf (storeBytes c free off bytes st).1 := by
  induction bytes generalizing off st with
  | nil => exact h
  | cons b bs ih => exact ih _ _ (storeByte_wf c free off b st h)

theorem busOut_frame (op : Bool → BusOp) (off : Nat) (bytes : List Byte) (s : State) :
    (busOut op off bytes s).Leaves (BusFrame 1 s) := by
  unfold busOut
  simp only
  split
  · split
    · exact ⟨rfl, rfl, fun h => storeBytes_wf _ _ _ _ _ h, [op false], by simp, rfl⟩
    · exact ⟨rfl, rfl, fun h => storeBytes_wf _ _ _ _ _ h, [op true], by simp, rfl⟩
  · trivial

theorem busWrite_frame (off : Nat) (v : Byte) (s : State) :
    (busWrite off v s).Leaves (BusFrame 1 s) := busOut_frame _ _ _ _

theorem busBurst_frame (off : Nat) (bytes : List Byte) (s : State) :
    (busBurst off bytes s).Leaves (BusFrame 1 s) := busOut_frame _ _ _ _

theorem envAfterRead_sched (s : State) (a : Nat) : (s.envAfterRead a).sched = s.env.sched := by
  unfold State.envAfterRead
  split <;> rfl

theorem busRead_frame (off : Nat) (s : State) : (busRead off s).Leaves (BusFrame 1 s) := by
  unfold busRead
  split
  · trivial
  · split
    · exact ⟨rfl, rfl, id, [_], by simp, rfl⟩
    · exact ⟨rfl, envAfterRead_sched _ _, id, [_], by simp, rfl⟩

theorem ensureBank_frame (need : Option Bank) (s : State) :
    (ensureBank need s).Leaves (BusFrame 1 s) := by
  unfold ensureBank
  split
  · exact BusFrame.mono (BusFrame.refl s) (by omega)
  · split
    · exact BusFrame.mono (BusFrame.refl s) (by omega)
    · unfold bankSelect
      refine PRes.Leaves.bind (n := 0) (busWrite_frame _ _ _) fun _ t => ?_
      exact ⟨rfl, rfl, id, [], by simp, rfl⟩

theorem locate_frame (addr : Nat) (s : State) : (locate addr s).Leaves (BusFrame 0 s) := by
  unfold locate gapAccess
  split
  · exact BusFrame.refl s
  · split
    · exact BusFrame.refl s
    · split
      · trivial
      · exact BusFrame.refl s
      · exact BusFrame.refl s

theorem locateBulk_frame (addr n : Nat) (s : State) :
    (locateBulk addr n s).Leaves (BusFrame 0 s) := by
  unfold locateBulk gapAccess
  split
  · split
    · trivial
    · exact BusFrame.refl s
    · split
      · exact BusFrame.refl s
      · trivial
  · split
    · exact BusFrame.refl s
    · split
      · trivial
      · exact BusFrame.refl s
      · exact BusFrame.refl s

theorem ok_frame {α : Type} (v : α) (s : State) : (PRes.ok v s).Leaves (BusFrame 0 s) :=
  BusFrame.refl s

theorem prologue_frame (addr : Nat) (s : State) : (prologue addr s).Leaves (BusFrame 1 s) :=
  PRes.Leaves.bind (locate_frame addr s) fun t s1 =>
    PRes.Leaves.bind (n := 0) (ensureBank_frame t.1 s1) fun _ _ => ok_frame _ _

/-- Whatever a primitive does and the environment answers, it changes only what register traffic can
change, and issues at most three transactions (rules R82, R134). -/
theorem primBody_frame (p : Prim) (s : State) : (primBody p s).Leaves (BusFrame 3 s) := by
  cases p with
  | rd addr =>
    exact PRes.Leaves.mono
      (PRes.Leaves.bind (prologue_frame addr s) fun off t => busRead_frame off t) (by omega)
  | wr addr v =>
    exact PRes.Leaves.mono
      (PRes.Leaves.bind (prologue_frame addr s) fun off t =>
        PRes.Leaves.bind (n := 0) (busWrite_frame off v t) fun _ _ => ok_frame _ _) (by omega)
  | upd addr mask v =>
    exact PRes.Leaves.mono
      (PRes.Leaves.bind (prologue_frame addr s) fun off t =>
        PRes.Leaves.bind (busRead_frame off t) fun old u =>
          PRes.Leaves.bind (n := 0) (busWrite_frame off _ u) fun _ _ => ok_frame _ _) (by omega)
  | bwr addr bytes =>
    show (bwrBody addr bytes s).Leaves _
    unfold bwrBody
    split
    · exact BusFrame.mono (BusFrame.refl s) (by omega)
    · split
      · exact BusFrame.mono (BusFrame.refl s) (by omega)
      · exact PRes.Leaves.mono
          (PRes.Leaves.bind (locateBulk_frame _ _ s) fun t s1 =>
            PRes.Leaves.bind (ensureBank_frame t.1 s1) fun _ s2 =>
              PRes.Leaves.bind (n := 0) (busBurst_frame t.2 bytes s2) fun _ _ => ok_frame _ _)
          (by omega)

/-- The frame of a whole primitive: the lock was free and is free again. -/
theorem runPrim_frame {a : AgentId} {p : Prim} {s : State} {r : PRes Byte}
    (h : runPrim a p s = some r) : s.ctx.lock = none ∧ r.Leaves (BusFrame 3 s) := by
  unfold runPrim at h
  split at h
  · cases h
  · rename_i hl
    have hl' : s.ctx.lock = none := by simpa using hl
    refine ⟨hl', ?_⟩
    simp only [Option.some.injEq] at h
    subst h
    have hf := primBody_frame p (s.setLock (some a))
    cases hb : primBody p (s.setLock (some a)) with
    | ok v t =>
      rw [hb] at hf
      refine ⟨?_, hf.sched, hf.wf, hf.log⟩
      have := hf.frame
      show t.setLock none = _
      rw [this]
      simp [State.setLock, ← hl']
    | err e t =>
      rw [hb] at hf
      refine ⟨?_, hf.sched, hf.wf, hf.log⟩
      have := hf.frame
      show t.setLock none = _
      rw [this]
      simp [State.setLock, ← hl']
    | stop x => trivial

end Sys2Proof.Machine
end

