-- ==== Sys2Proof/Laws/Exact.lean ====
section
/-! SUPPORT. What a primitive does EXACTLY when no transaction fails, the shadow agrees with the
downstream bank and the bank parameters meet PC1 and PC2 (`Fine`): the effect the rules give, and
`Fine` again. -/

namespace Sys2Proof.Machine

theorem bankParams_addr {s : State} (h : bankParamsOk s.cfg = true) : s.cfg.bank.addr < b0Base := by
  simp only [bankParamsOk, Bool.and_eq_true, decide_eq_true_eq] at h
  exact h.1.1

theorem bankParams_ne {s : State} (h : bankParamsOk s.cfg = true) : s.cfg.bank.b0 ≠ s.cfg.bank.b1 := by
  simp only [bankParamsOk, Bool.and_eq_true, decide_eq_true_eq] at h
  intro he
  have := h.1.2
  simp [he, isOneBit] at this

theorem bankOf_selectByte {s : State} (h : bankParamsOk s.cfg = true) (b free : Bank) :
    bankOf s.cfg.bank (selectByte s.cfg.bank b) free = b := by
  cases b with
  | bank0 => simp [bankOf, selectByte]
  | bank1 => simp [bankOf, selectByte, (bankParams_ne h).symm]

@[simp] theorem Env.afterTransaction_fails (e : Env) : e.afterTransaction.fails = e.fails.tail := rfl
@[simp] theorem Env.afterTransaction_sched (e : Env) : e.afterTransaction.sched = e.sched := rfl
@[simp] theorem Env.afterTransaction_answers (e : Env) : e.afterTransaction.answers = e.answers := rfl
@[simp] theorem Env.consume_fails (e : Env) (a : Nat) : (e.consume a).fails = e.fails := rfl

theorem nextFails_of_fine {s : State} (h : BusFine s) : s.env.nextFails = false := by
  simp [Env.nextFails, show s.env.fails = [] from h]

@[simp] theorem envAfterRead_fails (s : State) (a : Nat) :
    (s.envAfterRead a).fails = s.env.fails.tail := by
  unfold State.envAfterRead
  split <;> rfl

theorem Fine.afterSelect {s : State} (h : Fine s) (b : Bank) : Fine (s.afterSelect b) :=
  ⟨h.1, rfl, by
    show (s.afterSelect b).env.fails = []
    simp [show s.env.fails = [] from h.2.2]⟩

theorem Fine.switched {s : State} (h : Fine s) (need : Option Bank) : Fine (s.switched need) := by
  unfold State.switched
  split
  · exact h
  · split
    · exact h
    · exact Fine.afterSelect h _

theorem Fine.didRead {s : State} (h : Fine s) (off a : Nat) : Fine (s.didRead off a) :=
  ⟨h.1, h.2.1, by
    show (s.didRead off a).env.fails = []
    simp [show s.env.fails = [] from h.2.2]⟩

theorem Fine.didWrite {s : State} (h : Fine s) (off : Nat) {a : Nat} (ha : a ≠ s.cfg.bank.addr)
    (v : Byte) : Fine (s.didWrite off a v) :=
  ⟨h.1, by simp [ha, h.2.1], by
    show (s.didWrite off a v).env.fails = []
    simp [show s.env.fails = [] from h.2.2]⟩

/-- The bank needed is the one selected after the switch. -/
theorem switched_bank {s : State} (h : Fine s) {need : Option Bank} (b : Bank)
    (hb : need = some b) : (s.switched need).hwBank = b := by
  subst hb
  unfold State.switched
  simp only
  split
  · rename_i he
    rw [he]; exact h.2.1.symm
  · rfl

theorem ensureBank_fine {s : State} (h : Fine s) (need : Option Bank) :
    ensureBank need s = .ok () (s.switched need) := by
  unfold ensureBank State.switched
  split
  · rfl
  · rename_i b
    try simp only
    split
    · rfl
    · have hb := bankParams_addr h.1
      have ht : ∀ hw, target hw s.cfg.bank.addr = some s.cfg.bank.addr := fun hw => by
        simp [target, hb]
      simp only [bankSelect, busWrite, busOut, reachesAll, ht, nextFails_of_fine h.2.2,
        State.store, storeBytes, storeByte, bankOf_selectByte h.1]
      rfl

theorem locate_register {addr : Nat} (h : isRegister addr = true) (s : State) :
    locate addr s = .ok (needOf addr, offOf addr) s := by
  unfold locate
  rw [if_neg (by have := lt_limit_of_isRegister h; omega), translate_of_isRegister h]

theorem prologue_fine {s : State} (h : Fine s) {addr : Nat} (ha : isRegister addr = true) :
    prologue addr s = .ok (offOf addr) (s.switched (needOf addr)) := by
  simp only [prologue, locate_register ha, PRes.bind, ensureBank_fine h]

theorem target_switched {s : State} (h : Fine s) {addr : Nat} (ha : isRegister addr = true) :
    target (s.switched (needOf addr)).hwBank (offOf addr) = some addr :=
  target_of_translate (translate_of_isRegister ha) fun b hb => switched_bank h b hb

theorem busRead_completes {s : State} (h : s.env.nextFails = false) {off a : Nat}
    (ht : target s.hwBank off = some a) : busRead off s = .ok (s.busValue a) (s.didRead off a) := by
  unfold busRead
  rw [ht]
  simp only [h]
  rfl

theorem busWrite_completes {s : State} (h : s.env.nextFails = false) {off a : Nat}
    (ht : target s.hwBank off = some a) (v : Byte) :
    busWrite off v s = .ok () (s.didWrite off a v) := by
  unfold busWrite busOut
  simp only [reachesAll, ht, Option.isSome_some, Bool.true_and, if_true, h, Bool.false_eq_true,
    if_false, State.store, storeBytes, storeByte]
  by_cases hb : a = s.cfg.bank.addr
  · simp [State.didWrite, State.storedIn, State.logBus, hb]
  · by_cases hp : isPlain s.cfg a = true
    · simp [State.didWrite, State.storedIn, State.logBus, hb, hp]
    · simp [State.didWrite, State.storedIn, State.logBus, hb, hp]

theorem busRead_fine {s : State} (h : BusFine s) {off a : Nat} (ht : target s.hwBank off = some a) :
    busRead off s = .ok (s.busValue a) (s.didRead off a) :=
  busRead_completes (nextFails_of_fine h) ht

theorem busWrite_fine {s : State} (h : BusFine s) {off a : Nat} (ht : target s.hwBank off = some a)
    (v : Byte) : busWrite off v s = .ok () (s.didWrite off a v) :=
  busWrite_completes (nextFails_of_fine h) ht v

theorem rdBody_fine {s : State} (h : Fine s) {addr : Nat} (ha : isRegister addr = true) :
    rdBody addr s = .ok (s.rdValue addr) (s.rdAt addr) := by
  simp only [rdBody, prologue_fine h ha, PRes.bind,
    busRead_fine (h.switched _).2.2 (target_switched h ha)]
  rfl

theorem wrBody_fine {s : State} (h : Fine s) {addr : Nat} (ha : isRegister addr = true) (v : Byte) :
    wrBody addr v s = .ok 0 (s.wrAt addr v) := by
  simp only [wrBody, prologue_fine h ha, PRes.bind,
    busWrite_fine (h.switched _).2.2 (target_switched h ha)]
  rfl

theorem updBody_fine {s : State} (h : Fine s) {addr : Nat} (ha : isRegister addr = true)
    (m v : Byte) : updBody addr m v s = .ok 0 (s.updAt addr m v) := by
  have ht : target ((s.switched (needOf addr)).didRead (offOf addr) addr).hwBank (offOf addr)
      = some addr := by
    simpa using target_switched h ha
  simp only [updBody, prologue_fine h ha, PRes.bind,
    busRead_fine (h.switched _).2.2 (target_switched h ha),
    busWrite_fine ((h.switched _).didRead _ _).2.2 ht]
  rfl

/-! ## Bursts -/

/-- A burst whose offsets reach consecutive registers, none the bank select, stores them in order. -/
theorem storeBytes_run {c : Params} {free : Bank} {hw : Bank} (bytes : List Byte) (off addr : Nat)
    (m : Memory) (ht : ∀ i < bytes.length, target hw (off + i) = some (addr + i))
    (hb : ∀ i < bytes.length, addr + i ≠ c.bank.addr) :
    storeBytes c free off bytes (m, hw) = (storedList c addr bytes m, hw)
      ∧ reachesAll c free off bytes (m, hw) = true := by
  induction bytes generalizing off addr m with
  | nil => exact ⟨rfl, rfl⟩
  | cons b bs ih =>
    have h0 : target hw off = some addr := ht 0 (by simp)
    have hb0 : addr ≠ c.bank.addr := hb 0 (by simp)
    have hs : storeByte c free off b (m, hw)
        = ((if isPlain c addr then m.write addr b else m), hw) := by
      simp only [storeByte, h0, hb0, if_false]
      split <;> rfl
    have := ih (off + 1) (addr + 1) (if isPlain c addr then m.write addr b else m)
      (fun i hi => by
        have := ht (i + 1) (by simpa using hi)
        simpa [Nat.add_assoc, Nat.add_comm 1] using this)
      (fun i hi => by
        have := hb (i + 1) (by simpa using hi)
        simpa [Nat.add_assoc, Nat.add_comm 1] using this)
    simp only [storeBytes, reachesAll, hs, h0, storedList]
    exact ⟨this.1, by simpa using this.2⟩

/-- The addresses of a bulk range that passes the range checks and keeps off the gap, in regions. -/
theorem bulk_regions {addr n : Nat} (hr : rangeCheck addr n = none) (hn : 1 ≤ n)
    (hg : touchesGap addr n = false) :
    (addr + n ≤ 0x100) ∨ (0x130 ≤ addr ∧ addr + n ≤ 0x1C0) := by
  have e5 : b0End = 256 := rfl
  have e6 : b1Base = 304 := rfl
  have e7 : addrLimit = 448 := rfl
  unfold rangeCheck at hr
  split at hr
  · cases hr
  · split at hr
    · cases hr
    · split at hr
      · cases hr
      · rename_i h1 h2 h3
        simp only [crosses, decide_eq_true_eq] at h3
        simp only [touchesGap, decide_eq_false_iff_not] at hg
        omega

theorem isRegister_of_bulk {addr n : Nat} (hr : rangeCheck addr n = none) (hn : 1 ≤ n)
    (hg : touchesGap addr n = false) : isRegister addr = true := by
  have e5 : b0End = 256 := rfl
  have e6 : b1Base = 304 := rfl
  have e7 : addrLimit = 448 := rfl
  simp only [isRegister, decide_eq_true_eq]
  have := bulk_regions hr hn hg
  omega

theorem locateBulk_register {addr n : Nat} (hr : rangeCheck addr n = none) (hn : 1 ≤ n)
    (hg : touchesGap addr n = false) (s : State) :
    locateBulk addr n s = .ok (bulkBank addr n (needOf addr), offOf addr) s := by
  unfold locateBulk
  rw [hg, translate_of_isRegister (isRegister_of_bulk hr hn hg)]
  rfl

theorem target_bulk {s : State} (h : Fine s) {addr n : Nat} (hr : rangeCheck addr n = none)
    (hn : 1 ≤ n) (hg : touchesGap addr n = false) (i : Nat) (hi : i < n) :
    target (s.switched (bulkBank addr n (needOf addr))).hwBank (offOf addr + i)
      = some (addr + i) := by
  have hreg := bulk_regions hr hn hg
  have e1 : b0Base = 48 := rfl
  have e2 : windowSize = 256 := rfl
  have e3 : b1OffsetEnd = 192 := rfl
  have e4 : b1LocalSub = 256 := rfl
  have e5 : b0End = 256 := rfl
  have e6 : b1Base = 304 := rfl
  have e7 : addrLimit = 448 := rfl
  have hb : ∀ b, bulkBank addr n (needOf addr) = some b →
      (s.switched (bulkBank addr n (needOf addr))).hwBank = b := fun b => switched_bank h b
  by_cases h1 : addr < b0Base
  · have hneed : needOf addr = none := by simp [needOf, translate, region, h1]
    have hoff : offOf addr = addr := by simp [offOf, translate, region, h1]
    rw [hneed] at hb ⊢
    rw [hoff]
    by_cases h2 : b0Base < addr + n
    · have hk : bulkBank addr n none = some .bank0 := by simp [bulkBank, h2]
      rw [hb .bank0 hk]
      unfold target
      split
      · rfl
      · simp only; rw [if_pos (by omega)]
    · unfold target
      rw [if_pos (by omega)]
  · rcases hreg with hreg | hreg
    · have hneed : needOf addr = some .bank0 := by
        simp [needOf, translate, region, h1, show addr < b0End by omega]
      have hoff : offOf addr = addr := by
        simp [offOf, translate, region, h1, show addr < b0End by omega]
      rw [hneed] at hb ⊢
      rw [hoff, hb .bank0 (by simp [bulkBank])]
      unfold target
      rw [if_neg (by omega)]
      simp only
      rw [if_pos (by omega)]
    · have hneed : needOf addr = some .bank1 := by
        simp [needOf, translate, region, h1, show ¬ addr < b0End by omega,
          show ¬ addr < b1Base by omega, show addr < addrLimit by omega]
      have hoff : offOf addr = addr - b1LocalSub := by
        simp [offOf, translate, region, h1, show ¬ addr < b0End by omega,
          show ¬ addr < b1Base by omega, show addr < addrLimit by omega]
      rw [hneed] at hb ⊢
      rw [hoff, hb .bank1 (by simp [bulkBank])]
      unfold target
      rw [if_neg (by omega)]
      simp only
      rw [if_pos (by omega)]
      simp only [Option.some.injEq]
      omega

theorem bwrBody_fine {s : State} (h : Fine s) {addr : Nat} {bytes : List Byte}
    (hr : rangeCheck addr bytes.length = none) (hn : 1 ≤ bytes.length)
    (hg : touchesGap addr bytes.length = false)
    (hb : ∀ i < bytes.length, addr + i ≠ s.cfg.bank.addr) :
    bwrBody addr bytes s = .ok 0 (s.bwrAt addr bytes) := by
  have hf := h.switched (bulkBank addr bytes.length (needOf addr))
  have hrun := storeBytes_run (c := (s.switched (bulkBank addr bytes.length (needOf addr))).cfg)
    (free := Config.freeBank (s.switched (bulkBank addr bytes.length (needOf addr))).env.draws)
    bytes (offOf addr) addr (s.switched (bulkBank addr bytes.length (needOf addr))).x
    (target_bulk h hr hn hg) (by simpa using hb)
  simp only [bwrBody, hr, if_neg (show ¬ bytes.length = 0 by omega),
    locateBulk_register hr hn hg, PRes.bind, ensureBank_fine h, busBurst, busOut, hrun.2,
    nextFails_of_fine hf.2.2, State.store, hrun.1]
  rfl

theorem Fine.rdAt {s : State} (h : Fine s) (addr : Nat) : Fine (s.rdAt addr) :=
  (h.switched _).didRead _ _

theorem Fine.wrAt {s : State} (h : Fine s) {addr : Nat} (ha : addr ≠ s.cfg.bank.addr) (v : Byte) :
    Fine (s.wrAt addr v) :=
  (h.switched _).didWrite _ (by simpa using ha) _

theorem Fine.updAt {s : State} (h : Fine s) {addr : Nat} (ha : addr ≠ s.cfg.bank.addr)
    (m v : Byte) : Fine (s.updAt addr m v) :=
  (h.rdAt _).didWrite _ (by simpa using ha) _

theorem Fine.bwrAt {s : State} (h : Fine s) (addr : Nat) (bytes : List Byte) :
    Fine (s.bwrAt addr bytes) := by
  have := h.switched (bulkBank addr bytes.length (needOf addr))
  exact ⟨this.1, this.2.1, by
    show (s.switched _).env.afterTransaction.fails = []
    simp [show (s.switched _).env.fails = [] from this.2.2]⟩

/-! ## With the lock -/

theorem setLock_switched (s : State) (l : Option AgentId) (need : Option Bank) :
    (s.setLock l).switched need = (s.switched need).setLock l := by
  unfold State.switched
  split
  · rfl
  · rename_i b
    by_cases hb : b = s.ctx.currentBank
    · simp [hb]
    · simp only [State.setLock_ctx, hb, if_false]
      rfl

theorem setLock_rdAt (s : State) (l : Option AgentId) (addr : Nat) :
    (s.setLock l).rdAt addr = (s.rdAt addr).setLock l := by
  unfold State.rdAt
  rw [setLock_switched]
  rfl

theorem setLock_rdValue (s : State) (l : Option AgentId) (addr : Nat) :
    (s.setLock l).rdValue addr = s.rdValue addr := by
  unfold State.rdValue
  rw [setLock_switched]
  rfl

theorem setLock_wrAt (s : State) (l : Option AgentId) (addr : Nat) (v : Byte) :
    (s.setLock l).wrAt addr v = (s.wrAt addr v).setLock l := by
  unfold State.wrAt
  rw [setLock_switched]
  rfl

theorem setLock_updAt (s : State) (l : Option AgentId) (addr : Nat) (m v : Byte) :
    (s.setLock l).updAt addr m v = (s.updAt addr m v).setLock l := by
  unfold State.updAt
  rw [setLock_rdAt, setLock_rdValue]
  rfl

theorem setLock_bwrAt (s : State) (l : Option AgentId) (addr : Nat) (bytes : List Byte) :
    (s.setLock l).bwrAt addr bytes = (s.bwrAt addr bytes).setLock l := by
  unfold State.bwrAt
  simp only [setLock_switched]
  rfl

theorem switched_lock (s : State) (need : Option Bank) :
    (s.switched need).ctx.lock = s.ctx.lock := by
  unfold State.switched
  split
  · rfl
  · split <;> rfl

@[simp] theorem rdAt_lock (s : State) (addr : Nat) : (s.rdAt addr).ctx.lock = s.ctx.lock :=
  switched_lock s _

@[simp] theorem wrAt_lock (s : State) (addr : Nat) (v : Byte) :
    (s.wrAt addr v).ctx.lock = s.ctx.lock := switched_lock s _

@[simp] theorem updAt_lock (s : State) (addr : Nat) (m v : Byte) :
    (s.updAt addr m v).ctx.lock = s.ctx.lock := switched_lock s _

@[simp] theorem bwrAt_lock (s : State) (addr : Nat) (bytes : List Byte) :
    (s.bwrAt addr bytes).ctx.lock = s.ctx.lock := switched_lock s _

theorem setLock_self {s : State} (h : s.ctx.lock = none) : s.setLock none = s := by
  simp [State.setLock, ← h]

theorem setLock_setLock (s : State) (l l' : Option AgentId) :
    (s.setLock l).setLock l' = s.setLock l' := rfl

theorem Fine.setLock {s : State} (h : Fine s) (l : Option AgentId) : Fine (s.setLock l) := h

theorem runPrim_of_body {a : AgentId} {p : Prim} {s t : State} {v : Byte} (hl : s.ctx.lock = none)
    (hb : primBody p (s.setLock (some a)) = .ok v (t.setLock (some a))) (ht : t.ctx.lock = none) :
    runPrim a p s = some (.ok v t) := by
  simp only [runPrim, hl, Option.isSome_none, Bool.false_eq_true, if_false, hb, PRes.release,
    setLock_setLock, setLock_self ht]

theorem runPrim_rd {s : State} (a : AgentId) (h : Fine s) (hl : s.ctx.lock = none) {addr : Nat}
    (ha : isRegister addr = true) :
    runPrim a (.rd addr) s = some (.ok (s.rdValue addr) (s.rdAt addr)) :=
  runPrim_of_body hl
    (by rw [primBody, rdBody_fine (h.setLock _) ha, setLock_rdValue, setLock_rdAt]) (by simpa)

theorem runPrim_wr {s : State} (a : AgentId) (h : Fine s) (hl : s.ctx.lock = none) {addr : Nat}
    (ha : isRegister addr = true) (v : Byte) :
    runPrim a (.wr addr v) s = some (.ok 0 (s.wrAt addr v)) :=
  runPrim_of_body hl (by rw [primBody, wrBody_fine (h.setLock _) ha, setLock_wrAt]) (by simpa)

theorem runPrim_upd {s : State} (a : AgentId) (h : Fine s) (hl : s.ctx.lock = none) {addr : Nat}
    (ha : isRegister addr = true) (m v : Byte) :
    runPrim a (.upd addr m v) s = some (.ok 0 (s.updAt addr m v)) :=
  runPrim_of_body hl (by rw [primBody, updBody_fine (h.setLock _) ha, setLock_updAt]) (by simpa)

theorem runPrim_bwr {s : State} (a : AgentId) (h : Fine s) (hl : s.ctx.lock = none) {addr : Nat}
    {bytes : List Byte} (hr : rangeCheck addr bytes.length = none) (hn : 1 ≤ bytes.length)
    (hg : touchesGap addr bytes.length = false)
    (hb : ∀ i < bytes.length, addr + i ≠ s.cfg.bank.addr) :
    runPrim a (.bwr addr bytes) s = some (.ok 0 (s.bwrAt addr bytes)) :=
  runPrim_of_body hl
    (by rw [primBody, bwrBody_fine (h.setLock (some a)) hr hn hg hb, setLock_bwrAt]) (by simpa)

/-- A primitive whose range check fails does nothing at all (rules R126, R130). -/
theorem runPrim_err {s : State} {a : AgentId} {p : Prim} {e : Status} (hl : s.ctx.lock = none)
    (hb : primBody p (s.setLock (some a)) = .err e (s.setLock (some a))) :
    runPrim a p s = some (.err e s) := by
  simp only [runPrim, hl, Option.isSome_none, Bool.false_eq_true, if_false, hb, PRes.release,
    setLock_setLock, setLock_self hl]

end Sys2Proof.Machine
end

