-- ==== Sys2Proof/Laws/Sequencer.lean ====
section
/-! SUPPORT. What one statement, one step of an agent and one run can do, whatever the environment
answers; and how a run is followed step by step. -/

namespace Sys2Proof.Machine

/-! ## The frame of a statement -/

/-- What one statement of an agent leaves alone. -/
structure StmtFrame (s t : State) : Prop where
  cfg : t.cfg = s.cfg
  active : t.active = s.active
  taskRunning : t.taskRunning = s.taskRunning
  dispRunning : t.dispRunning = s.dispRunning
  irqLine : t.irqLine = s.irqLine
  sched : t.env.sched = s.env.sched
  lock : t.ctx.lock = s.ctx.lock
  audio : t.ctx.audioChannelMask = s.ctx.audioChannelMask
  wf : Memory.wf s.x → Memory.wf t.x
  pos : ∀ b, t.pos b = s.pos b
  nAux : t.auxPorts.length = s.auxPorts.length
  inbox : ∀ p, (t.port p).inbox = (s.port p).inbox
  payload : t.payload = s.payload
  resp : t.resp = s.resp
  given : t.given = s.given
  log : ∃ l : List BusOp, l.length ≤ 3 ∧ t.bus = l ++ s.bus

theorem StmtFrame.of_bus {s t : State} (h : BusFrame 3 s t) : StmtFrame s t := by
  obtain ⟨hf, hs, hw, hl⟩ := h
  rw [hf]
  exact ⟨rfl, rfl, rfl, rfl, rfl, hs, rfl, rfl, hw, fun _ => rfl, rfl, fun _ => rfl, rfl, rfl, rfl,
    hl⟩

theorem StmtFrame.refl (s : State) : StmtFrame s s :=
  StmtFrame.of_bus (BusFrame.mono (BusFrame.refl s) (by omega))

/-- A local update after the primitive: it touches none of the framed fields. -/
theorem StmtFrame.local {s t u : State} (h : StmtFrame s t) (h1 : u.cfg = t.cfg)
    (h2 : u.active = t.active) (h3 : u.taskRunning = t.taskRunning)
    (h4 : u.dispRunning = t.dispRunning) (h5 : u.irqLine = t.irqLine) (h6 : u.env = t.env)
    (h7 : u.ctx.lock = t.ctx.lock) (h8 : u.ctx.audioChannelMask = t.ctx.audioChannelMask)
    (h9 : u.x = t.x) (h10 : u.hostPort = t.hostPort) (h11 : u.auxPorts = t.auxPorts)
    (h12 : u.disp = t.disp) (h13 : u.task = t.task) (h14 : u.bus = t.bus)
    (h15 : u.payload = t.payload) (h16 : u.resp = t.resp) (h17 : u.given = t.given) :
    StmtFrame s u := by
  have hp : ∀ p, u.port p = t.port p := fun p => by
    cases p <;> simp [State.port, h10, h11]
  exact ⟨h1.trans h.cfg, h2.trans h.active, h3.trans h.taskRunning, h4.trans h.dispRunning,
    h5.trans h.irqLine, h6 ▸ h.sched, h7.trans h.lock, h8.trans h.audio, fun hw => h9 ▸ h.wf hw,
    fun b => (State.pos_congr h10 h11 h12 h13 b).trans (h.pos b), h11 ▸ h.nAux,
    fun p => hp p ▸ h.inbox p, h15.trans h.payload, h16.trans h.resp, h17.trans h.given, h14 ▸ h.log⟩

/-- Saving a latch of an agent changes no position and nothing else of a port. -/
theorem StmtFrame.save {s t : State} (h : StmtFrame s t) (a : AgentId) (r : SaveReg) (v : Byte) :
    StmtFrame s (t.save a r v) := by
  have hp : ∀ p, ((t.save a r v).port p).inbox = (t.port p).inbox
      ∧ ((t.save a r v).port p).seq.pos = (t.port p).seq.pos := by
    intro p
    rcases a with q | _ | _
    · by_cases hq : p = q
      · subst hq
        cases p with
        | host => exact ⟨rfl, rfl⟩
        | aux k =>
          by_cases hk : k < t.auxPorts.length
          · simp [State.save, State.setSeq, State.setPort, State.port, State.seqOf, List.getD, hk]
          · simp [State.save, State.setSeq, State.setPort, State.port, State.seqOf, List.getD, hk]
      · have := State.port_setPort_other t (p := q) (p' := p)
          { t.port q with seq := { t.seqOf (.port q) with
              sav := SaveLatches.put (t.seqOf (.port q)).sav r v } } hq
        simp [State.save, State.setSeq, this]
    · cases p <;> exact ⟨rfl, rfl⟩
    · cases p <;> exact ⟨rfl, rfl⟩
  refine ⟨by simpa using h.cfg, by simpa using h.active, by simpa using h.taskRunning,
    by simpa using h.dispRunning, by simpa using h.irqLine, by simpa using h.sched,
    by simpa using h.lock, by simpa using h.audio, by simpa using h.wf, fun b => ?_, ?_,
    fun p => (hp p).1.trans (h.inbox p), by simpa using h.payload, by simpa using h.resp,
    by simpa using h.given, by simpa using h.log⟩
  · refine Eq.trans ?_ (h.pos b)
    rcases b with p | _ | _
    · exact (hp p).2
    · rcases a with (_ | _) | _ | _ <;> rfl
    · rcases a with (_ | _) | _ | _ <;> rfl
  · refine Eq.trans ?_ h.nAux
    rcases a with (_ | _) | _ | _ <;> simp [State.save, State.setSeq, State.setPort]

/-- Whatever a statement answers, its state has a property. -/
def StepRes.Leaves (r : StepRes) (P : State → Prop) : Prop :=
  match r with
  | .go _ s => P s
  | .ret _ s => P s
  | .raise _ s => P s
  | .wait => True
  | .stop _ => True

theorem withPrim_leaves {a : AgentId} {p : Prim} {s : State} {P : State → Prop}
    {k : Byte → State → StepRes} {h : Status → State → StepRes}
    (hk : ∀ v t, StmtFrame s t → (k v t).Leaves P) (hh : ∀ e t, StmtFrame s t → (h e t).Leaves P) :
    (withPrim a p s k h).Leaves P := by
  unfold withPrim
  split
  · trivial
  · rename_i v t hr
    exact hk v t (StmtFrame.of_bus (runPrim_frame hr).2)
  · rename_i e t hr
    exact hh e t (StmtFrame.of_bus (runPrim_frame hr).2)
  · trivial

theorem callPrim_leaves {a : AgentId} {p : Prim} {s : State} {k : Byte → State → StepRes}
    (hk : ∀ v t, StmtFrame s t → (k v t).Leaves (StmtFrame s)) :
    (callPrim a p s k).Leaves (StmtFrame s) :=
  withPrim_leaves hk fun _ _ h => h

/-- Every statement of every agent, whatever the environment answers, leaves the framed fields alone. -/
theorem stmtStep_frame (a : AgentId) (m : Stmt) (s : State) :
    (stmtStep a m s).Leaves (StmtFrame s) := by
  have hr := StmtFrame.refl s
  cases m with
  | rdReturn addr => exact callPrim_leaves fun _ _ h => h
  | prim p => exact callPrim_leaves fun _ _ h => h
  | tryPrim p => exact withPrim_leaves (fun _ _ h => h) fun _ _ h => h
  | fail e => exact hr
  | absorb => exact hr
  | close => exact hr
  | load sel value =>
    show StmtFrame s (s.loadLatch sel value)
    cases sel <;> exact hr.local rfl rfl rfl rfl rfl rfl rfl rfl rfl rfl rfl rfl rfl rfl rfl rfl rfl
  | rdblk block length => exact hr.local rfl rfl rfl rfl rfl rfl rfl rfl rfl rfl rfl rfl rfl rfl rfl rfl rfl
  | hangCheck => exact callPrim_leaves fun _ _ h => h
  | chunk segment offset remaining =>
    show (stepChunk segment offset remaining s).Leaves _
    unfold stepChunk
    split <;> exact hr
  | poll use left =>
    show (stepPoll a use left s).Leaves _
    unfold stepPoll
    split
    · exact hr
    · refine callPrim_leaves fun v t h => ?_
      split
      · exact h
      · exact h
      · split <;> exact h
  | drain left =>
    show (stepDrain a left s).Leaves _
    unfold stepDrain
    split
    · exact hr
    · exact callPrim_leaves fun v t h =>
        h.local rfl rfl rfl rfl rfl rfl rfl rfl rfl rfl rfl rfl rfl rfl rfl rfl rfl
  | save r => exact callPrim_leaves fun v t h => h.save a r v
  | abortIter left anyDone =>
    show (stepAbortIter left anyDone s).Leaves _
    unfold stepAbortIter
    split
    · split <;> exact hr
    · exact hr
  | snapRead g =>
    exact withPrim_leaves
      (fun v t h => h.local rfl rfl rfl rfl rfl rfl rfl rfl rfl rfl rfl rfl rfl rfl rfl rfl rfl)
      fun e t h => h.local rfl rfl rfl rfl rfl rfl rfl rfl rfl rfl rfl rfl rfl rfl rfl rfl rfl
  | clearRow src => exact hr
  | extClear => exact hr
  | handler hd =>
    show (stepHandler hd s).Leaves _
    unfold stepHandler
    split
    · split
      · exact hr.local rfl rfl rfl rfl rfl rfl rfl rfl rfl rfl rfl rfl rfl rfl rfl rfl rfl
      · exact hr
    · exact hr
  | hpdRead => exact withPrim_leaves (fun _ _ h => h) fun _ _ h => h
  | hpdUpdate present => exact hr.local rfl rfl rfl rfl rfl rfl rfl rfl rfl rfl rfl rfl rfl rfl rfl rfl rfl
  | modeBit => exact callPrim_leaves fun _ _ h => h
  | vidEn => exact hr
  | inMode => exact callPrim_leaves fun _ _ h => h
  | csc c limited => exact hr
  | setNeedCsc b => exact hr.local rfl rfl rfl rfl rfl rfl rfl rfl rfl rfl rfl rfl rfl rfl rfl rfl rfl
  | gate off =>
    show (stepGate a off s).Leaves _
    unfold stepGate
    split
    · exact callPrim_leaves fun _ _ h => h
    · exact hr

/-! ## One step of an agent -/

/-- What a step of an agent answers, once and for all: nothing (idle, or waiting), or its statement's
state after the agent went on, returned or raised. -/
theorem tick_cases {a : AgentId} {s t : State} (h : tick a s = .next t) :
    t = s ∨ ∃ (m : Stmt) (k : List Stmt) (u : State), s.pos a = m :: k ∧ StmtFrame s u ∧
      ((∃ push, stmtStep a m s = .go push u ∧ t = resumeWith a (push ++ k) u)
        ∨ (∃ r, stmtStep a m s = .ret r u ∧ t = endOp a r u)
        ∨ (∃ e, stmtStep a m s = .raise e u ∧ t = raiseError a e k u)) := by
  unfold tick at h
  split at h
  · left; cases h; rfl
  · rename_i m k hp
    have hf := stmtStep_frame a m s
    cases hr : stmtStep a m s with
    | go push u =>
      rw [hr] at h hf
      cases h
      exact .inr ⟨m, k, u, hp, hf, .inl ⟨push, hr, rfl⟩⟩
    | ret r u =>
      rw [hr] at h hf
      cases h
      exact .inr ⟨m, k, u, hp, hf, .inr (.inl ⟨r, hr, rfl⟩)⟩
    | raise e u =>
      rw [hr] at h hf
      cases h
      exact .inr ⟨m, k, u, hp, hf, .inr (.inr ⟨e, hr, rfl⟩)⟩
    | wait =>
      rw [hr] at h
      left; cases h; rfl
    | stop r => rw [hr] at h; cases h

/-- A property of the state that every step of an agent keeps is kept by its whole run. -/
theorem drive_keeps {a : AgentId} {P : State → Prop}
    (hP : ∀ s t, P s → tick a s = .next t → P t) {n : Nat} {s t : State} (hs : P s)
    (h : drive a n s = .next t) : P t := by
  induction n generalizing s with
  | zero => cases h; exact hs
  | succ n ih =>
    unfold drive at h
    cases hu : tick a s with
    | next u =>
      rw [hu] at h
      simp only at h
      split at h
      · exact ih (hP s u hs hu) h
      · cases h; exact hP s t hs hu
    | fault r => rw [hu] at h; cases h
    | refused r => rw [hu] at h; cases h

/-- A run never faults. -/
theorem drive_no_fault (a : AgentId) (n : Nat) (s : State) (r : Fault) : drive a n s ≠ .fault r := by
  induction n generalizing s with
  | zero => simp [drive]
  | succ n ih =>
    unfold drive
    cases hu : tick a s with
    | next u =>
      simp only
      split
      · exact ih u
      · simp
    | fault r' =>
      exfalso
      unfold tick at hu
      split at hu
      · cases hu
      · rename_i m k hp
        cases hr : stmtStep a m s <;> rw [hr] at hu <;> cases hu
    | refused r' => simp

/-! ## Following a run -/

/-- From `s` the run reaches `t` after `n` statements and goes on from there. -/
def Reaches (a : AgentId) (n : Nat) (s t : State) : Prop :=
  ∀ m, drive a (n + m) s = drive a m t

theorem Reaches.refl (a : AgentId) (s : State) : Reaches a 0 s s := fun m => by simp

theorem Reaches.trans {a : AgentId} {m n : Nat} {s t u : State} (h : Reaches a m s t)
    (h' : Reaches a n t u) : Reaches a (m + n) s u := fun k => by
  rw [Nat.add_assoc, h, h']

/-- One statement after which the run goes on. -/
theorem Reaches.step {a : AgentId} {s t : State} (h : tick a s = .next t) (hg : goesOn a t = true) :
    Reaches a 1 s t := fun m => by
  rw [Nat.add_comm]
  simp [drive, h, hg]

/-- The last statement: the run ends there. -/
theorem drive_end {a : AgentId} {n : Nat} {s t : State} (h : tick a s = .next t)
    (hg : goesOn a t = false) (hn : 1 ≤ n) : drive a n s = .next t := by
  obtain ⟨m, rfl⟩ : ∃ m, n = m + 1 := ⟨n - 1, by omega⟩
  simp [drive, h, hg]

/-- A run that reaches its last statement within its bound ends as that statement leaves it. -/
theorem Reaches.drive_end {a : AgentId} {n k : Nat} {s t u : State} (h : Reaches a n s t)
    (ht : tick a t = .next u) (hg : goesOn a u = false) (hk : n + 1 ≤ k) : drive a k s = .next u := by
  obtain ⟨m, rfl⟩ : ∃ m, k = n + m := ⟨k - n, by omega⟩
  rw [h m]
  exact Machine.drive_end ht hg (by omega)

/-- A statement that is replaced by others. -/
theorem tick_go {a : AgentId} {m : Stmt} {k push : List Stmt} {s u : State} (hp : s.pos a = m :: k)
    (h : stmtStep a m s = .go push u) : tick a s = .next (resumeWith a (push ++ k) u) := by
  simp [tick, hp, h, settle]

/-- A statement that returns. -/
theorem tick_ret {a : AgentId} {m : Stmt} {k : List Stmt} {r : Response} {s u : State}
    (hp : s.pos a = m :: k) (h : stmtStep a m s = .ret r u) : tick a s = .next (endOp a r u) := by
  simp [tick, hp, h, settle]

/-- A statement that raises. -/
theorem tick_raise {a : AgentId} {m : Stmt} {k : List Stmt} {e : Status} {s u : State}
    (hp : s.pos a = m :: k) (h : stmtStep a m s = .raise e u) :
    tick a s = .next (raiseError a e k u) := by
  simp [tick, hp, h, settle]

theorem resumeWith_cons (a : AgentId) (m : Stmt) (k : List Stmt) (s : State) :
    resumeWith a (m :: k) s = s.setPos a (m :: k) := rfl

theorem resumeWith_nil (a : AgentId) (s : State) : resumeWith a [] s = endOp a ⟨.ok, 0⟩ s := rfl

/-- A run goes on in the middle of an operation that nobody else disturbs. -/
theorem goesOn_setPos {a : AgentId} {m : Stmt} {k : List Stmt} {s : State}
    (ha : s.hasAgent a = true) (hs : s.env.sched = []) (hl : s.ctx.lock = none) :
    goesOn a (s.setPos a (m :: k)) = true := by
  simp [goesOn, State.idle, State.pos_setPos_self s _ ha, hs, hl]

/-- One statement in the middle of an undisturbed operation. -/
theorem Reaches.go {a : AgentId} {m m' : Stmt} {k push k' : List Stmt} {s u : State}
    (hp : s.pos a = m :: k) (h : stmtStep a m s = .go push u) (hk : push ++ k = m' :: k')
    (ha : u.hasAgent a = true) (hs : u.env.sched = []) (hl : u.ctx.lock = none) :
    Reaches a 1 s (u.setPos a (m' :: k')) := by
  refine Reaches.step ?_ (goesOn_setPos ha hs hl)
  rw [tick_go hp h, hk, resumeWith_cons]

end Sys2Proof.Machine
end

