-- ==== Sys2Proof/Laws/Run.lean ====
section
/-! SUPPORT. A primitive does not look at anybody's position; what a command with legal operands runs;
how the statements of an undisturbed operation follow one another. -/

namespace Sys2Proof.Machine

/-! ## Positions -/

@[simp] theorem State.setPos_setPos (s : State) (a : AgentId) (k k' : List Stmt) :
    (s.setPos a k).setPos a k' = s.setPos a k' := by
  rcases a with (_ | i) | _ | _
  · rfl
  · by_cases hi : i < s.auxPorts.length
    · simp [State.setPos, State.setSeq, State.setPort, State.seqOf, State.port, hi, List.getD,
        List.set_set]
    · simp [State.setPos, State.setSeq, State.setPort, State.seqOf, State.port, hi, List.getD]
  · rfl
  · rfl

@[simp] theorem State.hasAgent_setPos (s : State) (a b : AgentId) (k : List Stmt) :
    (s.setPos a k).hasAgent b = s.hasAgent b := by
  rcases a with (_ | i) | _ | _ <;> rcases b with (_ | j) | _ | _ <;>
    first
    | rfl
    | simp [State.hasAgent, State.hasPort, State.setPos, State.setSeq, State.setPort]

/-- A port's answer forgets the position it had. -/
@[simp] theorem State.respond_setPos (s : State) (p : PortId) (k : List Stmt) (r : Response) :
    (s.setPos (.port p) k).respond p r = s.respond p r := by
  rcases p with _ | i
  · rfl
  · by_cases hi : i < s.auxPorts.length
    · simp [State.respond, State.emit, State.closeHost, State.setPos, State.setSeq, State.setPort,
        State.seqOf, State.port, hi, List.getD, List.set_set]
    · simp [State.respond, State.emit, State.closeHost, State.setPos, State.setSeq, State.setPort,
        State.seqOf, State.port, hi, List.getD]

theorem endOp_dispatcher_setPos (s : State) (k : List Stmt) (r : Response) :
    endOp .dispatcher r (s.setPos .dispatcher k) = endOp .dispatcher r s := rfl

theorem endOp_task_setPos (s : State) (k : List Stmt) (r : Response) :
    endOp .task r (s.setPos .task k) = endOp .task r s := rfl

theorem endOp_setPos (s : State) (a : AgentId) (k : List Stmt) (r : Response) :
    endOp a r (s.setPos a k) = endOp a r s := by
  rcases a with p | _ | _
  · exact State.respond_setPos s p k r
  · rfl
  · rfl

/-! ## A primitive looks at no position -/

/-- The outcome of a piece of a primitive with its state changed. -/
def PRes.onState {α : Type} (f : State → State) : PRes α → PRes α
  | .ok v s => .ok v (f s)
  | .err e s => .err e (f s)
  | .stop r => .stop r

theorem PRes.onState_bind {α β : Type} {f : State → State} {r r' : PRes α} {k : α → State → PRes β}
    (hr : r' = r.onState f) (hk : ∀ v s, k v (f s) = (k v s).onState f) :
    r'.bind k = (r.bind k).onState f := by
  subst hr
  cases r with
  | ok v s => exact hk v s
  | err e s => rfl
  | stop x => rfl

theorem busOut_setPos (op : Bool → BusOp) (off : Nat) (bytes : List Byte) (s : State) (a : AgentId)
    (k : List Stmt) :
    busOut op off bytes (s.setPos a k) = (busOut op off bytes s).onState (·.setPos a k) := by
  rcases a with (_ | i) | _ | _ <;>
  · unfold busOut
    simp only [State.setPos_cfg, State.setPos_x, State.setPos_hwBank, State.setPos_env]
    split
    · split <;> rfl
    · rfl

theorem busRead_setPos (off : Nat) (s : State) (a : AgentId) (k : List Stmt) :
    busRead off (s.setPos a k) = (busRead off s).onState (·.setPos a k) := by
  rcases a with (_ | i) | _ | _ <;>
  · unfold busRead
    simp only [State.setPos_hwBank, State.setPos_env]
    split
    · rfl
    · split <;> rfl

theorem setCurrentBank_setPos (b : Bank) (s : State) (a : AgentId) (k : List Stmt) :
    (s.setPos a k).setCurrentBank b = (s.setCurrentBank b).setPos a k := by
  rcases a with (_ | i) | _ | _ <;> rfl

theorem ensureBank_setPos (need : Option Bank) (s : State) (a : AgentId) (k : List Stmt) :
    ensureBank need (s.setPos a k) = (ensureBank need s).onState (·.setPos a k) := by
  unfold ensureBank
  split
  · rfl
  · simp only [State.setPos_ctx]
    split
    · rfl
    · unfold bankSelect
      refine PRes.onState_bind ?_ fun _ t => ?_
      · simp only [State.setPos_cfg]
        exact busOut_setPos _ _ _ _ _ _
      · simp only [setCurrentBank_setPos]
        rfl

theorem locate_setPos (addr : Nat) (s : State) (a : AgentId) (k : List Stmt) :
    locate addr (s.setPos a k) = (locate addr s).onState (·.setPos a k) := by
  unfold locate gapAccess
  simp only [State.setPos_cfg]
  split
  · rfl
  · split
    · rfl
    · split <;> rfl

theorem locateBulk_setPos (addr n : Nat) (s : State) (a : AgentId) (k : List Stmt) :
    locateBulk addr n (s.setPos a k) = (locateBulk addr n s).onState (·.setPos a k) := by
  unfold locateBulk gapAccess
  simp only [State.setPos_cfg]
  split
  · split
    · rfl
    · rfl
    · split <;> rfl
  · split
    · rfl
    · split <;> rfl

theorem prologue_setPos (addr : Nat) (s : State) (a : AgentId) (k : List Stmt) :
    prologue addr (s.setPos a k) = (prologue addr s).onState (·.setPos a k) :=
  PRes.onState_bind (locate_setPos _ _ _ _) fun _ _ =>
    PRes.onState_bind (ensureBank_setPos _ _ _ _) fun _ _ => rfl

theorem primBody_setPos (p : Prim) (s : State) (a : AgentId) (k : List Stmt) :
    primBody p (s.setPos a k) = (primBody p s).onState (·.setPos a k) := by
  cases p with
  | rd addr => exact PRes.onState_bind (prologue_setPos _ _ _ _) fun _ _ => busRead_setPos _ _ _ _
  | wr addr v =>
    exact PRes.onState_bind (prologue_setPos _ _ _ _) fun _ _ =>
      PRes.onState_bind (busOut_setPos _ _ _ _ _ _) fun _ _ => rfl
  | upd addr mask v =>
    exact PRes.onState_bind (prologue_setPos _ _ _ _) fun _ _ =>
      PRes.onState_bind (busRead_setPos _ _ _ _) fun _ _ =>
        PRes.onState_bind (busOut_setPos _ _ _ _ _ _) fun _ _ => rfl
  | bwr addr bytes =>
    show bwrBody addr bytes _ = (bwrBody addr bytes s).onState _
    unfold bwrBody
    split
    · rfl
    · split
      · rfl
      · exact PRes.onState_bind (locateBulk_setPos _ _ _ _ _) fun _ _ =>
          PRes.onState_bind (ensureBank_setPos _ _ _ _) fun _ _ =>
            PRes.onState_bind (busOut_setPos _ _ _ _ _ _) fun _ _ => rfl

theorem setLock_setPos (s : State) (l : Option AgentId) (a : AgentId) (k : List Stmt) :
    (s.setPos a k).setLock l = (s.setLock l).setPos a k := by
  rcases a with (_ | i) | _ | _ <;> rfl

/-- A primitive run by an agent at some position does what it does at any other. -/
theorem runPrim_setPos (b : AgentId) (p : Prim) (s : State) (a : AgentId) (k : List Stmt) :
    runPrim b p (s.setPos a k) = (runPrim b p s).map (PRes.onState (·.setPos a k)) := by
  unfold runPrim
  simp only [State.setPos_ctx]
  split
  · rfl
  · rw [setLock_setPos, primBody_setPos]
    cases primBody p (s.setLock (some b)) with
    | ok v t => exact congrArg (some ∘ PRes.ok v) (setLock_setPos t none a k)
    | err e t => exact congrArg (some ∘ PRes.err e) (setLock_setPos t none a k)
    | stop x => rfl

/-! ## Commands -/

/-- What a ready command runs. -/
theorem command_ready {i : Instr} {s : State} (h : Ready i s) (program : List Stmt) :
    command i program s
      = drive (.port s.active) (driveBound s.cfg) (s.setPos (.port s.active) program) := by
  simp [command, h.2.1, h.2.2.2, runAgent]

theorem Ready.hasAgent {i : Instr} {s : State} (h : Ready i s) :
    s.hasAgent (.port s.active) = true := h.1

/-- An operation of port `p` that ended is over: the run stops there. -/
theorem goesOn_respond (s : State) (p : PortId) (r : Response) (h : s.hasPort p = true) :
    goesOn (.port p) (s.respond p r) = false := by
  have : (s.respond p r).idle (.port p) = true := by
    rcases p with _ | i
    · rfl
    · simp only [State.hasPort, decide_eq_true_eq] at h
      simp [State.respond, State.emit, State.closeHost, State.idle, State.pos, State.seqOf,
        State.port, State.setPort, List.getD, h]
  simp [goesOn, this]

/-! ## One primitive of an undisturbed operation -/

/-- A primitive that gives a value, in the middle of an operation. -/
theorem Reaches.prim {a : AgentId} {p : Prim} {m : Stmt} {k : List Stmt} {s u : State} {v : Byte}
    (h : runPrim a p s = some (.ok v u)) (ha : u.hasAgent a = true) (hs : u.env.sched = [])
    (hl : u.ctx.lock = none) :
    Reaches a 1 (s.setPos a (.prim p :: m :: k)) (u.setPos a (m :: k)) := by
  have hsa : s.hasAgent a = true := by
    have hf := (runPrim_frame h).2.frame
    rw [hf] at ha
    rcases a with (_ | i) | _ | _ <;> exact ha
  have := Reaches.go (a := a) (m := .prim p) (k := m :: k) (push := []) (m' := m) (k' := k)
    (s := s.setPos a (.prim p :: m :: k)) (u := u.setPos a (.prim p :: m :: k))
    (State.pos_setPos_self s _ hsa)
    (by simp [stmtStep, callPrim, withPrim, runPrim_setPos, h, PRes.onState]) rfl
    (by rwa [State.hasAgent_setPos]) (by simpa using hs) (by simpa using hl)
  simpa using this

/-- The last primitive of a command of port `q`, if it gives a value. -/
theorem tick_last_prim {q : PortId} {p : Prim} {s u : State} {v : Byte} (hq : s.hasPort q = true)
    (h : runPrim (.port q) p s = some (.ok v u)) :
    tick (.port q) (s.setPos (.port q) [.prim p]) = .next (u.respond q ⟨.ok, 0⟩) := by
  rw [tick_go (m := .prim p) (k := []) (push := [])
    (u := u.setPos (.port q) [.prim p]) (State.pos_setPos_self (a := .port q) s _ hq)
    (by simp [stmtStep, callPrim, withPrim, runPrim_setPos, h, PRes.onState])]
  simp [resumeWith, endOp]

/-- A primitive of a command of port `q` that raises, with no absorbing invoker. -/
theorem tick_prim_err {q : PortId} {p : Prim} {k : List Stmt} {s u : State} {e : Status}
    (hq : s.hasPort q = true) (hk : afterAbsorb k = none)
    (h : runPrim (.port q) p s = some (.err e u)) :
    tick (.port q) (s.setPos (.port q) (.prim p :: k)) = .next (u.respond q ⟨e, 0⟩) := by
  rw [tick_raise (m := .prim p) (k := k) (e := e) (u := u.setPos (.port q) (.prim p :: k))
    (State.pos_setPos_self (a := .port q) s _ hq)
    (by simp [stmtStep, callPrim, withPrim, runPrim_setPos, h, PRes.onState])]
  simp [raiseError, hk, endOp]

/-! ## Chains: the statements of an undisturbed operation, to its end -/

/-- The agent exists, nobody else is scheduled and the lock is free. -/
abbrev Calm (a : AgentId) (s : State) : Prop :=
  s.hasAgent a = true ∧ Alone s ∧ s.ctx.lock = none

/-- An operation that ended is over: the run stops there. -/
theorem goesOn_endOp {a : AgentId} {s : State} (h : s.hasAgent a = true) (r : Response) :
    goesOn a (endOp a r s) = false := by
  rcases a with p | _ | _
  · exact goesOn_respond s p r h
  · rfl
  · rfl

/-- From `s`, with `program` next, the agent's run takes `n` statements to reach `t`: it goes on there
with whatever follows, or ends there with OK where nothing follows. -/
structure Chain (a : AgentId) (n : Nat) (program : List Stmt) (s t : State) : Prop where
  calm : Calm a t
  none : program = [] → t = s
  goes : ∀ m k, Reaches a n (s.setPos a (program ++ m :: k)) (t.setPos a (m :: k))
  ends : program ≠ [] → ∀ N, n ≤ N → drive a N (s.setPos a program) = .next (endOp a ⟨.ok, 0⟩ t)

/-- The empty program. -/
theorem Chain.nil {a : AgentId} {s : State} (h : Calm a s) : Chain a 0 [] s s :=
  ⟨h, fun _ => rfl, fun _ _ => Reaches.refl _ _, fun h => absurd rfl h⟩

/-- One statement, whatever the position, then the statements it was replaced by and the rest. -/
theorem Chain.cons {a : AgentId} {n : Nat} {m : Stmt} {push program : List Stmt} {s u t : State}
    (h : ∀ k, stmtStep a m (s.setPos a k) = .go push (u.setPos a k)) (hs : s.hasAgent a = true)
    (hu : Calm a u) (hc : Chain a n (push ++ program) u t) : Chain a (n + 1) (m :: program) s t := by
  have hp : ∀ k, (s.setPos a k).pos a = k := fun k => State.pos_setPos_self s k hs
  have one : ∀ (k : List Stmt) (m' : Stmt) (k' : List Stmt), push ++ k = m' :: k' →
      Reaches a 1 (s.setPos a (m :: k)) (u.setPos a (m' :: k')) := fun k m' k' hk => by
    have := Reaches.go (hp (m :: k)) (h (m :: k)) hk
      (by rw [State.hasAgent_setPos]; exact hu.1) (by simpa using hu.2.1) (by simpa using hu.2.2)
    simpa using this
  refine ⟨hc.calm, nofun, fun m' k => ?_, fun _ N hN => ?_⟩
  · rw [Nat.add_comm]
    cases hk : push ++ program with
    | nil =>
      obtain ⟨rfl, rfl⟩ := List.append_eq_nil_iff.mp hk
      refine Reaches.trans (one (m' :: k) m' k rfl) ?_
      simpa using hc.goes m' k
    | cons m1 k1 =>
      refine Reaches.trans (one (program ++ m' :: k) m1 (k1 ++ m' :: k)
        (by rw [← List.append_assoc, hk]; rfl)) ?_
      have := hc.goes m' k
      rwa [hk] at this
  · obtain ⟨N, rfl⟩ : ∃ N', N = 1 + N' := ⟨N - 1, by omega⟩
    cases hk : push ++ program with
    | nil =>
      obtain ⟨rfl, rfl⟩ := List.append_eq_nil_iff.mp hk
      have ht : tick a (s.setPos a [m]) = .next (endOp a ⟨.ok, 0⟩ u) := by
        rw [tick_go (hp [m]) (h [m])]
        simp [resumeWith, endOp_setPos]
      have : drive a (1 + N) (s.setPos a [m]) = .next (endOp a ⟨.ok, 0⟩ u) :=
        drive_end ht (goesOn_endOp hu.1 _) (by omega)
      rw [this, hc.none rfl]
    | cons m1 k1 =>
      rw [one program m1 k1 hk N, ← hk]
      exact hc.ends (by simp [hk]) N (by omega)

/-- Two programs one after the other. -/
theorem Chain.append {a : AgentId} {m n : Nat} {p q : List Stmt} {s t u : State}
    (h : Chain a m p s t) (h' : Chain a n q t u) : Chain a (m + n) (p ++ q) s u := by
  refine ⟨h'.calm, fun he => ?_, fun x k => ?_, fun hne N hN => ?_⟩
  · obtain ⟨rfl, rfl⟩ := List.append_eq_nil_iff.mp he
    rw [h'.none rfl, h.none rfl]
  · cases q with
    | nil =>
      rw [h'.none rfl]
      have := Reaches.trans (h.goes x k) (h'.goes x k)
      rw [h'.none rfl] at this
      simpa using this
    | cons y ys =>
      have := Reaches.trans (h.goes y (ys ++ x :: k)) (h'.goes x k)
      simpa using this
  · cases q with
    | nil =>
      rw [h'.none rfl, List.append_nil]
      exact h.ends (by simpa using hne) N (by omega)
    | cons y ys =>
      obtain ⟨N, rfl⟩ : ∃ N', N = m + N' := ⟨N - m, by omega⟩
      rw [h.goes y ys N]
      exact h'.ends (by simp) N (by omega)

/-- One primitive that gives a value. -/
theorem Chain.prim {a : AgentId} {p : Prim} {s u : State} {v : Byte} (hs : s.hasAgent a = true)
    (h : runPrim a p s = some (.ok v u)) (hu : Calm a u) : Chain a 1 [.prim p] s u :=
  Chain.cons (push := []) (u := u)
    (fun k => by simp [stmtStep, callPrim, withPrim, runPrim_setPos, h, PRes.onState]) hs hu
    (Chain.nil hu)

/-- A primitive keeps an agent and the turns still to come; the lock is free again. -/
theorem Calm.of_prim {a b : AgentId} {p : Prim} {s u : State} {v : Byte} (hs : Calm a s)
    (h : runPrim b p s = some (.ok v u)) : Calm a u := by
  obtain ⟨_, hf⟩ := runPrim_frame h
  refine ⟨?_, hf.sched.trans hs.2.1, ?_⟩
  · rw [hf.frame]
    rcases a with (_ | i) | _ | _ <;> exact hs.1
  · rw [hf.frame]
    exact hs.2.2

/-- A ready command whose program is a chain answers OK in the state the chain reaches. -/
theorem command_chain {i : Instr} {s t : State} {program : List Stmt} {n : Nat} (h : Ready i s)
    (hc : Chain (.port s.active) n program s t) (hp : program ≠ [])
    (hn : n ≤ driveBound s.cfg) :
    command i program s = .next (t.respond s.active ⟨.ok, 0⟩) := by
  rw [command_ready h]
  exact hc.ends hp _ hn

end Sys2Proof.Machine
end

