-- ==== Sys2Proof/Laws/Undisturbed.lean ====
section
/-! SUPPORT. What PC1 to PC7 give for the named registers and the bulk ranges of a parameter set, and
each primitive at a named register as one link of an undisturbed operation. -/

namespace Sys2Proof.Machine

/-! ## What `paramsOk` gives (rule R10) -/

/-- The six parts of the check (rule R10). -/
theorem paramsOkFor_parts {c : Params} {used : Nat} (h : paramsOkFor c used = true) :
    bankParamsOk c = true ∧ (namedAddrs c).all isRegister = true
      ∧ bulkTargetsOk c.bridge used = true ∧ ddcParamsOk c.ddc = true ∧ irqParamsOk c.irq = true
      ∧ bridgeParamsOk c.bridge = true := by
  simpa only [paramsOkFor, Bool.and_eq_true, and_assoc] using h

/-- What holds for some payload length holds where no second infoframe block is used. -/
theorem paramsOk_of_for {c : Params} {used : Nat} (h : paramsOkFor c used = true) :
    paramsOk c = true := by
  have hp := paramsOkFor_parts h
  simp only [bulkTargetsOk, Bool.and_eq_true] at hp
  simp [paramsOk, paramsOkFor, bulkTargetsOk, secondBlockFits, hp.1, hp.2.1, hp.2.2.1.1.1,
    hp.2.2.1.1.2, hp.2.2.2.1, hp.2.2.2.2.1, hp.2.2.2.2.2]

theorem paramsOk_bank {c : Params} (h : paramsOk c = true) : bankParamsOk c = true :=
  (paramsOkFor_parts h).1

/-- Every named register is a register, and none is the bank select (PC2, PC3). -/
theorem paramsOk_named {c : Params} (h : paramsOk c = true) {a : Nat} (ha : a ∈ namedAddrs c) :
    isRegister a = true ∧ a ≠ c.bank.addr := by
  have hb := paramsOk_bank h
  simp only [bankParamsOk, Bool.and_eq_true, List.all_eq_true, decide_eq_true_eq] at hb
  exact ⟨List.all_eq_true.mp (paramsOkFor_parts h).2.1 a ha, hb.2 a ha⟩

theorem paramsOk_coef {c : Params} (h : paramsOk c = true) :
    bulkFits c.bridge.cscCoefAddr cscMatrixLen = true := by
  have := (paramsOkFor_parts h).2.2.1
  simp only [bulkTargetsOk, Bool.and_eq_true] at this
  exact this.1.2

theorem paramsOk_aviA {c : Params} (h : paramsOk c = true) :
    bulkFits c.bridge.aviAAddr ifSplit = true := by
  have := (paramsOkFor_parts h).2.2.1
  simp only [bulkTargetsOk, Bool.and_eq_true] at this
  exact this.1.1

/-- The second infoframe block of a payload the check was made for (PC4). -/
theorem paramsOkFor_aviB {c : Params} {used : Nat} (h : paramsOkFor c used = true)
    (hu : ifSplit < used) : bulkFits c.bridge.aviBAddr (used - ifSplit) = true := by
  have := (paramsOkFor_parts h).2.2.1
  simp only [bulkTargetsOk, Bool.and_eq_true, secondBlockFits, Bool.or_eq_true,
    decide_eq_true_eq] at this
  exact this.2.resolve_left (by omega)

theorem paramsOk_ddc {c : Params} (h : paramsOk c = true) : ddcParamsOk c.ddc = true :=
  (paramsOkFor_parts h).2.2.2.1

theorem paramsOk_irq {c : Params} (h : paramsOk c = true) : irqParamsOk c.irq = true :=
  (paramsOkFor_parts h).2.2.2.2.1

/-- Every coefficient matrix has 21 bytes (rule R8). -/
theorem paramsOk_matrix {c : Params} (h : paramsOk c = true) {op : CscOp} {co : Colorimetry}
    {l : Bool} {m : List Byte} (hm : cscMatrix c.bridge op co l = some m) :
    m.length = cscMatrixLen := by
  have hb := (paramsOkFor_parts h).2.2.2.2.2
  simp only [bridgeParamsOk, Bool.and_eq_true, List.all_cons, List.all_nil] at hb
  obtain ⟨-, ⟨h1, h2, h3, h4, -⟩, ⟨h5, h6, h7, h8, -⟩, -⟩ := hb
  cases op <;> cases co <;> cases l <;>
    simp only [cscMatrix, MatrixSet.pick, Option.some.injEq, reduceCtorEq] at hm <;> subst hm <;>
    apply of_decide_eq_true <;> assumption

/-- A bulk range off the bank select. -/
theorem offBanksel_ne {c : Params} {addr n : Nat} (h : offBanksel c addr n = true) :
    ∀ i < n, addr + i ≠ c.bank.addr := by
  simp only [offBanksel, decide_eq_true_eq] at h
  omega

/-- A bulk range inside one region passes the range checks and keeps off the gap. -/
theorem bulkFits_cases {addr n : Nat} (h : bulkFits addr n = true) (hn : 1 ≤ n) :
    rangeCheck addr n = none ∧ touchesGap addr n = false := by
  simp only [bulkFits, decide_eq_true_eq] at h
  obtain ⟨h1, h2⟩ := h
  have e7 : b0Base = 48 := rfl
  have e5 : b0End = 256 := rfl
  have e6 : b1Base = 304 := rfl
  have e8 : addrLimit = 448 := rfl
  simp only [isRegister, decide_eq_true_eq] at h2
  have hreg : (addr + n ≤ 256) ∨ (304 ≤ addr ∧ addr + n ≤ 448) := by
    simp only [region] at h1
    split_ifs at h1 <;> omega
  refine ⟨?_, ?_⟩
  · unfold rangeCheck crosses
    rw [if_neg (by omega), if_neg (by omega), if_neg (by simp; omega)]
  · unfold touchesGap
    simp
    omega

/-! ## What an undisturbed operation keeps -/

theorem switched_cfg (s : State) (n : Option Bank) : (s.switched n).cfg = s.cfg := by
  unfold State.switched
  split
  · rfl
  · split <;> rfl

/-- A switch changes no register but the bank select. -/
theorem switched_read {s : State} (n : Option Bank) {a : Nat} (ha : a ≠ s.cfg.bank.addr) :
    (s.switched n).x.read a = s.x.read a := by
  unfold State.switched
  split
  · rfl
  · split
    · rfl
    · exact Memory.read_write_other _ ha

theorem switched_pairwise {s : State} (n : Option Bank) (h : s.x.Pairwise fun c d => c.1 < d.1) :
    (s.switched n).x.Pairwise fun c d => c.1 < d.1 := by
  unfold State.switched
  split
  · exact h
  · split
    · exact h
    · exact Memory.write_pairwise h _ _

/-- After a switch the downstream bank is the one needed. -/
theorem switched_hwBank {s : State} (h : Fine s) (n : Option Bank) :
    (s.switched n).hwBank = n.getD s.hwBank := by
  cases n with
  | none => rfl
  | some b => exact switched_bank h b rfl

/-- A switch changes nothing of the context but the shadow. -/
theorem switched_ctx (s : State) (n : Option Bank) :
    (s.switched n).ctx = { s.ctx with currentBank := n.getD s.ctx.currentBank } := by
  unfold State.switched
  split
  · rfl
  · split
    · rename_i h
      subst h
      rfl
    · rfl

theorem rdAt_cfg (s : State) (a : Nat) : (s.rdAt a).cfg = s.cfg := switched_cfg s _
theorem wrAt_cfg (s : State) (a : Nat) (v : Byte) : (s.wrAt a v).cfg = s.cfg := switched_cfg s _
theorem updAt_cfg (s : State) (a : Nat) (m v : Byte) : (s.updAt a m v).cfg = s.cfg :=
  switched_cfg s _
theorem bwrAt_cfg (s : State) (a : Nat) (l : List Byte) : (s.bwrAt a l).cfg = s.cfg :=
  switched_cfg s _

/-- Nobody disturbs the agent: calm, no coming failure, shadow and bank agree, and PC1 to PC7 hold. -/
structure Undisturbed (a : AgentId) (s : State) : Prop where
  calm : Calm a s
  fine : Fine s
  ok : paramsOk s.cfg = true

theorem Ready.undisturbed {i : Instr} {s : State} (h : Ready i s) (ha : Alone s) (hf : Fine s)
    (hp : paramsOk s.cfg = true) : Undisturbed (.port s.active) s :=
  ⟨⟨h.1, ha, h.2.2.1⟩, hf, hp⟩

theorem Undisturbed.of_prim {a : AgentId} {p : Prim} {s u : State} {v : Byte}
    (h : Undisturbed a s) (hr : runPrim a p s = some (.ok v u)) (hf : Fine u) : Undisturbed a u :=
  ⟨h.calm.of_prim hr, hf, by rw [(runPrim_frame hr).2.frame]; exact h.ok⟩

/-! ## The primitives at named registers -/

theorem Undisturbed.rd {a : AgentId} {s : State} (h : Undisturbed a s) {addr : Nat}
    (ha : addr ∈ namedAddrs s.cfg) :
    runPrim a (.rd addr) s = some (.ok (s.rdValue addr) (s.rdAt addr))
      ∧ Undisturbed a (s.rdAt addr) := by
  have hr := runPrim_rd a h.fine h.calm.2.2 (paramsOk_named h.ok ha).1
  exact ⟨hr, h.of_prim hr (h.fine.rdAt _)⟩

theorem Undisturbed.wr {a : AgentId} {s : State} (h : Undisturbed a s) {addr : Nat}
    (ha : addr ∈ namedAddrs s.cfg) (v : Byte) :
    runPrim a (.wr addr v) s = some (.ok 0 (s.wrAt addr v)) ∧ Undisturbed a (s.wrAt addr v) := by
  have hr := runPrim_wr a h.fine h.calm.2.2 (paramsOk_named h.ok ha).1 v
  exact ⟨hr, h.of_prim hr (h.fine.wrAt (paramsOk_named h.ok ha).2 v)⟩

theorem Undisturbed.upd {a : AgentId} {s : State} (h : Undisturbed a s) {addr : Nat}
    (ha : addr ∈ namedAddrs s.cfg) (m v : Byte) :
    runPrim a (.upd addr m v) s = some (.ok 0 (s.updAt addr m v))
      ∧ Undisturbed a (s.updAt addr m v) := by
  have hr := runPrim_upd a h.fine h.calm.2.2 (paramsOk_named h.ok ha).1 m v
  exact ⟨hr, h.of_prim hr (h.fine.updAt (paramsOk_named h.ok ha).2 m v)⟩

theorem Undisturbed.bwr {a : AgentId} {s : State} (h : Undisturbed a s) {addr : Nat}
    {bytes : List Byte} (hn : 1 ≤ bytes.length) (hb : bulkFits addr bytes.length = true)
    (ho : offBanksel s.cfg addr bytes.length = true) :
    runPrim a (.bwr addr bytes) s = some (.ok 0 (s.bwrAt addr bytes))
      ∧ Undisturbed a (s.bwrAt addr bytes) := by
  obtain ⟨h1, h2⟩ := bulkFits_cases hb hn
  have hr := runPrim_bwr a h.fine h.calm.2.2 h1 hn h2 (offBanksel_ne ho)
  exact ⟨hr, h.of_prim hr (h.fine.bwrAt _ _)⟩

theorem Undisturbed.upd_chain {a : AgentId} {s : State} (h : Undisturbed a s) {addr : Nat}
    (ha : addr ∈ namedAddrs s.cfg) (m v : Byte) :
    Chain a 1 [.prim (.upd addr m v)] s (s.updAt addr m v) :=
  Chain.prim h.calm.1 (h.upd ha m v).1 (h.upd ha m v).2.calm

theorem Undisturbed.wr_chain {a : AgentId} {s : State} (h : Undisturbed a s) {addr : Nat}
    (ha : addr ∈ namedAddrs s.cfg) (v : Byte) : Chain a 1 [.prim (.wr addr v)] s (s.wrAt addr v) :=
  Chain.prim h.calm.1 (h.wr ha v).1 (h.wr ha v).2.calm

theorem Undisturbed.bwr_chain {a : AgentId} {s : State} (h : Undisturbed a s) {addr : Nat}
    {bytes : List Byte} (hn : 1 ≤ bytes.length) (hb : bulkFits addr bytes.length = true)
    (ho : offBanksel s.cfg addr bytes.length = true) :
    Chain a 1 [.prim (.bwr addr bytes)] s (s.bwrAt addr bytes) :=
  Chain.prim h.calm.1 (h.bwr hn hb ho).1 (h.bwr hn hb ho).2.calm

/-- An update of the state that touches nothing the run looks at keeps it undisturbed. -/
theorem Undisturbed.congr {a : AgentId} {s t : State} (h : Undisturbed a s)
    (h1 : t.cfg = s.cfg) (h2 : t.env = s.env) (h3 : t.hwBank = s.hwBank)
    (h4 : t.ctx.currentBank = s.ctx.currentBank) (h5 : t.ctx.lock = s.ctx.lock)
    (h6 : t.auxPorts = s.auxPorts) : Undisturbed a t := by
  refine ⟨⟨?_, ?_, h5.trans h.calm.2.2⟩, ⟨h1 ▸ h.fine.1, ?_, ?_⟩, h1 ▸ h.ok⟩
  · have := h.calm.1
    rcases a with (_ | i) | _ | _
    · rfl
    · simpa [State.hasAgent, State.hasPort, h6] using this
    · rfl
    · rfl
  · show t.env.sched = []
    rw [h2]
    exact h.calm.2.1
  · rw [h4, h3]
    exact h.fine.2.1
  · show t.env.fails = []
    rw [h2]
    exact h.fine.2.2

end Sys2Proof.Machine
end

