-- ==== Sys2Proof/Laws/Ends.lean ====
section
/-! SUPPORT. Undisturbed runs that end with an error or go on after one: from a program to the outcome
of the whole run, one statement at a time. -/

namespace Sys2Proof.Machine

/-- From `s`, with `program` next, the agent's run ends in `o` within `n` statements. -/
def Ends (a : AgentId) (n : Nat) (program : List Stmt) (s o : State) : Prop :=
  ∀ N, n ≤ N → drive a N (s.setPos a program) = .next o

theorem Ends.mono {a : AgentId} {m n : Nat} {program : List Stmt} {s o : State}
    (h : Ends a m program s o) (hn : m ≤ n) : Ends a n program s o := fun N hN => h N (by omega)

/-- A chain is a run that ends with OK. -/
theorem Chain.toEnds {a : AgentId} {n : Nat} {program : List Stmt} {s t : State}
    (h : Chain a n program s t) (hp : program ≠ []) : Ends a n program s (endOp a ⟨.ok, 0⟩ t) :=
  h.ends hp

/-- A chain, then what ends the run. -/
theorem Chain.thenEnds {a : AgentId} {m n : Nat} {p q : List Stmt} {s t o : State}
    (h : Chain a m p s t) (h' : Ends a n q t o) (hq : q ≠ []) : Ends a (m + n) (p ++ q) s o := by
  intro N hN
  obtain ⟨N, rfl⟩ : ∃ N', N = m + N' := ⟨N - m, by omega⟩
  cases q with
  | nil => exact absurd rfl hq
  | cons y ys =>
    rw [h.goes y ys N]
    exact h' N (by omega)

/-- One statement that is replaced by others, then what ends the run. -/
theorem Ends.cons {a : AgentId} {n : Nat} {m : Stmt} {push program : List Stmt} {s u o : State}
    (h : ∀ k, stmtStep a m (s.setPos a k) = .go push (u.setPos a k)) (hs : s.hasAgent a = true)
    (hu : Calm a u) (hk : push ++ program ≠ []) (he : Ends a n (push ++ program) u o) :
    Ends a (n + 1) (m :: program) s o := by
  intro N hN
  obtain ⟨N, rfl⟩ : ∃ N', N = 1 + N' := ⟨N - 1, by omega⟩
  cases hc : push ++ program with
  | nil => exact absurd hc hk
  | cons y ys =>
    have one := Reaches.go (State.pos_setPos_self s (m :: program) hs) (h (m :: program)) hc
      (by rw [State.hasAgent_setPos]; exact hu.1) (by simpa using hu.2.1) (by simpa using hu.2.2)
    rw [one N]
    have := he N (by omega)
    rw [hc] at this
    simpa using this

/-- A statement that raises with no absorbing invoker ends the run. -/
theorem Ends.raise {a : AgentId} {m : Stmt} {program : List Stmt} {e : Status} {s u : State}
    (h : ∀ k, stmtStep a m (s.setPos a k) = .raise e (u.setPos a k)) (hs : s.hasAgent a = true)
    (hu : u.hasAgent a = true) (hk : afterAbsorb program = none) :
    Ends a 1 (m :: program) s (endOp a ⟨e, 0⟩ u) := by
  intro N hN
  refine drive_end ?_ (goesOn_endOp hu _) hN
  rw [tick_raise (State.pos_setPos_self s (m :: program) hs) (h (m :: program))]
  simp [raiseError, hk, endOp_setPos]

/-- A statement that raises inside an absorbing invoker: the run goes on after it. -/
theorem Ends.absorb {a : AgentId} {n : Nat} {m : Stmt} {program k : List Stmt} {e : Status}
    {s u o : State} (h : ∀ k, stmtStep a m (s.setPos a k) = .raise e (u.setPos a k))
    (hs : s.hasAgent a = true) (hu : Calm a u) (hk : afterAbsorb program = some k) (hne : k ≠ [])
    (he : Ends a n k u o) : Ends a (n + 1) (m :: program) s o := by
  intro N hN
  obtain ⟨N, rfl⟩ : ∃ N', N = 1 + N' := ⟨N - 1, by omega⟩
  cases k with
  | nil => exact absurd rfl hne
  | cons y ys =>
    have ht : tick a (s.setPos a (m :: program)) = .next (u.setPos a (y :: ys)) := by
      rw [tick_raise (State.pos_setPos_self s (m :: program) hs) (h (m :: program))]
      simp [raiseError, hk, resumeWith]
    rw [Reaches.step ht (goesOn_setPos hu.1 hu.2.1 hu.2.2) N]
    exact he N (by omega)

/-- A ready command whose program ends in `o`. -/
theorem command_ends {i : Instr} {s o : State} {program : List Stmt} {n : Nat} (h : Ready i s)
    (he : Ends (.port s.active) n program s o) (hn : n ≤ driveBound s.cfg) :
    command i program s = .next o := by
  rw [command_ready h]
  exact he _ hn

theorem save_setPos (s : State) (a : AgentId) (r : SaveReg) (v : Byte) (k : List Stmt) :
    (s.setPos a k).save a r v = (s.save a r v).setPos a k := by
  rcases a with (_ | i) | _ | _
  · rfl
  · by_cases hi : i < s.auxPorts.length
    · simp [State.save, State.setPos, State.setSeq, State.setPort, State.seqOf, State.port, hi,
        List.getD, List.set_set]
    · simp [State.save, State.setPos, State.setSeq, State.setPort, State.seqOf, State.port,
        List.set_eq_of_length_le (Nat.le_of_not_lt hi)]
  · rfl
  · rfl

/-- Saving a latch disturbs nothing. -/
theorem Undisturbed.save {a : AgentId} {s : State} (h : Undisturbed a s) (r : SaveReg) (v : Byte) :
    Undisturbed a (s.save a r v) := by
  refine ⟨⟨?_, (congrArg Env.sched (State.save_env s a r v)).trans h.calm.2.1,
    by simpa using h.calm.2.2⟩, ⟨by simpa using h.fine.1, by simpa using h.fine.2.1,
    (congrArg Env.fails (State.save_env s a r v)).trans h.fine.2.2⟩, by simpa using h.ok⟩
  have := h.calm.1
  rcases a with (_ | i) | _ | _
  · rfl
  · simpa [State.hasAgent, State.hasPort, State.save, State.setSeq, State.setPort] using this
  · rfl
  · rfl

/-! ## Poll and DDC_ABORT -/

/-- The bank, the configuration and the peace survive a poll. -/
theorem Undisturbed.pollAt {a : AgentId} (n : Nat) {s : State} (h : Undisturbed a s) :
    Undisturbed a (s.pollAt n).2 ∧ (s.pollAt n).2.cfg = s.cfg := by
  induction n generalizing s with
  | zero => exact ⟨h, rfl⟩
  | succ n ih =>
    have hr := (h.rd (addr := s.cfg.ddc.statAddr) (by simp [namedAddrs])).2
    simp only [State.pollAt]
    split
    · exact ⟨hr, rdAt_cfg _ _⟩
    · split
      · exact ⟨hr, rdAt_cfg _ _⟩
      · exact ⟨(ih hr).1, (ih hr).2.trans (rdAt_cfg _ _)⟩

/-- A poll of at least one sample, then what its result leads to. -/
theorem Undisturbed.poll_ends {a : AgentId} {use : PollUse} {program : List Stmt} {n m : Nat}
    {s o : State} (h : Undisturbed a s) (hk : ∀ r, afterPoll s.cfg use r ++ program ≠ [])
    (he : Ends a m (afterPoll s.cfg use (s.pollAt (n + 1)).1 ++ program) (s.pollAt (n + 1)).2 o) :
    Ends a (m + (n + 1)) (.poll use (n + 1) :: program) s o := by
  induction n generalizing s with
  | zero =>
    have hr := h.rd (addr := s.cfg.ddc.statAddr) (by simp [namedAddrs])
    have hu := (h.pollAt 1).1.calm
    refine Ends.cons (fun k => ?_) h.calm.1 hu (hk _) he
    by_cases h1 : errorBits s.cfg.ddc (s.rdValue s.cfg.ddc.statAddr) ≠ 0
    · rw [State.pollAt, if_pos h1]
      simp only [errorBits] at h1
      simp only [stmtStep, stepPoll, callPrim, withPrim, runPrim_setPos, State.setPos_cfg, hr.1,
        Option.map_some, PRes.onState, rdAt_cfg, pollSample, stErr, errorBits, if_pos h1]
    · by_cases h2 : s.rdValue s.cfg.ddc.statAddr &&& s.cfg.ddc.stDone ≠ 0
      · rw [State.pollAt, if_neg h1, if_pos h2]
        simp only [errorBits] at h1
        simp only [stmtStep, stepPoll, callPrim, withPrim, runPrim_setPos, State.setPos_cfg, hr.1,
          Option.map_some, PRes.onState, rdAt_cfg, pollSample, stErr, if_neg h1, if_pos h2]
      · rw [State.pollAt, if_neg h1, if_neg h2]
        simp only [errorBits] at h1
        simp only [stmtStep, stepPoll, callPrim, withPrim, runPrim_setPos, State.setPos_cfg, hr.1,
          Option.map_some, PRes.onState, rdAt_cfg, pollSample, stErr, if_neg h1, if_neg h2]
        rfl
  | succ n ih =>
    have hr := h.rd (addr := s.cfg.ddc.statAddr) (by simp [namedAddrs])
    by_cases h1 : errorBits s.cfg.ddc (s.rdValue s.cfg.ddc.statAddr) ≠ 0
    · rw [State.pollAt, if_pos h1] at he
      refine (Ends.cons (push := afterPoll s.cfg use
        (.error (errorBits s.cfg.ddc (s.rdValue s.cfg.ddc.statAddr)))) (fun k => ?_) h.calm.1
        hr.2.calm (hk _) he).mono (by omega)
      simp only [errorBits] at h1
      simp only [stmtStep, stepPoll, callPrim, withPrim, runPrim_setPos, State.setPos_cfg, hr.1,
        Option.map_some, PRes.onState, rdAt_cfg, pollSample, stErr, errorBits, if_pos h1]
    · by_cases h2 : s.rdValue s.cfg.ddc.statAddr &&& s.cfg.ddc.stDone ≠ 0
      · rw [State.pollAt, if_neg h1, if_pos h2] at he
        refine (Ends.cons (push := afterPoll s.cfg use .done) (fun k => ?_) h.calm.1
          hr.2.calm (hk _) he).mono (by omega)
        simp only [errorBits] at h1
        simp only [stmtStep, stepPoll, callPrim, withPrim, runPrim_setPos, State.setPos_cfg, hr.1,
          Option.map_some, PRes.onState, rdAt_cfg, pollSample, stErr, if_neg h1, if_pos h2]
      · rw [State.pollAt, if_neg h1, if_neg h2] at he
        refine (Ends.cons (push := [.poll use (n + 1)]) (fun k => ?_) h.calm.1 hr.2.calm (by simp)
          (ih hr.2 (by simpa only [rdAt_cfg] using hk)
            (by simpa only [rdAt_cfg] using he))).mono (by omega)
        simp only [errorBits] at h1
        simp only [stmtStep, stepPoll, callPrim, withPrim, runPrim_setPos, State.setPos_cfg, hr.1,
          Option.map_some, PRes.onState, rdAt_cfg, pollSample, stErr, if_neg h1, if_neg h2]
        simp

theorem Undisturbed.saveAt {a : AgentId} {s : State} (h : Undisturbed a s) (r : SaveReg) {addr : Nat}
    (ha : addr ∈ namedAddrs s.cfg) :
    Undisturbed a (s.saveAt a r addr) ∧ (s.saveAt a r addr).cfg = s.cfg :=
  ⟨(h.rd ha).2.save r _, (State.save_cfg _ _ _ _).trans (rdAt_cfg _ _)⟩

/-- One save of the abort sequence. -/
theorem Undisturbed.save_ends {a : AgentId} {program : List Stmt} {n addr : Nat} {s o : State}
    (h : Undisturbed a s) (r : SaveReg) (ha : addr ∈ namedAddrs s.cfg) (hd : saveAddr s.cfg r = addr)
    (hp : program ≠ []) (he : Ends a n program (s.saveAt a r addr) o) :
    Ends a (n + 1) (.save r :: program) s o := by
  refine Ends.cons (push := []) (fun k => ?_) h.calm.1 (h.saveAt r ha).1.calm (by simpa) he
  simp only [stmtStep, stepSave, callPrim, withPrim, runPrim_setPos, State.setPos_cfg, hd, (h.rd ha).1,
    Option.map_some, PRes.onState, save_setPos]
  rfl

/-- A write of a named register, then the rest. -/
theorem Undisturbed.wr_ends {a : AgentId} {program : List Stmt} {n addr : Nat} {s o : State}
    (h : Undisturbed a s) (ha : addr ∈ namedAddrs s.cfg) (v : Byte) (hp : program ≠ [])
    (he : Ends a n program (s.wrAt addr v) o) :
    Ends a (n + 1) (.prim (.wr addr v) :: program) s o :=
  ((h.wr_chain ha v).thenEnds he hp).mono (by omega)

/-- An abort iteration. -/
theorem Undisturbed.iterAt {a : AgentId} {s : State} (h : Undisturbed a s) :
    Undisturbed a s.iterAt.2 ∧ s.iterAt.2.cfg = s.cfg := by
  have hw := (h.wr (addr := s.cfg.ddc.cmdAddr) (by simp [namedAddrs]) s.cfg.ddc.cmdAbort).2
  have := hw.pollAt 200
  exact ⟨this.1, this.2.trans (wrAt_cfg _ _ _)⟩

theorem Undisturbed.iter_ends {a : AgentId} {program : List Stmt} {n left : Nat} {d : Bool}
    {s o : State} (h : Undisturbed a s)
    (he : Ends a n (.abortIter left (d || decide (s.iterAt.1 = .done)) :: program) s.iterAt.2 o) :
    Ends a (n + 202) (.abortIter (left + 1) d :: program) s o := by
  have hm : s.cfg.ddc.cmdAddr ∈ namedAddrs s.cfg := by simp [namedAddrs]
  have hw := (h.wr hm s.cfg.ddc.cmdAbort).2
  have hp : afterPoll s.cfg (.abort left d) s.iterAt.1
      = [.abortIter left (d || decide (s.iterAt.1 = .done))] := by
    cases hr : s.iterAt.1 <;> simp [afterPoll]
  refine Ends.cons (push := [.prim (.wr s.cfg.ddc.cmdAddr s.cfg.ddc.cmdAbort),
    .poll (.abort left d) pollAbort]) (u := s) (fun k => ?_) h.calm.1 h.calm (by simp)
    (n := n + 201) ?_
  · simp only [stmtStep, stepAbortIter, State.setPos_cfg]
  · refine h.wr_ends hm _ (by simp) (n := n + 200) (hw.poll_ends (fun r => ?_) ?_)
    · cases r <;> simp [afterPoll]
    · rw [wrAt_cfg]
      show Ends a n (afterPoll s.cfg (.abort left d) s.iterAt.1 ++ program) s.iterAt.2 o
      rw [hp]
      exact he

/-- The start of the abort sequence. -/
theorem Undisturbed.abortStart {a : AgentId} {s : State} (h : Undisturbed a s) :
    Undisturbed a (s.abortStart a) ∧ (s.abortStart a).cfg = s.cfg := by
  have h1 := h.saveAt .swrst (addr := s.cfg.rst.swrstAddr) (by simp [namedAddrs])
  have h2 := h1.1.saveAt .hdcp (addr := s.cfg.rst.hdcpAddr) (by rw [h1.2]; simp [namedAddrs])
  have c2 := h2.2.trans h1.2
  have h3 := h2.1.saveAt .ddcm (addr := s.cfg.ddc.ddcmAddr) (by rw [c2]; simp [namedAddrs])
  have c3 := h3.2.trans c2
  exact ⟨(h3.1.wr (by rw [c3]; simp [namedAddrs]) s.cfg.ddc.ddcmHost).2, (wrAt_cfg _ _ _).trans c3⟩

/-- The whole abort sequence. -/
theorem Undisturbed.abortAt {a : AgentId} {s : State} (h : Undisturbed a s) :
    Undisturbed a (s.abortAt a).2 ∧ (s.abortAt a).2.cfg = s.cfg :=
  ⟨h.abortStart.1.iterAt.1.iterAt.1,
    h.abortStart.1.iterAt.1.iterAt.2.trans (h.abortStart.1.iterAt.2.trans h.abortStart.2)⟩

/-- The abort sequence up to its verdict, then the rest (rule R145). -/
theorem Undisturbed.abort_ends {a : AgentId} {program : List Stmt} {n : Nat} {s o : State}
    (h : Undisturbed a s)
    (he : Ends a n (.abortIter 0 (s.abortAt a).1 :: program) (s.abortAt a).2 o) :
    Ends a (n + 408) (abortProgram s.cfg ++ program) s o := by
  have h1 := h.saveAt .swrst (addr := s.cfg.rst.swrstAddr) (by simp [namedAddrs])
  have m2 : s.cfg.rst.hdcpAddr ∈ namedAddrs (s.saveAt a .swrst s.cfg.rst.swrstAddr).cfg := by
    rw [h1.2]; simp [namedAddrs]
  have h2 := h1.1.saveAt .hdcp m2
  have c2 := h2.2.trans h1.2
  have m3 : s.cfg.ddc.ddcmAddr ∈ namedAddrs
      ((s.saveAt a .swrst s.cfg.rst.swrstAddr).saveAt a .hdcp s.cfg.rst.hdcpAddr).cfg := by
    rw [c2]; simp [namedAddrs]
  have h3 := h2.1.saveAt .ddcm m3
  have m4 : s.cfg.ddc.ddcmAddr ∈ namedAddrs
      (((s.saveAt a .swrst s.cfg.rst.swrstAddr).saveAt a .hdcp s.cfg.rst.hdcpAddr).saveAt a .ddcm
        s.cfg.ddc.ddcmAddr).cfg := by
    rw [h3.2, c2]; simp [namedAddrs]
  have h4 := h.abortStart
  exact h.save_ends .swrst (addr := s.cfg.rst.swrstAddr) (by simp [namedAddrs]) rfl (by simp)
    (n := n + 407)
    (h1.1.save_ends .hdcp m2 (by rw [h1.2]; rfl) (by simp) (n := n + 406)
      (h2.1.save_ends .ddcm m3 (by rw [c2]; rfl) (by simp) (n := n + 405)
        (h3.1.wr_ends m4 s.cfg.ddc.ddcmHost (by simp) (n := n + 404)
          (h4.1.iter_ends (left := 1) (d := false) (n := n + 202)
            (h4.1.iterAt.1.iter_ends (left := 0) he)))))

end Sys2Proof.Machine
end

