-- ==== Sys2Proof/Laws/Failing.lean ====
section
/-! SUPPORT. What a transaction, a bank select, RD and WR do when the coming transactions complete up to
one that fails (`FailsAt`): the effect the rules give, or a stop at that transaction. -/

namespace Sys2Proof.Machine

/-- PC1 and PC2 hold, shadow and bank agree, and the coming transactions complete until `B` stand in the
bus log; the next one fails. -/
structure FailsAt (B : Nat) (l : List Bool) (s : State) : Prop where
  bank : bankParamsOk s.cfg = true
  agree : s.ctx.currentBank = s.hwBank
  flags : ∃ j, s.env.fails = List.replicate j false ++ true :: l ∧ s.bus.length + j = B

/-- A state that stopped in a failed transaction with `B` completed ones before it, all of them
transactions of `full`. -/
def StoppedAt (B : Nat) (full : List BusOp) (w : State) : Prop :=
  ∃ op done later, op.failed = true ∧ w.bus = op :: done ∧ full = later ++ done ∧ done.length = B

namespace FailsAt

variable {B : Nat} {l : List Bool} {s : State}

theorem le (h : FailsAt B l s) : s.bus.length ≤ B := by
  obtain ⟨j, -, hj⟩ := h.flags
  omega

/-- Before transaction `B` nothing fails. -/
theorem completes (h : FailsAt B l s) (hlt : s.bus.length < B) :
    s.env.nextFails = false ∧ ∃ j, s.env.fails.tail = List.replicate j false ++ true :: l
      ∧ s.bus.length + 1 + j = B := by
  obtain ⟨j, hf, hj⟩ := h.flags
  obtain ⟨j, rfl⟩ : ∃ i, j = i + 1 := ⟨j - 1, by omega⟩
  rw [List.replicate_succ, List.cons_append] at hf
  exact ⟨by simp [Env.nextFails, hf], j, by simp [hf], by omega⟩

/-- Transaction `B` fails. -/
theorem fails (h : FailsAt B l s) (heq : s.bus.length = B) : s.env.nextFails = true := by
  obtain ⟨j, hf, hj⟩ := h.flags
  obtain rfl : j = 0 := by omega
  simp [Env.nextFails, hf]

/-- Nothing here looks at the lock. -/
theorem setLock_iff {o : Option AgentId} : FailsAt B l (s.setLock o) ↔ FailsAt B l s :=
  ⟨fun h => ⟨h.bank, h.agree, h.flags⟩, fun h => ⟨h.bank, h.agree, h.flags⟩⟩

end FailsAt

/-! ## One transaction -/

theorem busRead_fails {s : State} (h : s.env.nextFails = true) {off a : Nat}
    (ht : target s.hwBank off = some a) :
    busRead off s
      = .err .ioError { s with env := s.envAfterFailedRead a, bus := .read off none :: s.bus } := by
  unfold busRead
  rw [ht]
  simp only [h]
  rfl

/-- A failed write leaves the register file as it was or as the completed write would (rule R77). -/
theorem busWrite_fails {s : State} (h : s.env.nextFails = true) {off a : Nat}
    (ht : target s.hwBank off = some a) (v : Byte) :
    ∃ w, busWrite off v s = .err .ioError w ∧ w.bus = .write off v false :: s.bus
      ∧ (w.x = s.x ∨ w.x = s.storedIn a v) := by
  unfold busWrite busOut
  simp only [reachesAll, ht, Option.isSome_some, Bool.true_and, if_true, h]
  refine ⟨_, rfl, rfl, ?_⟩
  simp only [State.logBus, State.storeFailed]
  cases Config.failTaken s.env.draws with
  | zero => exact .inl rfl
  | succ n =>
    right
    simp only [List.take_succ_cons, List.take_nil, storeBytes, storeByte, ht, State.storedIn]
    by_cases hb : a = s.cfg.bank.addr
    · simp [hb]
    · by_cases hp : isPlain s.cfg a = true <;> simp [hb, hp]

/-! ## The bank select -/

theorem FailsAt.afterSelect {B : Nat} {l : List Bool} {s : State} (h : FailsAt B l s)
    (hlt : s.bus.length < B) (b : Bank) : FailsAt B l (s.afterSelect b) :=
  ⟨h.bank, rfl, (h.completes hlt).2⟩

/-- Where the shadow differs from the bank needed: one select, which completes before transaction `B`. -/
theorem FailsAt.select {B : Nat} {l : List Bool} {s : State} (h : FailsAt B l s) (b : Bank) :
    (s.bus.length < B ∧ bankSelect b s = .ok () (s.afterSelect b) ∧ FailsAt B l (s.afterSelect b))
      ∨ ∃ w, bankSelect b s = .err .ioError w ∧ StoppedAt B s.bus w
        ∧ ∀ a, a ≠ s.cfg.bank.addr → w.x.read a = s.x.read a := by
  have ht : target s.hwBank s.cfg.bank.addr = some s.cfg.bank.addr := by
    simp [target, bankParams_addr h.bank]
  rcases Nat.lt_or_ge s.bus.length B with hlt | hge
  · refine .inl ⟨hlt, ?_, h.afterSelect hlt b⟩
    simp only [bankSelect, busWrite_completes (h.completes hlt).1 ht, PRes.bind, State.didWrite,
      State.storedIn, bankOf_selectByte h.bank]
    rfl
  · obtain ⟨w, hw, hb, hx⟩ := busWrite_fails (h.fails (by have := h.le; omega)) ht
      (selectByte s.cfg.bank b)
    refine .inr ⟨w, by simp only [bankSelect, hw, PRes.bind], ⟨_, _, [], rfl, hb, rfl,
      by have := h.le; omega⟩, fun a ha => ?_⟩
    rcases hx with hx | hx
    · rw [hx]
    · rw [hx, State.storedIn, if_pos (.inl rfl)]
      exact Memory.read_write_other _ ha

/-- The select of an access that needs `need`, if it takes one. -/
theorem FailsAt.ensureBank {B : Nat} {l : List Bool} {s : State} (h : FailsAt B l s)
    (need : Option Bank) :
    (Machine.ensureBank need s = .ok () (s.switched need) ∧ FailsAt B l (s.switched need))
      ∨ ∃ w, Machine.ensureBank need s = .err .ioError w ∧ StoppedAt B s.bus w
        ∧ ∀ a, a ≠ s.cfg.bank.addr → w.x.read a = s.x.read a := by
  cases need with
  | none => exact .inl ⟨rfl, h⟩
  | some b =>
    simp only [Machine.ensureBank, State.switched]
    split
    · exact .inl ⟨rfl, h⟩
    · rcases h.select b with hs | hs
      · exact .inl hs.2
      · exact .inr hs

/-! ## RD and WR -/

theorem switched_log (s : State) (need : Option Bank) : ∃ m, (s.switched need).bus = m ++ s.bus := by
  unfold State.switched
  split
  · exact ⟨[], rfl⟩
  · split
    · exact ⟨[], rfl⟩
    · exact ⟨[_], rfl⟩

theorem rdAt_log (s : State) (addr : Nat) : ∃ m, (s.rdAt addr).bus = m ++ s.bus := by
  obtain ⟨m, hm⟩ := switched_log s (needOf addr)
  exact ⟨_ :: m, by simp only [State.rdAt, State.didRead, hm, List.cons_append]; rfl⟩

theorem wrAt_log (s : State) (addr : Nat) (v : Byte) : ∃ m, (s.wrAt addr v).bus = m ++ s.bus := by
  obtain ⟨m, hm⟩ := switched_log s (needOf addr)
  exact ⟨_ :: m, by simp only [State.wrAt, State.didWrite, hm, List.cons_append]; rfl⟩

theorem StoppedAt.mono {B : Nat} {f f' : List BusOp} {w : State} (h : StoppedAt B f w)
    (hf : ∃ m, f' = m ++ f) : StoppedAt B f' w := by
  obtain ⟨op, done, later, h1, h2, rfl, h4⟩ := h
  obtain ⟨m, rfl⟩ := hf
  exact ⟨op, done, m ++ later, h1, h2, by simp, h4⟩

/-- The lock after the agent's primitive does not show in the bus log or the register file. -/
theorem runPrim_body_err {a : AgentId} {p : Prim} {s w : State} {e : Status}
    (hl : s.ctx.lock = none) (hb : primBody p (s.setLock (some a)) = .err e w) :
    runPrim a p s = some (.err e (w.setLock none)) := by
  simp only [runPrim, hl, Option.isSome_none, Bool.false_eq_true, if_false, hb, PRes.release]

theorem target_agree {s : State} (h : s.ctx.currentBank = s.hwBank) {addr : Nat}
    (ha : isRegister addr = true) :
    target (s.switched (needOf addr)).hwBank (offOf addr) = some addr := by
  refine target_of_translate (translate_of_isRegister ha) fun b hb => ?_
  simp only [hb, State.switched]
  split
  · rename_i he
    rw [he]
    exact h.symm
  · rfl

/-- The prologue of a register access. -/
theorem FailsAt.prologue {B : Nat} {l : List Bool} {s : State} (h : FailsAt B l s) {addr : Nat}
    (ha : isRegister addr = true) :
    (Machine.prologue addr s = .ok (offOf addr) (s.switched (needOf addr))
        ∧ FailsAt B l (s.switched (needOf addr)))
      ∨ ∃ w, Machine.prologue addr s = .err .ioError w ∧ StoppedAt B s.bus w
        ∧ ∀ a, a ≠ s.cfg.bank.addr → w.x.read a = s.x.read a := by
  simp only [Machine.prologue, locate_register ha, PRes.bind]
  rcases h.ensureBank (needOf addr) with ⟨he, hf⟩ | ⟨w, he, hw⟩
  · exact .inl ⟨by rw [he], hf⟩
  · exact .inr ⟨w, by rw [he], hw⟩

/-- RD of a register: its effect, or a stop at the failing transaction with every register but the bank
select as before. -/
theorem FailsAt.rd {B : Nat} {l : List Bool} {s : State} (a : AgentId) (h : FailsAt B l s)
    (hl : s.ctx.lock = none) {addr : Nat} (ha : isRegister addr = true) :
    (runPrim a (.rd addr) s = some (.ok (s.rdValue addr) (s.rdAt addr)) ∧ FailsAt B l (s.rdAt addr))
      ∨ ∃ w, runPrim a (.rd addr) s = some (.err .ioError w) ∧ StoppedAt B (s.rdAt addr).bus w
        ∧ ∀ r, r ≠ s.cfg.bank.addr → w.x.read r = s.x.read r := by
  have h' : FailsAt B l (s.setLock (some a)) := FailsAt.setLock_iff.mpr h
  rcases h'.prologue ha with ⟨he, hf⟩ | ⟨w, he, hw, hx⟩
  · have ht := target_agree h'.agree ha
    rcases Nat.lt_or_ge ((s.setLock (some a)).switched (needOf addr)).bus.length B with hlt | hge
    · refine .inl ⟨runPrim_of_body hl ?_ (by simpa), ?_⟩
      · rw [primBody, ← setLock_rdValue s (some a), ← setLock_rdAt]
        simp only [rdBody, he, PRes.bind, busRead_completes (hf.completes hlt).1 ht]
        rfl
      · have : FailsAt B l ((s.setLock (some a)).rdAt addr) :=
          ⟨hf.bank, hf.agree, by
            have hc := (hf.completes hlt).2
            simpa [State.rdAt, State.didRead] using hc⟩
        rw [setLock_rdAt] at this
        exact FailsAt.setLock_iff.mp this
    · have hbad := busRead_fails (hf.fails (by have := hf.le; omega)) ht
      refine .inr ⟨_, runPrim_body_err hl (by
        simp only [primBody, rdBody, he, PRes.bind, hbad]; rfl), ?_, ?_⟩
      · refine ⟨.read (offOf addr) none, (s.switched (needOf addr)).bus, [_], rfl, ?_, rfl, ?_⟩
        · rw [setLock_switched]; rfl
        · rw [setLock_switched] at hf hge; exact Nat.le_antisymm hf.le hge
      · intro r hr
        show ((s.setLock (some a)).switched _).x.read r = _
        exact switched_read _ hr
  · exact .inr ⟨_, runPrim_body_err hl (by simp only [primBody, rdBody, he, PRes.bind]),
      StoppedAt.mono hw (rdAt_log s addr), hx⟩

/-- WR of a register other than the bank select: its effect, or a stop at the failing transaction with the
old or the new byte there and every other register but the bank select as before. -/
theorem FailsAt.wr {B : Nat} {l : List Bool} {s : State} (a : AgentId) (h : FailsAt B l s)
    (hl : s.ctx.lock = none) {addr : Nat} (ha : isRegister addr = true)
    (hb : addr ≠ s.cfg.bank.addr) (v : Byte) :
    (runPrim a (.wr addr v) s = some (.ok 0 (s.wrAt addr v)) ∧ FailsAt B l (s.wrAt addr v))
      ∨ ∃ w, runPrim a (.wr addr v) s = some (.err .ioError w) ∧ StoppedAt B (s.wrAt addr v).bus w
        ∧ ((∀ r, r ≠ s.cfg.bank.addr → w.x.read r = s.x.read r) ∨ w.x = (s.wrAt addr v).x) := by
  have h' : FailsAt B l (s.setLock (some a)) := FailsAt.setLock_iff.mpr h
  rcases h'.prologue ha with ⟨he, hf⟩ | ⟨w, he, hw, hx⟩
  · have ht := target_agree h'.agree ha
    rcases Nat.lt_or_ge ((s.setLock (some a)).switched (needOf addr)).bus.length B with hlt | hge
    · refine .inl ⟨runPrim_of_body hl ?_ (by simpa), ?_⟩
      · rw [primBody, ← setLock_wrAt]
        simp only [wrBody, he, PRes.bind, busWrite_completes (hf.completes hlt).1 ht]
        rfl
      · have : FailsAt B l ((s.setLock (some a)).wrAt addr v) :=
          ⟨hf.bank, by
            have := hf.agree
            simpa [State.wrAt, State.didWrite, switched_cfg, hb] using this, by
            have hc := (hf.completes hlt).2
            simpa [State.wrAt, State.didWrite] using hc⟩
        rw [setLock_wrAt] at this
        exact FailsAt.setLock_iff.mp this
    · obtain ⟨w, hw, hbus, hx⟩ := busWrite_fails (hf.fails (by have := hf.le; omega)) ht v
      refine .inr ⟨w.setLock none,
        runPrim_body_err hl (by simp only [primBody, wrBody, he, PRes.bind, hw]), ?_, ?_⟩
      · refine ⟨.write (offOf addr) v false, (s.switched (needOf addr)).bus, [_], rfl, ?_, rfl, ?_⟩
        · show w.bus = _
          rw [hbus, setLock_switched]; rfl
        · rw [setLock_switched] at hf hge; exact Nat.le_antisymm hf.le hge
      · rcases hx with hx | hx
        · left
          intro r hr
          show w.x.read r = _
          rw [hx]
          exact switched_read _ hr
        · right
          show w.x = _
          rw [hx, setLock_switched]
          rfl
  · exact .inr ⟨_, runPrim_body_err hl (by simp only [primBody, wrBody, he, PRes.bind]),
      StoppedAt.mono hw (wrAt_log s addr v), .inl hx⟩

end Sys2Proof.Machine
end

