-- ==== Sys2Proof/Laws/Fields.lean ====
section
/-! SUPPORT. Each field of a word that was put together from its fields, format by format. -/

namespace Sys2Proof

/-! ## The fields of formats R and M (rules R92, R97) -/

@[simp] theorem opField_r (o : BitVec 4) (a : BitVec 12) (m v : Byte) : opField (o ++ a ++ m ++ v) = o := by
  unfold opField
  ext i hi
  simp only [BitVec.getElem_extractLsb', BitVec.getLsbD_append]
  grind

@[simp] theorem addrField_r (o : BitVec 4) (a : BitVec 12) (m v : Byte) : addrField (o ++ a ++ m ++ v) = a := by
  unfold addrField
  ext i hi
  simp only [BitVec.getElem_extractLsb', BitVec.getLsbD_append]
  grind

@[simp] theorem midField_r (o : BitVec 4) (a : BitVec 12) (m v : Byte) : midField (o ++ a ++ m ++ v) = m := by
  unfold midField
  ext i hi
  simp only [BitVec.getElem_extractLsb', BitVec.getLsbD_append]
  grind

@[simp] theorem lowField_r (o : BitVec 4) (a : BitVec 12) (m v : Byte) : lowField (o ++ a ++ m ++ v) = v := by
  unfold lowField
  ext i hi
  simp only [BitVec.getElem_extractLsb', BitVec.getLsbD_append]
  grind

/-! ## The fields of format B (rule R93) -/

@[simp] theorem opField_b (o : BitVec 4) (a : BitVec 12) (l : BitVec 16) : opField (o ++ a ++ l) = o := by
  unfold opField
  ext i hi
  simp only [BitVec.getElem_extractLsb', BitVec.getLsbD_append]
  grind

@[simp] theorem addrField_b (o : BitVec 4) (a : BitVec 12) (l : BitVec 16) : addrField (o ++ a ++ l) = a := by
  unfold addrField
  ext i hi
  simp only [BitVec.getElem_extractLsb', BitVec.getLsbD_append]
  grind

@[simp] theorem halfField_b (o : BitVec 4) (a : BitVec 12) (l : BitVec 16) : halfField (o ++ a ++ l) = l := by
  unfold halfField
  ext i hi
  simp only [BitVec.getElem_extractLsb', BitVec.getLsbD_append]
  grind

/-! ## The fields of format D (rule R94) -/

@[simp] theorem opField_d (o z : BitVec 4) (b : BitVec 8) (l : BitVec 16) : opField (o ++ z ++ b ++ l) = o := by
  unfold opField
  ext i hi
  simp only [BitVec.getElem_extractLsb', BitVec.getLsbD_append]
  grind

@[simp] theorem selField_d (o z : BitVec 4) (b : BitVec 8) (l : BitVec 16) : selField (o ++ z ++ b ++ l) = z := by
  unfold selField
  ext i hi
  simp only [BitVec.getElem_extractLsb', BitVec.getLsbD_append]
  grind

@[simp] theorem blockField_d (o z : BitVec 4) (b : BitVec 8) (l : BitVec 16) : blockField (o ++ z ++ b ++ l) = b := by
  unfold blockField
  ext i hi
  simp only [BitVec.getElem_extractLsb', BitVec.getLsbD_append]
  grind

@[simp] theorem halfField_d (o z : BitVec 4) (b : BitVec 8) (l : BitVec 16) : halfField (o ++ z ++ b ++ l) = l := by
  unfold halfField
  ext i hi
  simp only [BitVec.getElem_extractLsb', BitVec.getLsbD_append]
  grind

/-! ## The fields of format L (rule R95) -/

@[simp] theorem opField_l (o s : BitVec 4) (v : BitVec 24) : opField (o ++ s ++ v) = o := by
  unfold opField
  ext i hi
  simp only [BitVec.getElem_extractLsb', BitVec.getLsbD_append]
  grind

@[simp] theorem selField_l (o s : BitVec 4) (v : BitVec 24) : selField (o ++ s ++ v) = s := by
  unfold selField
  ext i hi
  simp only [BitVec.getElem_extractLsb', BitVec.getLsbD_append]
  grind

@[simp] theorem valueField_l (o s : BitVec 4) (v : BitVec 24) : valueField (o ++ s ++ v) = v := by
  unfold valueField
  ext i hi
  simp only [BitVec.getElem_extractLsb', BitVec.getLsbD_append]
  grind

/-! ## The fields of format C (rule R98) -/

@[simp] theorem opField_c (o : BitVec 4) (z : BitVec 25) (c : BitVec 2) (r : BitVec 1) : opField (o ++ z ++ c ++ r) = o := by
  unfold opField
  ext i hi
  simp only [BitVec.getElem_extractLsb', BitVec.getLsbD_append]
  grind

@[simp] theorem zeroFieldC_c (o : BitVec 4) (z : BitVec 25) (c : BitVec 2) (r : BitVec 1) : zeroFieldC (o ++ z ++ c ++ r) = z := by
  unfold zeroFieldC
  ext i hi
  simp only [BitVec.getElem_extractLsb', BitVec.getLsbD_append]
  grind

@[simp] theorem colorField_c (o : BitVec 4) (z : BitVec 25) (c : BitVec 2) (r : BitVec 1) : colorField (o ++ z ++ c ++ r) = c := by
  unfold colorField
  ext i hi
  simp only [BitVec.getElem_extractLsb', BitVec.getLsbD_append]
  grind

@[simp] theorem rangeField_c (o : BitVec 4) (z : BitVec 25) (c : BitVec 2) (r : BitVec 1) : rangeField (o ++ z ++ c ++ r) = r := by
  unfold rangeField
  ext i hi
  simp only [BitVec.getElem_extractLsb', BitVec.getLsbD_append]
  grind

/-! ## The fields of format N (rule R98) -/

@[simp] theorem opField_n (o : BitVec 4) (z : BitVec 28) : opField (o ++ z) = o := by
  unfold opField
  ext i hi
  simp only [BitVec.getElem_extractLsb', BitVec.getLsbD_append]
  grind

@[simp] theorem restField_n (o : BitVec 4) (z : BitVec 28) : restField (o ++ z) = z := by
  unfold restField
  ext i hi
  simp only [BitVec.getElem_extractLsb', BitVec.getLsbD_append]
  grind

end Sys2Proof
end

