-- ==== Sys2Proof/Laws/Outcomes.lean ====
section
/-! SUPPORT. Runs whichever transactions fail: from a program to the outcome of the whole run, next state
or refusal, one statement at a time. `Then` says what each answer of a piece leads to. -/

namespace Sys2Proof.Machine

/-- From `s`, with `program` next, the agent's run answers `o` within `n` statements. -/
def EndsIn (a : AgentId) (n : Nat) (program : List Stmt) (s : State)
    (o : Host.Outcome State Fault Refusal) : Prop :=
  ∀ N, n ≤ N → drive a N (s.setPos a program) = o

/-- The run goes on with `rest`, or ends with OK where nothing is left. -/
def GoesOn (a : AgentId) (n : Nat) (rest : List Stmt) (t : State)
    (o : Host.Outcome State Fault Refusal) : Prop :=
  if rest = [] then o = .next (endOp a ⟨.ok, 0⟩ t) else EndsIn a n rest t o

/-- An error was raised with `rest` to come: it ends the run, or an absorbing invoker goes on. -/
def Raised (a : AgentId) (n : Nat) (e : Status) (rest : List Stmt) (t : State)
    (o : Host.Outcome State Fault Refusal) : Prop :=
  match afterAbsorb rest with
  | none => o = .next (endOp a ⟨e, 0⟩ t)
  | some k => GoesOn a n k t o

/-- What a piece of an operation leads to: `k` where it gave a value, the error raised, the refusal. -/
def Then {α : Type} (a : AgentId) (c : Params) (n : Nat) (rest : List Stmt) (r : PRes α)
    (o : Host.Outcome State Fault Refusal) (k : α → State → Prop) : Prop :=
  match r with
  | .ok v t => Calm a t → t.cfg = c → k v t
  | .err e t => Calm a t → t.cfg = c → Raised a n e rest t o
  | .stop x => o = .refused x

section
variable {a : AgentId} {c : Params} {n m : Nat} {rest : List Stmt} {s t u : State}
  {o : Host.Outcome State Fault Refusal} {α β : Type}

theorem EndsIn.mono (h : EndsIn a m rest s o) (hn : m ≤ n) : EndsIn a n rest s o :=
  fun N hN => h N (by omega)

theorem GoesOn.mono (h : GoesOn a m rest s o) (hn : m ≤ n) : GoesOn a n rest s o := by
  unfold GoesOn at h ⊢
  split at h
  · rwa [if_pos ‹_›]
  · rw [if_neg ‹_›]; exact h.mono hn

theorem Raised.mono {e : Status} (h : Raised a m e rest s o) (hn : m ≤ n) :
    Raised a n e rest s o := by
  unfold Raised at h ⊢
  split at h
  · exact h
  · exact h.mono hn

theorem GoesOn.of_endsIn (h : EndsIn a n rest s o) (hr : rest ≠ []) : GoesOn a n rest s o := by
  rw [GoesOn, if_neg hr]; exact h

theorem GoesOn.cons {x : Stmt} (h : GoesOn a n (x :: rest) s o) : EndsIn a n (x :: rest) s o := by
  simpa [GoesOn] using h

theorem Then.bind {r : PRes α} {g : α → State → PRes β} {k : β → State → Prop}
    (h : Then a c n rest (r.bind g) o k) :
    Then a c n rest r o fun v t => Then a c n rest (g v t) o k := by
  cases r with
  | ok v t => exact fun _ _ => h
  | err e t => exact h
  | stop x => exact h

theorem Then.imp {r : PRes α} {k k' : α → State → Prop} (h : Then a c n rest r o k)
    (hk : ∀ v t, Calm a t → t.cfg = c → k v t → k' v t) : Then a c n rest r o k' := by
  cases r with
  | ok v t => exact fun h1 h2 => hk v t h1 h2 (h h1 h2)
  | err e t => exact h
  | stop x => exact h

/-- The same piece with other statements to come, where errors lead to the same. -/
theorem Then.congr_rest {rest' : List Stmt} {r : PRes α} {k : α → State → Prop}
    (h : Then a c n rest r o k) (hr : afterAbsorb rest' = afterAbsorb rest) (hn : n ≤ m) :
    Then a c m rest' r o k := by
  cases r with
  | ok v t => exact h
  | err e t =>
    intro h1 h2
    have := (h h1 h2).mono hn
    unfold Raised at this ⊢
    rwa [hr]
  | stop x => exact h

/-! ## One statement -/

/-- After a statement was replaced the run goes on, or ends. -/
theorem GoesOn.resume (h : GoesOn a n rest u o) (hu : Calm a u) (k : List Stmt) {N : Nat}
    (hN : n ≤ N) {w : State} (hw : tick a w = .next (resumeWith a rest (u.setPos a k))) :
    drive a (1 + N) w = o := by
  unfold GoesOn at h
  split at h
  · rename_i hr
    subst hr
    rw [resumeWith_nil, endOp_setPos] at hw
    rw [h]
    exact drive_end hw (goesOn_endOp hu.1 _) (by omega)
  · rename_i hr
    cases rest with
    | nil => exact absurd rfl hr
    | cons x xs =>
      rw [resumeWith_cons, State.setPos_setPos] at hw
      rw [Reaches.step hw (goesOn_setPos hu.1 hu.2.1 hu.2.2) N]
      exact h N hN

/-- A statement that is replaced by others. -/
theorem EndsIn.go {x : Stmt} {push : List Stmt} (hs : s.hasAgent a = true)
    (h : ∀ k, stmtStep a x (s.setPos a k) = .go push (u.setPos a k)) (hu : Calm a u)
    (he : GoesOn a n (push ++ rest) u o) : EndsIn a (n + 1) (x :: rest) s o := by
  intro N hN
  obtain ⟨N, rfl⟩ : ∃ N', N = 1 + N' := ⟨N - 1, by omega⟩
  exact he.resume hu (x :: rest) (by omega)
    (tick_go (State.pos_setPos_self s (x :: rest) hs) (h (x :: rest)))

/-- A statement that raises. -/
theorem EndsIn.raise {x : Stmt} {e : Status} (hs : s.hasAgent a = true)
    (h : ∀ k, stmtStep a x (s.setPos a k) = .raise e (u.setPos a k)) (hu : Calm a u)
    (he : Raised a n e rest u o) : EndsIn a (n + 1) (x :: rest) s o := by
  intro N hN
  obtain ⟨N, rfl⟩ : ∃ N', N = 1 + N' := ⟨N - 1, by omega⟩
  have ht := tick_raise (State.pos_setPos_self s (x :: rest) hs) (h (x :: rest))
  unfold raiseError at ht
  unfold Raised at he
  split at he
  · rename_i hr
    rw [hr] at ht
    simp only [endOp_setPos] at ht
    rw [he]
    exact drive_end ht (goesOn_endOp hu.1 _) (by omega)
  · rename_i k hr
    rw [hr] at ht
    exact he.resume hu (x :: rest) (by omega) ht

/-- A statement without a meaning. -/
theorem EndsIn.stop {x : Stmt} {r : Refusal} (hs : s.hasAgent a = true)
    (h : ∀ k, stmtStep a x (s.setPos a k) = .stop r) (ho : o = .refused r) :
    EndsIn a (n + 1) (x :: rest) s o := by
  intro N hN
  obtain ⟨N, rfl⟩ : ∃ N', N = N' + 1 := ⟨N - 1, by omega⟩
  have ht : tick a (s.setPos a (x :: rest)) = .refused r := by
    simp [tick, State.pos_setPos_self s (x :: rest) hs, h, settle]
  simp [drive, ht, ho]

/-! ## A statement that runs a primitive -/

theorem runPrim_prim {p : Prim} (h : Calm a s) : runPrim a p s = some (s.prim a p) := by
  simp [runPrim, State.prim, h.2.2]

/-- The agent stays calm, whatever its primitive answers. -/
theorem prim_calm {p : Prim} (h : Calm a s) :
    (s.prim a p).Leaves fun t => Calm a t ∧ t.cfg = s.cfg := by
  have hf := (runPrim_frame (runPrim_prim (p := p) h)).2
  have key : ∀ t, BusFrame 3 s t → Calm a t ∧ t.cfg = s.cfg := fun t ht => by
    refine ⟨⟨?_, ht.sched.trans h.2.1, ?_⟩, ?_⟩
    · rw [ht.frame]; rcases a with (_ | i) | _ | _ <;> exact h.1
    · rw [ht.frame]; exact h.2.2
    · rw [ht.frame]
  cases hr : s.prim a p with
  | ok v t => rw [hr] at hf; exact key t hf
  | err e t => rw [hr] at hf; exact key t hf
  | stop x => trivial

/-- What a statement does with the value of its primitive. -/
def Took (a : AgentId) (n : Nat) (rest : List Stmt) (k : State → StepRes) (t : State)
    (o : Host.Outcome State Fault Refusal) : Prop :=
  ∃ push u, (∀ p, k (t.setPos a p) = .go push (u.setPos a p)) ∧ Calm a u ∧ GoesOn a n (push ++ rest) u o

/-- A statement whose primitive's error propagates. -/
theorem EndsIn.call {x : Stmt} {p : Prim} {k : Byte → State → StepRes} (hs : Calm a s)
    (hc : s.cfg = c) (hio : ∀ e t, s.prim a p = .err e t → e = .ioError)
    (hx : ∀ q, stmtStep a x (s.setPos a q) = callPrim a p (s.setPos a q) k)
    (h : Then a c n rest (s.callRun a p) o fun v t => Took a n rest (k v) t o) :
    EndsIn a (n + 1) (x :: rest) s o := by
  have hf := prim_calm (p := p) hs
  have hr := runPrim_prim (p := p) hs
  unfold State.callRun at h
  cases hp : s.prim a p with
  | ok v t =>
    rw [hp] at h hf hr
    obtain ⟨push, u, h1, h2, h3⟩ := h hf.1 (hf.2.trans hc)
    refine EndsIn.go hs.1 (fun q => ?_) h2 h3
    rw [hx, ← h1 q]
    simp [callPrim, withPrim, runPrim_setPos, hr, PRes.onState]
  | err e t =>
    rw [hp] at h hf hr
    obtain rfl := hio e t hp
    refine EndsIn.raise hs.1 (fun q => ?_) hf.1 (h hf.1 (hf.2.trans hc))
    rw [hx]
    simp [callPrim, withPrim, runPrim_setPos, hr, PRes.onState]
  | stop y =>
    rw [hp] at h hr
    refine EndsIn.stop hs.1 (fun q => ?_) h
    rw [hx]
    simp [callPrim, withPrim, runPrim_setPos, hr, PRes.onState]

/-- A statement whose primitive is best effort. -/
theorem EndsIn.attempt {x : Stmt} {p : Prim} {k : Byte → State → StepRes} {g : Status → State → StepRes}
    (hs : Calm a s) (hc : s.cfg = c)
    (hx : ∀ q, stmtStep a x (s.setPos a q) = withPrim a p (s.setPos a q) k g)
    (hg : ∀ e t, g e t = k 0 t)
    (h : Then a c n rest (s.attemptRun a p) o fun v t => Took a n rest (k v) t o) :
    EndsIn a (n + 1) (x :: rest) s o := by
  have hf := prim_calm (p := p) hs
  have hr := runPrim_prim (p := p) hs
  unfold State.attemptRun at h
  cases hp : s.prim a p with
  | ok v t =>
    rw [hp] at h hf hr
    obtain ⟨push, u, h1, h2, h3⟩ := h hf.1 (hf.2.trans hc)
    refine EndsIn.go hs.1 (fun q => ?_) h2 h3
    rw [hx, ← h1 q]
    simp [withPrim, runPrim_setPos, hr, PRes.onState]
  | err e t =>
    rw [hp] at h hf hr
    obtain ⟨push, u, h1, h2, h3⟩ := h hf.1 (hf.2.trans hc)
    refine EndsIn.go hs.1 (fun q => ?_) h2 h3
    rw [hx, ← h1 q]
    simp [withPrim, runPrim_setPos, hr, PRes.onState, hg]
  | stop y =>
    rw [hp] at h hr
    refine EndsIn.stop hs.1 (fun q => ?_) h
    rw [hx]
    simp [withPrim, runPrim_setPos, hr, PRes.onState]

end

/-! ## The errors of a primitive at a register -/

theorem busOut_err {op : Bool → BusOp} {off : Nat} {bytes : List Byte} {s w : State} {e : Status}
    (h : busOut op off bytes s = .err e w) : e = .ioError := by
  unfold busOut at h
  simp only at h
  split at h
  · split at h <;> cases h
    rfl
  · cases h

theorem busRead_err {off : Nat} {s w : State} {e : Status} (h : busRead off s = .err e w) :
    e = .ioError := by
  unfold busRead at h
  split at h
  · cases h
  · split at h <;> cases h
    rfl

theorem prologue_err {addr : Nat} (ha : isRegister addr = true) {s w : State} {e : Status}
    (h : prologue addr s = .err e w) : e = .ioError := by
  simp only [prologue, locate_register ha, PRes.bind] at h
  cases he : ensureBank (needOf addr) s with
  | ok v t => rw [he] at h; cases h
  | stop x => rw [he] at h; cases h
  | err e' t =>
    rw [he] at h
    cases h
    cases hn : needOf addr with
    | none => rw [hn] at he; cases he
    | some b =>
      simp only [hn, ensureBank] at he
      split at he
      · cases he
      · unfold bankSelect at he
        cases hw : busWrite s.cfg.bank.addr (selectByte s.cfg.bank b) s with
        | ok v t => rw [hw] at he; cases he
        | stop x => rw [hw] at he; cases he
        | err e' t => rw [hw] at he; cases he; exact busOut_err hw

/-- RD of a register fails with `IoError` only. -/
theorem prim_rd_err {a : AgentId} {addr : Nat} (ha : isRegister addr = true) {s t : State} {e : Status}
    (h : s.prim a (.rd addr) = .err e t) : e = .ioError := by
  simp only [State.prim, primBody, rdBody] at h
  cases hp : prologue addr (s.setLock (some a)) with
  | ok off w =>
    rw [hp] at h
    simp only [PRes.bind] at h
    cases hb : busRead off w with
    | ok v x => rw [hb] at h; cases h
    | stop x => rw [hb] at h; cases h
    | err e' x => rw [hb] at h; cases h; exact busRead_err hb
  | stop x => rw [hp] at h; cases h
  | err e' w => rw [hp] at h; cases h; exact prologue_err ha hp

/-- WR of a register fails with `IoError` only. -/
theorem prim_wr_err {a : AgentId} {addr : Nat} (ha : isRegister addr = true) {v : Byte} {s t : State}
    {e : Status} (h : s.prim a (.wr addr v) = .err e t) : e = .ioError := by
  simp only [State.prim, primBody, wrBody] at h
  cases hp : prologue addr (s.setLock (some a)) with
  | ok off w =>
    rw [hp] at h
    simp only [PRes.bind] at h
    cases hb : busWrite off v w with
    | ok v x => rw [hb] at h; cases h
    | stop x => rw [hb] at h; cases h
    | err e' x => rw [hb] at h; cases h; exact busOut_err hb
  | stop x => rw [hp] at h; cases h
  | err e' w => rw [hp] at h; cases h; exact prologue_err ha hp

/-- A read or write of a named register fails with `IoError` only. -/
theorem prim_named_err {a : AgentId} {c : Params} {s : State} (hp : paramsOk c = true) {p : Prim}
    (ha : ∃ x ∈ namedAddrs c, p = .rd x ∨ ∃ v, p = .wr x v) :
    ∀ e t, s.prim a p = .err e t → e = .ioError := by
  obtain ⟨x, hx, rfl | ⟨v, rfl⟩⟩ := ha
  · exact fun e t h => prim_rd_err (paramsOk_named hp hx).1 h
  · exact fun e t h => prim_wr_err (paramsOk_named hp hx).1 h

/-! ## The statements of the sequencer -/

section
variable {a : AgentId} {c : Params} {n m : Nat} {rest : List Stmt} {s t u : State}
  {o : Host.Outcome State Fault Refusal}

/-- The last piece: its value is dropped. -/
theorem Then.took {α : Type} {r : PRes α}
    (h : Then a c n rest (r.bind fun _ t => .ok () t) o fun _ t => GoesOn a n rest t o) :
    Then a c n rest r o fun _ t => Took a n rest (fun s' => .go [] s') t o :=
  (Then.bind h).imp fun _ t h1 h2 h3 => ⟨[], t, fun _ => rfl, h1, h3 h1 h2⟩

theorem EndsIn.prim {p : Prim} (hs : Calm a s) (hc : s.cfg = c)
    (hio : ∀ e t, s.prim a p = .err e t → e = .ioError)
    (h : Then a c n rest (calls a p s) o fun _ t => GoesOn a n rest t o) :
    EndsIn a (n + 1) (.prim p :: rest) s o :=
  EndsIn.call hs hc hio (k := fun _ s' => .go [] s') (fun _ => rfl) (Then.took h)

theorem EndsIn.tryPrim {p : Prim} (hs : Calm a s) (hc : s.cfg = c)
    (h : Then a c n rest (attempts a p s) o fun _ t => GoesOn a n rest t o) :
    EndsIn a (n + 1) (.tryPrim p :: rest) s o :=
  EndsIn.attempt hs hc (k := fun _ s' => .go [] s') (fun _ => rfl) (fun _ _ => rfl) (Then.took h)

/-- One sample of `pollRun`, as the sequencer classifies it. -/
theorem pollRun_succ (a : AgentId) (n : Nat) (s : State) :
    s.pollRun a (n + 1) = (s.callRun a (.rd s.cfg.ddc.statAddr)).bind fun v t =>
      match pollSample s.cfg.ddc v with
      | .error b => .ok (.error b) t
      | .done => .ok .done t
      | .undecided => t.pollRun a n := by
  rw [State.pollRun]
  congr 1
  funext v t
  unfold pollSample stErr errorBits
  split
  · rfl
  · split <;> rfl

theorem EndsIn.poll (hp : paramsOk c = true) {use : PollUse} (n : Nat) : ∀ {s : State}, Calm a s →
    s.cfg = c →
    Then a c m rest (s.pollRun a (n + 1)) o
      (fun r t => GoesOn a m (afterPoll c use r ++ rest) t o) →
    EndsIn a (m + (n + 1)) (.poll use (n + 1) :: rest) s o := by
  have hst : c.ddc.statAddr ∈ namedAddrs c := by simp [namedAddrs]
  have hx : ∀ (s : State) (left : Nat) (q : List Stmt),
      stmtStep a (.poll use (left + 1)) (s.setPos a q)
        = callPrim a (.rd s.cfg.ddc.statAddr) (s.setPos a q) fun v s' =>
          match pollSample s'.cfg.ddc v with
          | .error b => .go (afterPoll s'.cfg use (.error b)) s'
          | .done => .go (afterPoll s'.cfg use .done) s'
          | .undecided =>
            if left = 0 then .go (afterPoll s'.cfg use .exhausted) s' else .go [.poll use left] s' :=
    fun s left q => by rw [← State.setPos_cfg s a q]; rfl
  induction n with
  | zero =>
    intro s hs hc h
    subst hc
    rw [pollRun_succ] at h
    refine EndsIn.call hs rfl (prim_named_err hp ⟨_, hst, .inl rfl⟩) (hx s 0) ?_
    refine (Then.bind h).imp fun v t h1 h2 h3 => ?_
    cases hq : pollSample s.cfg.ddc v <;> simp only [hq] at h3
    · exact ⟨_, t, fun p => by simp only [State.setPos_cfg, h2, hq], h1, h3 h1 h2⟩
    · exact ⟨_, t, fun p => by simp only [State.setPos_cfg, h2, hq], h1, h3 h1 h2⟩
    · exact ⟨_, t, fun p => by simp only [State.setPos_cfg, h2, hq]; rfl, h1, h3 h1 h2⟩
  | succ n ih =>
    intro s hs hc h
    subst hc
    rw [pollRun_succ] at h
    refine EndsIn.call (n := m + (n + 1)) hs rfl (prim_named_err hp ⟨_, hst, .inl rfl⟩)
      (hx s (n + 1)) ?_
    refine ((Then.bind h).imp (k' := fun v t => Took a (m + (n + 1)) rest _ t o)
      fun v t h1 h2 h3 => ?_).congr_rest rfl (by omega)
    cases hq : pollSample s.cfg.ddc v <;> simp only [hq] at h3
    · exact ⟨_, t, fun p => by simp only [State.setPos_cfg, h2, hq], h1,
        (h3 h1 h2).mono (by omega)⟩
    · exact ⟨_, t, fun p => by simp only [State.setPos_cfg, h2, hq], h1,
        (h3 h1 h2).mono (by omega)⟩
    · exact ⟨[.poll use (n + 1)], t, fun p => by simp only [State.setPos_cfg, h2, hq]; simp, h1,
        GoesOn.of_endsIn (ih h1 h2 h3) (by simp)⟩

theorem Calm.save (h : Calm a t) (r : SaveReg) (v : Byte) : Calm a (t.save a r v) := by
  refine ⟨?_, (congrArg Env.sched (State.save_env t a r v)).trans h.2.1, by simpa using h.2.2⟩
  have := h.1
  rcases a with (_ | i) | _ | _
  · rfl
  · simpa [State.hasAgent, State.hasPort, State.save, State.setSeq, State.setPort] using this
  · rfl
  · rfl

theorem EndsIn.save (hp : paramsOk c = true) {r : SaveReg} {addr : Nat} (hd : saveAddr c r = addr)
    (ha : addr ∈ namedAddrs c) (hs : Calm a s) (hc : s.cfg = c)
    (h : Then a c m rest (s.saveRun a r addr) o fun _ t => GoesOn a m rest t o) :
    EndsIn a (m + 1) (.save r :: rest) s o := by
  subst hc
  refine EndsIn.call hs rfl (prim_named_err hp ⟨_, ha, .inl rfl⟩) (p := .rd addr)
    (k := fun v s' => .go [] (s'.save a r v)) (fun q => ?_) ?_
  · show callPrim a (.rd (saveAddr (s.setPos a q).cfg r)) _ _ = _
    rw [State.setPos_cfg, hd]
  · exact (Then.bind h).imp fun v t h1 h2 h3 =>
      ⟨[], t.save a r v, fun p => by simp only [save_setPos], h1.save r v,
        h3 (h1.save r v) ((State.save_cfg _ _ _ _).trans h2)⟩

/-- One iteration of DDC_ABORT: the command, then the poll. -/
theorem EndsIn.abortIter (hp : paramsOk c = true) {left : Nat} {d : Bool} (hs : Calm a s)
    (hc : s.cfg = c)
    (h : Then a c m rest (s.iterRun a) o fun b t =>
      GoesOn a m (.abortIter left (d || b) :: rest) t o) :
    EndsIn a (m + 202) (.abortIter (left + 1) d :: rest) s o := by
  subst hc
  refine EndsIn.go (n := m + 201) (u := s) (push := [.prim (.wr s.cfg.ddc.cmdAddr s.cfg.ddc.cmdAbort),
    .poll (.abort left d) pollAbort]) hs.1
    (fun q => by simp only [stmtStep, stepAbortIter, State.setPos_cfg]) hs ?_
  refine GoesOn.of_endsIn ?_ (by simp)
  refine EndsIn.prim (n := m + 200) hs rfl
    (prim_named_err hp ⟨_, by simp [namedAddrs], .inr ⟨_, rfl⟩⟩) ?_
  have h' := Then.bind h
  unfold calls
  cases hr : s.callRun a (.wr s.cfg.ddc.cmdAddr s.cfg.ddc.cmdAbort) with
  | stop x => rw [hr] at h'; exact h'
  | err e t => rw [hr] at h'; exact fun h1 h2 => Raised.mono (m := m) (h' h1 h2) (by omega)
  | ok v t =>
    rw [hr] at h'
    intro h1 h2
    refine GoesOn.of_endsIn (EndsIn.poll hp (n := 199) h1 h2 ?_) (by simp)
    refine (Then.bind (h' h1 h2)).imp fun r u h3 h4 h5 => ?_
    cases r <;> simpa [afterPoll] using h5 h3 h4

end

end Sys2Proof.Machine
end

