-- ==== Sys2Proof/Laws/PerInstr.lean ====
section
/-! SUPPORT. The family `OpcodeField`: bits 31 to 28 of every operation's word are the opcode of its row
of rule R96, whatever the operands. -/

namespace Sys2Proof.Laws.OpcodeField

/-- The opcode column of rule R96. -/
def opcode : Instr → BitVec 4
  | .rd _ => 0x1
  | .wr _ _ => 0x2
  | .upd _ _ _ => 0x3
  | .bwr _ _ => 0x4
  | .rdblk _ _ => 0x5
  | .ddcAbort => 0x6
  | .irqDispatch => 0x7
  | .hpdTask => 0x8
  | .ldm _ _ => 0x9
  | .modeSet _ _ => 0xA
  | .vidEn => 0xB
  | .cscCfg _ _ => 0xC
  | .brEnable => 0xD
  | .brDisable => 0xE

/-- The word of an operation carries its opcode. -/
def Statement (i : Instr) : Prop := opField (encode i) = opcode i

theorem rd (addr : BitVec 12) : Statement (.rd addr) := opField_r _ _ _ _

theorem wr (addr : BitVec 12) (val : Byte) : Statement (.wr addr val) := opField_r _ _ _ _

theorem upd (addr : BitVec 12) (mask val : Byte) : Statement (.upd addr mask val) := opField_r _ _ _ _

theorem bwr (addr : BitVec 12) (len : BitVec 16) : Statement (.bwr addr len) := opField_b _ _ _

theorem rdblk (block : BitVec 8) (length : BitVec 16) : Statement (.rdblk block length) := opField_d _ _ _ _

theorem ddcAbort : Statement (.ddcAbort) := opField_n _ _

theorem irqDispatch : Statement (.irqDispatch) := opField_n _ _

theorem hpdTask : Statement (.hpdTask) := opField_n _ _

theorem ldm (sel : LatchSel) (value : BitVec 24) : Statement (.ldm sel value) := opField_l _ _ _

theorem modeSet (len : BitVec 8) (csum : Byte) : Statement (.modeSet len csum) := opField_r _ _ _ _

theorem vidEn : Statement (.vidEn) := opField_n _ _

theorem cscCfg (colorimetry : Colorimetry) (limited : Bool) : Statement (.cscCfg colorimetry limited) := opField_c _ _ _ _

theorem brEnable : Statement (.brEnable) := opField_n _ _

theorem brDisable : Statement (.brDisable) := opField_n _ _

end Sys2Proof.Laws.OpcodeField
end

