-- ==== Sys2Proof/Laws/Step.lean ====
section
/-! SUPPORT. Everything a step can do, once: a property kept by each of the few things a step is made of
is kept by every meaning and every step. -/

namespace Sys2Proof.Machine

/-- A property of states that each thing a step is made of keeps. -/
structure Kept (P : State → Prop) : Prop where
  tick : ∀ a s t, P s → tick a s = .next t → P t
  program : ∀ p s k, P s → s.idle (.port p) = true → k ≠ [] → P (s.setPos (.port p) k)
  illegal : ∀ p s, P s → P (illegalCommand p s)
  dispatch : ∀ s k, P s → s.dispRunning = false → s.idle .dispatcher = true → k ≠ [] →
    P (s.enterDispatch k)
  task : ∀ s k, P s → s.taskRunning = false → s.idle .task = true → k ≠ [] → P (s.enterTask k)
  take : ∀ p s c cs, P s → P (s.takeCommand p c cs)
  sched : ∀ s l, P s → P (s.setSched l)
  drawn : ∀ s, P s → P s.drawn
  irq : ∀ s level, P s → P { s with irqLine := level }

variable {P : State → Prop}

theorem Kept.drive (h : Kept P) {a : AgentId} {n : Nat} {s t : State} (hs : P s)
    (hd : drive a n s = .next t) : P t := drive_keeps (h.tick a) hs hd

/-- Every port command keeps it, whatever its program. -/
theorem Kept.command (h : Kept P) {i : Instr} {k : List Stmt} {s t : State} (hs : P s)
    (hk : k ≠ []) (hc : command i k s = .next t) : P t := by
  unfold Machine.command at hc
  split at hc
  · rename_i hid
    split at hc
    · exact h.drive (h.program _ s k hs hid hk) hc
    · cases hc
      exact h.illegal _ s hs
  · cases hc
    exact hs

/-- The start of an internal operation keeps it, whether it goes on in the same step or not. -/
theorem Kept.startInternal (h : Kept P) {a : AgentId} {s t : State} (hs : P s)
    (ht : startInternal a s = .next t) : P t := by
  unfold Machine.startInternal at ht
  split at ht
  · exact h.drive hs ht
  · cases ht
    exact hs

/-- Every meaning keeps it. -/
theorem Kept.exec (h : Kept P) {i : Instr} {s t : State} (hs : P s) (he : exec i s = .next t) :
    P t := by
  cases i with
  | irqDispatch =>
    simp only [Machine.exec, execIrqDispatch] at he
    split at he
    · cases he
      exact hs
    · rename_i hb
      simp only [Bool.or_eq_true, Bool.not_eq_true', not_or, Bool.not_eq_true,
        Bool.not_eq_false] at hb
      exact h.startInternal (h.dispatch s _ hs hb.1 hb.2 (by simp [dispatchProgram])) he
  | hpdTask =>
    simp only [Machine.exec, execHpdTask] at he
    split at he
    · cases he
      exact hs
    · rename_i hb
      simp only [Bool.or_eq_true, Bool.not_eq_true', not_or, Bool.not_eq_true,
        Bool.not_eq_false] at hb
      exact h.startInternal (h.task s _ hs hb.1 hb.2 (by simp [taskProgram])) he
  | modeSet len csum => exact h.command hs (by simp [modeSetProgram]) he
  | ddcAbort => exact h.command hs (by simp [abortProgram]) he
  | brEnable => exact h.command hs (by simp [enableProgram]) he
  | brDisable => exact h.command hs (by simp [disableProgram]) he
  | _ => exact h.command hs (by simp) he

theorem Kept.serve (h : Kept P) {a : AgentId} {s t : State} (hs : P s)
    (ht : serve a s = .next t) : P t := by
  unfold Machine.serve at ht
  split at ht
  · unfold startAgent at ht
    split at ht
    · unfold acceptCommand at ht
      split at ht
      · cases ht
        exact hs
      · rename_i p _ _ c cs hin
        have hk := h.take p s c cs hs
        unfold runCommand at ht
        split at ht
        · cases ht
          exact h.illegal _ _ hk
        · split at ht
          · exact h.exec hk ht
          · cases ht
            exact h.illegal _ _ hk
    · split at ht
      · exact h.exec hs ht
      · cases ht
        exact hs
    · split at ht
      · exact h.exec hs ht
      · cases ht
        exact hs
  · exact h.drive hs ht

/-- Every step keeps it. -/
theorem Kept.step (h : Kept P) {s t : State} (hs : P s) (ht : step s = .next t) : P t := by
  unfold Machine.step advance at ht
  split at ht
  · unfold freeTurn at ht
    split at ht
    · cases ht
      exact hs
    · exact h.serve hs ht
    · exact h.serve (h.drawn s hs) ht
  · rename_i b rest hsch
    have hk := h.sched s rest hs
    unfold takeTurn at ht
    split at ht
    · exact h.serve hk ht
    · cases ht
      exact h.irq _ _ hk
    · cases ht

end Sys2Proof.Machine
end

