-- ==== Sys2Proof/Tests/Slice0.lean ====
section
/-! SUPPORT. The model's own tests: ill-formed terms refused, words written out from the formats of rules
R91 to R98, single steps with the results of the vectors of spec/95_test_vectors.md, and for every
obligation with hypotheses a state and operands that meet them together. -/

open Sys2Proof Sys2Proof.Machine

namespace Sys2Proof.Tests

set_option Elab.async false

/-! ## Helpers -/

/-- The next state of an outcome. -/
def after (o : Host.Outcome State Fault Refusal) : State :=
  match o with
  | .next s => s
  | .fault _ => State.reset
  | .refused _ => State.reset

/-- Whether an outcome is a next state. -/
def isNext (o : Host.Outcome State Fault Refusal) : Bool :=
  match o with
  | .next _ => true
  | .fault _ => false
  | .refused _ => false

/-- Whether an outcome is this refusal. -/
def refusedWith (r : Refusal) (o : Host.Outcome State Fault Refusal) : Bool :=
  match o with
  | .next _ => false
  | .fault _ => false
  | .refused r' => decide (r' = r)

theorem eq_after {o : Host.Outcome State Fault Refusal} (h : isNext o = true) :
    o = .next (after o) := by
  cases o with
  | next s => rfl
  | fault r => cases h
  | refused r => cases h

/-- Reset, with a payload filled on the host port. -/
def filled (payload : List Byte) : State :=
  { State.reset with payload := payload }

/-- Reset, with one command presented on the host port. -/
def presented (w : CmdWord) (payload : List Byte) : State :=
  { State.reset with hostPort := { Port.idle with inbox := [⟨w, payload⟩] } }

/-- A state whose coming transactions fail as listed. -/
def failing (l : List Bool) (s : State) : State := { s with env := { s.env with fails := l } }

/-- A state with a script of answers. -/
def scripted (l : List (Nat × Byte)) (s : State) : State :=
  { s with env := { s.env with answers := l } }

/-- A state with bank 1 selected. -/
def inBank1 (s : State) : State :=
  { s with hwBank := .bank1, ctx := { s.ctx with currentBank := .bank1 } }

/-- A state with the bridge on: `need_csc` is true. -/
def withCsc (s : State) : State := { s with ctx := { s.ctx with needCsc := true } }

/-- A state with a gap policy. -/
def withGap (g : GapPolicy) (s : State) : State := { s with cfg := { s.cfg with gapPolicy := g } }

/-- A state with a connector status. -/
def withConn (c : ConnStatus) (s : State) : State := { s with ctx := { s.ctx with connectorStatus := c } }

/-- A state with some latches. -/
def withLatches (l : Latches) (s : State) : State := { s with latches := l }

/-- The transactions a meaning issued, in order. -/
def trace (i : Instr) (s : State) : List BusOp := (after (exec i s)).bus.reverse

/-- The response a meaning left on the host port. -/
def answer (i : Instr) (s : State) : Response := (after (exec i s)).resp

/-! ## Ill-formed operands (rules R94, R95, R97; vectors V16a to V16c) -/

theorem test_wf_rdblk_length : (Instr.rdblk 0 129).wellFormed = false
    ∧ (Instr.rdblk 255 128).wellFormed = true := by decide

theorem test_wf_ldm : (Instr.ldm .dmWidth 0x10000).wellFormed = false
    ∧ (Instr.ldm .dmHeight 0x10000).wellFormed = false
    ∧ (Instr.ldm .dmPixrep 256).wellFormed = false ∧ (Instr.ldm .dmRefresh 256).wellFormed = false
    ∧ (Instr.ldm .dmProgressive 2).wellFormed = false ∧ (Instr.ldm .cfgInMode 3).wellFormed = false
    ∧ (Instr.ldm .cfgOutMode 3).wellFormed = false ∧ (Instr.ldm .dviMode 2).wellFormed = false
    ∧ (Instr.ldm .dmClockKhz 0xFFFFFF).wellFormed = true := by decide

theorem test_wf_mode_set : (Instr.modeSet 4 0x57).wellFormed = false
    ∧ (Instr.modeSet 5 0x57).wellFormed = true := by decide

/-- The payload's length and the port (vectors V16, V16e). -/
theorem test_legal_command : legalCommand (.bwr 0x158 5) true [1, 2, 3, 4] = false
    ∧ legalCommand (.rd 0x040) true [1] = false ∧ legalCommand (.rdblk 0 128) false [] = false
    ∧ legalCommand (.rd 0x040) false [] = true ∧ legalCommand .irqDispatch true [] = false := by decide

/-! ## Decoding, one word or more for every constructor (vectors V1 to V16d) -/

theorem test_decode_rd : decode 0b00010001010110000000000000000000 = .ok (.rd 0x158) := by rfl
theorem test_decode_wr : decode 0b00100000110000010000000000000001 = .ok (.wr 0x0C1 0x01) := by rfl
theorem test_decode_upd :
    decode 0b00110000110011010000001100000011 = .ok (.upd 0x0CD 0x03 0x03) := by rfl
theorem test_decode_bwr : decode 0b01000001010110000000000000000101 = .ok (.bwr 0x158 5) := by rfl
theorem test_decode_rdblk :
    decode 0b01010000111111110000000010000000 = .ok (.rdblk 255 128) := by rfl
theorem test_decode_ddc_abort : decode 0x60000000 = .ok .ddcAbort := by rfl
theorem test_decode_irq_dispatch : decode 0x70000000 = .ok .irqDispatch := by rfl
theorem test_decode_hpd_task : decode 0x80000000 = .ok .hpdTask := by rfl
theorem test_decode_ldm : decode 0x90000780 = .ok (.ldm .dmWidth 1920)
    ∧ decode 0x91000438 = .ok (.ldm .dmHeight 1080)
    ∧ decode 0b10010010000000100100010000010100 = .ok (.ldm .dmClockKhz 148500)
    ∧ decode 0x93000000 = .ok (.ldm .dmPixrep 0) ∧ decode 0x9400003C = .ok (.ldm .dmRefresh 60)
    ∧ decode 0x95000001 = .ok (.ldm .dmProgressive 1) ∧ decode 0x96000000 = .ok (.ldm .cfgInMode 0)
    ∧ decode 0x97000002 = .ok (.ldm .cfgOutMode 2) ∧ decode 0x98000000 = .ok (.ldm .dviMode 0) := by
  refine ⟨?_, ?_, ?_, ?_, ?_, ?_, ?_, ?_, ?_⟩ <;> rfl
theorem test_decode_mode_set :
    decode 0b10100000000000000000110101010111 = .ok (.modeSet 13 0x57) := by rfl
theorem test_decode_vid_en : decode 0xB0000000 = .ok .vidEn := by rfl
theorem test_decode_csc_cfg : decode 0xC0000005 = .ok (.cscCfg .itu709 true)
    ∧ decode 0xC0000000 = .ok (.cscCfg .unset false) := ⟨rfl, rfl⟩
theorem test_decode_br_enable : decode 0xD0000000 = .ok .brEnable := by rfl
theorem test_decode_br_disable : decode 0xE0000000 = .ok .brDisable := by rfl

theorem test_decode_refused : decode 0x00000000 = .error .reservedOpcode
    ∧ decode 0xFFFFFFFF = .error .reservedOpcode ∧ decode 0x0ABCDEF0 = .error .reservedOpcode
    ∧ decode 0x11580001 = .error .nonzeroVal ∧ decode 0x1158FF00 = .error .nonzeroMask
    ∧ decode 0x2158FF00 = .error .nonzeroMask ∧ decode 0x51000080 = .error .reservedField
    ∧ decode 0x99000000 = .error .reservedSelector ∧ decode 0xA0010D57 = .error .reservedField
    ∧ decode 0xC0000006 = .error .reservedColorimetry ∧ decode 0xC0000008 = .error .reservedField
    ∧ decode 0x60000001 = .error .reservedField ∧ decode 0xB0000001 = .error .reservedField := by
  refine ⟨?_, ?_, ?_, ?_, ?_, ?_, ?_, ?_, ?_, ?_, ?_, ?_, ?_⟩ <;> rfl

/-- The response word of rule R99 (E3, E5). -/
theorem test_response_word : responseWord ⟨.bankBoundaryViolation, 0⟩ = 0x30000000
    ∧ responseWord ⟨.protocolError, 0⟩ = 0x50000000 ∧ responseWord ⟨.ok, 0x25⟩ = 0x00000025 := by
  decide

/-! ## Register access (vectors of section 3, E1 to E3) -/

/-- E2: from Bank1, `RD 0x030` selects bank 0 first; `RD 0x1BF` needs no select. -/
theorem test_rd_switches : trace (.rd 0x030) (inBank1 State.reset)
      = [.write 0x0F 0x00 true, .read 0x30 (some 0)]
    ∧ trace (.rd 0x1BF) (inBank1 State.reset) = [.read 0xBF (some 0)] := by decide +kernel

/-- V17c: an invalid address, and nothing on the bus. -/
theorem test_rd_invalid : answer (.rd 0x1C0) (inBank1 State.reset) = ⟨.invalidAddress, 0⟩
    ∧ trace (.rd 0xFFF) (inBank1 State.reset) = [] := by decide +kernel

/-- V17b. -/
theorem test_wr_bank1 : trace (.wr 0x150 0x22) State.reset
      = [.write 0x0F 0x01 true, .write 0x50 0x22 true]
    ∧ (after (exec (.wr 0x150 0x22) State.reset)).x.read 0x150 = 0x22
    ∧ (after (exec (.wr 0x150 0x22) State.reset)).ctx.currentBank = .bank1 := by decide +kernel

/-- V17h: the select fails, the shadow stays. -/
theorem test_wr_select_fails :
    answer (.wr 0x150 0x22) (failing [true] State.reset) = ⟨.ioError, 0⟩
    ∧ trace (.wr 0x150 0x22) (failing [true] State.reset) = [.write 0x0F 0x01 false]
    ∧ (after (exec (.wr 0x150 0x22) (failing [true] State.reset))).ctx.currentBank = .bank0 := by
  decide +kernel

/-- V17g: value bits outside the mask are ignored. -/
theorem test_upd_masks : trace (.upd 0x0CD 0x0F 0xA5) { State.reset with x := [(0x0CD, 0xF0)] }
    = [.read 0xCD (some 0xF0), .write 0xCD 0xF5 true] := by decide +kernel

/-- V17e: mask 0 writes the old byte back, and the write is issued. -/
theorem test_upd_mask_zero : trace (.upd 0x0CD 0x00 0xFF) { State.reset with x := [(0x0CD, 0xF0)] }
    = [.read 0xCD (some 0xF0), .write 0xCD 0xF0 true] := by decide +kernel

/-- V18i: from Bank1, an any-bank range that reaches 0x30 selects bank 0 and bursts once. -/
theorem test_bwr_selects_bank0 :
    trace (.bwr 0x028 0x10) (inBank1 (filled (List.replicate 16 7)))
      = [.write 0x0F 0x00 true, .burst 0x28 (List.replicate 16 7) true] := by decide +kernel

/-- E3, V18h, V18b: the boundary, the end before the boundary, the gap under `refuse`. -/
theorem test_bwr_checks :
    answer (.bwr 0x125 20) (filled (List.replicate 20 0)) = ⟨.bankBoundaryViolation, 0⟩
    ∧ answer (.bwr 0x120 0xB0) (filled (List.replicate 0xB0 0)) = ⟨.invalidAddress, 0⟩
    ∧ refusedWith .gapAddress (exec (.bwr 0x0F8 9) (filled (List.replicate 9 0))) = true := by
  decide +kernel

/-! ## DDC engine (vectors of section 4) -/

/-- V21a: a NACK before the read command; the cleanup clear is issued. -/
theorem test_rdblk_pre_error :
    answer (.rdblk 0 128) (scripted [(0x006, 0), (0x016, 0x20)] State.reset) = ⟨.protocolError, 0⟩
    ∧ trace (.rdblk 0 128) (scripted [(0x006, 0), (0x016, 0x20)] State.reset)
      = [.read 0x06 (some 0), .write 0x15 0x09 true, .write 0x15 0x09 true,
          .read 0x16 (some 0x20), .write 0x15 0x09 true] := by decide +kernel

/-- V20f: two chunks, at offsets 0 and 32, of 32 and 1 bytes. -/
theorem test_rdblk_chunks :
    (trace (.rdblk 0 33) (scripted ((0x006, 0) :: List.replicate 4 (0x016, 0x80)
      ++ List.replicate 33 (0x017, 0x5A)) State.reset)).filter (fun op => decide (op.offset = 0x12
        ∨ op.offset = 0x13))
      = [.write 0x12 0 true, .write 0x13 32 true, .write 0x12 32 true, .write 0x13 1 true] := by
  decide +kernel

/-- V22c: iteration 1 is done, iteration 2 still runs; the mode register keeps the host mode. -/
theorem test_ddc_abort_second_runs :
    answer .ddcAbort (scripted ((0x016, 0x80) :: List.replicate 200 (0x016, 0)) State.reset) = ⟨.ok, 0⟩
    ∧ (trace .ddcAbort (scripted ((0x016, 0x80) :: List.replicate 200 (0x016, 0))
      State.reset)).countP (BusOp.isReadAt 0x16) = 201
    ∧ (after (exec .ddcAbort (scripted ((0x016, 0x80) :: List.replicate 200 (0x016, 0))
      State.reset))).x.read 0x010 = 0x01 := by decide +kernel

/-- V22d: an error in both iterations. -/
theorem test_ddc_abort_fails : answer .ddcAbort (scripted [(0x016, 0x20), (0x016, 0x08)] State.reset)
    = ⟨.protocolError, 0⟩ := by decide +kernel

/-! ## Dispatcher and task (vectors of sections 5 and 6) -/

/-- The four status bytes, then the two answers of the acknowledge updates. -/
def statusScript (core stat0 stat1 ext : Byte) : List (Nat × Byte) :=
  [(0x00E, core), (0x006, stat0), (0x007, stat1), (0x0EE, ext), (0x00E, core), (0x00E, core)]

/-- V26 (E6): hotplug alone. -/
theorem test_irq_hotplug :
    trace .irqDispatch (scripted (statusScript 0xC0 0x01 0 0) State.reset)
      = [.read 0x0E (some 0xC0), .read 0x06 (some 0x01), .read 0x07 (some 0), .read 0xEE (some 0),
          .write 0x0C 0x01 true, .read 0x0E (some 0xC0), .write 0x0E 0xC1 true,
          .read 0x0E (some 0xC0), .write 0x0E 0xC0 true]
    ∧ (after (exec .irqDispatch (scripted (statusScript 0xC0 0x01 0 0)
      State.reset))).ctx.hotplugPending = true := by decide +kernel

/-- V29d: the first audio update fails, the second half is still attempted. -/
theorem test_irq_audio_fails :
    ((after (exec .irqDispatch (failing (List.replicate 9 false ++ [true])
      (scripted (statusScript 0 0x80 0 0) State.reset)))).bus.take 3).reverse
      = [.read 0x04 none, .read 0x04 (some 0), .write 0x04 0 true] := by decide +kernel

/-- V34a. -/
theorem test_hpd_connects :
    (after (exec .hpdTask (scripted [(0x00E, 0x40)] State.reset))).events = [.notify .connected]
    ∧ (after (exec .hpdTask (scripted [(0x00E, 0x40)] State.reset))).ctx.connectorStatus
      = .connected := by decide +kernel

/-- V34c: no change, no notification. -/
theorem test_hpd_same :
    (after (exec .hpdTask (scripted [(0x00E, 0xFF)] (withConn .connected State.reset)))).events = []
    := by decide +kernel

/-! ## Bridge sequencer (vectors of section 7) -/

/-- V7. -/
theorem test_ldm_clock :
    (after (exec (.ldm .dmClockKhz 148500) State.reset)).latches.dmClockKhz = 148500
    ∧ trace (.ldm .dmClockKhz 148500) State.reset = [] := by decide +kernel

/-- V16b through the machine: no effect but the response. -/
theorem test_ldm_out_of_range : answer (.ldm .dmPixrep 256) State.reset = ⟨.illegalCommand, 0⟩
    ∧ (after (exec (.ldm .dmPixrep 256) State.reset)).latches.dmPixrep = 0 := by decide +kernel

/-- V40b: a payload of six bytes. -/
theorem test_mode_set_split :
    ((trace (.modeSet 6 0x57) (filled [0, 1, 2, 3, 4, 5])).drop 2).take 4
      = [.write 0x0F 0x01 true, .burst 0x58 [0, 1, 2, 3, 4] true, .burst 0x5E [5] true,
          .write 0x5D 0x57 true] := by decide +kernel

/-- V40e: in DVI mode the mode bit is cleared. -/
theorem test_mode_set_dvi :
    (trace (.modeSet 5 0x57)
      { filled [0, 1, 2, 3, 4] with
        x := [(0x0C0, 0xFF)], ctx := { State.reset.ctx with dviMode := true } }).take 2
      = [.read 0xC0 (some 0xFF), .write 0xC0 0xFE true] := by decide +kernel

/-- The latches of program P3: 1920 x 1080 at 148500 kHz, RGB444 to YUV444. -/
def p3Latches : Latches :=
  { dmWidth := 1920, dmHeight := 1080, dmClockKhz := 148500, dmPixrep := 0, dmRefresh := 60
    dmProgressive := 1, cfgInMode := .rgb444, cfgOutMode := .yuv444 }

/-- Command 10 of program P3 from its VID_EN on: the matrix and the two AFE updates. -/
theorem test_vid_en : ((trace .vidEn { withLatches p3Latches State.reset with
      x := [(0x064, 0x76), (0x070, 0x3F), (0x072, 0x3C)] }).drop 1)
    = [.write 0x70 0x3F true, .burst 0x73 (Params.refMatrix 3) true, .read 0x72 (some 0x3C),
        .write 0x72 0xBE true, .read 0x62 (some 0), .write 0x62 0x80 true, .read 0x64 (some 0x76),
        .write 0x64 0xF6 true] := by decide +kernel

/-- V37a, V37b, V37h, V38c, V38i. -/
theorem test_derivations : highClock { p3Latches with dmClockKhz := 80000 } = false
    ∧ highClock { p3Latches with dmClockKhz := 80001 } = true
    ∧ highClock { p3Latches with dmClockKhz := 16777215, dmPixrep := 255 } = true
    ∧ deriveColorimetry { p3Latches with dmWidth := 640, dmHeight := 480 } = .itu601
    ∧ deriveColorimetry { p3Latches with dmWidth := 0, dmHeight := 0 } = .itu709 := by decide

/-- E8, first half (V39b). -/
theorem test_csc_cfg : trace (.cscCfg .itu709 true) (withLatches p3Latches State.reset)
      = [.burst 0x73 (Params.refMatrix 2) true, .read 0x72 (some 0), .write 0x72 0x82 true]
    ∧ (after (exec (.cscCfg .itu709 true) (withLatches p3Latches State.reset))).ctx.needCsc = true := by
  decide +kernel

/-- E8, second half (V39a). -/
theorem test_csc_cfg_bypass :
    trace (.cscCfg .itu709 true) State.reset = [.read 0x72 (some 0), .write 0x72 0x00 true]
    ∧ (after (exec (.cscCfg .itu709 true) (withCsc State.reset))).ctx.needCsc = false := by
  decide +kernel

/-- V41a on the register values of program P3. -/
theorem test_br_enable : trace .brEnable
      { withCsc State.reset with x := [(0x004, 0x1C), (0x060, 0x1F)] }
    = [.read 0x60 (some 0x1F), .write 0x60 0x0F true, .read 0xCD (some 0), .write 0xCD 0x03 true,
        .read 0x04 (some 0x1C), .write 0x04 0x14 true] := by decide +kernel

/-- V41e: the first update fails, the others are not issued. -/
theorem test_br_enable_stops :
    answer .brEnable (failing [true] (withCsc State.reset)) = ⟨.ioError, 0⟩
    ∧ trace .brEnable (failing [true] (withCsc State.reset)) = [.read 0x60 none] := by decide +kernel

/-- V41d. -/
theorem test_br_disable : trace .brDisable { State.reset with x := [(0x0CD, 0x03)] }
    = [.read 0xCD (some 0x03), .write 0xCD 0x00 true, .read 0x04 (some 0), .write 0x04 0x08 true] := by
  decide +kernel

/-! ## The step -/

/-- `withFetchWord` runs exactly the word placed. -/
theorem test_fetch_word :
    (after (step (State.reset.withFetchWord 32 0x20400011))).x = [(0x040, 0x11)]
    ∧ (after (step (State.reset.withFetchWord 32 0x80000000))).ctx.hotplugPending = false := by
  decide +kernel

/-- V13: an internal operation presented at a port. -/
theorem test_internal_word_refused :
    (after (step (presented 0x70000000 []))).resp = ⟨.illegalCommand, 0⟩ := by decide +kernel

/-- Rule R191: with another turn to come, step A of HPD_TASK is all the turn does; the detect bit is read
in the task's next turn. -/
theorem test_hpd_step_a :
    (after (step (State.reset.setPending.setSched [.run .task, .run .task]))).taskRunning = true
    ∧ (after (step (State.reset.setPending.setSched [.run .task, .run .task]))).ctx.hotplugPending
      = false
    ∧ (after (step (State.reset.setPending.setSched [.run .task, .run .task]))).bus = [] := by
  decide +kernel

/-- The payload of an auxiliary port's command comes with the word; the host's queue and response stay
(rules R90, R255). -/
theorem test_aux_bwr :
    (after (step ({ filled [9] with
        auxPorts := [Port.idle, { Port.idle with inbox := [⟨0x41300002, [7, 8]⟩] }] }.setSched
      [.run (.port (.aux 1))]))).x = [(0x00F, 1), (0x130, 7), (0x131, 8)]
    ∧ (after (step ({ filled [9] with
        auxPorts := [Port.idle, { Port.idle with inbox := [⟨0x41300002, [7, 8]⟩] }] }.setSched
      [.run (.port (.aux 1))]))).payload = [9] := by decide +kernel

/-! ## Witnesses: a state and operands that meet all hypotheses of an obligation together -/

theorem witness_EncodeOfDecodeIsIdentity : decode 0x30CD0303 = .ok (.upd 0x0CD 0x03 0x03) := by rfl

/-- A turn of the host port, with `w` presented there. -/
def hostTurn (w : CmdWord) : State := (presented w []).setSched [.run (.port .host)]

theorem witness_StepRunsDecodedCommand : (hostTurn 0x11580000).idle (.port .host) = true
    ∧ ((hostTurn 0x11580000).port .host).inbox = [⟨0x11580000, []⟩]
    ∧ decode 0x11580000 = .ok (.rd 0x158) ∧ hostMayStart (.rd 0x158) = true
    ∧ (hostTurn 0x11580000).env.sched = [.run (.port .host)] :=
  ⟨by decide, by decide, rfl, by decide, by decide⟩

theorem witness_StepRunsDecodedCommand_alone :
    (presented 0x11580000 []).idle (.port .host) = true
    ∧ ((presented 0x11580000 []).port .host).inbox = [⟨0x11580000, []⟩]
    ∧ decode 0x11580000 = .ok (.rd 0x158) ∧ hostMayStart (.rd 0x158) = true
    ∧ (presented 0x11580000 []).env.sched = []
    ∧ enabledAgents (presented 0x11580000 []) = [.port .host] :=
  ⟨by decide, by decide, rfl, by decide, by decide, by decide⟩

theorem witness_TurnsStartInternalOperations :
    (State.reset.setSched [.run .dispatcher]).env.sched = [.run .dispatcher]
    ∧ (State.reset.setSched [.run .dispatcher]).idle .dispatcher = true
    ∧ (State.reset.setSched [.run .task]).env.sched = [.run .task]
    ∧ (State.reset.setSched [.run .task]).idle .task = true := by decide

/-- All three kinds of word a port refuses. -/
theorem witness_PortsRefuseUndecodableAndInternalWords :
    (∀ w, (hostTurn w).hasPort .host = true
      ∧ (hostTurn w).idle (.port .host) = true ∧ ((hostTurn w).port .host).inbox = [⟨w, []⟩]
      ∧ (hostTurn w).env.sched = [.run (.port .host)])
    ∧ (∃ e, decode 0x00000000 = .error e) ∧ decode 0x70000000 = .ok .irqDispatch
    ∧ decode 0x80000000 = .ok .hpdTask :=
  ⟨fun _ => ⟨rfl, rfl, rfl, rfl⟩, ⟨.reservedOpcode, rfl⟩, rfl, rfl⟩

/-- The same at an auxiliary port. -/
def auxTurn (w : CmdWord) : State :=
  { State.reset with
    auxPorts := [Port.idle, { Port.idle with inbox := [⟨w, [1]⟩] }] }.setSched [.run (.port (.aux 1))]

theorem witness_PortsRefuseUndecodableAndInternalWords_aux : ∀ w,
    (auxTurn w).hasPort (.aux 1) = true ∧ (auxTurn w).idle (.port (.aux 1)) = true
      ∧ ((auxTurn w).port (.aux 1)).inbox = [⟨w, [1]⟩]
      ∧ (auxTurn w).env.sched = [.run (.port (.aux 1))] := fun _ => ⟨rfl, rfl, rfl, rfl⟩

/-- An auxiliary port presenting a host operation, a payload too long, an operand out of range. -/
theorem witness_IllegalOperandsHaveNoEffect :
    (hostMayStart .vidEn = true ∧ { State.reset with active := .aux 1 }.hasPort (.aux 1) = true
      ∧ { State.reset with active := .aux 1 }.idle (.port (.aux 1)) = true
      ∧ auxMayStart .vidEn = false)
    ∧ (hostMayStart (.rd 0x040) = true ∧ (filled [1]).hasPort (filled [1]).active = true
      ∧ (filled [1]).idle (.port (filled [1]).active) = true
      ∧ ((filled [1]).payloadOf (filled [1]).active).length ≠ payloadLength (.rd 0x040))
    ∧ (hostMayStart (.rdblk 0 129) = true ∧ State.reset.hasPort State.reset.active = true
      ∧ State.reset.idle (.port State.reset.active) = true
      ∧ (Instr.rdblk 0 129).wellFormed = false) := by decide

/-- A turn of the host port with another turn after it. -/
def twoTurns : State := (presented 0x11580000 []).setSched [.run (.port .host), .irq true]

theorem witness_ScheduledTurnRunsAtMostOnePrimitive :
    twoTurns.env.sched = [.run (.port .host), .irq true]
    ∧ step twoTurns = .next (after (step twoTurns)) :=
  ⟨by decide, eq_after (by decide +kernel)⟩

/-- The middle of a composite operation: the abort sequence after its first step. -/
def midAbort : State :=
  after (step ((presented 0x60000000 []).setSched [.run (.port .host), .run (.port .host), .run (.port .host)]))

theorem witness_EveryStepKeepsSettled : Settled midAbort ∧ step midAbort = .next (after (step midAbort))
    ∧ midAbort.idle (.port .host) = false := by
  refine ⟨by decide, eq_after (by decide +kernel), by decide⟩

theorem witness_EveryStepKeepsConfiguration : step twoTurns = .next (after (step twoTurns)) :=
  eq_after (by decide +kernel)

/-- A connected display, the task pending and its turn next. -/
def taskTurn : State :=
  (scripted [(0x00E, 0x00)] (withConn .connected State.reset.setPending)).setSched [.run .task]

theorem witness_ConnectorNeverReturnsToUnknown : step taskTurn = .next (after (step taskTurn))
    ∧ taskTurn.ctx.connectorStatus ≠ .unknown :=
  ⟨eq_after (by decide +kernel), by decide⟩

theorem witness_OnlyTheTaskChangesTheConnector : Instr.rd 0x158 ≠ .hpdTask
    ∧ exec (.rd 0x158) State.reset = .next (after (exec (.rd 0x158) State.reset)) :=
  ⟨by decide, eq_after (by decide +kernel)⟩

/-- A given turn that is not the task's, and a free turn with nothing for the task to do. -/
theorem witness_OnlyTaskTurnsChangeTheConnector :
    (OnlyTaskSamples twoTurns ∧ step twoTurns = .next (after (step twoTurns))
      ∧ twoTurns.env.sched = [.run (.port .host), .irq true]
      ∧ Turn.run (.port .host) ≠ .run .task)
    ∧ (OnlyTaskSamples (presented 0x11580000 [])
      ∧ step (presented 0x11580000 []) = .next (after (step (presented 0x11580000 [])))
      ∧ (presented 0x11580000 []).env.sched = []
      ∧ AgentId.task ∉ enabledAgents (presented 0x11580000 [])) := by
  have h : ∀ (s : State), s.hostPort.seq.pos = [] → s.auxPorts = [Port.idle, Port.idle] →
      s.disp.pos = [] → OnlyTaskSamples s := by
    intro s h1 h2 h3 a ha
    have : s.pos a = [] := by
      rcases a with (_ | i) | _ | _
      · exact h1
      · simp only [State.pos, State.seqOf, State.port, h2]
        rcases i with _ | _ | i <;> rfl
      · exact h3
      · exact absurd rfl ha
    simp [this]
  exact ⟨⟨h _ rfl rfl rfl, eq_after (by decide +kernel), rfl, by decide⟩,
    ⟨h _ rfl rfl rfl, eq_after (by decide +kernel), rfl, by decide⟩⟩

/-- A port operation that fails half way, and the two internal ones. -/
theorem witness_EveryOperationEnds :
    (Alone (failing [false, true] State.reset)
      ∧ (failing [false, true] State.reset).ctx.lock = none
      ∧ (failing [false, true] State.reset).idle (agentOf .ddcAbort State.reset) = true
      ∧ exec .ddcAbort (failing [false, true] State.reset)
        = .next (after (exec .ddcAbort (failing [false, true] State.reset))))
    ∧ (Alone (scripted (statusScript 0 0 0 0) State.reset)
      ∧ (scripted (statusScript 0 0 0 0) State.reset).ctx.lock = none
      ∧ (scripted (statusScript 0 0 0 0) State.reset).idle .dispatcher = true
      ∧ exec .irqDispatch (scripted (statusScript 0 0 0 0) State.reset)
        = .next (after (exec .irqDispatch (scripted (statusScript 0 0 0 0) State.reset)))) :=
  ⟨⟨by decide, by decide, by decide, eq_after (by decide +kernel)⟩,
    ⟨by decide, by decide, by decide, eq_after (by decide +kernel)⟩⟩

/-- The first and last address of each region. -/
theorem witness_RdAnswersTheRegister : Fine State.reset
    ∧ ∀ n ∈ [0x000, 0x02F, 0x030, 0x0FF, 0x130, 0x1BF],
      Ready (.rd (BitVec.ofNat 12 n)) State.reset ∧ isRegister n = true := by decide

theorem witness_WrWritesTheRegister : Fine (inBank1 State.reset)
    ∧ ∀ n ∈ [0x000, 0x00F, 0x02F, 0x030, 0x0FF, 0x130, 0x1BF],
      Ready (.wr (BitVec.ofNat 12 n) 0x01) (inBank1 State.reset) ∧ isRegister n = true := by decide

theorem witness_UpdReadsThenWritesTheRegister : Fine State.reset
    ∧ ∀ n ∈ [0x000, 0x02F, 0x030, 0x0FF, 0x130, 0x1BF],
      Ready (.upd (BitVec.ofNat 12 n) 0x0F 0xA5) State.reset ∧ isRegister n = true := by decide

theorem witness_PrimitivesChangeOnlyTheirRegister : Fine State.reset ∧ Memory.wf State.reset.x
    ∧ ∀ a ∈ [0x004, 0x0FF, 0x130, 0x1BF], isRegister a = true ∧ a ≠ State.reset.cfg.bank.addr
      ∧ isPlain State.reset.cfg a = true := by decide

theorem witness_ReadAfterWriteAnswersTheByte : Fine State.reset ∧ Memory.wf State.reset.x
    ∧ ∀ n ∈ [0x004, 0x0FF, 0x130, 0x1BF], Ready (.wr (BitVec.ofNat 12 n) 0x5A) State.reset
      ∧ isRegister n = true ∧ n ≠ State.reset.cfg.bank.addr
      ∧ isPlain State.reset.cfg n = true := by decide

theorem witness_AnyBankAddressesNeverSwitch : (0x02F#12).toNat < 0x30
    ∧ exec (.rd 0x02F) State.reset = .next (after (exec (.rd 0x02F) State.reset))
    ∧ exec (.wr 0x000 1) State.reset = .next (after (exec (.wr 0x000 1) State.reset))
    ∧ exec (.upd 0x02F 1 1) State.reset = .next (after (exec (.upd 0x02F 1 1) State.reset)) :=
  ⟨by decide, eq_after (by decide +kernel), eq_after (by decide +kernel),
    eq_after (by decide +kernel)⟩

theorem witness_InvalidAddressHasNoEffect : ∀ n ∈ [0x1C0, 0xFFF], 0x1C0 ≤ n
    ∧ Ready (.rd (BitVec.ofNat 12 n)) State.reset ∧ Ready (.wr (BitVec.ofNat 12 n) 1) State.reset
    ∧ Ready (.upd (BitVec.ofNat 12 n) 1 1) State.reset := by decide

/-- Single accesses at both ends of bank 1; a range in bank 1, and one that needs bank 0 from the any-bank
region. -/
theorem witness_FailedBankSelectKeepsTheShadow :
    (bankParamsOk State.reset.cfg = true ∧ (failing [true] State.reset).env.fails = [true]
      ∧ Bank.bank1 ≠ State.reset.ctx.currentBank
      ∧ ∀ n ∈ [0x130, 0x1BF], selectNeed (failing [true] State.reset) n = some .bank1
        ∧ Ready (.rd (BitVec.ofNat 12 n)) (failing [true] State.reset)
        ∧ Ready (.wr (BitVec.ofNat 12 n) 1) (failing [true] State.reset)
        ∧ Ready (.upd (BitVec.ofNat 12 n) 1 1) (failing [true] State.reset))
    ∧ (∀ n ∈ [0x100, 0x12F],
        selectNeed (withGap .bank1Window (failing [true] State.reset)) n = some .bank1
        ∧ Ready (.rd (BitVec.ofNat 12 n)) (withGap .bank1Window (failing [true] State.reset))
        ∧ Ready (.wr (BitVec.ofNat 12 n) 1) (withGap .bank1Window (failing [true] State.reset))
        ∧ Ready (.upd (BitVec.ofNat 12 n) 1 1) (withGap .bank1Window (failing [true] State.reset)))
    ∧ (Ready (.bwr 0x130 2) (failing [true] (filled [1, 2])) ∧ rangeCheck 0x130 2 = none
      ∧ selectNeedBulk (failing [true] (filled [1, 2])) 0x130 2 = some .bank1)
    ∧ (Ready (.bwr 0x02F 2) (failing [true] (inBank1 (filled [1, 2]))) ∧ rangeCheck 0x02F 2 = none
      ∧ selectNeedBulk (failing [true] (inBank1 (filled [1, 2]))) 0x02F 2 = some .bank0
      ∧ Bank.bank0 ≠ (inBank1 State.reset).ctx.currentBank)
    ∧ ∀ n ∈ [0x100, 0x12E],
      Ready (.bwr (BitVec.ofNat 12 n) 2) (withGap .bank1Window (failing [true] (filled [1, 2])))
      ∧ rangeCheck n 2 = none
      ∧ selectNeedBulk (withGap .bank1Window (failing [true] (filled [1, 2]))) n 2 = some .bank1 := by
  decide

/-- The transaction that fails is the data transaction, without and after a bank select, and the write of
an UPD. -/
theorem witness_FailedWriteLeavesOldOrNewByte :
    (bankParamsOk State.reset.cfg = true ∧ State.reset.ctx.currentBank = State.reset.hwBank
      ∧ Memory.wf State.reset.x)
    ∧ (∀ c ∈ [(0x00F, [true]), (0x0FF, [true]), (0x130, [false, true]), (0x1BF, [false, true])],
      isRegister c.1 = true
      ∧ (failing c.2 State.reset).env.fails = selectFlags State.reset (needOf c.1) ++ [true]
      ∧ Ready (.rd (BitVec.ofNat 12 c.1)) (failing c.2 State.reset)
      ∧ Ready (.upd (BitVec.ofNat 12 c.1) 1 1) (failing c.2 State.reset)
      ∧ Ready (.wr (BitVec.ofNat 12 c.1) 1) (failing c.2 State.reset))
    ∧ (∀ c ∈ [(0x0FF, [false, true]), (0x130, [false, false, true])],
      (failing c.2 State.reset).env.fails = selectFlags State.reset (needOf c.1) ++ [false, true]
      ∧ Ready (.upd (BitVec.ofNat 12 c.1) 1 1) (failing c.2 State.reset))
    ∧ ∀ c ∈ [(0x0FE, [true]), (0x1BE, [false, true])],
      Ready (.bwr (BitVec.ofNat 12 c.1) 2) (failing c.2 (filled [1, 2])) ∧ rangeCheck c.1 2 = none
      ∧ touchesGap c.1 2 = false ∧ offBanksel State.reset.cfg c.1 2 = true
      ∧ (failing c.2 State.reset).env.fails
        = selectFlags State.reset (bulkBank c.1 2 (needOf c.1)) ++ [true] := by decide

/-- The first and last gap address under each policy; ranges at both ends of the gap, one that starts
below it, and one that starts at the last register of bank 0. -/
theorem witness_GapPolicyDecidesGapAccesses :
    ∀ g ∈ [GapPolicy.refuse, .invalidAddress, .bank1Window],
      Fine (withGap g (filled [1, 2]))
      ∧ (∀ n ∈ [0x100, 0x12F],
        Ready (.rd (BitVec.ofNat 12 n)) (withGap g State.reset)
        ∧ Ready (.wr (BitVec.ofNat 12 n) 0x5A) (withGap g State.reset)
        ∧ Ready (.upd (BitVec.ofNat 12 n) 0x0F 0xA5) (withGap g State.reset)
        ∧ Fine (withGap g State.reset) ∧ 0x100 ≤ n ∧ n < 0x130)
      ∧ ∀ n ∈ [0x0FF, 0x100, 0x12E], Ready (.bwr (BitVec.ofNat 12 n) 2) (withGap g (filled [1, 2]))
        ∧ rangeCheck n 2 = none ∧ touchesGap n 2 = true := by decide

/-- Ranges at the ends of the regions, and across 0x30 (vectors V18a, V18f, V18i). -/
theorem witness_BwrIssuesOneBurst : Fine (filled [1, 2])
    ∧ ∀ n ∈ [0x000, 0x02F, 0x0FE, 0x130, 0x1BE], Ready (.bwr (BitVec.ofNat 12 n) 2) (filled [1, 2])
      ∧ rangeCheck n 2 = none ∧ touchesGap n 2 = false
      ∧ ¬(n ≤ State.reset.cfg.bank.addr ∧ State.reset.cfg.bank.addr < n + 2) := by decide

theorem witness_BwrStoresBytesAscending : Memory.wf State.reset.x
    ∧ ¬(0x1BE ≤ State.reset.cfg.bank.addr ∧ State.reset.cfg.bank.addr < 0x1BE + 2)
    ∧ isPlain State.reset.cfg (0x1BE + 1) = true := by decide

theorem witness_BwrOverTheBankSelectChangesTheBank : Fine (filled [7, 1, 9])
    ∧ Ready (.bwr 0x00E 3) (filled [7, 1, 9]) ∧ 0x00E ≤ State.reset.cfg.bank.addr
    ∧ 0x00E + 3 ≤ 0x30
    ∧ ((filled [7, 1, 9]).payloadOf (filled [7, 1, 9]).active)[State.reset.cfg.bank.addr - 0x00E]?
      = some 1 := by decide

theorem witness_BwrChecksPrecedeAnyTransaction : Ready (.bwr 0x12F 2) (filled [1, 2])
    ∧ rangeCheck 0x12F 2 = some .bankBoundaryViolation ∧ Ready (.bwr 0x1BF 2) (filled [1, 2])
    ∧ rangeCheck 0x1BF 2 = some .invalidAddress ∧ Ready (.bwr 0x1BF 0) State.reset := by decide

/-- Reset meets what the composite operations of the host port ask for. -/
theorem witness_undisturbed : Alone State.reset ∧ Fine State.reset ∧ paramsOk State.reset.cfg = true
    ∧ bulksOffBanksel State.reset.cfg = true ∧ Memory.wf State.reset.x := by decide

theorem witness_DdcAbortCompletes : Ready .ddcAbort State.reset
    ∧ isPlain State.reset.cfg State.reset.cfg.ddc.ddcmAddr = true
    ∧ isPlain State.reset.cfg State.reset.cfg.rst.swrstAddr = true
    ∧ isPlain State.reset.cfg State.reset.cfg.rst.hdcpAddr = true := by decide

theorem witness_DdcAbortIssuesExactlyTwoAborts : Ready .ddcAbort State.reset
    ∧ Params.ref.ddc.cmdAddr < 0x30 ∧ Params.ref.ddc.statAddr < 0x30
    ∧ Params.ref.ddc.ddcmAddr ≠ Params.ref.ddc.cmdAddr
    ∧ Params.ref.ddc.ddcmAddr ≠ Params.ref.ddc.statAddr
    ∧ Params.ref.rst.swrstAddr ≠ Params.ref.ddc.statAddr
    ∧ Params.ref.rst.hdcpAddr ≠ Params.ref.ddc.statAddr := by decide

/-- 400 status bytes, the last of them Done. -/
def longScript : State := scripted (List.replicate 399 (0x016, 0) ++ [(0x016, 0x80)]) State.reset

theorem witness_DdcAbortSucceedsIffAPollIsDone : Ready .ddcAbort longScript ∧ Alone longScript
    ∧ Fine longScript ∧ paramsOk longScript.cfg = true
    ∧ 400 ≤ (longScript.env.scriptOf longScript.cfg.ddc.statAddr).length := by decide +kernel

/-- Error bits with the done bit, the done bit alone, neither, and two bytes that differ in an ignored
bit. -/
theorem witness_DdcAbortSucceedsIffAPollIsDone_sample :
    (0xA0#8 &&& (Params.ref.ddc.stNack ||| Params.ref.ddc.stWaitbus ||| Params.ref.ddc.stArblose) ≠ 0)
    ∧ (0x80#8 &&& (Params.ref.ddc.stNack ||| Params.ref.ddc.stWaitbus ||| Params.ref.ddc.stArblose) = 0
      ∧ 0x80#8 &&& Params.ref.ddc.stDone ≠ 0)
    ∧ (0x02#8 &&& (Params.ref.ddc.stNack ||| Params.ref.ddc.stWaitbus ||| Params.ref.ddc.stArblose) = 0
      ∧ 0x02#8 &&& Params.ref.ddc.stDone = 0)
    ∧ (0x80#8 ^^^ 0x82) &&& (Params.ref.ddc.stDone ||| Params.ref.ddc.stNack
      ||| Params.ref.ddc.stWaitbus ||| Params.ref.ddc.stArblose) = 0 := by decide

/-- Also with the first transaction failing, the mastership write, and the last of the 406. -/
theorem witness_DdcAbortFollowsItsRule : (Ready .ddcAbort longScript ∧ Alone longScript
      ∧ Fine longScript ∧ paramsOk longScript.cfg = true)
    ∧ ∀ k ∈ [0, 3, 405], ∀ s ∈ [failing (List.replicate k false ++ [true]) longScript],
      Ready .ddcAbort s ∧ Alone s ∧ paramsOk s.cfg = true ∧ s.ctx.currentBank = s.hwBank
      ∧ Memory.wf s.x ∧ s.env.fails = List.replicate k false ++ [true]
      ∧ s.bus.length + k < (s.abortAt (.port .host)).2.bus.length := by decide +kernel

theorem witness_RdblkCompletes : Ready (.rdblk 0 0) State.reset ∧ Ready (.rdblk 255 128) State.reset := by
  decide

/-- Two clean chunks: no hang, four Done samples, 33 FIFO bytes. -/
def cleanScript : State :=
  scripted ((0x006, 0) :: List.replicate 4 (0x016, 0x80) ++ List.replicate 33 (0x017, 0x5A)) State.reset

theorem witness_RdblkCleanReadReturnsTheFifoBytes : Ready (.rdblk 0 33) cleanScript
    ∧ Alone cleanScript ∧ Fine cleanScript ∧ paramsOk cleanScript.cfg = true
    ∧ Params.ref.ddc.statAddr ≠ Params.ref.ddc.fifoAddr
    ∧ Params.ref.irq.statAddr.get Params.ref.irq.clearMap.busHang.group ≠ Params.ref.ddc.statAddr
    ∧ Params.ref.irq.statAddr.get Params.ref.irq.clearMap.busHang.group ≠ Params.ref.ddc.fifoAddr
    ∧ (cleanScript.env.scriptOf
        (Params.ref.irq.statAddr.get Params.ref.irq.clearMap.busHang.group)).head? = some 0
    ∧ 0 &&& Params.ref.irq.clearMap.busHang.statusBit = 0
    ∧ 2 * ((33 + 31) / 32) ≤ (cleanScript.env.scriptOf Params.ref.ddc.statAddr).length
    ∧ (∀ b ∈ cleanScript.env.scriptOf Params.ref.ddc.statAddr,
        errorBits Params.ref.ddc b = 0 ∧ b &&& Params.ref.ddc.stDone ≠ 0)
    ∧ cleanScript.env.scriptOf Params.ref.ddc.fifoAddr = List.replicate 33 0x5A ++ []
    ∧ (Params.ref.irq.statAddr.get Params.ref.irq.clearMap.busHang.group < 0x30
      ∧ Params.ref.ddc.hdrAddr < 0x30 ∧ Params.ref.ddc.offAddr < 0x30
      ∧ Params.ref.ddc.cntAddr < 0x30 ∧ Params.ref.ddc.segAddr < 0x30
      ∧ Params.ref.ddc.cmdAddr < 0x30 ∧ Params.ref.ddc.statAddr < 0x30
      ∧ Params.ref.ddc.fifoAddr < 0x30) := by decide +kernel

/-- A bus hang: the read goes through DDC_ABORT. And reads in which a transaction fails: the hang check,
the first FIFO clear, a poll, the last FIFO read. -/
theorem witness_RdblkFollowsItsRule :
    (∀ s ∈ [cleanScript, scripted [(0x006, 0x04), (0x016, 0x80)] State.reset],
      Ready (.rdblk 1 33) s ∧ Alone s ∧ Fine s ∧ paramsOk s.cfg = true)
    ∧ ∀ k ∈ [0, 1, 3, 50], ∀ s ∈ [failing (List.replicate k false ++ [true]) cleanScript],
      Ready (.rdblk 1 33) s ∧ Alone s ∧ paramsOk s.cfg = true
      ∧ isNext (exec (.rdblk 1 33) s) = true ∧ answer (.rdblk 1 33) s = ⟨.ioError, 0⟩
      ∧ (trace (.rdblk 1 33) s).length = k + 1 := by decide +kernel

/-- A NACK in the first poll, and the clean-up that follows it fails. -/
def nackThenFail : State :=
  failing [false, false, false, false, true] (scripted [(0x006, 0), (0x016, 0x20)] State.reset)

/-- A clean first chunk of 32, a NACK in the second sample of the poll before the second chunk's command,
and the clean-up that follows it fails. -/
def laterNackThenFail : State :=
  failing (List.replicate 45 false ++ [true])
    (scripted [(0x006, 0), (0x016, 0x80), (0x016, 0x80), (0x016, 0x00), (0x016, 0x20)] State.reset)

/-- The states of that statement: after the hang check, before the chunk, after the poll. -/
def hangDone (s : State) : State := ({ s with result := [] } : State).hangCheckedAt.2

def chunksDone (segment offset : Nat) (sizes : List Nat) (s : State) : Status × State :=
  ((hangDone s).wrAt 0x015 0x09).chunksAt segment offset sizes

def pollDone (segment offset : Nat) (sizes : List Nat) (s : State) : PollResult × State :=
  ((chunksDone segment offset sizes s).2.wrAt 0x015 0x09).pollAt 200

theorem witness_RdblkCleanupFailureIsAbsorbed :
    (Params.ref.ddc.cmdAddr = 0x015 ∧ Params.ref.ddc.cmdFifoClr = 0x09)
    ∧ ∀ c ∈ [(nackThenFail, 0, 4), (laterNackThenFail, 1, 45)],
      (Ready (.rdblk 1 33) c.1 ∧ Alone c.1 ∧ paramsOk c.1.cfg = true
        ∧ c.1.ctx.currentBank = c.1.hwBank
        ∧ c.1.env.fails = List.replicate c.2.2 false ++ true :: []
        ∧ c.2.1 < (chunkSizes 33).length)
      ∧ ({ c.1 with result := [] } : State).hangCheckedAt.1 = true
      ∧ (chunksDone 0 33 ((chunkSizes 33).take c.2.1) c.1).1 = .ok
      ∧ (pollDone 0 33 ((chunkSizes 33).take c.2.1) c.1).1 = .error 0x20
      ∧ (pollDone 0 33 ((chunkSizes 33).take c.2.1) c.1).2.bus.length ≤ c.1.bus.length + c.2.2
      ∧ c.1.bus.length + c.2.2
        < ((pollDone 0 33 ((chunkSizes 33).take c.2.1) c.1).2.wrAt 0x015 0x09).bus.length
      ∧ answer (.rdblk 1 33) c.1 = ⟨.protocolError, 0⟩
      ∧ (after (exec (.rdblk 1 33) c.1)).result.length = 32 * c.2.1 := by decide +kernel

theorem witness_EdidAddressingNeverTruncates : 128 ≤ 128 ∧ 32 * 3 < 128 := by decide

theorem witness_IrqDispatchCompletes : State.reset.dispRunning = false
    ∧ State.reset.idle .dispatcher = true ∧ State.reset.ctx.lock = none ∧ Alone State.reset
    ∧ Fine State.reset ∧ paramsOk State.reset.cfg = true := by decide

/-- Vector V26 as a state, and the states after each of its four reads. -/
def hotplugScript : State := scripted (statusScript 0xC0 0x01 0 0) State.reset

theorem witness_HotplugOnlyDispatch : hotplugScript.dispRunning = false
    ∧ hotplugScript.idle .dispatcher = true ∧ hotplugScript.ctx.lock = none ∧ Alone hotplugScript
    ∧ Fine hotplugScript ∧ paramsOk hotplugScript.cfg = true
    ∧ (⟨0xC0, 0x01, 0, 0⟩ : PerGroup Byte)
      = { core := hotplugScript.rdValue 0x00E
          stat0 := (hotplugScript.rdAt 0x00E).rdValue 0x006
          stat1 := ((hotplugScript.rdAt 0x00E).rdAt 0x006).rdValue 0x007
          ext := (((hotplugScript.rdAt 0x00E).rdAt 0x006).rdAt 0x007).rdValue 0x0EE }
    ∧ (∀ src ∈ clearOrder, asserted hotplugScript.cfg.irq ⟨0xC0, 0x01, 0, 0⟩ src
        = decide (src = .hotplug)) := by decide +kernel

/-- Receiver sense, FIFO error, audio overflow, video stable, with this ext byte. -/
def fourSources (ext : Byte) : State :=
  scripted [(0x006, 0x92), (0x007, 0x10), (0x0EE, ext)] State.reset

/-- Every source asserted. And dispatches in which a transaction fails: the first status read, the ext
write-back, the read and the write of an acknowledge update, the FIFO clear, a half of the audio pulse, the
last read; with an ext byte of 0x00, the first and the last clear. -/
theorem witness_DispatchFollowsItsRule :
    (∀ s ∈ [hotplugScript, scripted (statusScript 0x00 0x97 0x10 0x05) State.reset],
      s.dispRunning = false ∧ s.idle .dispatcher = true ∧ s.ctx.lock = none ∧ Alone s ∧ Fine s
      ∧ paramsOk s.cfg = true)
    ∧ ∀ c ∈ [(0, 0x05, 19), (8, 0x05, 19), (9, 0x05, 18), (10, 0x05, 19), (13, 0x05, 19),
        (14, 0x05, 18), (18, 0x05, 19), (4, 0x00, 18), (7, 0x00, 18)],
      ∀ s ∈ [failing (List.replicate c.1 false ++ [true]) (fourSources c.2.1)],
        s.dispRunning = false ∧ s.idle .dispatcher = true ∧ s.ctx.lock = none ∧ Alone s
        ∧ paramsOk s.cfg = true ∧ isNext (exec .irqDispatch s) = true
        ∧ (trace .irqDispatch s).length = c.2.2 := by decide +kernel

/-- The task's turn with another one after it, and its next turn. -/
def taskStart : State := State.reset.setPending.setSched [.run .task, .run .task, .irq true]

theorem witness_TaskStartIsAStepOfItsOwn :
    (taskStart.env.sched = [.run .task, .run .task, .irq true] ∧ taskStart.idle .task = true
      ∧ taskStart.ctx.hotplugPending = true ∧ taskStart.taskRunning = false)
    ∧ (after (step taskStart)).setPending.env.sched = [.run .task, .irq true]
    ∧ (after (step taskStart)).setPending.task.pos = taskProgram
    ∧ step (after (step taskStart)).setPending
      = .next (after (step (after (step taskStart)).setPending)) :=
  ⟨by decide, by decide +kernel, by decide +kernel, eq_after (by decide +kernel)⟩

theorem witness_HpdTaskSamplesAndNotifiesOnChange :
    ∀ s ∈ [scripted [(0x00E, 0x40)] State.reset, scripted [(0x00E, 0xBF)] State.reset],
      s.taskRunning = false ∧ s.idle .task = true ∧ s.ctx.lock = none ∧ Alone s ∧ Fine s
      ∧ isRegister s.cfg.irq.hpdDetAddr = true
      ∧ (s.rdValue s.cfg.irq.hpdDetAddr = 0x40 ∨ s.rdValue s.cfg.irq.hpdDetAddr = 0xBF) := by
  decide +kernel

/-- The same configuration with the detect bit in bank 1. -/
def detInBank1 (s : State) : State :=
  { s with cfg := { s.cfg with irq := { s.cfg.irq with hpdDetAddr := 0x190 } } }

/-- The read fails where no select is needed; the select fails; the select completes and the read fails. -/
theorem witness_HpdTaskFailedReadChangesNothing :
    ∀ c ∈ [(failing [true] State.reset, 0), (failing [true] (detInBank1 State.reset), 0),
        (failing [false, true] (detInBank1 State.reset), 1)],
      c.1.taskRunning = false ∧ c.1.idle .task = true ∧ c.1.ctx.lock = none ∧ Alone c.1
      ∧ c.1.env.fails = List.replicate c.2 false ++ true :: []
      ∧ bankParamsOk c.1.cfg = true ∧ c.1.ctx.currentBank = c.1.hwBank
      ∧ isRegister c.1.cfg.irq.hpdDetAddr = true
      ∧ c.1.bus.length + c.2 < (c.1.rdAt c.1.cfg.irq.hpdDetAddr).bus.length := by decide +kernel

/-- The largest value of every selector. -/
theorem witness_LdmLoadsOneLatch : Ready (.ldm .dmWidth 0xFFFF) State.reset
    ∧ Ready (.ldm .dmHeight 0xFFFF) State.reset ∧ Ready (.ldm .dmClockKhz 0xFFFFFF) State.reset
    ∧ Ready (.ldm .dmPixrep 0xFF) State.reset ∧ Ready (.ldm .dmRefresh 0xFF) State.reset
    ∧ Ready (.ldm .dmProgressive 1) State.reset
    ∧ (Ready (.ldm .cfgInMode 2) State.reset
      ∧ [ColorMode.rgb444, .yuv422, .yuv444][2]? = some .yuv444)
    ∧ Ready (.ldm .cfgOutMode 2) State.reset ∧ Ready (.ldm .dviMode 1) State.reset
    ∧ (Instr.ldm .dmPixrep 256).wellFormed = false
    ∧ State.reset.hasPort State.reset.active = true
    ∧ State.reset.idle (.port State.reset.active) = true := by decide

/-- A payload of five bytes, and the longest that stays in bank 1. -/
theorem witness_ModeSetWritesModeInfoframeAndVideo :
    ∀ n ∈ [5, 103], Ready (.modeSet (BitVec.ofNat 8 n) 0x57) (filled (List.replicate n 1))
      ∧ Alone (filled (List.replicate n 1)) ∧ Fine (filled (List.replicate n 1))
      ∧ TargetsOk (filled (List.replicate n 1)) := by decide +kernel

theorem witness_ModeSetOverlongPayloadFails :
    Ready (.modeSet 104 0x57) (filled (List.replicate 104 1))
      ∧ Alone (filled (List.replicate 104 1)) ∧ Fine (filled (List.replicate 104 1))
      ∧ paramsOk (filled (List.replicate 104 1)).cfg = true
      ∧ bulksOffBanksel (filled (List.replicate 104 1)).cfg = true
      ∧ rangeCheck Params.ref.bridge.aviBAddr (104 - 5) = some .invalidAddress := by decide +kernel

theorem witness_VidEnProgramsTheVideoPath : Ready .vidEn State.reset := by decide

/-- 640 x 480 at 60 progressive is in limited range. -/
theorem witness_VideoDerivations : limitedRange
    { p3Latches with dmWidth := 640, dmHeight := 480 } = true := by decide

theorem witness_CscCfgWritesMatrixAndControl :
    ∀ c ∈ [Colorimetry.unset, .itu601, .itu709], ∀ l ∈ [true, false],
      Ready (.cscCfg c l) (withLatches p3Latches State.reset) := by decide

theorem witness_CscCfgBypassAndConversion :
    State.reset.latches.cfgInMode = State.reset.latches.cfgOutMode
    ∧ (withLatches p3Latches State.reset).latches.cfgInMode = .rgb444
    ∧ (withLatches p3Latches State.reset).latches.cfgOutMode = .yuv444 := by decide

theorem witness_BrEnableForcesEnabledBits : Ready .brEnable (withCsc State.reset)
    ∧ Alone (withCsc State.reset) ∧ Fine (withCsc State.reset)
    ∧ paramsOk (withCsc State.reset).cfg = true := by decide

theorem witness_BrDisableForcesDisabledBits : Ready .brDisable (withCsc State.reset)
    ∧ Alone (withCsc State.reset) ∧ Fine (withCsc State.reset)
    ∧ paramsOk (withCsc State.reset).cfg = true := by decide

theorem witness_BrEnableIsIdempotent : (∀ i ∈ [Instr.brEnable, .brDisable], Ready i (withCsc State.reset))
    ∧ Memory.wf (withCsc State.reset).x
    ∧ isPlain Params.ref Params.ref.bridge.clkgateAddr = true
    ∧ isPlain Params.ref Params.ref.bridge.aviCtrlAddr = true
    ∧ isPlain Params.ref Params.ref.rst.swrstAddr = true
    ∧ exec .brEnable (withCsc State.reset) = .next (after (exec .brEnable (withCsc State.reset)))
    ∧ exec .brEnable (after (exec .brEnable (withCsc State.reset)))
      = .next (after (exec .brEnable (after (exec .brEnable (withCsc State.reset)))))
    ∧ exec .brDisable (withCsc State.reset) = .next (after (exec .brDisable (withCsc State.reset)))
    ∧ exec .brDisable (after (exec .brDisable (withCsc State.reset)))
      = .next (after (exec .brDisable (after (exec .brDisable (withCsc State.reset))))) :=
  ⟨by decide, by decide, by decide, by decide, by decide, eq_after (by decide +kernel),
    eq_after (by decide +kernel), eq_after (by decide +kernel), eq_after (by decide +kernel)⟩

/-- All hypotheses of the failing bridge sequence, with the `j`-th step the failing primitive. -/
def bridgeMeets (i : Instr) (s : State) (j k : Nat) : Bool :=
  match (bridgeSteps s i)[j]? with
  | some (.prim p) =>
    decide (Ready i s ∧ Alone s ∧ TargetsOk s ∧ s.ctx.currentBank = s.hwBank ∧ Memory.wf s.x
      ∧ bridgeSteps s i = (bridgeSteps s i).take j ++ .prim p :: (bridgeSteps s i).drop (j + 1)
      ∧ s.env.fails = List.replicate k false ++ [true]
      ∧ (((bridgeSteps s i).take j).foldl State.bridgeStepAt s).bus.length ≤ s.bus.length + k
      ∧ s.bus.length + k
        < ((((bridgeSteps s i).take j).foldl State.bridgeStepAt s).primAt p).bus.length)
  | some (.needCsc _) => false
  | none => false

/-- Failures at the first transaction, at the last, in a bank select, after `need_csc` was assigned and in
the second infoframe block. -/
theorem witness_BridgeSequenceStopsAtFirstError :
    bridgeMeets .brEnable (failing [true] State.reset) 0 0 = true
    ∧ bridgeMeets .brEnable (failing (List.replicate 5 false ++ [true]) (withCsc State.reset)) 2 5 = true
    ∧ bridgeMeets .brDisable (failing (List.replicate 2 false ++ [true]) (withCsc State.reset)) 1 2 = true
    ∧ bridgeMeets (.cscCfg .itu709 true)
      (failing [false, false, true] (withLatches p3Latches State.reset)) 1 2 = true
    ∧ bridgeMeets .vidEn
      (failing (List.replicate 8 false ++ [true]) (withLatches p3Latches State.reset)) 5 8 = true
    ∧ bridgeMeets (.modeSet 6 0x57)
      (failing [false, false, true] (filled [0, 1, 2, 3, 4, 5])) 1 2 = true
    ∧ bridgeMeets (.modeSet 6 0x57)
      (failing [false, false, false, false, true] (filled [0, 1, 2, 3, 4, 5])) 2 4 = true := by
  decide +kernel

end Sys2Proof.Tests
end

section
/-! SUPPORT. One turn of an agent, taken apart once: where positions stand after a write, what a
statement does beside its one primitive, what one step of an agent leaves, and what a turn can be. -/

namespace Sys2Proof.Machine

/-! ## Positions after a write -/

/-- Writing a port that does not exist changes nothing. -/
theorem State.setPort_missing {s : State} {p : PortId} (q : Port) (h : s.hasPort p = false) :
    s.setPort p q = s := by
  cases p with
  | host => cases h
  | aux k =>
    have hk : s.auxPorts.length ≤ k := by simpa [State.hasPort] using h
    simp [State.setPort, List.set_eq_of_length_le hk]

/-- Writing the position of an agent that does not exist changes nothing. -/
theorem State.setPos_missing {s : State} {a : AgentId} (k : List Stmt) (h : s.hasAgent a = false) :
    s.setPos a k = s := by
  cases a with
  | port p => exact State.setPort_missing _ h
  | dispatcher => cases h
  | task => cases h

theorem State.pos_setPos_other (s : State) {a b : AgentId} (k : List Stmt) (h : b ≠ a) :
    (s.setPos a k).pos b = s.pos b := by
  cases a with
  | port p =>
    cases b with
    | port q =>
      have hq : q ≠ p := fun e => h (e ▸ rfl)
      show ((s.setPort p _).port q).seq.pos = _
      rw [State.port_setPort_other s _ hq]
      rfl
    | dispatcher => cases p <;> rfl
    | task => cases p <;> rfl
  | dispatcher =>
    cases b with
    | port q => cases q <;> rfl
    | dispatcher => exact absurd rfl h
    | task => rfl
  | task =>
    cases b with
    | port q => cases q <;> rfl
    | dispatcher => rfl
    | task => exact absurd rfl h

/-- An operation that ended leaves the positions as if its agent's was emptied. -/
theorem pos_endOp (a b : AgentId) (r : Response) (s : State) :
    (endOp a r s).pos b = (s.setPos a []).pos b := by
  cases a with
  | port p =>
    cases b with
    | port q => exact congrArg (fun x : Port => x.seq.pos) (State.closeHost_port _ p q r)
    | dispatcher => cases p <;> rfl
    | task => cases p <;> rfl
  | dispatcher => cases b <;> rfl
  | task => cases b <;> rfl

/-- Taking a command moves no agent. -/
@[simp] theorem State.pos_takeCommand (s : State) (p : PortId) (c : Command) (cs : List Command)
    (b : AgentId) : (s.takeCommand p c cs).pos b = s.pos b := by
  cases b with
  | port q =>
    have hp : (s.takeCommand p c cs).port q = (s.setPort p { s.port p with inbox := cs }).port q := by
      cases p <;> cases q <;> rfl
    show ((s.takeCommand p c cs).port q).seq.pos = _
    rw [hp]
    by_cases hq : q = p
    · subst hq
      cases hh : s.hasPort q with
      | true => rw [State.port_setPort_self s _ hh]; rfl
      | false => rw [State.setPort_missing _ hh]; rfl
    · rw [State.port_setPort_other s _ hq]; rfl
  | dispatcher => cases p <;> rfl
  | task => cases p <;> rfl

/-! ## What taking a command and ending an operation leave alone -/

section
variable (s : State) (p : PortId) (c : Command) (cs : List Command) (a : AgentId) (r : Response)

@[simp] theorem State.takeCommand_cfg : (s.takeCommand p c cs).cfg = s.cfg := by cases p <;> rfl
@[simp] theorem State.takeCommand_x : (s.takeCommand p c cs).x = s.x := by cases p <;> rfl
@[simp] theorem State.takeCommand_hwBank : (s.takeCommand p c cs).hwBank = s.hwBank := by
  cases p <;> rfl
@[simp] theorem State.takeCommand_ctx : (s.takeCommand p c cs).ctx = s.ctx := by cases p <;> rfl
@[simp] theorem State.takeCommand_bus : (s.takeCommand p c cs).bus = s.bus := by cases p <;> rfl
@[simp] theorem State.takeCommand_events : (s.takeCommand p c cs).events = s.events := by
  cases p <;> rfl
@[simp] theorem State.takeCommand_env : (s.takeCommand p c cs).env = s.env := by cases p <;> rfl
@[simp] theorem State.takeCommand_active : (s.takeCommand p c cs).active = p := rfl

@[simp] theorem endOp_x : (endOp a r s).x = s.x := by cases a <;> simp [endOp]
@[simp] theorem endOp_hwBank : (endOp a r s).hwBank = s.hwBank := by cases a <;> simp [endOp]
@[simp] theorem endOp_ctx : (endOp a r s).ctx = s.ctx := by cases a <;> simp [endOp]
@[simp] theorem endOp_bus : (endOp a r s).bus = s.bus := by cases a <;> simp [endOp]
@[simp] theorem endOp_env : (endOp a r s).env = s.env := by cases a <;> simp [endOp]

/-- An operation that ends emits at most a response, never a notification. -/
@[simp] theorem count_notify_endOp (n : ConnStatus) :
    (endOp a r s).events.count (.notify n) = s.events.count (.notify n) := by
  cases a <;> simp [endOp]

end

/-! ## Two relations between the states around a statement -/

/-- The register file, the downstream bank and the bus log are as before. -/
structure BusKept (s t : State) : Prop where
  bus : t.bus = s.bus
  x : t.x = s.x
  hwBank : t.hwBank = s.hwBank

theorem BusKept.trans {s t u : State} (h : BusKept s t) (h' : BusKept t u) : BusKept s u :=
  ⟨h'.bus.trans h.bus, h'.x.trans h.x, h'.hwBank.trans h.hwBank⟩

/-- The connector status and the notifications emitted are as before (rules R29, R194). -/
structure ConnectorKept (s t : State) : Prop where
  status : t.ctx.connectorStatus = s.ctx.connectorStatus
  notified : ∀ c, t.events.count (.notify c) = s.events.count (.notify c)

theorem ConnectorKept.refl (s : State) : ConnectorKept s s := ⟨rfl, fun _ => rfl⟩

theorem ConnectorKept.trans {s t u : State} (h : ConnectorKept s t) (h' : ConnectorKept t u) :
    ConnectorKept s u :=
  ⟨h'.status.trans h.status, fun c => (h'.notified c).trans (h.notified c)⟩

/-- Register traffic touches neither. -/
theorem ConnectorKept.of_bus {n : Nat} {s t : State} (h : BusFrame n s t) : ConnectorKept s t := by
  rw [h.frame]
  exact ⟨rfl, fun _ => rfl⟩

theorem BusKept.endOp (a : AgentId) (r : Response) (s : State) : BusKept s (endOp a r s) :=
  ⟨by simp, by simp, by simp⟩

theorem BusKept.setPos (a : AgentId) (k : List Stmt) (s : State) : BusKept s (s.setPos a k) :=
  ⟨by simp, by simp, by simp⟩

theorem ConnectorKept.endOp (a : AgentId) (r : Response) (s : State) :
    ConnectorKept s (endOp a r s) := ⟨by simp, fun c => by simp⟩

theorem ConnectorKept.setPos (a : AgentId) (k : List Stmt) (s : State) :
    ConnectorKept s (s.setPos a k) := ⟨by simp, fun c => by simp⟩

theorem ConnectorKept.takeCommand (s : State) (p : PortId) (c : Command) (cs : List Command) :
    ConnectorKept s (s.takeCommand p c cs) := ⟨by simp, fun n => by simp⟩

/-! ## The statements of HPD_TASK -/

/-- The two statements that belong to HPD_TASK alone: steps B and C (rule R191). -/
def Stmt.samples : Stmt → Bool
  | .hpdRead => true
  | .hpdUpdate _ => true
  | _ => false

/-- No statement of HPD_TASK is among the statements to come. -/
def SampleFree (k : List Stmt) : Prop := ∀ m ∈ k, m.samples = false

theorem sampleFree_iff (k : List Stmt) :
    SampleFree k ↔ .hpdRead ∉ k ∧ ∀ present, .hpdUpdate present ∉ k := by
  refine ⟨fun h => ⟨fun hm => Bool.noConfusion (h _ hm), fun _ hm => Bool.noConfusion (h _ hm)⟩,
    fun h m hm => ?_⟩
  cases m with
  | hpdRead => exact absurd hm h.1
  | hpdUpdate present => exact absurd hm (h.2 present)
  | _ => rfl

theorem onlyTaskSamples_iff (s : State) :
    OnlyTaskSamples s ↔ ∀ a, a ≠ .task → SampleFree (s.pos a) :=
  forall_congr' fun a => imp_congr_right fun _ => (sampleFree_iff (s.pos a)).symm

@[simp] theorem SampleFree.nil : SampleFree [] := nofun

@[simp] theorem sampleFree_cons (m : Stmt) (k : List Stmt) :
    SampleFree (m :: k) ↔ m.samples = false ∧ SampleFree k := List.forall_mem_cons

@[simp] theorem sampleFree_append (k l : List Stmt) :
    SampleFree (k ++ l) ↔ SampleFree k ∧ SampleFree l := List.forall_mem_append

theorem SampleFree.suffix {k l : List Stmt} (h : SampleFree l) (hk : k <:+ l) : SampleFree k :=
  fun m hm => h m (hk.subset hm)

theorem sampleFree_abortProgram (c : Params) : SampleFree (abortProgram c) := by
  simp [abortProgram, Stmt.samples]

theorem sampleFree_chunkProgram (d : DdcParams) (segment offset remaining : Nat) :
    SampleFree (chunkProgram d segment offset remaining) := by
  simp [chunkProgram, Stmt.samples]

theorem sampleFree_afterPoll (c : Params) (use : PollUse) (r : PollResult) :
    SampleFree (afterPoll c use r) := by
  cases use <;> cases r <;> simp [afterPoll, Stmt.samples]

theorem sampleFree_dispatchProgram (c : Params) : SampleFree (dispatchProgram c) := by
  simp [dispatchProgram, groupOrder, clearOrder, handlerOrder, Stmt.samples]

theorem sampleFree_handlerProgram (c : Params) (h : Handler) : SampleFree (handlerProgram c h) := by
  cases h <;> simp [handlerProgram, abortProgram, Stmt.samples]

theorem sampleFree_modeSetProgram (b : BridgeParams) (csum : Byte) (d : List Byte) :
    SampleFree (modeSetProgram b csum d) := by
  unfold modeSetProgram
  split <;> simp [Stmt.samples]

theorem sampleFree_afeProgram (b : BridgeParams) (high : Bool) : SampleFree (afeProgram b high) := by
  intro m hm
  obtain ⟨r, _, rfl⟩ := List.mem_map.mp hm
  rfl

theorem sampleFree_cscProgram (b : BridgeParams) (inMode outMode : ColorMode) (c : Colorimetry)
    (limited : Bool) : SampleFree (cscProgram b inMode outMode c limited) := by
  unfold cscProgram
  split <;> simp [Stmt.samples]

/-- Every operation a port may start is a command, and none of its statements is one of HPD_TASK (rules
R100, R101). -/
theorem exec_eq_command {i : Instr} (h : hostMayStart i = true) (s : State) :
    ∃ k, SampleFree k ∧ exec i s = command i k s := by
  cases i with
  | irqDispatch => cases h
  | hpdTask => cases h
  | ddcAbort => exact ⟨_, sampleFree_abortProgram s.cfg, rfl⟩
  | modeSet len csum =>
    exact ⟨_, sampleFree_modeSetProgram s.cfg.bridge csum (s.payloadOf s.active), rfl⟩
  | brEnable => exact ⟨enableProgram s.cfg, by simp [enableProgram, Stmt.samples], rfl⟩
  | brDisable => exact ⟨disableProgram s.cfg, by simp [disableProgram, Stmt.samples], rfl⟩
  | _ => exact ⟨[_], by simp [Stmt.samples], rfl⟩

/-! ## What a statement does beside its primitive -/

/-- What the answer of statement `m` may differ in from the state `t` its primitive left: not in the
register file, the bank and the bus log; and where `m` is no statement of HPD_TASK, not in the connector,
and no statement of HPD_TASK comes in its place. -/
structure Beside (m : Stmt) (t : State) (r : StepRes) : Prop where
  bus : r.Leaves (BusKept t)
  connector : m.samples = false → r.Leaves (ConnectorKept t)
  pushed : m.samples = false → ∀ push u, r = .go push u → SampleFree push

theorem Beside.go {m : Stmt} {push : List Stmt} {t u : State} (hb : BusKept t u)
    (hc : ConnectorKept t u) (hp : SampleFree push) : Beside m t (.go push u) :=
  ⟨hb, fun _ => hc, fun _ _ _ he => by cases he; exact hp⟩

theorem Beside.same {m : Stmt} {push : List Stmt} {t : State} (hp : SampleFree push) :
    Beside m t (.go push t) := .go ⟨rfl, rfl, rfl⟩ (.refl t) hp

theorem Beside.ret {m : Stmt} {r : Response} {t : State} : Beside m t (.ret r t) :=
  ⟨⟨rfl, rfl, rfl⟩, fun _ => .refl t, fun _ _ _ he => by cases he⟩

theorem Beside.raise {m : Stmt} {e : Status} {t : State} : Beside m t (.raise e t) :=
  ⟨⟨rfl, rfl, rfl⟩, fun _ => .refl t, fun _ _ _ he => by cases he⟩

/-- A statement of HPD_TASK: only the bus side is claimed. -/
theorem Beside.sample {m : Stmt} {push : List Stmt} {t u : State} (hm : m.samples = true)
    (hb : BusKept t u) : Beside m t (.go push u) :=
  ⟨hb, fun h => absurd (hm.symm.trans h) nofun, fun h => absurd (hm.symm.trans h) nofun⟩

theorem Beside.wait {m : Stmt} {t : State} : Beside m t .wait :=
  ⟨trivial, fun _ => trivial, fun _ _ _ he => by cases he⟩

theorem Beside.stop {m : Stmt} {x : Refusal} {t : State} : Beside m t (.stop x) :=
  ⟨trivial, fun _ => trivial, fun _ _ _ he => by cases he⟩

/-- The statement's answer is all but that of `s`, or of what one primitive of `a` in `s` left. -/
def AtMostOnePrim (a : AgentId) (m : Stmt) (s : State) (o : StepRes) : Prop :=
  ∃ t, Beside m t o ∧ (t = s ∨ ∃ p r, runPrim a p s = some r ∧ r.endState = some t)

theorem AtMostOnePrim.none {a : AgentId} {m : Stmt} {s : State} {o : StepRes} (h : Beside m s o) :
    AtMostOnePrim a m s o := ⟨s, h, .inl rfl⟩

theorem AtMostOnePrim.attempt {a : AgentId} {m : Stmt} {s : State} {p : Prim}
    {k : Byte → State → StepRes} {h : Status → State → StepRes} (hk : ∀ v t, Beside m t (k v t))
    (hh : ∀ e t, Beside m t (h e t)) : AtMostOnePrim a m s (withPrim a p s k h) := by
  unfold withPrim
  split
  · exact .none .wait
  · next v t hr => exact ⟨t, hk v t, .inr ⟨p, _, hr, rfl⟩⟩
  · next e t hr => exact ⟨t, hh e t, .inr ⟨p, _, hr, rfl⟩⟩
  · exact .none .stop

theorem AtMostOnePrim.call {a : AgentId} {m : Stmt} {s : State} {p : Prim}
    {k : Byte → State → StepRes} (hk : ∀ v t, Beside m t (k v t)) :
    AtMostOnePrim a m s (callPrim a p s k) := .attempt hk fun _ _ => .raise

/-- Every statement runs at most one primitive (rules R78, R80). -/
theorem stmtStep_atMostOnePrim (a : AgentId) (m : Stmt) (s : State) :
    AtMostOnePrim a m s (stmtStep a m s) := by
  cases m with
  | rdReturn addr => exact .call fun _ _ => .ret
  | prim p => exact .call fun _ _ => .same .nil
  | tryPrim p => exact .attempt (fun _ _ => .same .nil) fun _ _ => .same .nil
  | fail e => exact .none .raise
  | absorb => exact .none (.same .nil)
  | close => exact .none (.same .nil)
  | load sel value =>
    refine .none (.go ⟨?_, ?_, ?_⟩ ⟨?_, fun c => ?_⟩ .nil)
    · simp
    · simp
    · simp
    · cases sel <;> rfl
    · simp
  | rdblk block length =>
    exact .none (.go ⟨rfl, rfl, rfl⟩ ⟨rfl, fun _ => rfl⟩ (by simp [Stmt.samples]))
  | hangCheck =>
    refine .call fun v t => .same ?_
    split
    · exact sampleFree_abortProgram t.cfg
    · exact .nil
  | chunk segment offset remaining =>
    show AtMostOnePrim a _ s (stepChunk segment offset remaining s)
    unfold stepChunk
    split
    · exact .none (.same .nil)
    · exact .none (.same (sampleFree_chunkProgram _ _ _ _))
  | poll use left =>
    cases left with
    | zero => exact .none (.same (sampleFree_afterPoll _ _ _))
    | succ left =>
      refine .call fun v t => ?_
      split
      · exact .same (sampleFree_afterPoll _ _ _)
      · exact .same (sampleFree_afterPoll _ _ _)
      · split
        · exact .same (sampleFree_afterPoll _ _ _)
        · exact .same (by simp [Stmt.samples])
  | drain left =>
    cases left with
    | zero => exact .none (.same .nil)
    | succ left =>
      refine .call fun v t => .go ⟨rfl, rfl, rfl⟩ ⟨rfl, fun _ => rfl⟩ ?_
      split <;> simp [Stmt.samples]
  | save r => exact .call fun v t => .go ⟨by simp, by simp, by simp⟩ ⟨by simp, fun c => by simp⟩ .nil
  | abortIter left anyDone =>
    cases left with
    | zero =>
      cases anyDone with
      | true => exact .none (.same .nil)
      | false => exact .none .raise
    | succ left => exact .none (.same (by simp [Stmt.samples]))
  | snapRead g =>
    exact .attempt (fun _ _ => .go ⟨rfl, rfl, rfl⟩ ⟨rfl, fun _ => rfl⟩ .nil)
      fun _ _ => .go ⟨rfl, rfl, rfl⟩ ⟨rfl, fun _ => rfl⟩ .nil
  | clearRow src =>
    refine .none (.same ?_)
    split <;> simp [Stmt.samples]
  | extClear =>
    refine .none (.same ?_)
    split <;> simp [Stmt.samples]
  | handler h =>
    show AtMostOnePrim a _ s (stepHandler h s)
    unfold stepHandler
    split
    · split
      · exact .none (.go ⟨rfl, rfl, rfl⟩ ⟨rfl, fun _ => rfl⟩ (sampleFree_handlerProgram _ _))
      · exact .none (.same (sampleFree_handlerProgram _ _))
    · exact .none (.same .nil)
  | hpdRead =>
    exact .attempt (fun _ _ => .sample rfl ⟨rfl, rfl, rfl⟩) fun _ _ => .sample rfl ⟨rfl, rfl, rfl⟩
  | hpdUpdate present => exact .none (.sample rfl ⟨rfl, rfl, rfl⟩)
  | modeBit => exact .call fun _ _ => .same .nil
  | vidEn => exact .none (.same (by simp [Stmt.samples, sampleFree_afeProgram]))
  | inMode => exact .call fun _ _ => .same .nil
  | csc c limited => exact .none (.same (sampleFree_cscProgram _ _ _ _ _))
  | setNeedCsc b => exact .none (.go ⟨rfl, rfl, rfl⟩ ⟨rfl, fun _ => rfl⟩ .nil)
  | gate off =>
    show AtMostOnePrim a _ s (stepGate a off s)
    unfold stepGate
    split
    · exact .call fun _ _ => .same .nil
    · exact .none (.same .nil)

end Sys2Proof.Machine
end

section
/-! SUPPORT. One step of an agent and one whole turn, as the few things each can be. -/

namespace Sys2Proof.Machine

/-! ## One step of an agent -/

/-- Register file, bank and bus log are as before, or as one primitive of `a` in `s` left them. -/
def OnePrim (a : AgentId) (s t : State) : Prop :=
  BusKept s t ∨ ∃ p r w, runPrim a p s = some r ∧ r.endState = some w ∧ BusKept w t

theorem OnePrim.trans {a : AgentId} {s t u : State} (h : OnePrim a s t) (h' : BusKept t u) :
    OnePrim a s u := by
  rcases h with h | ⟨p, r, w, hr, hw, h⟩
  · exact .inl (h.trans h')
  · exact .inr ⟨p, r, w, hr, hw, h.trans h'⟩

theorem StepRes.Leaves.imp {r : StepRes} {P Q : State → Prop} (h : r.Leaves P)
    (hPQ : ∀ t, P t → Q t) : r.Leaves Q := by
  cases r with
  | go push u => exact hPQ u h
  | ret _ u => exact hPQ u h
  | raise _ u => exact hPQ u h
  | wait => trivial
  | stop _ => trivial

theorem stmtStep_onePrim (a : AgentId) (m : Stmt) (s : State) :
    (stmtStep a m s).Leaves (OnePrim a s) := by
  obtain ⟨t, hb, rfl | ⟨p, r, hr, ht⟩⟩ := stmtStep_atMostOnePrim a m s
  · exact hb.bus.imp fun u hu => .inl hu
  · exact hb.bus.imp fun u hu => .inr ⟨p, r, t, hr, ht, hu⟩

theorem PRes.Leaves.endState {α : Type} {r : PRes α} {P : State → Prop} {t : State} (h : r.Leaves P)
    (ht : r.endState = some t) : P t := by
  cases r with
  | ok v u => cases ht; exact h
  | err e u => cases ht; exact h
  | stop x => cases ht

theorem stmtStep_connector (a : AgentId) {m : Stmt} (hm : m.samples = false) (s : State) :
    (stmtStep a m s).Leaves (ConnectorKept s)
      ∧ ∀ push u, stmtStep a m s = .go push u → SampleFree push := by
  obtain ⟨t, hb, ht⟩ := stmtStep_atMostOnePrim a m s
  have hst : ConnectorKept s t := by
    rcases ht with rfl | ⟨p, r, hr, ht⟩
    · exact .refl t
    · exact .of_bus ((runPrim_frame hr).2.endState ht)
  exact ⟨(hb.connector hm).imp fun _ => hst.trans, hb.pushed hm⟩

theorem afterAbsorb_suffix {k k' : List Stmt} (h : afterAbsorb k = some k') : k' <:+ k := by
  induction k with
  | nil => cases h
  | cons m k ih =>
    unfold afterAbsorb at h
    split at h
    · next he => cases he
    · next he => cases he; cases h; exact List.suffix_cons _ _
    · next he => cases he; exact (ih h).trans (List.suffix_cons _ _)

/-- Going on with statements `k` is ending the operation or standing at `k`. -/
theorem resumeWith_cases (a : AgentId) (k : List Stmt) (s : State) :
    (∃ r, resumeWith a k s = endOp a r s) ∨ resumeWith a k s = s.setPos a k := by
  cases k with
  | nil => exact .inl ⟨_, resumeWith_nil a s⟩
  | cons m k => exact .inr (resumeWith_cons a m k s)

/-- Where a step leaves its agent, `u` being what statement `m` left and `k` what was to come: the
operation ended, or the agent stands at the rest of `k`, after what replaced `m` if anything did. -/
def StandsAfter (a : AgentId) (m : Stmt) (k : List Stmt) (s u t : State) : Prop :=
  (∃ r, t = endOp a r u) ∨ ∃ k', t = u.setPos a k'
    ∧ (k' <:+ k ∨ ∃ push, stmtStep a m s = .go push u ∧ k' = push ++ k)

theorem StandsAfter.busKept {a : AgentId} {m : Stmt} {k : List Stmt} {s u t : State}
    (h : StandsAfter a m k s u t) : BusKept u t := by
  rcases h with ⟨r, rfl⟩ | ⟨k', rfl, _⟩
  · exact .endOp a r u
  · exact .setPos a k' u

theorem StandsAfter.connectorKept {a : AgentId} {m : Stmt} {k : List Stmt} {s u t : State}
    (h : StandsAfter a m k s u t) : ConnectorKept u t := by
  rcases h with ⟨r, rfl⟩ | ⟨k', rfl, _⟩
  · exact .endOp a r u
  · exact .setPos a k' u

theorem StandsAfter.env {a : AgentId} {m : Stmt} {k : List Stmt} {s u t : State}
    (h : StandsAfter a m k s u t) : t.env = u.env := by
  rcases h with ⟨r, rfl⟩ | ⟨k', rfl, _⟩
  · exact endOp_env u a r
  · exact State.setPos_env u a k'

/-- A step of an agent is nothing (idle, or waiting), or its statement and where that leaves it. -/
theorem tick_stands {a : AgentId} {s t : State} (h : tick a s = .next t) :
    t = s ∨ ∃ m k u, s.pos a = m :: k ∧ StmtFrame s u
      ∧ (∀ P, (stmtStep a m s).Leaves P → P u) ∧ StandsAfter a m k s u t := by
  rcases tick_cases h with h | ⟨m, k, u, hp, hf, hu⟩
  · exact .inl h
  · refine .inr ⟨m, k, u, hp, hf, ?_⟩
    rcases hu with ⟨push, he, rfl⟩ | ⟨r, he, rfl⟩ | ⟨e, he, rfl⟩
    · refine ⟨fun P hP => by rwa [he] at hP, ?_⟩
      rcases resumeWith_cases a (push ++ k) u with ⟨r, hr⟩ | hr
      · exact .inl ⟨r, hr⟩
      · exact .inr ⟨_, hr, .inr ⟨push, he, rfl⟩⟩
    · exact ⟨fun P hP => by rwa [he] at hP, .inl ⟨r, rfl⟩⟩
    · refine ⟨fun P hP => by rwa [he] at hP, ?_⟩
      unfold raiseError
      split
      · next k' hk =>
        rcases resumeWith_cases a k' u with ⟨r, hr⟩ | hr
        · exact .inl ⟨r, hr⟩
        · exact .inr ⟨_, hr, .inl (afterAbsorb_suffix hk)⟩
      · exact .inl ⟨_, rfl⟩

/-- A step of an agent runs at most one primitive, at most three transactions, and takes no turn (rules
R80, R82). -/
theorem tick_onePrim {a : AgentId} {s t : State} (h : tick a s = .next t) :
    OnePrim a s t ∧ t.env.sched = s.env.sched ∧ ∃ l, l.length ≤ 3 ∧ t.bus = l ++ s.bus := by
  rcases tick_stands h with rfl | ⟨m, k, u, _, hf, hl, ht⟩
  · exact ⟨.inl ⟨rfl, rfl, rfl⟩, rfl, [], by simp, rfl⟩
  · refine ⟨(hl _ (stmtStep_onePrim a m s)).trans ht.busKept, ?_, ?_⟩
    · rw [ht.env, hf.sched]
    · rw [ht.busKept.bus]
      exact hf.log

/-! ## Nobody but the task is inside HPD_TASK -/

theorem sampleFree_pos_setPos {a b : AgentId} {k : List Stmt} {s : State} (hk : b = a → SampleFree k)
    (h : SampleFree (s.pos b)) : SampleFree ((s.setPos a k).pos b) := by
  by_cases hb : b = a
  · subst hb
    cases ha : s.hasAgent b with
    | true => rw [State.pos_setPos_self s k ha]; exact hk rfl
    | false => rwa [State.setPos_missing k ha]
  · rwa [State.pos_setPos_other s k hb]

/-- Writing the position of the task, or a position without statements of HPD_TASK. -/
theorem OnlyTaskSamples.setPos {s : State} (h : OnlyTaskSamples s) {a : AgentId} {k : List Stmt}
    (hk : a ≠ .task → SampleFree k) : OnlyTaskSamples (s.setPos a k) := by
  rw [onlyTaskSamples_iff] at h ⊢
  exact fun b hb => sampleFree_pos_setPos (fun e => hk (e ▸ hb)) (h b hb)

/-- Only the positions count. -/
theorem OnlyTaskSamples.of_pos {s t : State} (h : OnlyTaskSamples s)
    (hp : ∀ a, a ≠ .task → t.pos a = s.pos a) : OnlyTaskSamples t :=
  fun a ha => hp a ha ▸ h a ha

theorem OnlyTaskSamples.endOp {s : State} (h : OnlyTaskSamples s) (a : AgentId) (r : Response) :
    OnlyTaskSamples (endOp a r s) :=
  (h.setPos (k := []) fun _ => .nil).of_pos fun b _ => pos_endOp a b r s

/-- A step of any agent keeps every other agent out of HPD_TASK; a step that is not the task's leaves the
connector alone. -/
theorem tick_connector {a : AgentId} {s t : State} (h : OnlyTaskSamples s)
    (ht : tick a s = .next t) : OnlyTaskSamples t ∧ (a ≠ .task → ConnectorKept s t) := by
  rcases tick_stands ht with rfl | ⟨m, k, u, hp, hf, hl, hst⟩
  · exact ⟨h, fun _ => .refl t⟩
  · have hm : a ≠ .task → m.samples = false ∧ SampleFree k := fun ha => by
      have := (onlyTaskSamples_iff s).mp h a ha
      rwa [hp, sampleFree_cons] at this
    have hu : OnlyTaskSamples u := h.of_pos fun b _ => hf.pos b
    refine ⟨?_, fun ha => (hl _ (stmtStep_connector a (hm ha).1 s).1).trans hst.connectorKept⟩
    rcases hst with ⟨r, rfl⟩ | ⟨k', rfl, hk⟩
    · exact hu.endOp a r
    · refine hu.setPos fun ha => ?_
      rcases hk with hk | ⟨push, he, rfl⟩
      · exact (hm ha).2.suffix hk
      · exact (sampleFree_append _ _).mpr
          ⟨(stmtStep_connector a (hm ha).1 s).2 push u he, (hm ha).2⟩

/-! ## One turn of an agent -/

/-- The start of an internal operation is all that happens, or, with no turn left, its run follows. -/
theorem startInternal_cases {a : AgentId} {s t : State} (h : startInternal a s = .next t) :
    t = s ∨ s.env.sched = [] ∧ ∃ n, drive a n s = .next t := by
  unfold startInternal at h
  split at h
  · next hg =>
    simp only [goesOn, Bool.and_eq_true, List.isEmpty_iff] at hg
    exact .inr ⟨hg.1.2, _, h⟩
  · cases h
    exact .inl rfl

/-- What a turn of an agent can be: nothing, a command refused, the run of an operation in progress or of
a command just taken, or the start of an internal operation. -/
inductive Served (s : State) : AgentId → State → Prop
  | nothing (a : AgentId) : Served s a s
  | refused (p : PortId) (c : Command) (cs : List Command) :
    Served s (.port p) (illegalCommand p (s.takeCommand p c cs))
  | resumed {a : AgentId} {n : Nat} {t : State} (h : drive a n s = .next t) : Served s a t
  | command {p : PortId} {c : Command} {cs : List Command} {k : List Stmt} {n : Nat} {t : State}
    (hk : SampleFree k)
    (h : drive (.port p) n ((s.takeCommand p c cs).setPos (.port p) k) = .next t) :
    Served s (.port p) t
  | dispatch {t : State}
    (h : startInternal .dispatcher (s.enterDispatch (dispatchProgram s.cfg)) = .next t) :
    Served s .dispatcher t
  | task {t : State} (h : startInternal .task (s.enterTask taskProgram) = .next t) : Served s .task t

/-- An idle port's turn (rules R90, R100). -/
theorem acceptCommand_served {p : PortId} {s t : State} (hid : s.idle (.port p) = true)
    (h : acceptCommand p s = .next t) : Served s (.port p) t := by
  unfold acceptCommand at h
  split at h
  · cases h
    exact .nothing _
  · next c cs _ =>
    unfold runCommand at h
    split at h
    · cases h
      exact .refused p c cs
    · next i _ =>
      split at h
      · next hi =>
        obtain ⟨k, hk, he⟩ := exec_eq_command hi (s.takeCommand p c cs)
        have hid' : (s.takeCommand p c cs).idle (.port p) = true := by simpa [State.idle] using hid
        rw [he] at h
        unfold Machine.command at h
        split at h
        · split at h
          · exact .command hk h
          · cases h
            exact .refused p c cs
        · next hn => exact absurd hid' hn
      · cases h
        exact .refused p c cs

/-- A turn of an agent, taken apart. -/
theorem serve_served {a : AgentId} {s t : State} (h : serve a s = .next t) : Served s a t := by
  unfold serve at h
  split at h
  · next hid =>
    cases a with
    | port p => exact acceptCommand_served hid h
    | dispatcher =>
      simp only [startAgent, exec, execIrqDispatch] at h
      split at h
      · split at h
        · cases h; exact .nothing _
        · exact .dispatch h
      · cases h; exact .nothing _
    | task =>
      simp only [startAgent, exec, execHpdTask] at h
      split at h
      · split at h
        · cases h; exact .nothing _
        · exact .task h
      · cases h; exact .nothing _
  · exact .resumed h

end Sys2Proof.Machine
end

section
/-! SUPPORT. The statements on who moves in a step: what a turn may touch, and when. -/

namespace Sys2Proof.Machine

/-! ## The connector changes in the task's turns only -/

/-- A run of any agent keeps every other agent out of HPD_TASK; one that is not the task's leaves the
connector alone. -/
theorem drive_connector {a : AgentId} {n : Nat} {s t : State} (h : OnlyTaskSamples s)
    (ht : drive a n s = .next t) : OnlyTaskSamples t ∧ (a ≠ .task → ConnectorKept s t) := by
  refine drive_keeps (P := fun u => OnlyTaskSamples u ∧ (a ≠ .task → ConnectorKept s u))
    (fun u v hu hv => ?_) ⟨h, fun _ => .refl s⟩ ht
  obtain ⟨hov, hcv⟩ := tick_connector hu.1 hv
  exact ⟨hov, fun ha => (hu.2 ha).trans (hcv ha)⟩

theorem startInternal_connector {a : AgentId} {s t : State} (h : OnlyTaskSamples s)
    (ht : startInternal a s = .next t) : OnlyTaskSamples t ∧ (a ≠ .task → ConnectorKept s t) := by
  rcases startInternal_cases ht with rfl | ⟨_, n, hd⟩
  · exact ⟨h, fun _ => .refl t⟩
  · exact drive_connector h hd

/-- The same of a whole turn. -/
theorem serve_connector {a : AgentId} {s t : State} (h : OnlyTaskSamples s)
    (ht : serve a s = .next t) : OnlyTaskSamples t ∧ (a ≠ .task → ConnectorKept s t) := by
  cases serve_served ht with
  | nothing => exact ⟨h, fun _ => .refl s⟩
  | refused p c cs =>
    have hc : OnlyTaskSamples (s.takeCommand p c cs) := h.of_pos fun b _ => by simp
    exact ⟨hc.endOp (.port p) _,
      fun _ => (ConnectorKept.takeCommand s p c cs).trans (.endOp (.port p) _ _)⟩
  | resumed hd => exact drive_connector h hd
  | @command p c cs k n _ hk hd =>
    have hc : OnlyTaskSamples (s.takeCommand p c cs) := h.of_pos fun b _ => by simp
    obtain ⟨ho, hct⟩ := drive_connector (hc.setPos fun _ => hk) hd
    exact ⟨ho, fun ha => ((ConnectorKept.takeCommand s p c cs).trans (.setPos _ k _)).trans (hct ha)⟩
  | dispatch hd =>
    have he : OnlyTaskSamples (s.enterDispatch (dispatchProgram s.cfg)) :=
      (h.setPos (a := .dispatcher) fun _ => sampleFree_dispatchProgram s.cfg).of_pos
        fun b _ => State.pos_congr rfl rfl rfl rfl b
    obtain ⟨ho, hct⟩ := startInternal_connector he hd
    exact ⟨ho, fun ha => ConnectorKept.trans (t := s.enterDispatch _) ⟨rfl, fun _ => rfl⟩ (hct ha)⟩
  | task hd =>
    have he : OnlyTaskSamples (s.enterTask taskProgram) :=
      (h.setPos (a := .task) fun ha => absurd rfl ha).of_pos
        fun b _ => State.pos_congr rfl rfl rfl rfl b
    exact ⟨(startInternal_connector he hd).1, fun ha => absurd rfl ha⟩

/-- A free turn is nobody's, or it is the turn of an enabled agent, before which at most a draw was
counted (rules R28, R252). -/
theorem freeTurn_cases {s t : State} (h : freeTurn s = .next t) :
    t = s ∨ ∃ a u, a ∈ enabledAgents s ∧ (u = s ∨ u = s.drawn) ∧ serve a u = .next t := by
  unfold freeTurn at h
  split at h
  · cases h
    exact .inl rfl
  · next a he => exact .inr ⟨a, s, by simp [he], .inl rfl, h⟩
  · next a as _ he =>
    refine .inr ⟨_, _, ?_, .inr rfl, h⟩
    rw [he, List.getD_eq_getElem _ _ (Nat.mod_lt _ (by simp))]
    exact List.getElem_mem _

/-- The same of a turn served in a state `u` that stands where `s` does. -/
theorem serve_connector_from {a : AgentId} {s u t : State} (h : OnlyTaskSamples s)
    (hp : ∀ b, u.pos b = s.pos b) (hc : ConnectorKept s u) (ht : serve a u = .next t) :
    OnlyTaskSamples t ∧ (a ≠ .task → ConnectorKept s t) := by
  obtain ⟨ho, hct⟩ := serve_connector (h.of_pos fun b _ => hp b) ht
  exact ⟨ho, fun ha => hc.trans (hct ha)⟩

/-- A step that is not the task's: a given turn of another, or a free turn while the task has nothing to
do. -/
def NotTheTasks (s : State) : Prop :=
  (∃ a rest, s.env.sched = a :: rest ∧ a ≠ .run .task)
    ∨ (s.env.sched = [] ∧ AgentId.task ∉ enabledAgents s)

theorem step_connector {s t : State} (h : OnlyTaskSamples s) (ht : step s = .next t) :
    OnlyTaskSamples t ∧ (NotTheTasks s → ConnectorKept s t) := by
  unfold step advance at ht
  split at ht
  · next hs =>
    rcases freeTurn_cases ht with rfl | ⟨a, u, ha, hu, hv⟩
    · exact ⟨h, fun _ => .refl t⟩
    · have hpc : (∀ b, u.pos b = s.pos b) ∧ ConnectorKept s u := by
        rcases hu with rfl | rfl
        · exact ⟨fun _ => rfl, .refl u⟩
        · exact ⟨State.pos_congr rfl rfl rfl rfl, rfl, fun _ => rfl⟩
      obtain ⟨ho, hct⟩ := serve_connector_from h hpc.1 hpc.2 hv
      refine ⟨ho, fun hn => hct ?_⟩
      rcases hn with ⟨b, rest, hb, _⟩ | ⟨_, hn⟩
      · exact absurd (hs.symm.trans hb) nofun
      · exact fun e => hn (e ▸ ha)
  · next b rest hs =>
    have hp : ∀ c, (s.setSched rest).pos c = s.pos c := State.pos_congr rfl rfl rfl rfl
    have hc : ConnectorKept s (s.setSched rest) := ⟨rfl, fun _ => rfl⟩
    cases b with
    | run a =>
      obtain ⟨ho, hct⟩ := serve_connector_from h hp hc ht
      refine ⟨ho, fun hn => hct ?_⟩
      rcases hn with ⟨b, _, hb, hne⟩ | ⟨he, _⟩
      · exact fun e => hne (by rw [e] at hs; exact (List.cons.inj (hb.symm.trans hs)).1)
      · exact absurd (he.symm.trans hs) nofun
    | irq level =>
      cases ht
      exact ⟨h.of_pos fun b _ => State.pos_congr rfl rfl rfl rfl b, fun _ => ⟨rfl, fun _ => rfl⟩⟩
    | detach => cases ht

/-- Settles O16: a turn only moves its own agent, and a statement outside HPD_TASK neither writes the
connector nor unfolds into one of HPD_TASK. -/
theorem onlyTaskTurnsChangeTheConnector : Obligations.OnlyTaskTurnsChangeTheConnector := by
  intro s t h ht
  obtain ⟨ho, hc⟩ := step_connector h ht
  exact ⟨ho, fun hn => ⟨(hc hn).status, (hc hn).notified⟩⟩

/-! ## A scheduled turn runs at most one primitive -/

/-- With a turn still scheduled, a run is at most one step of its agent. -/
theorem drive_scheduled {a : AgentId} {n : Nat} {s t : State} (hs : s.env.sched ≠ [])
    (h : drive a n s = .next t) : t = s ∨ tick a s = .next t := by
  cases n with
  | zero => cases h; exact .inl rfl
  | succ n =>
    unfold drive at h
    split at h
    · next u hu =>
      have hg : goesOn a u = false := by simp [goesOn, (tick_onePrim hu).2.1, hs]
      rw [hg] at h
      cases h
      exact .inr hu
    · cases h
    · cases h

/-- What a primitive, run in `u`, may look at is as in `s`. -/
structure SameView (s u : State) : Prop where
  cfg : u.cfg = s.cfg
  bus : BusKept s u
  ctx : u.ctx = s.ctx
  env : u.env = s.env

/-- What one turn with another after it may leave: no further turn was taken, at most one primitive of the
agent ran, and at most three transactions were issued (rules R80, R82). -/
structure OneTurn (s t : State) : Prop where
  sched : t.env.sched = s.env.sched
  prim : BusKept s t ∨ ∃ a u, SameView s u ∧ OnePrim a u t
  log : ∃ l, l.length ≤ 3 ∧ t.bus = l ++ s.bus

theorem OneTurn.of_busKept {s t : State} (hs : t.env.sched = s.env.sched) (h : BusKept s t) :
    OneTurn s t := ⟨hs, .inl h, [], by simp, h.bus⟩

theorem OneTurn.of_drive {a : AgentId} {n : Nat} {s u t : State} (hs : s.env.sched ≠ [])
    (hu : SameView s u) (h : drive a n u = .next t) : OneTurn s t := by
  rcases drive_scheduled (hu.env.symm ▸ hs) h with rfl | ht
  · exact .of_busKept (congrArg Env.sched hu.env) hu.bus
  · obtain ⟨hp, hsc, hl⟩ := tick_onePrim ht
    exact ⟨hsc.trans (congrArg Env.sched hu.env), .inr ⟨a, u, hu, hp⟩, hu.bus.bus ▸ hl⟩

theorem serve_oneTurn {a : AgentId} {s t : State} (hs : s.env.sched ≠ [])
    (h : serve a s = .next t) : OneTurn s t := by
  cases serve_served h with
  | nothing => exact .of_busKept rfl ⟨rfl, rfl, rfl⟩
  | refused p c cs =>
    unfold illegalCommand
    exact .of_busKept (by simp) ⟨by simp, by simp, by simp⟩
  | resumed hd => exact .of_drive hs ⟨rfl, ⟨rfl, rfl, rfl⟩, rfl, rfl⟩ hd
  | command hk hd => exact .of_drive hs ⟨by simp, ⟨by simp, by simp, by simp⟩, by simp, by simp⟩ hd
  | dispatch hd =>
    rcases startInternal_cases hd with rfl | ⟨he, _⟩
    · exact .of_busKept rfl ⟨rfl, rfl, rfl⟩
    · exact absurd he hs
  | task hd =>
    rcases startInternal_cases hd with rfl | ⟨he, _⟩
    · exact .of_busKept rfl ⟨rfl, rfl, rfl⟩
    · exact absurd he hs

theorem takeTurn_oneTurn {b : Turn} {s t : State} (hs : s.env.sched ≠ [])
    (h : takeTurn b s = .next t) : OneTurn s t := by
  cases b with
  | run a => exact serve_oneTurn hs h
  | irq level => cases h; exact .of_busKept rfl ⟨rfl, rfl, rfl⟩
  | detach => cases h

/-- Settles O9: with another turn scheduled an agent runs one statement, and a statement runs at most one
primitive. -/
theorem scheduledTurnRunsAtMostOnePrimitive : Obligations.ScheduledTurnRunsAtMostOnePrimitive := by
  intro s t b c rest hs ht
  have ht' : takeTurn b (s.setSched (c :: rest)) = .next t := by
    simpa only [step, advance, hs] using ht
  obtain ⟨hsc, hp, hl⟩ := takeTurn_oneTurn (by simp) ht'
  refine ⟨by simpa using hsc, ?_, hl⟩
  rcases hp with hk | ⟨a, u, hu, hk | ⟨p, r, w, hr, hw, hk⟩⟩
  · exact .inl ⟨hk.bus, hk.x, hk.hwBank⟩
  · have hsk := hu.bus.trans hk
    exact .inl ⟨hsk.bus, hsk.x, hsk.hwBank⟩
  · exact .inr ⟨a, p, u, w, r, hu.cfg, hu.bus.x, hu.bus.hwBank, hu.ctx,
      (congrArg Env.fails hu.env :), (congrArg Env.answers hu.env :), hu.bus.bus, hr, hw, hk.bus,
      hk.x, hk.hwBank⟩

/-! ## Step A of HPD_TASK -/

/-- The task's turn while it is idle, triggered, and another turn is scheduled: step A and nothing else
(rules R190 to R192). -/
theorem serve_task_start {s : State} (hs : s.env.sched ≠ []) (hid : s.idle .task = true)
    (hp : s.ctx.hotplugPending = true) (hr : s.taskRunning = false) :
    serve .task s = .next (s.enterTask taskProgram) := by
  have hg : goesOn .task (s.enterTask taskProgram) = false := by simp [goesOn, hs]
  simp [serve, hid, startAgent, taskTriggered, hp, hr, exec, execHpdTask, startInternal, hg]

/-- The task executor stands at step B, C or D of HPD_TASK (rule R191). -/
def InTaskRun (s : State) : Prop :=
  ∃ present, s.task.pos ∈ [taskProgram, [.hpdUpdate present, .close], [.close]]

/-- A run of HPD_TASK is in progress or over, and the pending flag is at `b`. -/
structure TaskRun (b : Bool) (s : State) : Prop where
  pos : s.task.pos = [] ∨ InTaskRun s
  pending : s.ctx.hotplugPending = b

theorem taskRun_endOp {b : Bool} {s : State} (r : Response) (hb : s.ctx.hotplugPending = b) :
    TaskRun b (endOp .task r s) := ⟨.inl rfl, hb⟩

theorem taskRun_close {b : Bool} {s : State} (hb : s.ctx.hotplugPending = b) :
    TaskRun b (s.setPos .task [.close]) := ⟨.inr ⟨true, by simp [State.setPos, State.setSeq]⟩, hb⟩

theorem taskRun_update {b : Bool} {s : State} (present : Bool) (hb : s.ctx.hotplugPending = b) :
    TaskRun b (s.setPos .task [.hpdUpdate present, .close]) :=
  ⟨.inr ⟨present, by simp [State.setPos, State.setSeq]⟩, hb⟩

theorem BusFrame.pending {n : Nat} {s t : State} (h : BusFrame n s t) :
    t.ctx.hotplugPending = s.ctx.hotplugPending := by rw [h.frame]

/-- Step B leads to step C, or past it where the read failed, and does not touch the flag (rules R191,
R196). -/
theorem tick_hpdRead {b : Bool} {s t : State} (hp : s.task.pos = taskProgram)
    (hb : s.ctx.hotplugPending = b) (h : tick .task s = .next t) : TaskRun b t := by
  have hk : s.pos .task = [.hpdRead, .close] := hp
  simp only [tick, hk, stmtStep, stepHpdRead, withPrim] at h
  split at h
  · cases h
    exact ⟨.inr ⟨true, by simp [hp]⟩, hb⟩
  · next v u hr =>
    cases h
    exact taskRun_update _ ((runPrim_frame hr).2.pending.trans hb)
  · next e u hr =>
    cases h
    exact taskRun_close ((runPrim_frame hr).2.pending.trans hb)
  · cases h

/-- No step of a started run touches the flag, and the run stays one. -/
theorem tick_taskRun {b : Bool} {s t : State} (hs : TaskRun b s) (h : tick .task s = .next t) :
    TaskRun b t := by
  obtain ⟨hp | ⟨present, hp⟩, hb⟩ := hs
  · have hk : s.pos .task = [] := hp
    simp only [tick, hk] at h
    cases h
    exact ⟨.inl hp, hb⟩
  · simp only [List.mem_cons, List.not_mem_nil, or_false] at hp
    rcases hp with hp | hp | hp
    · exact tick_hpdRead hp hb h
    · rw [tick_go (a := .task) (push := []) (u := s.updateConnector (connOf present)) hp rfl] at h
      cases h
      exact taskRun_close hb
    · rw [tick_go (a := .task) (push := []) (u := s) hp rfl] at h
      cases h
      exact taskRun_endOp ⟨.ok, 0⟩ hb

/-- Settles O47: step A is the whole turn where another is scheduled, and the statements after it never
write the pending flag. -/
theorem taskStartIsAStepOfItsOwn : Obligations.TaskStartIsAStepOfItsOwn := by
  intro s rest hs
  have hstep : step s = serve .task (s.setSched rest) := by simp only [step, advance, hs, takeTurn]
  rw [hstep]
  refine ⟨fun b more hr hid hp hrun => ?_, fun t hin ht => ?_⟩
  · exact ⟨_, serve_task_start (s := s.setSched rest) (by simp [hr]) hid hp hrun, rfl, rfl⟩
  · have hid : (s.setSched rest).idle .task = false := by
      obtain ⟨present, hin⟩ := hin
      simp only [List.mem_cons, List.not_mem_nil, or_false] at hin
      rcases hin with hin | hin | hin <;>
        simp [State.idle, State.pos, State.seqOf, hin, taskProgram]
    have hrun : runAgent .task (s.setSched rest) = .next t := by simpa [serve, hid] using ht
    have hst : TaskRun s.ctx.hotplugPending (s.setSched rest) := ⟨.inr hin, rfl⟩
    exact (drive_keeps (fun _ _ => tick_taskRun) hst hrun).pending

/-! ## Reset -/

/-- Regions are intervals (rule R64). -/
theorem region_between {a b c : Nat} (hab : a ≤ b) (hbc : b ≤ c) (h : region a = region c) :
    region a = region b := by
  have e1 : b0Base = 48 := rfl
  have e2 : b0End = 256 := rfl
  have e3 : b1Base = 304 := rfl
  have e4 : addrLimit = 448 := rfl
  unfold region at h ⊢
  split_ifs at h ⊢ <;> grind

/-- A shorter range of at least one byte fits where a longer one does. -/
theorem bulkFits_mono {addr m n : Nat} (hm : 1 ≤ m) (hmn : m ≤ n) (h : bulkFits addr n = true) :
    bulkFits addr m = true := by
  simp only [bulkFits, decide_eq_true_eq] at h ⊢
  exact ⟨region_between (by omega) (by omega) h.1, h.2⟩

/-- Where a payload's second infoframe block fits, a shorter payload's does (PC4). -/
theorem secondBlockFits_mono {b : BridgeParams} {m n : Nat} (hmn : m ≤ n)
    (h : secondBlockFits b n = true) : secondBlockFits b m = true := by
  simp only [secondBlockFits, Bool.or_eq_true, decide_eq_true_eq] at h ⊢
  by_cases hm : m ≤ ifSplit
  · exact .inl hm
  · exact .inr (bulkFits_mono (by omega) (by omega) (h.resolve_left (by omega)))

theorem paramsOkFor_mono {c : Params} {m n : Nat} (hmn : m ≤ n) (h : paramsOkFor c n = true) :
    paramsOkFor c m = true := by
  simp only [paramsOkFor, bulkTargetsOk, Bool.and_eq_true] at h ⊢
  obtain ⟨⟨⟨⟨⟨hb, hn⟩, ⟨hf, hs⟩⟩, hd⟩, hi⟩, hbr⟩ := h
  exact ⟨⟨⟨⟨⟨hb, hn⟩, ⟨hf, secondBlockFits_mono hmn hs⟩⟩, hd⟩, hi⟩, hbr⟩

/-- Nobody is inside an operation after reset (rule R58). -/
theorem pos_reset (a : AgentId) : State.reset.pos a = [] := by
  rcases a with (_ | k) | _ | _
  · rfl
  · rcases k with _ | _ | k <;> rfl
  · rfl
  · rfl

theorem onlyTaskSamples_reset : OnlyTaskSamples State.reset := by
  rw [onlyTaskSamples_iff]
  exact fun a _ => pos_reset a ▸ .nil

/-- Settles O12: REF has room for 103 bytes, hence for fewer. -/
theorem resetIsSettled : Obligations.ResetIsSettled :=
  ⟨by decide, onlyTaskSamples_reset, fun _ h => paramsOkFor_mono h (by decide)⟩

end Sys2Proof.Machine
end

section
/-! SUPPORT. What every step keeps: settled states, the configuration, a known connector; and what an
operation other than HPD_TASK does to the connector. -/

namespace Sys2Proof.Machine

/-! ## Settled states -/

theorem State.idle_setPos_other (s : State) {a b : AgentId} (k : List Stmt) (h : b ≠ a) :
    (s.setPos a k).idle b = s.idle b := congrArg List.isEmpty (State.pos_setPos_other s k h)

theorem State.idle_setPos_self (s : State) {a : AgentId} (k : List Stmt) (h : s.hasAgent a = true) :
    (s.setPos a k).idle a = k.isEmpty := congrArg List.isEmpty (State.pos_setPos_self s k h)

theorem idle_endOp_other (s : State) {a b : AgentId} (r : Response) (h : b ≠ a) :
    (endOp a r s).idle b = s.idle b :=
  (congrArg List.isEmpty (pos_endOp a b r s)).trans (s.idle_setPos_other [] h)

/-- Ending an operation leaves the running flags true to the positions (rules R34, R36). -/
theorem Settled.endOp {s : State} (h : Settled s) (a : AgentId) (r : Response) :
    Settled (endOp a r s) := by
  obtain ⟨hx, hl, hd, ht⟩ := h
  refine ⟨by simpa using hx, by simpa using hl, ?_⟩
  cases a with
  | port p =>
    rw [idle_endOp_other s (a := .port p) (b := .dispatcher) r nofun,
      idle_endOp_other s (a := .port p) (b := .task) r nofun]
    exact ⟨by simpa [Machine.endOp] using hd, by simpa [Machine.endOp] using ht⟩
  | dispatcher => exact ⟨rfl, ht⟩
  | task => exact ⟨hd, rfl⟩

/-- An agent inside an operation, or a port, moves to a further statement. -/
theorem Settled.setPos {s : State} (h : Settled s) {a : AgentId} {k : List Stmt} (hk : k ≠ [])
    (ha : (∃ p, a = .port p) ∨ s.idle a = false) : Settled (s.setPos a k) := by
  obtain ⟨hx, hl, hd, ht⟩ := h
  refine ⟨by simpa using hx, by simpa using hl, ?_⟩
  cases a with
  | port p =>
    rw [s.idle_setPos_other (a := .port p) (b := .dispatcher) k nofun,
      s.idle_setPos_other (a := .port p) (b := .task) k nofun]
    exact ⟨by simpa using hd, by simpa using ht⟩
  | dispatcher =>
    have hin : s.idle .dispatcher = false := by simpa using ha
    refine ⟨?_, ht⟩
    rw [s.idle_setPos_self (a := .dispatcher) k rfl, List.isEmpty_eq_false_iff.mpr hk, ← hin]
    exact hd
  | task =>
    have hin : s.idle .task = false := by simpa using ha
    refine ⟨hd, ?_⟩
    rw [s.idle_setPos_self (a := .task) k rfl, List.isEmpty_eq_false_iff.mpr hk, ← hin]
    exact ht

/-- A statement moves nobody and takes and gives back the lock. -/
theorem StmtFrame.settled {s t : State} (h : StmtFrame s t) (hs : Settled s) : Settled t := by
  obtain ⟨hx, hl, hd, ht⟩ := hs
  exact ⟨h.wf hx, h.lock.trans hl, by simp [State.idle, h.pos, h.dispRunning, hd],
    by simp [State.idle, h.pos, h.taskRunning, ht]⟩

theorem Settled.resumeWith {s : State} (h : Settled s) {a : AgentId} (ha : s.idle a = false)
    (k : List Stmt) : Settled (resumeWith a k s) := by
  cases k with
  | nil => exact h.endOp a _
  | cons m k => exact h.setPos (by simp) (.inr ha)

theorem Settled.raiseError {s : State} (h : Settled s) {a : AgentId} (ha : s.idle a = false)
    (e : Status) (k : List Stmt) : Settled (raiseError a e k s) := by
  unfold Machine.raiseError
  split
  · exact h.resumeWith ha _
  · exact h.endOp a _

theorem Settled.tick {a : AgentId} {s t : State} (hs : Settled s) (h : tick a s = .next t) :
    Settled t := by
  rcases tick_cases h with rfl | ⟨m, k, u, hp, hf, hu⟩
  · exact hs
  · have hus := hf.settled hs
    have hin : u.idle a = false := by simp [State.idle, hf.pos, hp]
    rcases hu with ⟨push, -, rfl⟩ | ⟨r, -, rfl⟩ | ⟨e, -, rfl⟩
    · exact hus.resumeWith hin _
    · exact hus.endOp a r
    · exact hus.raiseError hin e k

/-- What is written outside the register file, the lock, the flags and the positions. -/
theorem Settled.congr {s t : State} (h : Settled s) (hx : t.x = s.x) (hc : t.ctx.lock = s.ctx.lock)
    (hd : t.dispRunning = s.dispRunning) (ht : t.taskRunning = s.taskRunning)
    (hp : ∀ a, t.pos a = s.pos a) : Settled t := by
  obtain ⟨hsx, hsl, hsd, hst⟩ := h
  exact ⟨hx ▸ hsx, hc.trans hsl, by simp [State.idle, hp, hd, hsd], by simp [State.idle, hp, ht, hst]⟩

theorem settled_kept : Kept Settled where
  tick _ _ _ := Settled.tick
  program p _ _ hs _ hk := hs.setPos hk (.inl ⟨p, rfl⟩)
  illegal p _ hs := hs.endOp (.port p) _
  dispatch s k hs _ _ hk :=
    ⟨hs.1, hs.2.1, by simp [State.enterDispatch, State.idle, State.pos, State.seqOf, hk], hs.2.2.2⟩
  task s k hs _ _ hk :=
    ⟨hs.1, hs.2.1, hs.2.2.1, by simp [State.enterTask, State.idle, State.pos, State.seqOf, hk]⟩
  take p s c cs hs :=
    hs.congr (by simp) (by simp) (by cases p <;> rfl) (by cases p <;> rfl) fun a => by simp
  sched s l hs := hs.congr rfl rfl rfl rfl (State.pos_congr rfl rfl rfl rfl)
  drawn s hs := hs.congr rfl rfl rfl rfl (State.pos_congr rfl rfl rfl rfl)
  irq s level hs := hs.congr rfl rfl rfl rfl (State.pos_congr rfl rfl rfl rfl)

/-- Settles O11: each thing a step is made of keeps a settled state; an agent's flag rises with its first
statement and falls with its last. -/
theorem everyStepKeepsSettled : Obligations.EveryStepKeepsSettled :=
  fun _ _ hs ht => settled_kept.step hs ht

/-! ## Configuration -/

/-- What no step writes, as in `s` (rules R32, R59, R256). -/
structure ConfigKept (s t : State) : Prop where
  cfg : t.cfg = s.cfg
  audio : t.ctx.audioChannelMask = s.ctx.audioChannelMask
  nAux : t.auxPorts.length = s.auxPorts.length

theorem ConfigKept.trans {s t u : State} (h : ConfigKept s t) (h' : ConfigKept t u) :
    ConfigKept s u :=
  ⟨h'.cfg.trans h.cfg, h'.audio.trans h.audio, h'.nAux.trans h.nAux⟩

theorem length_auxPorts_setPort (s : State) (p : PortId) (q : Port) :
    (s.setPort p q).auxPorts.length = s.auxPorts.length := by
  cases p <;> simp [State.setPort]

theorem ConfigKept.setPos (s : State) (a : AgentId) (k : List Stmt) :
    ConfigKept s (s.setPos a k) := by
  refine ⟨by simp, by simp, ?_⟩
  cases a with
  | port p => exact length_auxPorts_setPort s p _
  | dispatcher => rfl
  | task => rfl

theorem ConfigKept.endOp (s : State) (a : AgentId) (r : Response) :
    ConfigKept s (endOp a r s) := by
  cases a with
  | port p =>
    refine ⟨by simp [Machine.endOp], by simp, ?_⟩
    cases p <;> simp [Machine.endOp, State.respond, State.closeHost, State.setPort]
  | dispatcher => exact ⟨rfl, rfl, rfl⟩
  | task => exact ⟨rfl, rfl, rfl⟩

theorem StandsAfter.configKept {a : AgentId} {m : Stmt} {k : List Stmt} {s u t : State}
    (h : StandsAfter a m k s u t) : ConfigKept u t := by
  rcases h with ⟨r, rfl⟩ | ⟨k', rfl, -⟩
  · exact .endOp u a r
  · exact .setPos u a k'

theorem ConfigKept.tick {a : AgentId} {s t : State} (h : tick a s = .next t) : ConfigKept s t := by
  rcases tick_stands h with rfl | ⟨m, k, u, -, hf, -, ht⟩
  · exact ⟨rfl, rfl, rfl⟩
  · exact ConfigKept.trans ⟨hf.cfg, hf.audio, hf.nAux⟩ ht.configKept

theorem ConfigKept.takeCommand (s : State) (p : PortId) (c : Command) (cs : List Command) :
    ConfigKept s (s.takeCommand p c cs) := by
  refine ⟨by simp, by simp, ?_⟩
  cases p <;> simp [State.takeCommand, State.givePayload, State.setPort]

theorem configKept_kept (s : State) : Kept (ConfigKept s) where
  tick _ _ _ h ht := h.trans (.tick ht)
  program _ _ _ h _ _ := h.trans (.setPos _ _ _)
  illegal p _ h := h.trans (.endOp _ (.port p) _)
  dispatch _ _ h _ _ _ := h.trans ⟨rfl, rfl, rfl⟩
  task _ _ h _ _ _ := h.trans ⟨rfl, rfl, rfl⟩
  take p _ c cs h := h.trans (.takeCommand _ p c cs)
  sched _ _ h := h.trans ⟨rfl, rfl, rfl⟩
  drawn _ h := h.trans ⟨rfl, rfl, rfl⟩
  irq _ _ h := h.trans ⟨rfl, rfl, rfl⟩

/-- Settles O13: nothing a step is made of writes the parameter set, the inert byte or the number of
ports. -/
theorem everyStepKeepsConfiguration : Obligations.EveryStepKeepsConfiguration := by
  intro s t ht
  have h := (configKept_kept s).step ⟨rfl, rfl, rfl⟩ ht
  exact ⟨h.cfg, h.audio, h.nAux⟩

/-! ## The connector -/

/-- The connector was sampled at least once since reset (rule R29). -/
def ConnectorKnown (s : State) : Prop := s.ctx.connectorStatus ≠ .unknown

theorem ConnectorKept.known {s t : State} (h : ConnectorKept s t) (hs : ConnectorKnown s) :
    ConnectorKnown t := fun e => hs (h.status.symm.trans e)

/-- A sampled level is never Unknown (rule R193). -/
theorem connOf_ne_unknown (present : Bool) : connOf present ≠ .unknown := by
  cases present <;> decide

theorem ConnectorKnown.stmtStep {s : State} (hs : ConnectorKnown s) (a : AgentId) (m : Stmt) :
    (stmtStep a m s).Leaves ConnectorKnown := by
  by_cases hm : m.samples = false
  · exact (stmtStep_connector a hm s).1.imp fun _ h => h.known hs
  · cases m with
    | hpdUpdate present => exact connOf_ne_unknown present
    | hpdRead =>
      show (withPrim a _ s _ _).Leaves _
      unfold withPrim
      split
      · trivial
      · next hr => exact (ConnectorKept.of_bus (runPrim_frame hr).2).known hs
      · next hr => exact (ConnectorKept.of_bus (runPrim_frame hr).2).known hs
      · trivial
    | _ => exact absurd rfl hm

theorem ConnectorKnown.tick {a : AgentId} {s t : State} (hs : ConnectorKnown s)
    (h : tick a s = .next t) : ConnectorKnown t := by
  rcases tick_stands h with rfl | ⟨m, k, u, -, -, hl, ht⟩
  · exact hs
  · exact ht.connectorKept.known (hl _ (hs.stmtStep a m))

theorem connectorKnown_kept : Kept ConnectorKnown where
  tick _ _ _ := ConnectorKnown.tick
  program _ s k hs _ _ := (ConnectorKept.setPos _ k s).known hs
  illegal p s hs := (ConnectorKept.endOp (.port p) _ s).known hs
  dispatch _ _ hs _ _ _ := hs
  task _ _ hs _ _ _ := hs
  take p s c cs hs := (ConnectorKept.takeCommand s p c cs).known hs
  sched _ _ hs := hs
  drawn _ hs := hs
  irq _ _ hs := hs

/-- Settles O14: the only statement that writes the status is step C of HPD_TASK, and it writes what the
detect bit says. -/
theorem connectorNeverReturnsToUnknown : Obligations.ConnectorNeverReturnsToUnknown :=
  fun _ _ ht hs => connectorKnown_kept.step hs ht

/-- A run from statements outside HPD_TASK stays outside and leaves the connector alone, whoever runs. -/
theorem drive_sampleFree {a : AgentId} {n : Nat} {s t : State} (h : SampleFree (s.pos a))
    (ht : drive a n s = .next t) : ConnectorKept s t := by
  refine (drive_keeps (P := fun u => SampleFree (u.pos a) ∧ ConnectorKept s u)
    (fun u v hu hv => ?_) ⟨h, .refl s⟩ ht).2
  rcases tick_stands hv with rfl | ⟨m, k, w, hp, hf, hl, hst⟩
  · exact hu
  · obtain ⟨hm, hk⟩ := (sampleFree_cons m k).mp (hp ▸ hu.1)
    obtain ⟨hc, hpush⟩ := stmtStep_connector a hm u
    refine ⟨?_, (hu.2.trans (hl _ hc)).trans hst.connectorKept⟩
    have hw : SampleFree (w.pos a) := hf.pos a ▸ hu.1
    rcases hst with ⟨r, rfl⟩ | ⟨k', rfl, hk' | ⟨push, he, rfl⟩⟩
    · rw [pos_endOp]
      exact sampleFree_pos_setPos (fun _ => .nil) hw
    · exact sampleFree_pos_setPos (fun _ => hk.suffix hk') hw
    · exact sampleFree_pos_setPos (fun _ => (sampleFree_append _ _).mpr ⟨hpush push w he, hk⟩) hw

/-- A command of a port, run from statements outside HPD_TASK. -/
theorem command_connectorKept {i : Instr} {k : List Stmt} {s t : State} (hk : SampleFree k)
    (h : command i k s = .next t) : ConnectorKept s t := by
  unfold command at h
  split at h
  · next hid =>
    split at h
    · have hp : SampleFree (s.pos (.port s.active)) := by
        rw [List.isEmpty_iff.mp hid]
        exact .nil
      exact (ConnectorKept.setPos _ k s).trans
        (drive_sampleFree (sampleFree_pos_setPos (fun _ => hk) hp) h)
    · cases h
      exact .endOp (.port s.active) _ s
  · cases h
    exact .refl s

theorem execIrqDispatch_connectorKept {s t : State} (h : execIrqDispatch s = .next t) :
    ConnectorKept s t := by
  unfold execIrqDispatch at h
  split at h
  · cases h
    exact .refl s
  · rcases startInternal_cases h with rfl | ⟨-, n, hd⟩
    · exact ⟨rfl, fun _ => rfl⟩
    · exact ConnectorKept.trans (t := s.enterDispatch (dispatchProgram s.cfg)) ⟨rfl, fun _ => rfl⟩
        (drive_sampleFree (a := .dispatcher) (sampleFree_dispatchProgram s.cfg) hd)

/-- Settles O15: an operation other than HPD_TASK starts from an idle agent, and none of its statements
samples the detect bit. -/
theorem onlyTheTaskChangesTheConnector : Obligations.OnlyTheTaskChangesTheConnector := by
  intro i s t hi ht
  have h : ConnectorKept s t := by
    cases hh : hostMayStart i with
    | true =>
      obtain ⟨k, hk, he⟩ := exec_eq_command hh s
      exact command_connectorKept hk (he ▸ ht)
    | false =>
      cases i with
      | irqDispatch => exact execIrqDispatch_connectorKept ht
      | hpdTask => exact absurd rfl hi
      | _ => cases hh
  exact ⟨h.status, h.notified⟩

end Sys2Proof.Machine
end

section
/-! SUPPORT. Commands of one statement: LDM, RD, WR and UPD of a register, what each leaves in the
registers and banks, and what an access to the any-bank region can issue. -/

namespace Sys2Proof.Machine

/-! ## Commands of one statement -/

theorem one_le_driveBound (c : Params) : 1 ≤ driveBound c := by
  unfold driveBound
  omega

/-- A ready command whose one statement is done in one step answers OK, whoever else is scheduled. -/
theorem command_one_go {i : Instr} {m : Stmt} {s u : State} (h : Ready i s)
    (hu : u.hasPort s.active = true)
    (hm : ∀ k, stmtStep (.port s.active) m (s.setPos (.port s.active) k)
      = .go [] (u.setPos (.port s.active) k)) :
    command i [m] s = .next (u.respond s.active (okResp 0)) := by
  have ht : tick (.port s.active) (s.setPos (.port s.active) [m])
      = .next (u.respond s.active (okResp 0)) := by
    rw [tick_go (State.pos_setPos_self s [m] h.hasAgent) (hm [m])]
    simp [resumeWith, endOp, okResp]
  rw [command_ready h]
  exact drive_end ht (goesOn_respond u s.active _ hu) (one_le_driveBound _)

/-- A ready command whose one statement returns answers what it returns. -/
theorem command_one_ret {i : Instr} {m : Stmt} {s u : State} {r : Response} (h : Ready i s)
    (hu : u.hasPort s.active = true)
    (hm : ∀ k, stmtStep (.port s.active) m (s.setPos (.port s.active) k)
      = .ret r (u.setPos (.port s.active) k)) :
    command i [m] s = .next (u.respond s.active r) := by
  have ht : tick (.port s.active) (s.setPos (.port s.active) [m])
      = .next (u.respond s.active r) := by
    rw [tick_ret (State.pos_setPos_self s [m] h.hasAgent) (hm [m])]
    simp [endOp]
  rw [command_ready h]
  exact drive_end ht (goesOn_respond u s.active _ hu) (one_le_driveBound _)

theorem State.hasPort_congr {s t : State} (h : t.auxPorts = s.auxPorts) (p : PortId) :
    t.hasPort p = s.hasPort p := by cases p <;> simp [State.hasPort, h]

/-- A ready command of one primitive that gives a value answers OK. -/
theorem command_one_prim {i : Instr} {p : Prim} {s u : State} {v : Byte} (h : Ready i s)
    (hr : runPrim (.port s.active) p s = some (.ok v u)) :
    command i [.prim p] s = .next (u.respond s.active (okResp 0)) := by
  have hf : BusFrame 3 s u := (runPrim_frame hr).2
  refine command_one_go h ?_ fun k => ?_
  · rw [State.hasPort_congr (by rw [hf.frame])]
    exact h.1
  · simp [stmtStep, callPrim, withPrim, runPrim_setPos, hr, PRes.onState]

/-- Settles O20: the prologue reaches the register through its offset, and one read answers. -/
theorem rdAnswersTheRegister : Obligations.RdAnswersTheRegister := by
  intro addr s h hf ha
  have hr := runPrim_rd (.port s.active) hf h.2.2.1 ha
  refine command_one_ret h ?_ fun k => ?_
  · rw [State.hasPort_congr (State.rdAt_auxPorts s _)]
    exact h.1
  · simp [stmtStep, callPrim, withPrim, runPrim_setPos, hr, PRes.onState, okResp]

/-- Settles O21: one primitive that gives its value. -/
theorem wrWritesTheRegister : Obligations.WrWritesTheRegister :=
  fun _ v _ h hf ha => command_one_prim h (runPrim_wr _ hf h.2.2.1 ha v)

/-- Settles O22: one primitive that gives its value. -/
theorem updReadsThenWritesTheRegister : Obligations.UpdReadsThenWritesTheRegister :=
  fun _ m v _ h hf ha => command_one_prim h (runPrim_upd _ hf h.2.2.1 ha m v)

/-! ## LDM -/

/-- The load of a latch looks at no position. -/
theorem loadLatch_setPos (s : State) (sel : LatchSel) (v : BitVec 24) (a : AgentId) (k : List Stmt) :
    (s.setPos a k).loadLatch sel v = (s.loadLatch sel v).setPos a k := by
  rcases a with (_ | i) | _ | _ <;> cases sel <;> rfl

theorem execLdm_ready {sel : LatchSel} {v : BitVec 24} {s : State} (h : Ready (.ldm sel v) s) :
    exec (.ldm sel v) s = .next ((s.loadLatch sel v).respond s.active (okResp 0)) := by
  refine command_one_go (m := .load sel v) h ?_ fun k => ?_
  · rw [State.hasPort_congr (State.loadLatch_auxPorts s sel v)]
    exact h.1
  · simp only [stmtStep, loadLatch_setPos]

/-- A command with illegal operands, on an idle port. -/
theorem command_not_wellFormed {i : Instr} {k : List Stmt} {s : State}
    (hid : s.idle (.port s.active) = true) (hw : i.wellFormed = false) :
    command i k s = .next (s.respond s.active ⟨.illegalCommand, 0⟩) := by
  simp [command, hid, legalCommand, hw, illegalCommand]

/-- The colour mode LDM loads is the entry of the three modes with the value's number (rule R95). -/
theorem colorModeOf_eq {n : Nat} {m : ColorMode}
    (h : [ColorMode.rgb444, .yuv422, .yuv444][n]? = some m) : colorModeOf n = m := by
  match n, h with
  | 0, h => simpa [colorModeOf] using h
  | 1, h => simpa [colorModeOf] using h
  | 2, h => simpa [colorModeOf] using h

/-- Settles O50: the load is the one statement of LDM, and each selector's load is its latch's. -/
theorem ldmLoadsOneLatch : Obligations.LdmLoadsOneLatch := by
  intro v s
  refine ⟨execLdm_ready, execLdm_ready, execLdm_ready, execLdm_ready, execLdm_ready, execLdm_ready,
    fun h m hm => ?_, fun h m hm => ?_, fun h => ?_, fun sel _ hid hw => ?_⟩
  · rw [execLdm_ready h, State.loadLatch, colorModeOf_eq hm]
  · rw [execLdm_ready h, State.loadLatch, colorModeOf_eq hm]
  · have hv : (v.toNat = 1) = (v = 1) := propext (BitVec.toNat_inj (y := 1#24))
    rw [execLdm_ready h, State.loadLatch]
    simp only [hv]
  · exact command_not_wellFormed hid hw

/-! ## What RD, WR and UPD leave in the registers -/

/-- A write touches no other register. -/
theorem storedIn_read_other (s : State) {a b : Nat} (v : Byte) (h : b ≠ a) :
    (s.storedIn a v).read b = s.x.read b := by
  unfold State.storedIn
  split
  · exact Memory.read_write_other v h
  · rfl

theorem storedIn_read_self {s : State} {a : Nat} (v : Byte) (hp : isPlain s.cfg a = true)
    (hx : s.x.Pairwise fun c d => c.1 < d.1) : (s.storedIn a v).read a = v := by
  rw [State.storedIn, if_pos (.inr hp)]
  exact Memory.read_write_same hx a v

/-- A write to a register whose write acts on the environment stores nothing (rules R72, R75, R76). -/
theorem storedIn_not_plain {s : State} {a : Nat} (v : Byte) (ha : a ≠ s.cfg.bank.addr)
    (hp : isPlain s.cfg a = false) : s.storedIn a v = s.x := by
  rw [State.storedIn, if_neg (by simp [ha, hp])]

theorem rdAt_read (s : State) (addr : Nat) {a : Nat} (ha : a ≠ s.cfg.bank.addr) :
    (s.rdAt addr).x.read a = s.x.read a := switched_read _ ha

theorem wrAt_read_other (s : State) {addr a : Nat} (v : Byte) (ha : a ≠ s.cfg.bank.addr)
    (hne : a ≠ addr) : (s.wrAt addr v).x.read a = s.x.read a :=
  (storedIn_read_other _ v hne).trans (switched_read _ ha)

theorem wrAt_read_self {s : State} {addr : Nat} (v : Byte) (hp : isPlain s.cfg addr = true)
    (hx : s.x.Pairwise fun c d => c.1 < d.1) : (s.wrAt addr v).x.read addr = v :=
  storedIn_read_self v (by rwa [switched_cfg]) (switched_pairwise _ hx)

/-- A plain register answers the byte it holds (rule R72). -/
theorem rdValue_plain {s : State} {addr : Nat} (ha : addr ≠ s.cfg.bank.addr)
    (hp : isPlain s.cfg addr = true) : s.rdValue addr = s.x.read addr := by
  simp only [State.rdValue, State.busValue, readsDraw, switched_cfg, hp, Bool.not_true, Bool.and_false,
    Bool.false_eq_true, if_false]
  exact switched_read _ ha

theorem updAt_read_other (s : State) {addr a : Nat} (m v : Byte) (ha : a ≠ s.cfg.bank.addr)
    (hne : a ≠ addr) : (s.updAt addr m v).x.read a = s.x.read a :=
  (storedIn_read_other _ _ hne).trans (rdAt_read s addr ha)

theorem updAt_read_self {s : State} {addr : Nat} (m v : Byte) (ha : addr ≠ s.cfg.bank.addr)
    (hp : isPlain s.cfg addr = true) (hx : s.x.Pairwise fun c d => c.1 < d.1) :
    (s.updAt addr m v).x.read addr = updValue (s.x.read addr) m v := by
  rw [← rdValue_plain ha hp]
  exact storedIn_read_self _ (by rwa [rdAt_cfg]) (switched_pairwise _ hx)

/-- Shadow and bank after an access to a register that needs `need` (rule R24). -/
def BanksAfter (need : Option Bank) (s t : State) : Prop :=
  t.hwBank = need.getD s.hwBank ∧ t.ctx = { s.ctx with currentBank := need.getD s.ctx.currentBank }

theorem switched_banksAfter {s : State} (h : Fine s) (need : Option Bank) :
    BanksAfter need s (s.switched need) := ⟨switched_hwBank h need, switched_ctx s need⟩

/-- A write to a register other than the bank select moves no bank. -/
theorem didWrite_banksAfter {s t : State} {need : Option Bank} (h : BanksAfter need s t) (off : Nat)
    {a : Nat} (v : Byte) (ha : a ≠ t.cfg.bank.addr) : BanksAfter need s (t.didWrite off a v) :=
  ⟨(if_neg ha).trans h.1, h.2⟩

/-- Settles O23: the switch writes the bank select alone, a read nothing, a write its register. -/
theorem primitivesChangeOnlyTheirRegister : Obligations.PrimitivesChangeOnlyTheirRegister := by
  intro s addr m v hf hx _ hb
  have hsw := switched_banksAfter hf (needOf addr)
  refine ⟨fun a ha => rdAt_read s addr ha,
    fun a ha hne => ⟨wrAt_read_other s v ha hne, updAt_read_other s m v ha hne⟩,
    fun hp => ⟨rdValue_plain hb hp, wrAt_read_self v hp hx.1, updAt_read_self m v hb hp hx.1⟩, ?_⟩
  have hrd : BanksAfter (needOf addr) s (s.rdAt addr) := hsw
  have hwr : BanksAfter (needOf addr) s (s.wrAt addr v) :=
    didWrite_banksAfter hsw _ _ (by rwa [switched_cfg])
  have hupd : BanksAfter (needOf addr) s (s.updAt addr m v) :=
    didWrite_banksAfter hrd _ _ (by rwa [rdAt_cfg])
  simpa using ⟨hrd, hwr, hupd⟩

/-! ## Accesses to the any-bank region -/

/-- From `s` to `t` every transaction was at one window offset and the shadow was left alone. -/
structure OnlyAt (off : Nat) (s t : State) : Prop where
  shadow : t.ctx.currentBank = s.ctx.currentBank
  log : ∃ l, t.bus = l ++ s.bus ∧ ∀ op ∈ l, op.offset = off

theorem OnlyAt.of_eq {off : Nat} {s t : State} (hc : t.ctx.currentBank = s.ctx.currentBank)
    (hb : t.bus = s.bus) : OnlyAt off s t := ⟨hc, [], hb, nofun⟩

theorem OnlyAt.trans {off : Nat} {s t u : State} (h : OnlyAt off s t) (h' : OnlyAt off t u) :
    OnlyAt off s u := by
  obtain ⟨l, hl, hlo⟩ := h.log
  obtain ⟨l', hl', hlo'⟩ := h'.log
  refine ⟨h'.shadow.trans h.shadow, l' ++ l, by simp [hl', hl], fun op hop => ?_⟩
  exact (List.mem_append.mp hop).elim (hlo' op) (hlo op)

theorem PRes.Leaves.imp {α : Type} {r : PRes α} {P Q : State → Prop} (h : r.Leaves P)
    (hPQ : ∀ t, P t → Q t) : r.Leaves Q := by
  cases r with
  | ok v t => exact hPQ t h
  | err e t => exact hPQ t h
  | stop x => trivial

/-- What holds after the first piece and is kept by the second holds after both. -/
theorem PRes.Leaves.andThen {α β : Type} {r : PRes α} {k : α → State → PRes β} {P : State → Prop}
    (hr : r.Leaves P) (hk : ∀ v t, P t → (k v t).Leaves P) : (r.bind k).Leaves P := by
  cases r with
  | ok v t => exact hk v t hr
  | err e t => exact hr
  | stop x => trivial

theorem busOut_onlyAt {op : Bool → BusOp} {off : Nat} (hop : ∀ b, (op b).offset = off)
    (bytes : List Byte) (s : State) : (busOut op off bytes s).Leaves (OnlyAt off s) := by
  unfold busOut
  simp only
  split
  · split
    · exact ⟨rfl, [op false], rfl, by simpa using hop false⟩
    · exact ⟨rfl, [op true], rfl, by simpa using hop true⟩
  · trivial

theorem busRead_onlyAt (off : Nat) (s : State) : (busRead off s).Leaves (OnlyAt off s) := by
  unfold busRead
  split
  · trivial
  · split
    · exact ⟨rfl, [.read off none], rfl, by simp [BusOp.offset]⟩
    · next a _ _ => exact ⟨rfl, [.read off (some (s.busValue a))], rfl, by simp [BusOp.offset]⟩

/-- No bank is selected for an any-bank address, and its offset is the address (rule R65). -/
theorem prologue_any {addr : Nat} (h : addr < b0Base) (s : State) :
    prologue addr s = .ok addr s := by
  have hlim : ¬ addrLimit ≤ addr := by
    have e1 : b0Base = 48 := rfl
    have e2 : addrLimit = 448 := rfl
    omega
  simp [prologue, locate, hlim, translate, region, h, PRes.bind, ensureBank]

/-- A read, write or update of one address. -/
def Prim.isAccess (addr : Nat) : Prim → Prop
  | .rd a => a = addr
  | .wr a _ => a = addr
  | .upd a _ _ => a = addr
  | .bwr _ _ => False

theorem busWrite_onlyAt (off : Nat) (v : Byte) (s : State) :
    (busWrite off v s).Leaves (OnlyAt off s) := 
  busOut_onlyAt (op := .write off v) (fun _ => rfl) [v] s

theorem primBody_onlyAt {addr : Nat} (h : addr < b0Base) {p : Prim} (hp : p.isAccess addr)
    (s : State) : (primBody p s).Leaves (OnlyAt addr s) := by
  cases p with
  | rd a =>
    obtain rfl : a = addr := hp
    simp only [primBody, rdBody, prologue_any h, PRes.bind]
    exact busRead_onlyAt a s
  | wr a v =>
    obtain rfl : a = addr := hp
    simp only [primBody, wrBody, prologue_any h]
    exact (busWrite_onlyAt a v s).andThen fun _ _ ht => ht
  | upd a m v =>
    obtain rfl : a = addr := hp
    simp only [primBody, updBody, prologue_any h]
    refine (busRead_onlyAt a s).andThen fun old t ht => ?_
    exact ((busWrite_onlyAt a _ t).imp fun _ => ht.trans).andThen fun _ _ hu => hu
  | bwr a bytes => cases hp

theorem runPrim_onlyAt {addr : Nat} (h : addr < b0Base) {p : Prim} (hp : p.isAccess addr)
    {a : AgentId} {s : State} {r : PRes Byte} (hr : runPrim a p s = some r) :
    r.Leaves (OnlyAt addr s) := by
  unfold runPrim at hr
  split at hr
  · cases hr
  · cases hr
    have hb := primBody_onlyAt h hp (s.setLock (some a))
    cases hq : primBody p (s.setLock (some a)) with
    | ok v t => rw [hq] at hb; exact ⟨hb.shadow, hb.log⟩
    | err e t => rw [hq] at hb; exact ⟨hb.shadow, hb.log⟩
    | stop x => trivial

/-- A statement of a command that accesses one any-bank address, and after which nothing is left. -/
structure AccessStmt (addr : Nat) (a : AgentId) (m : Stmt) : Prop where
  leaves : ∀ s, (stmtStep a m s).Leaves (OnlyAt addr s)
  pushes : ∀ s push u, stmtStep a m s = .go push u → push = []

theorem callPrim_onlyAt {addr : Nat} (h : addr < b0Base) {p : Prim} (hp : p.isAccess addr)
    (a : AgentId) (s : State) {k : Byte → State → StepRes}
    (hk : ∀ v t, OnlyAt addr s t → (k v t).Leaves (OnlyAt addr s)) :
    (callPrim a p s k).Leaves (OnlyAt addr s) := by
  unfold callPrim withPrim
  split
  · trivial
  · next v t hr => exact hk v t (runPrim_onlyAt h hp hr)
  · next e t hr => exact runPrim_onlyAt h hp hr
  · trivial

theorem accessStmt_rdReturn {addr : Nat} (h : addr < b0Base) (a : AgentId) :
    AccessStmt addr a (.rdReturn addr) where
  leaves s := callPrim_onlyAt h (p := .rd addr) rfl a s fun _ _ ht => ht
  pushes s push u he := by
    simp only [stmtStep, callPrim, withPrim] at he
    split at he <;> cases he

theorem accessStmt_prim {addr : Nat} (h : addr < b0Base) (a : AgentId) {p : Prim}
    (hp : p.isAccess addr) : AccessStmt addr a (.prim p) where
  leaves s := callPrim_onlyAt h hp a s fun _ _ ht => ht
  pushes s push u he := by
    simp only [stmtStep, callPrim, withPrim] at he
    split at he <;> cases he
    rfl

/-- After its position is written an agent stands at no statement but those written and the old ones. -/
theorem mem_pos_setPos {s : State} {a : AgentId} {k : List Stmt} {x : Stmt}
    (h : x ∈ (s.setPos a k).pos a) : x ∈ k ∨ x ∈ s.pos a := by
  cases ha : s.hasAgent a with
  | true => rw [State.pos_setPos_self s k ha] at h; exact .inl h
  | false => rw [State.setPos_missing k ha] at h; exact .inr h

theorem StandsAfter.mem_pos {a : AgentId} {m : Stmt} {k : List Stmt} {s u t : State}
    (h : StandsAfter a m k s u t) {x : Stmt} (hx : x ∈ t.pos a) :
    x ∈ k ∨ x ∈ u.pos a ∨ ∃ push, stmtStep a m s = .go push u ∧ x ∈ push := by
  rcases h with ⟨r, rfl⟩ | ⟨k', rfl, hk' | ⟨push, he, rfl⟩⟩
  · rw [pos_endOp] at hx
    exact (mem_pos_setPos hx).elim nofun fun h => .inr (.inl h)
  · exact (mem_pos_setPos hx).imp (hk'.subset ·) .inl
  · rcases mem_pos_setPos hx with hx | hx
    · exact (List.mem_append.mp hx).elim (fun h => .inr (.inr ⟨push, he, h⟩)) .inl
    · exact .inr (.inl hx)

/-- A run whose agent has only accesses to one any-bank address to come. -/
theorem drive_onlyAt {addr : Nat} {a : AgentId} {n : Nat} {s t : State}
    (h : ∀ m ∈ s.pos a, AccessStmt addr a m) (ht : drive a n s = .next t) : OnlyAt addr s t := by
  refine (drive_keeps (P := fun u => (∀ m ∈ u.pos a, AccessStmt addr a m) ∧ OnlyAt addr s u)
    (fun u v hu hv => ?_) ⟨h, .of_eq rfl rfl⟩ ht).2
  rcases tick_stands hv with rfl | ⟨m, k, w, hp, hf, hl, hst⟩
  · exact hu
  · have hm : AccessStmt addr a m := hu.1 m (by simp [hp])
    refine ⟨fun x hx => ?_, (hu.2.trans (hl _ (hm.leaves u))).trans (.of_eq ?_ hst.busKept.bus)⟩
    · rcases hst.mem_pos hx with hx | hx | ⟨push, he, hx⟩
      · exact hu.1 x (by simp [hp, hx])
      · exact hu.1 x (hf.pos a ▸ hx)
      · rw [hm.pushes u push w he] at hx
        cases hx
    · rcases hst with ⟨r, rfl⟩ | ⟨k', rfl, -⟩ <;> simp

theorem command_onlyAt {addr : Nat} {i : Instr} {m : Stmt} {s t : State}
    (hm : AccessStmt addr (.port s.active) m) (h : command i [m] s = .next t) :
    OnlyAt addr s t := by
  unfold command at h
  split at h
  · next hid =>
    split at h
    · refine .trans (t := s.setPos (.port s.active) [m]) (.of_eq (by simp) (by simp))
        (drive_onlyAt (fun x hx => ?_) h)
      rcases mem_pos_setPos hx with hx | hx
      · exact List.mem_singleton.mp hx ▸ hm
      · rw [List.isEmpty_iff.mp hid] at hx
        cases hx
    · cases h
      exact .of_eq (by simp [illegalCommand]) (by simp [illegalCommand])
  · cases h
    exact .of_eq rfl rfl

/-- Settles O25: the prologue of an any-bank address is empty, so every transaction of the one statement
is at its offset. -/
theorem anyBankAddressesNeverSwitch : Obligations.AnyBankAddressesNeverSwitch := by
  intro addr m v s t ha h
  have hs : OnlyAt addr.toNat s t := by
    rcases h with h | h | h
    · exact command_onlyAt (accessStmt_rdReturn ha _) h
    · exact command_onlyAt (accessStmt_prim ha _ (p := .wr addr.toNat v) rfl) h
    · exact command_onlyAt (accessStmt_prim ha _ (p := .upd addr.toNat m v) rfl) h
  exact ⟨hs.shadow, hs.log⟩

end Sys2Proof.Machine
end

section
/-! SUPPORT. DDC_ABORT and RDBLK whichever transactions fail: the run of the sequencer is the sequence
of primitives the rules give. -/

namespace Sys2Proof.Machine

section
variable {a : AgentId} {c : Params} {n m : Nat} {rest : List Stmt} {s t u : State}
  {o : Host.Outcome State Fault Refusal} {α β : Type}

/-- The first piece of a sequence, where the statements still to come raise to the same invoker and what
follows its value leads to `k'`. -/
theorem Then.first {rest' : List Stmt} {r : PRes α} {g : α → State → PRes β}
    {k : β → State → Prop} {k' : α → State → Prop} (h : Then a c n rest (r.bind g) o k)
    (hr : afterAbsorb rest' = afterAbsorb rest) (hn : n ≤ m)
    (hk : ∀ v t, Calm a t → t.cfg = c → Then a c n rest (g v t) o k → k' v t) :
    Then a c m rest' r o k' :=
  ((Then.bind h).imp fun v t h1 h2 h3 => hk v t h1 h2 h3).congr_rest hr hn

theorem PRes.bind_assoc {γ : Type} (r : PRes α) (f : α → State → PRes β)
    (g : β → State → PRes γ) :
    (r.bind f).bind g = r.bind fun v t => (f v t).bind g := by
  cases r <;> rfl

@[simp] theorem PRes.ok_bind (v : α) (s : State) (k : α → State → PRes β) :
    (PRes.ok v s).bind k = k v s := rfl

/-! ## DDC_ABORT -/

/-- The end of the abort sequence: OK where a poll was Done (rule R147). -/
theorem EndsIn.verdict {d : Bool} (hs : Calm a s) (hc : s.cfg = c)
    (h : Then a c m rest (if d = true then .ok () s else .err .protocolError s) o
      fun _ t => GoesOn a m rest t o) :
    EndsIn a (m + 1) (.abortIter 0 d :: rest) s o := by
  cases d with
  | true => exact EndsIn.go hs.1 (push := []) (fun _ => rfl) hs (h hs hc)
  | false => exact EndsIn.raise hs.1 (e := .protocolError) (fun _ => rfl) hs (h hs hc)

/-- Both iterations and the verdict. -/
theorem EndsIn.iterations (hp : paramsOk c = true) (hs : Calm a s) (hc : s.cfg = c)
    (h : Then a c m rest ((s.iterRun a).bind fun first u => (u.iterRun a).bind fun second v =>
        if first = true ∨ second = true then .ok () v else .err .protocolError v) o
      fun _ t => GoesOn a m rest t o) :
    EndsIn a (m + 405) (.abortIter 2 false :: rest) s o := by
  refine EndsIn.abortIter (m := m + 203) hp hs hc (h.first rfl (by omega) fun first u hu hcu h => ?_)
  refine GoesOn.of_endsIn ?_ nofun
  refine EndsIn.abortIter (m := m + 1) hp hu hcu (h.first rfl (by omega) fun second v hv hcv h => ?_)
  refine GoesOn.of_endsIn (EndsIn.verdict hv hcv ?_) nofun
  simpa using h

/-- The abort sequence, inside any operation (rules R145 to R148). -/
theorem EndsIn.abort (hp : paramsOk c = true) (hs : Calm a s) (hc : s.cfg = c)
    (h : Then a c m rest (s.abortRun a) o fun _ t => GoesOn a m rest t o) :
    EndsIn a (m + 409) (abortProgram c ++ rest) s o := by
  subst hc
  simp only [State.abortRun, State.inTurn, PRes.bind_assoc, PRes.ok_bind] at h
  refine EndsIn.save (addr := s.cfg.rst.swrstAddr) (m := m + 408) hp rfl (by simp [namedAddrs]) hs rfl
    (h.first rfl (by omega) fun _ t ht hct h => GoesOn.of_endsIn ?_ nofun)
  refine EndsIn.save (addr := s.cfg.rst.hdcpAddr) (m := m + 407) hp rfl (by simp [namedAddrs]) ht hct
    (h.first rfl (by omega) fun _ t ht hct h => GoesOn.of_endsIn ?_ nofun)
  refine EndsIn.save (addr := s.cfg.ddc.ddcmAddr) (m := m + 406) hp rfl (by simp [namedAddrs]) ht hct
    (h.first rfl (by omega) fun _ t ht hct h => GoesOn.of_endsIn ?_ nofun)
  refine EndsIn.prim (n := m + 405) ht hct
    (prim_named_err hp ⟨_, by simp [namedAddrs], .inr ⟨_, rfl⟩⟩)
    (h.first rfl (by omega) fun _ t ht hct h => GoesOn.of_endsIn ?_ nofun)
  exact EndsIn.iterations hp ht hct h

/-! ## RDBLK -/

/-- A byte is appended to `result` (rule R150). -/
def State.collect (s : State) (v : Byte) : State := { s with result := s.result ++ [v] }

theorem drainRun_succ (a : AgentId) (n : Nat) (s : State) :
    s.drainRun a (n + 1)
      = (s.callRun a (.rd s.cfg.ddc.fifoAddr)).bind fun v t => (t.collect v).drainRun a n := rfl

/-- Collecting a byte looks at no position. -/
theorem collect_setPos (s : State) (a : AgentId) (k : List Stmt) (v : Byte) :
    (s.setPos a k).collect v = (s.collect v).setPos a k := by
  rcases a with (_ | i) | _ | _ <;> rfl

theorem Calm.result (h : Calm a s) (l : List Byte) : Calm a { s with result := l } := by
  refine ⟨?_, h.2.1, h.2.2⟩
  rcases a with (_ | i) | _ | _ <;> exact h.1

theorem Calm.collect (h : Calm a s) (v : Byte) : Calm a (s.collect v) := h.result _

/-- One FIFO read with `n` bytes to drain after it. -/
theorem stmtStep_drain (a : AgentId) (n : Nat) (s : State) (q : List Stmt) :
    stmtStep a (.drain (n + 1)) (s.setPos a q)
      = callPrim a (.rd s.cfg.ddc.fifoAddr) (s.setPos a q) fun v s' =>
        .go (if n = 0 then [] else [.drain n]) (s'.collect v) := by
  rw [← State.setPos_cfg s a q]
  rfl

/-- The FIFO reads of one chunk. -/
theorem EndsIn.drain (hp : paramsOk c = true) (n : Nat) : ∀ {s : State}, Calm a s → s.cfg = c →
    Then a c m rest (s.drainRun a (n + 1)) o (fun _ t => GoesOn a m rest t o) →
    EndsIn a (m + (n + 1)) (.drain (n + 1) :: rest) s o := by
  induction n with
  | zero =>
    intro s hs hc h
    subst hc
    refine EndsIn.call hs rfl (prim_named_err hp ⟨_, by simp [namedAddrs], .inl rfl⟩)
      (stmtStep_drain a 0 s) (h.first rfl le_rfl fun v t ht hct h => ?_)
    exact ⟨[], t.collect v, fun p => by simp [collect_setPos], ht.collect v,
      h (ht.collect v) hct⟩
  | succ n ih =>
    intro s hs hc h
    subst hc
    refine EndsIn.call (n := m + (n + 1)) hs rfl
      (prim_named_err hp ⟨_, by simp [namedAddrs], .inl rfl⟩)
      (stmtStep_drain a (n + 1) s) (h.first rfl (by omega) fun v t ht hct h => ?_)
    exact ⟨[.drain (n + 1)], t.collect v, fun p => by simp [collect_setPos], ht.collect v,
      GoesOn.of_endsIn (ih (ht.collect v) hct h) (by simp)⟩

/-- `raise e`. -/
theorem EndsIn.fail {e : Status} {rest' : List Stmt} (hs : Calm a s) (h : Raised a m e rest s o)
    (hr : afterAbsorb rest' = afterAbsorb rest) (hn : m + 1 ≤ n) :
    EndsIn a n (.fail e :: rest') s o := by
  refine (EndsIn.raise hs.1 (e := e) (fun _ => rfl) hs ?_).mono hn
  unfold Raised at h ⊢
  rwa [hr]

/-- The five writes that program and start one read command, then its poll and the FIFO reads. -/
theorem EndsIn.command (hp : paramsOk c = true) {segment offset n : Nat} (hs : Calm a s)
    (hc : s.cfg = c)
    (h : Then a c m rest ((State.inTurn
        [calls a (.wr c.ddc.hdrAddr c.ddc.hdrEdid), calls a (.wr c.ddc.offAddr (BitVec.ofNat 8 offset)),
          calls a (.wr c.ddc.cntAddr (BitVec.ofNat 8 (n + 1))),
          calls a (.wr c.ddc.segAddr (BitVec.ofNat 8 segment)),
          calls a (.wr c.ddc.cmdAddr c.ddc.cmdRead)] s).bind fun _ v =>
      (v.pollRun a 250).bind fun second w =>
      match second with
      | .error _ => .err .protocolError w
      | .exhausted => .err .protocolTimeout w
      | .done => w.drainRun a (n + 1)) o fun _ t => GoesOn a m rest t o) :
    EndsIn a (m + (n + 1) + 255)
      (.prim (.wr c.ddc.hdrAddr c.ddc.hdrEdid) :: .prim (.wr c.ddc.offAddr (BitVec.ofNat 8 offset))
        :: .prim (.wr c.ddc.cntAddr (BitVec.ofNat 8 (n + 1)))
        :: .prim (.wr c.ddc.segAddr (BitVec.ofNat 8 segment))
        :: .prim (.wr c.ddc.cmdAddr c.ddc.cmdRead) :: .poll .post pollRead :: .drain (n + 1) :: rest)
      s o := by
  simp only [State.inTurn, PRes.bind_assoc, PRes.ok_bind] at h
  have hio : ∀ {x : Nat} {v : Byte} {s : State}, x ∈ namedAddrs c →
      ∀ e t, s.prim a (.wr x v) = .err e t → e = .ioError :=
    fun hx => prim_named_err hp ⟨_, hx, .inr ⟨_, rfl⟩⟩
  refine EndsIn.prim (n := m + (n + 1) + 254) hs hc (hio (by simp [namedAddrs]))
    (h.first rfl (by omega) fun _ t ht hct h => GoesOn.of_endsIn ?_ nofun)
  refine EndsIn.prim (n := m + (n + 1) + 253) ht hct (hio (by simp [namedAddrs]))
    (h.first rfl (by omega) fun _ t ht hct h => GoesOn.of_endsIn ?_ nofun)
  refine EndsIn.prim (n := m + (n + 1) + 252) ht hct (hio (by simp [namedAddrs]))
    (h.first rfl (by omega) fun _ t ht hct h => GoesOn.of_endsIn ?_ nofun)
  refine EndsIn.prim (n := m + (n + 1) + 251) ht hct (hio (by simp [namedAddrs]))
    (h.first rfl (by omega) fun _ t ht hct h => GoesOn.of_endsIn ?_ nofun)
  refine EndsIn.prim (n := m + (n + 1) + 250) ht hct (hio (by simp [namedAddrs]))
    (h.first rfl (by omega) fun _ t ht hct h => GoesOn.of_endsIn ?_ nofun)
  refine EndsIn.poll (m := m + (n + 1)) hp 249 ht hct
    (h.first rfl (by omega) fun r w hw hcw h => ?_)
  cases r with
  | done => exact GoesOn.of_endsIn (EndsIn.drain hp n hw hcw h) nofun
  | error b => exact GoesOn.of_endsIn (EndsIn.fail hw (h hw hcw) rfl (by omega)) nofun
  | exhausted => exact GoesOn.of_endsIn (EndsIn.fail hw (h hw hcw) rfl (by omega)) nofun

/-- The chunk sizes follow the loop: what one chunk takes, then those of what remains (rule R152). -/
theorem chunkSizes_pos {remaining : Nat} (h : remaining ≠ 0) :
    chunkSizes remaining
      = chunkSize remaining :: chunkSizes (remaining - chunkSize remaining) := by
  have e1 : fifoMax = 32 := rfl
  rcases Nat.lt_or_ge remaining 32 with hlt | hge
  · have hc : chunkSize remaining = remaining := by unfold chunkSize; omega
    have hd : remaining / 32 = 0 := by omega
    have hm : remaining % 32 = remaining := by omega
    simp [chunkSizes, hc, hd, hm, h]
  · obtain ⟨r, rfl⟩ : ∃ r, remaining = r + 32 := ⟨remaining - 32, by omega⟩
    have hc : chunkSize (r + 32) = 32 := by unfold chunkSize; omega
    have hd : (r + 32) / 32 = r / 32 + 1 := by omega
    simp [chunkSizes, hc, hd, List.replicate_succ]

@[simp] theorem chunkSizes_zero : chunkSizes 0 = [] := rfl

/-- A primitive whose value is dropped and whose error ends the operation. -/
theorem EndsIn.primCall {p : Prim} (hs : Calm a s) (hc : s.cfg = c)
    (hio : ∀ e t, s.prim a p = .err e t → e = .ioError)
    (h : Then a c n rest (s.callRun a p) o fun _ t => GoesOn a n rest t o) :
    EndsIn a (n + 1) (.prim p :: rest) s o :=
  EndsIn.call hs hc hio (k := fun _ s' => .go [] s') (fun _ => rfl)
    (h.imp fun _ t ht _ h => ⟨[], t, fun _ => rfl, ht, h⟩)

/-- A best-effort primitive whose value is dropped. -/
theorem EndsIn.tryPrimCall {p : Prim} (hs : Calm a s) (hc : s.cfg = c)
    (h : Then a c n rest (s.attemptRun a p) o fun _ t => GoesOn a n rest t o) :
    EndsIn a (n + 1) (.tryPrim p :: rest) s o :=
  EndsIn.attempt hs hc (k := fun _ s' => .go [] s') (fun _ => rfl) (fun _ _ => rfl)
    (h.imp fun _ t ht _ h => ⟨[], t, fun _ => rfl, ht, h⟩)

/-- One chunk of a block read. -/
theorem EndsIn.chunk (hp : paramsOk c = true) {segment offset remaining : Nat} (hr : remaining ≠ 0)
    (hs : Calm a s) (hc : s.cfg = c)
    (h : Then a c m rest (s.chunkRun a segment offset (chunkSize remaining)) o fun _ t =>
      GoesOn a m (.chunk segment (offset + chunkSize remaining) (remaining - chunkSize remaining)
        :: rest) t o) :
    EndsIn a (m + 489) (.chunk segment offset remaining :: rest) s o := by
  subst hc
  have hle : chunkSize remaining ≤ 32 := Nat.min_le_right _ _
  obtain ⟨n, hn⟩ : ∃ n, chunkSize remaining = n + 1 :=
    ⟨chunkSize remaining - 1, by have : fifoMax = 32 := rfl; unfold chunkSize; omega⟩
  refine EndsIn.go (n := m + 488) (u := s)
    (push := chunkProgram s.cfg.ddc segment offset remaining) hs.1 (fun q => ?_) hs ?_
  · simp only [stmtStep, stepChunk, if_neg hr, State.setPos_cfg]
  unfold State.chunkRun at h
  rw [hn] at h hle
  refine GoesOn.of_endsIn ?_ nofun
  simp only [chunkProgram, List.cons_append, List.nil_append, hn]
  refine EndsIn.primCall (n := m + 487) hs rfl
    (prim_named_err hp ⟨_, by simp [namedAddrs], .inr ⟨_, rfl⟩⟩)
    (h.first rfl (by omega) fun _ t ht hct h => GoesOn.of_endsIn ?_ nofun)
  refine EndsIn.poll (m := m + 287) hp 199 ht hct
    (h.first rfl (by omega) fun first u hu hcu h => ?_)
  cases first with
  | done =>
    refine GoesOn.of_endsIn ((EndsIn.command (m := m) hp hu hcu ?_).mono (by omega)) nofun
    rw [← hcu] at h ⊢
    exact h.congr_rest rfl le_rfl
  | error b =>
    refine GoesOn.of_endsIn ((EndsIn.tryPrimCall (n := m + 1) hu hcu ?_).mono (by omega)) nofun
    refine h.first rfl (by omega) fun _ v hv hcv h => ?_
    exact GoesOn.of_endsIn (EndsIn.fail hv (h hv hcv) rfl le_rfl) nofun
  | exhausted => exact GoesOn.of_endsIn (EndsIn.fail hu (h hu hcu) rfl (by omega)) nofun

/-- The chunks of a block read. -/
theorem EndsIn.chunks (hp : paramsOk c = true) (segment : Nat) (j : Nat) :
    ∀ {offset remaining : Nat} {s : State}, remaining ≤ 32 * j → Calm a s → s.cfg = c →
    Then a c m rest (s.chunksRun a segment offset (chunkSizes remaining)) o
      (fun _ t => GoesOn a m rest t o) →
    EndsIn a (m + 1 + 489 * j) (.chunk segment offset remaining :: rest) s o := by
  induction j with
  | zero =>
    intro offset remaining s hj hs hc h
    obtain rfl : remaining = 0 := by omega
    exact EndsIn.go hs.1 (push := []) (fun _ => rfl) hs (h hs hc)
  | succ j ih =>
    intro offset remaining s hj hs hc h
    by_cases hr : remaining = 0
    · subst hr
      exact (EndsIn.go hs.1 (push := []) (fun _ => rfl) hs (h hs hc)).mono (by omega)
    · have hle : remaining - chunkSize remaining ≤ 32 * j := by
        have e1 : fifoMax = 32 := rfl
        unfold chunkSize
        omega
      rw [chunkSizes_pos hr] at h
      refine (EndsIn.chunk (m := m + 1 + 489 * j) hp hr hs hc
        (h.first rfl (by omega) fun _ t ht hct h => ?_)).mono (by omega)
      exact GoesOn.of_endsIn (ih hle ht hct h) nofun

/-- The register of the hang check is a named one. -/
theorem hangAddr_named (c : Params) : hangAddr c.irq ∈ namedAddrs c := by
  unfold hangAddr
  cases c.irq.clearMap.busHang.group <;> simp [namedAddrs, PerGroup.get]

/-- The entry check of RDBLK, with DDC_ABORT where the bit is set. -/
theorem EndsIn.hangCheck (hp : paramsOk c = true) (hs : Calm a s) (hc : s.cfg = c)
    (h : Then a c m rest ((s.callRun a (.rd (hangAddr c.irq))).bind fun v t =>
        if v &&& c.irq.clearMap.busHang.statusBit ≠ 0 then t.abortRun a else .ok () t) o
      fun _ t => GoesOn a m rest t o) :
    EndsIn a (m + 410) (.hangCheck :: rest) s o := by
  subst hc
  refine EndsIn.call (n := m + 409) hs rfl
    (prim_named_err hp ⟨_, hangAddr_named s.cfg, .inl rfl⟩)
    (k := fun v s' => .go (if hangBit s'.cfg.irq v then abortProgram s'.cfg else []) s')
    (fun q => by rw [← State.setPos_cfg s a q]; rfl) (h.first rfl (by omega) fun v t ht hct h => ?_)
  by_cases hb : v &&& s.cfg.irq.clearMap.busHang.statusBit ≠ 0
  · rw [if_pos hb] at h
    refine ⟨abortProgram s.cfg, t, fun p => ?_, ht, GoesOn.of_endsIn (EndsIn.abort hp ht hct h) nofun⟩
    have hbit : hangBit s.cfg.irq v = true := decide_eq_true hb
    simp [hct, hbit]
  · rw [if_neg hb] at h
    refine ⟨[], t, fun p => ?_, ht, (h ht hct).mono (by omega)⟩
    have hbit : hangBit s.cfg.irq v = false := decide_eq_false hb
    simp [hct, hbit]

/-- RDBLK of at most 128 bytes (rules R150 to R156). -/
theorem EndsIn.rdblk (hp : paramsOk c = true) {block length : Nat} (hl : length ≤ 128)
    (hs : Calm a s) (hc : s.cfg = c)
    (h : Then a c m rest (s.rdblkRun a block length) o fun _ t => GoesOn a m rest t o) :
    EndsIn a (m + 2369) (.rdblk block length :: rest) s o := by
  subst hc
  refine EndsIn.go (n := m + 2368) (u := { s with result := [] })
    (push := [.hangCheck, .prim (fifoClear s.cfg),
      .chunk (edidSegment block) (edidOffset block length) length]) hs.1 (fun q => ?_)
    (hs.result []) ?_
  · rcases a with (_ | i) | _ | _ <;> rfl
  unfold State.rdblkRun at h
  rw [← PRes.bind_assoc] at h
  refine GoesOn.of_endsIn ?_ nofun
  refine EndsIn.hangCheck (m := m + 1958) hp (hs.result []) rfl
    (h.first rfl (by omega) fun _ t ht hct h => GoesOn.of_endsIn ?_ nofun)
  refine EndsIn.primCall (n := m + 1957) ht hct
    (prim_named_err hp ⟨_, by simp [namedAddrs], .inr ⟨_, rfl⟩⟩) ?_
  exact h.first rfl (by omega)
    fun _ t ht hct h => GoesOn.of_endsIn (EndsIn.chunks hp _ 4 (by omega) ht hct h) nofun

end

/-- How the run of a host command ends is how its sequence ended. -/
theorem Then.hostOutcome (c : Params) (n : Nat) (r : PRes Unit) :
    Then (.port .host) c n [] r (hostOutcome r) fun _ t =>
      GoesOn (.port .host) n [] t (hostOutcome r) := by
  cases r with
  | ok v t => exact fun _ _ => rfl
  | err e t => exact fun _ _ => rfl
  | stop x => rfl

/-- An operation that only the host may start is served for the host (rule R96). -/
theorem Ready.active_host {i : Instr} {s : State} (h : Ready i s) (hi : auxMayStart i = false) :
    s.active = .host := by
  by_contra hne
  have := h.2.2.2
  simp [legalCommand, hne, hi] at this

/-- DDC_ABORT of the host, whichever transactions fail. -/
theorem execDdcAbort_eq {s : State} (h : Ready .ddcAbort s) (ha : Alone s)
    (hp : paramsOk s.cfg = true) :
    exec .ddcAbort s = hostOutcome (s.abortRun (.port .host)) := by
  have hact := h.active_host rfl
  have hs : Calm (.port .host) s := ⟨rfl, ha, h.2.2.1⟩
  show command .ddcAbort (abortProgram s.cfg) s = _
  rw [command_ready h, hact]
  have := EndsIn.abort (m := 0) hp hs rfl (Then.hostOutcome s.cfg 0 (s.abortRun (.port .host)))
  rw [List.append_nil] at this
  exact this _ (by unfold driveBound; omega)

/-- RDBLK of the host, whichever transactions fail. -/
theorem execRdblk_eq {block : BitVec 8} {length : BitVec 16} {s : State}
    (h : Ready (.rdblk block length) s) (ha : Alone s) (hp : paramsOk s.cfg = true) :
    exec (.rdblk block length) s
      = hostOutcome (s.rdblkRun (.port .host) block.toNat length.toNat) := by
  have hact := h.active_host rfl
  have hs : Calm (.port .host) s := ⟨rfl, ha, h.2.2.1⟩
  have hl : length.toNat ≤ 128 := by
    have := h.2.2.2
    simp only [legalCommand, Instr.wellFormed, Bool.and_eq_true, decide_eq_true_eq] at this
    exact this.2
  show command (.rdblk block length) [.rdblk block.toNat length.toNat] s = _
  rw [command_ready h, hact]
  exact EndsIn.rdblk (m := 0) hp hl hs rfl
    (Then.hostOutcome s.cfg 0 (s.rdblkRun (.port .host) block.toNat length.toNat)) _
    (by unfold driveBound; omega)

end Sys2Proof.Machine
end

section
/-! SUPPORT. DDC_ABORT and RDBLK undisturbed: every primitive gives its value, so the sequences of
primitives are the effects the rules give. -/

namespace Sys2Proof.Machine

section
variable {a : AgentId} {s : State}

/-! ## The primitives as calls -/

theorem Undisturbed.callRun_rd (h : Undisturbed a s) {addr : Nat} (ha : addr ∈ namedAddrs s.cfg) :
    s.callRun a (.rd addr) = .ok (s.rdValue addr) (s.rdAt addr) := by
  have hr := (runPrim_prim h.calm).symm.trans (h.rd ha).1
  rw [State.callRun, Option.some.inj hr]

theorem Undisturbed.callRun_wr (h : Undisturbed a s) {addr : Nat} (ha : addr ∈ namedAddrs s.cfg)
    (v : Byte) : s.callRun a (.wr addr v) = .ok 0 (s.wrAt addr v) := by
  have hr := (runPrim_prim h.calm).symm.trans (h.wr ha v).1
  rw [State.callRun, Option.some.inj hr]

theorem Undisturbed.attemptRun_wr (h : Undisturbed a s) {addr : Nat} (ha : addr ∈ namedAddrs s.cfg)
    (v : Byte) : s.attemptRun a (.wr addr v) = .ok 0 (s.wrAt addr v) := by
  have hr := (runPrim_prim h.calm).symm.trans (h.wr ha v).1
  rw [State.attemptRun, Option.some.inj hr]

theorem Undisturbed.calls_wr (h : Undisturbed a s) {addr : Nat} (ha : addr ∈ namedAddrs s.cfg)
    (v : Byte) : calls a (.wr addr v) s = .ok () (s.wrAt addr v) := by
  rw [calls, h.callRun_wr ha, PRes.ok_bind]

/-! ## DDC_ABORT -/

theorem Undisturbed.pollRun_eq (n : Nat) {s : State} (h : Undisturbed a s) :
    s.pollRun a n = .ok (s.pollAt n).1 (s.pollAt n).2 := by
  induction n generalizing s with
  | zero => rfl
  | succ n ih =>
    have hst : s.cfg.ddc.statAddr ∈ namedAddrs s.cfg := by simp [namedAddrs]
    rw [State.pollRun, h.callRun_rd hst, PRes.ok_bind, State.pollAt]
    split
    · rfl
    · split
      · rfl
      · exact ih (h.rd hst).2

theorem Undisturbed.saveRun_eq (h : Undisturbed a s) (r : SaveReg) {addr : Nat}
    (ha : addr ∈ namedAddrs s.cfg) : s.saveRun a r addr = .ok () (s.saveAt a r addr) := by
  rw [State.saveRun, h.callRun_rd ha, PRes.ok_bind]
  rfl

theorem Undisturbed.iterRun_eq (h : Undisturbed a s) :
    s.iterRun a = .ok (decide (s.iterAt.1 = .done)) s.iterAt.2 := by
  have hcmd : s.cfg.ddc.cmdAddr ∈ namedAddrs s.cfg := by simp [namedAddrs]
  rw [State.iterRun, h.callRun_wr hcmd, PRes.ok_bind, (h.wr hcmd _).2.pollRun_eq, PRes.ok_bind]
  rfl

theorem Undisturbed.abortStart_eq (h : Undisturbed a s) :
    State.inTurn [(·.saveRun a .swrst s.cfg.rst.swrstAddr), (·.saveRun a .hdcp s.cfg.rst.hdcpAddr),
      (·.saveRun a .ddcm s.cfg.ddc.ddcmAddr), calls a (.wr s.cfg.ddc.ddcmAddr s.cfg.ddc.ddcmHost)] s
      = .ok () (s.abortStart a) := by
  obtain ⟨h1, c1⟩ := h.saveAt .swrst (addr := s.cfg.rst.swrstAddr) (by simp [namedAddrs])
  have m2 : s.cfg.rst.hdcpAddr ∈ namedAddrs (s.saveAt a .swrst s.cfg.rst.swrstAddr).cfg := by
    rw [c1]; simp [namedAddrs]
  obtain ⟨h2, c2⟩ := h1.saveAt .hdcp m2
  have m3 : s.cfg.ddc.ddcmAddr ∈ namedAddrs
      ((s.saveAt a .swrst s.cfg.rst.swrstAddr).saveAt a .hdcp s.cfg.rst.hdcpAddr).cfg := by
    rw [c2, c1]; simp [namedAddrs]
  obtain ⟨h3, c3⟩ := h2.saveAt .ddcm m3
  simp only [State.inTurn, h.saveRun_eq .swrst (addr := s.cfg.rst.swrstAddr) (by simp [namedAddrs]),
    h1.saveRun_eq .hdcp m2, h2.saveRun_eq .ddcm m3, PRes.ok_bind]
  rw [h3.calls_wr (by rw [c3, c2, c1]; simp [namedAddrs]), PRes.ok_bind]
  rfl

/-- How a sequence that has a status ended. -/
def endedWith (r : Status × State) : PRes Unit :=
  if r.1 = .ok then .ok () r.2 else .err r.1 r.2

theorem endedWith_ok {r : Status × State} (h : r.1 = .ok) : endedWith r = .ok () r.2 := if_pos h

theorem endedWith_err {r : Status × State} (h : r.1 ≠ .ok) : endedWith r = .err r.1 r.2 := if_neg h

theorem hostOutcome_endedWith (r : Status × State) :
    hostOutcome (endedWith r) = .next (r.2.respond .host ⟨r.1, 0⟩) := by
  by_cases h : r.1 = .ok
  · rw [endedWith_ok h, h]
    rfl
  · rw [endedWith_err h]
    rfl

/-- The status of DDC_ABORT from its verdict (rule R147). -/
def abortStatus (b : Bool) : Status := if b then .ok else .protocolError

theorem Undisturbed.abortRun_eq (h : Undisturbed a s) :
    s.abortRun a = endedWith (abortStatus (s.abortAt a).1, (s.abortAt a).2) := by
  have h1 := h.abortStart.1
  rw [State.abortRun, h.abortStart_eq, PRes.ok_bind, h1.iterRun_eq, PRes.ok_bind,
    h1.iterAt.1.iterRun_eq, PRes.ok_bind]
  simp only [State.abortAt]
  generalize decide ((s.abortStart a).iterAt.1 = .done) = first
  generalize decide ((s.abortStart a).iterAt.2.iterAt.1 = .done) = second
  cases first with
  | true => rfl
  | false => cases second <;> rfl

theorem execDdcAbort_undisturbed {s : State} (h : Ready .ddcAbort s) (ha : Alone s) (hf : Fine s)
    (hp : paramsOk s.cfg = true) :
    exec .ddcAbort s = .next ((s.abortAt (.port .host)).2.respond .host
      ⟨abortStatus (s.abortAt (.port .host)).1, 0⟩) := by
  have hu : Undisturbed (.port .host) s := h.active_host rfl ▸ h.undisturbed ha hf hp
  rw [execDdcAbort_eq h ha hp, hu.abortRun_eq, hostOutcome_endedWith]

/-! ## RDBLK -/

theorem drainAt_succ (n : Nat) (s : State) :
    s.drainAt (n + 1)
      = ((s.rdAt s.cfg.ddc.fifoAddr).collect (s.rdValue s.cfg.ddc.fifoAddr)).drainAt n := by
  rw [State.drainAt, State.collect, State.rdAt_result]

theorem Undisturbed.result (h : Undisturbed a s) (l : List Byte) :
    Undisturbed a { s with result := l } := h.congr rfl rfl rfl rfl rfl rfl

/-- A FIFO read whose byte is collected. -/
theorem Undisturbed.fifoRead (h : Undisturbed a s) :
    Undisturbed a ((s.rdAt s.cfg.ddc.fifoAddr).collect (s.rdValue s.cfg.ddc.fifoAddr)) :=
  (h.rd (by simp [namedAddrs])).2.result _

theorem Undisturbed.drainAt (n : Nat) {s : State} (h : Undisturbed a s) :
    Undisturbed a (s.drainAt n) ∧ (s.drainAt n).cfg = s.cfg := by
  induction n generalizing s with
  | zero => exact ⟨h, rfl⟩
  | succ n ih =>
    rw [drainAt_succ]
    exact ⟨(ih h.fifoRead).1, (ih h.fifoRead).2.trans (State.rdAt_cfg s _)⟩

theorem Undisturbed.drainRun_eq (n : Nat) {s : State} (h : Undisturbed a s) :
    s.drainRun a n = .ok () (s.drainAt n) := by
  induction n generalizing s with
  | zero => rfl
  | succ n ih =>
    rw [drainRun_succ, h.callRun_rd (by simp [namedAddrs]), PRes.ok_bind, ih h.fifoRead, drainAt_succ]

/-- The five writes of one read command. -/
theorem Undisturbed.program (h : Undisturbed a s) (segment offset n : Nat) :
    (State.inTurn
      [calls a (.wr s.cfg.ddc.hdrAddr s.cfg.ddc.hdrEdid),
        calls a (.wr s.cfg.ddc.offAddr (BitVec.ofNat 8 offset)),
        calls a (.wr s.cfg.ddc.cntAddr (BitVec.ofNat 8 n)),
        calls a (.wr s.cfg.ddc.segAddr (BitVec.ofNat 8 segment)),
        calls a (.wr s.cfg.ddc.cmdAddr s.cfg.ddc.cmdRead)] s = .ok () (s.programAt segment offset n))
      ∧ Undisturbed a (s.programAt segment offset n) ∧ (s.programAt segment offset n).cfg = s.cfg := by
  have h1 := (h.wr (addr := s.cfg.ddc.hdrAddr) (by simp [namedAddrs]) s.cfg.ddc.hdrEdid).2
  have m2 : s.cfg.ddc.offAddr ∈ namedAddrs (s.wrAt s.cfg.ddc.hdrAddr s.cfg.ddc.hdrEdid).cfg := by
    simp [namedAddrs]
  have h2 := (h1.wr m2 (BitVec.ofNat 8 offset)).2
  have h3 := (h2.wr (addr := s.cfg.ddc.cntAddr) (by simp [namedAddrs]) (BitVec.ofNat 8 n)).2
  have h4 := (h3.wr (addr := s.cfg.ddc.segAddr) (by simp [namedAddrs]) (BitVec.ofNat 8 segment)).2
  have h5 := (h4.wr (addr := s.cfg.ddc.cmdAddr) (by simp [namedAddrs]) s.cfg.ddc.cmdRead).2
  refine ⟨?_, h5, by simp [State.programAt]⟩
  simp only [State.inTurn]
  rw [h.calls_wr (by simp [namedAddrs]), PRes.ok_bind, h1.calls_wr m2, PRes.ok_bind,
    h2.calls_wr (by simp [namedAddrs]), PRes.ok_bind, h3.calls_wr (by simp [namedAddrs]), PRes.ok_bind,
    h4.calls_wr (by simp [namedAddrs]), PRes.ok_bind]
  rfl

/-- One chunk, whichever way its polls end. -/
theorem Undisturbed.chunkRun_eq (h : Undisturbed a s) (segment offset n : Nat) :
    s.chunkRun a segment offset n = endedWith (s.chunkAt segment offset n)
      ∧ Undisturbed a (s.chunkAt segment offset n).2
      ∧ (s.chunkAt segment offset n).2.cfg = s.cfg := by
  have hcmd : s.cfg.ddc.cmdAddr ∈ namedAddrs s.cfg := by simp [namedAddrs]
  have hw := (h.wr hcmd s.cfg.ddc.cmdFifoClr).2
  have hp := hw.pollAt 200
  have hpc : ((s.wrAt s.cfg.ddc.cmdAddr s.cfg.ddc.cmdFifoClr).pollAt 200).2.cfg = s.cfg :=
    hp.2.trans (State.wrAt_cfg s _ _)
  rw [State.chunkRun, fifoClearOf, h.callRun_wr hcmd, PRes.ok_bind, hw.pollRun_eq, PRes.ok_bind,
    State.chunkAt]
  generalize (s.wrAt s.cfg.ddc.cmdAddr s.cfg.ddc.cmdFifoClr).pollAt 200 = p at hp hpc
  obtain ⟨r, u⟩ := p
  cases r with
  | error b =>
    have hcu : s.cfg.ddc.cmdAddr ∈ namedAddrs u.cfg := hpc ▸ hcmd
    have hwu := (hp.1.wr hcu s.cfg.ddc.cmdFifoClr).2
    exact ⟨by rw [hp.1.attemptRun_wr hcu]; rfl, hwu, (State.wrAt_cfg u _ _).trans hpc⟩
  | exhausted => exact ⟨rfl, hp.1, hpc⟩
  | done =>
    obtain ⟨hrun, hu, hcu⟩ := hp.1.program segment offset n
    have hq := hu.pollAt 250
    rw [hpc] at hrun
    simp only
    rw [hrun, PRes.ok_bind, hu.pollRun_eq, PRes.ok_bind]
    generalize (u.programAt segment offset n).pollAt 250 = q at hq
    obtain ⟨r, w⟩ := q
    have hcw : w.cfg = s.cfg := hq.2.trans (hcu.trans hpc)
    cases r with
    | error b => exact ⟨rfl, hq.1, hcw⟩
    | exhausted => exact ⟨rfl, hq.1, hcw⟩
    | done => exact ⟨by rw [hq.1.drainRun_eq]; rfl, (hq.1.drainAt n).1, (hq.1.drainAt n).2.trans hcw⟩

theorem Undisturbed.chunksRun_eq (segment : Nat) (ns : List Nat) : ∀ (offset : Nat) {s : State},
    Undisturbed a s →
    s.chunksRun a segment offset ns = endedWith (s.chunksAt segment offset ns) := by
  induction ns with
  | nil => exact fun _ _ _ => rfl
  | cons n ns ih =>
    intro offset s h
    obtain ⟨hr, hu, -⟩ := h.chunkRun_eq segment offset n
    rw [State.chunksRun, State.chunksAt, hr]
    by_cases hok : (s.chunkAt segment offset n).1 = .ok
    · rw [if_pos hok, endedWith_ok hok, PRes.ok_bind, ih _ hu]
    · rw [if_neg hok, endedWith_err hok]
      rfl

/-- The hang check, and DDC_ABORT where the bit is set. -/
theorem hangCheckRun_eq {s : State} (h : Undisturbed (.port .host) s) :
    ((s.callRun (.port .host) (.rd (hangAddr s.cfg.irq))).bind fun v t =>
      if v &&& s.cfg.irq.clearMap.busHang.statusBit ≠ 0 then t.abortRun (.port .host) else .ok () t)
      = endedWith (abortStatus s.hangCheckedAt.1, s.hangCheckedAt.2)
    ∧ Undisturbed (.port .host) s.hangCheckedAt.2 ∧ s.hangCheckedAt.2.cfg = s.cfg := by
  have hrd := (h.rd (hangAddr_named s.cfg)).2
  have hcr : (s.rdAt (hangAddr s.cfg.irq)).cfg = s.cfg := State.rdAt_cfg s _
  rw [h.callRun_rd (hangAddr_named s.cfg), PRes.ok_bind, State.hangCheckedAt]
  split
  · exact ⟨hrd.abortRun_eq, hrd.abortAt.1, hrd.abortAt.2.trans hcr⟩
  · exact ⟨rfl, hrd, hcr⟩

theorem rdblkRun_eq {s : State} (h : Undisturbed (.port .host) s) (block length : Nat) :
    s.rdblkRun (.port .host) block length = endedWith (s.rdblkAt block length) := by
  obtain ⟨hr, hu, hc⟩ := hangCheckRun_eq (h.result [])
  rw [State.rdblkRun, ← PRes.bind_assoc, State.rdblkAt]
  rw [hr]
  cases hb : ({ s with result := [] } : State).hangCheckedAt.1 with
  | false => rfl
  | true =>
    have hcmd : s.cfg.ddc.cmdAddr ∈ namedAddrs ({ s with result := [] } : State).hangCheckedAt.2.cfg := by
      rw [hc]; simp [namedAddrs]
    rw [endedWith_ok rfl, PRes.ok_bind, fifoClearOf]
    simp only [if_true]
    rw [hu.callRun_wr hcmd, PRes.ok_bind, (hu.wr hcmd _).2.chunksRun_eq]

end

/-- Settles O41: the run is the sequence of primitives, and undisturbed each of them gives its value. -/
theorem rdblkFollowsItsRule : Obligations.RdblkFollowsItsRule := by
  intro block length s h ha hp
  refine ⟨fun hf => ?_, execRdblk_eq h ha hp⟩
  have hu : Undisturbed (.port .host) s := h.active_host rfl ▸ h.undisturbed ha hf hp
  rw [execRdblk_eq h ha hp, rdblkRun_eq hu, hostOutcome_endedWith]

end Sys2Proof.Machine
end

section
/-! SUPPORT. What DDC_ABORT leaves alone, undisturbed and where a transaction fails. -/

namespace Sys2Proof.Machine

/-! ## Traffic that changes no register -/

/-- From `s` to `t` register traffic that changed no register but possibly the bank select. -/
structure Quiet (s t : State) : Prop where
  traffic : ∃ n, BusFrame n s t
  regs : ∀ r, r ≠ s.cfg.bank.addr → t.x.read r = s.x.read r

theorem Quiet.refl (s : State) : Quiet s s := ⟨⟨0, .refl s⟩, fun _ _ => rfl⟩

theorem Quiet.cfg {s t : State} (h : Quiet s t) : t.cfg = s.cfg := by
  obtain ⟨_, hf⟩ := h.traffic
  rw [hf.frame]

theorem Quiet.hostPort {s t : State} (h : Quiet s t) : t.hostPort = s.hostPort := by
  obtain ⟨_, hf⟩ := h.traffic
  rw [hf.frame]

theorem Quiet.trans {s t u : State} (h : Quiet s t) (h' : Quiet t u) : Quiet s u := by
  obtain ⟨_, hf⟩ := h.traffic
  obtain ⟨_, hf'⟩ := h'.traffic
  exact ⟨⟨_, hf.trans hf'⟩, fun r hr => (h'.regs r (h.cfg ▸ hr)).trans (h.regs r hr)⟩

/-- The command register stores nothing (rules R72, R75). -/
theorem isPlain_cmdAddr (c : Params) : isPlain c c.ddc.cmdAddr = false := by
  simp [isPlain, isTriggered]

/-- A write to a register whose write acts on the environment changes no register but possibly the bank
select. -/
theorem wrAt_read_not_plain (s : State) {addr : Nat} (v : Byte) (ha : addr ≠ s.cfg.bank.addr)
    (hp : isPlain s.cfg addr = false) {r : Nat} (hr : r ≠ s.cfg.bank.addr) :
    (s.wrAt addr v).x.read r = s.x.read r := by
  have hx : (s.wrAt addr v).x = (s.switched (needOf addr)).x :=
    storedIn_not_plain v (by rwa [switched_cfg]) (by rwa [switched_cfg])
  rw [hx]
  exact switched_read _ hr

section
variable {a : AgentId} {s : State}

theorem Undisturbed.rdAt_quiet (h : Undisturbed a s) {addr : Nat} (ha : addr ∈ namedAddrs s.cfg) :
    Quiet s (s.rdAt addr) :=
  ⟨⟨3, (runPrim_frame (h.rd ha).1).2⟩, fun _ hr => rdAt_read s addr hr⟩

theorem Undisturbed.wrAt_traffic (h : Undisturbed a s) {addr : Nat} (ha : addr ∈ namedAddrs s.cfg)
    (v : Byte) : BusFrame 3 s (s.wrAt addr v) := (runPrim_frame (h.wr ha v).1).2

theorem Undisturbed.pollAt_quiet (n : Nat) {s : State} (h : Undisturbed a s) :
    Quiet s (s.pollAt n).2 := by
  induction n generalizing s with
  | zero => exact .refl s
  | succ n ih =>
    have hst : s.cfg.ddc.statAddr ∈ namedAddrs s.cfg := by simp [namedAddrs]
    rw [State.pollAt]
    split
    · exact h.rdAt_quiet hst
    · split
      · exact h.rdAt_quiet hst
      · exact (h.rdAt_quiet hst).trans (ih (h.rd hst).2)

/-- An abort iteration changes no register: the command register stores nothing. -/
theorem Undisturbed.iterAt_quiet (h : Undisturbed a s) : Quiet s s.iterAt.2 := by
  have hcmd : s.cfg.ddc.cmdAddr ∈ namedAddrs s.cfg := by simp [namedAddrs]
  have hw : Quiet s (s.wrAt s.cfg.ddc.cmdAddr s.cfg.ddc.cmdAbort) :=
    ⟨⟨3, h.wrAt_traffic hcmd _⟩, fun _ hr =>
      wrAt_read_not_plain s _ (paramsOk_named h.ok hcmd).2 (isPlain_cmdAddr s.cfg) hr⟩
  exact hw.trans ((h.wr hcmd _).2.pollAt_quiet 200)

end

/-! ## What DDC_ABORT touches -/

/-- No register but the bank select and `DDCM` changed, and `DDCM` holds what it held or `DDCM_HOST`. -/
structure AbortRegs (s t : State) : Prop where
  others : ∀ r, r ≠ s.cfg.bank.addr → r ≠ s.cfg.ddc.ddcmAddr → t.x.read r = s.x.read r
  ddcm : Memory.wf s.x → t.x.read s.cfg.ddc.ddcmAddr = s.x.read s.cfg.ddc.ddcmAddr
    ∨ t.x.read s.cfg.ddc.ddcmAddr = s.cfg.ddc.ddcmHost

/-- What the steps of the host's DDC_ABORT may touch: registers as `AbortRegs` says, the banks, the save
latches, the draws and the bus log. -/
structure AbortFrame (s t : State) : Prop where
  frame : t = { s with
    x := t.x, hwBank := t.hwBank, ctx := { s.ctx with currentBank := t.ctx.currentBank }
    hostPort := t.hostPort, bus := t.bus, env := t.env }
  wf : Memory.wf s.x → Memory.wf t.x
  regs : AbortRegs s t

theorem AbortRegs.of_same {s t : State} (hp : paramsOk s.cfg = true)
    (h : ∀ r, r ≠ s.cfg.bank.addr → t.x.read r = s.x.read r) : AbortRegs s t :=
  ⟨fun r hr _ => h r hr, fun _ => .inl (h _ (paramsOk_named hp (by simp [namedAddrs])).2)⟩

theorem AbortFrame.of_bus {n : Nat} {s t : State} (h : BusFrame n s t) (hr : AbortRegs s t) :
    AbortFrame s t := by
  have hp : t.hostPort = s.hostPort := by rw [h.frame]
  exact ⟨h.frame.trans (by rw [hp]), h.wf, hr⟩

theorem AbortFrame.cfg {s t : State} (h : AbortFrame s t) : t.cfg = s.cfg := by rw [h.frame]

theorem AbortFrame.lock {s t : State} (h : AbortFrame s t) : t.ctx.lock = s.ctx.lock := by
  rw [h.frame]

theorem AbortFrame.events {s t : State} (h : AbortFrame s t) : t.events = s.events := by
  rw [h.frame]

theorem Quiet.abortFrame {s t : State} (h : Quiet s t) (hp : paramsOk s.cfg = true) :
    AbortFrame s t := by
  obtain ⟨_, hf⟩ := h.traffic
  exact .of_bus hf (.of_same hp h.regs)

theorem AbortFrame.trans {s t u : State} (h : AbortFrame s t) (h' : AbortFrame t u) :
    AbortFrame s u := by
  have hc := h.cfg
  refine ⟨?_, h'.wf ∘ h.wf, fun r hb hd => ?_, fun hw => ?_⟩
  · have h1 := h.frame
    have h2 := h'.frame
    rw [h1] at h2
    exact h2
  · exact (h'.regs.others r (hc ▸ hb) (hc ▸ hd)).trans (h.regs.others r hb hd)
  · have h1 := h.regs.ddcm hw
    have h2 := h'.regs.ddcm (h.wf hw)
    rw [hc] at h2
    rcases h2 with h2 | h2
    · exact h1.imp h2.trans h2.trans
    · exact .inr h2

/-- A save writes a latch of the host port alone. -/
theorem AbortFrame.save {s t : State} (h : AbortFrame s t) (r : SaveReg) (v : Byte) :
    AbortFrame s (t.save (.port .host) r v) := by
  refine ⟨?_, h.wf, h.regs.others, h.regs.ddcm⟩
  have h1 := h.frame
  calc t.save (.port .host) r v
      = { t with hostPort := (t.save (.port .host) r v).hostPort } := rfl
    _ = _ := by rw [h1]; rfl

/-- The mastership write changes `DDCM` alone, if anything (rule R145). -/
theorem abortRegs_wrAt_ddcm {s : State} (hp : paramsOk s.cfg = true) :
    AbortRegs s (s.wrAt s.cfg.ddc.ddcmAddr s.cfg.ddc.ddcmHost) := by
  have hb := (paramsOk_named hp (a := s.cfg.ddc.ddcmAddr) (by simp [namedAddrs])).2
  refine ⟨fun r hr hd => wrAt_read_other s _ hr hd, fun hw => ?_⟩
  cases hpl : isPlain s.cfg s.cfg.ddc.ddcmAddr with
  | true => exact .inr (wrAt_read_self _ hpl hw.1)
  | false => exact .inl (wrAt_read_not_plain s _ hb hpl hb)

/-- The abort command changes no register. -/
theorem abortRegs_wrAt_cmd {s : State} (hp : paramsOk s.cfg = true) (v : Byte) :
    AbortRegs s (s.wrAt s.cfg.ddc.cmdAddr v) :=
  .of_same hp fun _ hr => wrAt_read_not_plain s v
    (paramsOk_named hp (by simp [namedAddrs])).2 (isPlain_cmdAddr s.cfg) hr

/-- The frame with the fields touched as unknowns. -/
theorem AbortFrame.exists {s t : State} (h : AbortFrame s t) : ∃ x hw b hp bus env,
    t = { s with
      x := x, hwBank := hw, ctx := { s.ctx with currentBank := b }, hostPort := hp, bus := bus
      env := env } := ⟨_, _, _, _, _, _, h.frame⟩

/-- The payload of DDC_ABORT is empty (rule R104). -/
theorem Ready.payload_nil {s : State} (h : Ready .ddcAbort s) : s.payload = [] := by
  have := h.2.2.2
  simp only [h.active_host rfl, legalCommand, payloadLength, Bool.and_eq_true, decide_eq_true_eq] at this
  exact List.eq_nil_of_length_eq_zero this.1.2

/-! ## DDC_ABORT undisturbed -/

section
variable {s : State}

/-- What the latches of the host hold after a save. -/
theorem saveAt_sav (s : State) (r : SaveReg) (addr : Nat) :
    (s.saveAt (.port .host) r addr).hostPort.seq.sav
      = s.hostPort.seq.sav.put r (s.rdValue addr) := by
  rw [← State.rdAt_hostPort s addr]
  rfl

/-- The state after the three saves. -/
def State.savesAt (s : State) : State :=
  ((s.saveAt (.port .host) .swrst s.cfg.rst.swrstAddr).saveAt (.port .host) .hdcp
    s.cfg.rst.hdcpAddr).saveAt (.port .host) .ddcm s.cfg.ddc.ddcmAddr

theorem abortStart_eq_wrAt (s : State) : s.abortStart (.port .host)
    = s.savesAt.wrAt s.cfg.ddc.ddcmAddr s.cfg.ddc.ddcmHost := rfl

/-- From `s` to `t` the host saved registers, undisturbed: no register but the bank select changed. -/
structure SavedFrom (s t : State) : Prop where
  undisturbed : Undisturbed (.port .host) t
  frame : AbortFrame s t
  regs : ∀ r, r ≠ s.cfg.bank.addr → t.x.read r = s.x.read r

/-- One more save: the latch holds what a plain register held at the start. -/
theorem SavedFrom.save {t : State} (h : SavedFrom s t) (r : SaveReg) {addr : Nat}
    (ha : addr ∈ namedAddrs s.cfg) :
    SavedFrom s (t.saveAt (.port .host) r addr)
      ∧ ∃ v, (t.saveAt (.port .host) r addr).hostPort.seq.sav = t.hostPort.seq.sav.put r v
        ∧ (isPlain s.cfg addr = true → v = s.x.read addr) := by
  have hc := h.frame.cfg
  have ht : addr ∈ namedAddrs t.cfg := by rwa [hc]
  have hb := (paramsOk_named h.undisturbed.ok ht).2
  have hq := h.undisturbed.rdAt_quiet ht
  refine ⟨⟨(h.undisturbed.saveAt r ht).1, h.frame.trans ((hq.abortFrame h.undisturbed.ok).save r _),
    fun b hne => (hq.regs b (by rwa [hc])).trans (h.regs b hne)⟩, _, saveAt_sav t r addr, fun hp => ?_⟩
  rw [rdValue_plain hb (by rwa [hc]), h.regs addr (by rwa [← hc])]

/-- The three saves change no register, and the latches hold what plain registers held. -/
theorem Undisturbed.savesAt (h : Undisturbed (.port .host) s) :
    SavedFrom s s.savesAt
    ∧ (isPlain s.cfg s.cfg.rst.swrstAddr = true →
        s.savesAt.hostPort.seq.sav.swrst = s.x.read s.cfg.rst.swrstAddr)
    ∧ (isPlain s.cfg s.cfg.rst.hdcpAddr = true →
        s.savesAt.hostPort.seq.sav.hdcp = s.x.read s.cfg.rst.hdcpAddr)
    ∧ (isPlain s.cfg s.cfg.ddc.ddcmAddr = true →
        s.savesAt.hostPort.seq.sav.ddcm = s.x.read s.cfg.ddc.ddcmAddr) := by
  have h0 : SavedFrom s s := ⟨h, (Quiet.refl s).abortFrame h.ok, fun _ _ => rfl⟩
  obtain ⟨h1, v1, e1, p1⟩ := h0.save .swrst (addr := s.cfg.rst.swrstAddr) (by simp [namedAddrs])
  obtain ⟨h2, v2, e2, p2⟩ := h1.save .hdcp (addr := s.cfg.rst.hdcpAddr) (by simp [namedAddrs])
  obtain ⟨h3, v3, e3, p3⟩ := h2.save .ddcm (addr := s.cfg.ddc.ddcmAddr) (by simp [namedAddrs])
  rw [e2, e1] at e3
  exact ⟨h3, fun hp => (congrArg SaveLatches.swrst e3).trans (p1 hp),
    fun hp => (congrArg SaveLatches.hdcp e3).trans (p2 hp),
    fun hp => (congrArg SaveLatches.ddcm e3).trans (p3 hp)⟩

/-- The whole sequence after the saves: the mastership write, then iterations that change no register. -/
theorem Undisturbed.abortAt_frame (h : Undisturbed (.port .host) s) :
    AbortFrame s (s.abortAt (.port .host)).2
    ∧ (s.abortAt (.port .host)).2.hostPort = s.savesAt.hostPort
    ∧ (Memory.wf s.x → isPlain s.cfg s.cfg.ddc.ddcmAddr = true →
        (s.abortAt (.port .host)).2.x.read s.cfg.ddc.ddcmAddr = s.cfg.ddc.ddcmHost) := by
  have m3 : s.cfg.ddc.ddcmAddr ∈ namedAddrs s.cfg := by simp [namedAddrs]
  obtain ⟨hs, hsf, -⟩ := h.savesAt.1
  have hsc := hsf.cfg
  obtain ⟨hst, hcs⟩ := h.abortStart
  have hq := hst.iterAt_quiet.trans hst.iterAt.1.iterAt_quiet
  have hwr : AbortFrame s.savesAt (s.abortStart (.port .host)) := by
    rw [abortStart_eq_wrAt, ← hsc]
    exact .of_bus (hs.wrAt_traffic (by simp [namedAddrs]) _) (abortRegs_wrAt_ddcm hs.ok)
  refine ⟨(hsf.trans hwr).trans (hq.abortFrame hst.ok),
    hq.hostPort.trans (State.wrAt_hostPort s.savesAt _ _), fun hx hpl => ?_⟩
  refine (hq.regs _ (by rw [hcs]; exact (paramsOk_named h.ok m3).2)).trans ?_
  rw [abortStart_eq_wrAt]
  exact wrAt_read_self _ (by rwa [hsc]) (hsf.wf hx).1

end

/-- The host's answer after DDC_ABORT. -/
theorem AbortFrame.respond {s t : State} (h : AbortFrame s t) (hpl : s.payload = []) (r : Response) :
    t.respond .host r = { s with
      x := t.x, hwBank := t.hwBank, ctx := { s.ctx with currentBank := t.ctx.currentBank }
      resp := r, hostPort := (t.respond .host r).hostPort, bus := t.bus, env := t.env
      events := .resp .host r :: s.events } := by
  have hempty : t.respond .host r = { s with
      x := t.x, hwBank := t.hwBank, ctx := { s.ctx with currentBank := t.ctx.currentBank }
      payload := [], resp := r, hostPort := (t.respond .host r).hostPort, bus := t.bus, env := t.env
      events := .resp .host r :: s.events } := by
    obtain ⟨x, hw, b, pt, bus, env, rfl⟩ := h.exists
    rfl
  rw [← hpl] at hempty
  exact hempty

/-- Settles O35: the saves and the iterations change no register, the mastership write `DDCM` alone. -/
theorem ddcAbortCompletes : Obligations.DdcAbortCompletes := by
  intro s h ha hf hp hx
  have hu : Undisturbed (.port .host) s := h.active_host rfl ▸ h.undisturbed ha hf hp
  have hex := execDdcAbort_undisturbed h ha hf hp
  obtain ⟨-, hsw, hhd, hdd⟩ := hu.savesAt
  obtain ⟨hfr, hport, hddcm⟩ := hu.abortAt_frame
  have hag := hu.abortAt.1.fine.2.1
  generalize s.abortAt (.port .host) = q at hex hfr hport hddcm hag
  refine ⟨_, hex, (hfr.respond h.payload_nil _).trans (by rw [← hfr.events]; rfl), hag, rfl, ?_,
    hfr.regs.others, fun hpl => ⟨hddcm hx hpl, ?_⟩, fun hpl => ?_, fun hpl => ?_⟩
  · cases q.1
    · exact .inr rfl
    · exact .inl rfl
  · exact (congrArg (·.seq.sav.ddcm) hport).trans (hdd hpl)
  · exact (congrArg (·.seq.sav.swrst) hport).trans (hsw hpl)
  · exact (congrArg (·.seq.sav.hdcp) hport).trans (hhd hpl)

end Sys2Proof.Machine
end

section
/-! SUPPORT. DDC_ABORT where a transaction fails: each piece of the sequence either has the effect the
rules give or stops at that transaction. -/

namespace Sys2Proof.Machine

/-! ## Pieces up to the failing transaction -/

/-- Transaction `B` is to fail, the lock is free and PC1 to PC7 hold. -/
structure Failing (B : Nat) (l : List Bool) (s : State) : Prop where
  fails : FailsAt B l s
  lock : s.ctx.lock = none
  ok : paramsOk s.cfg = true

/-- A piece of the host's DDC_ABORT from `s` completes with `v` and `t`, or stops at transaction `B`, all
transactions before it being transactions of the completed piece. -/
def Stage {α : Type} (B : Nat) (l : List Bool) (s : State) (r : PRes α) (v : α) (t : State) : Prop :=
  (r = .ok v t ∧ Failing B l t ∧ AbortFrame s t)
    ∨ ∃ w, r = .err .ioError w ∧ StoppedAt B t.bus w ∧ AbortFrame s w

section
variable {B : Nat} {l : List Bool} {s t u : State} {α β : Type}

/-- The log of `t` holds that of `s`. -/
def Logged (s t : State) : Prop := ∃ m, t.bus = m ++ s.bus

theorem Logged.refl (s : State) : Logged s s := ⟨[], rfl⟩

theorem Logged.trans (h : Logged s t) (h' : Logged t u) : Logged s u := by
  obtain ⟨m, hm⟩ := h
  obtain ⟨m', hm'⟩ := h'
  exact ⟨m' ++ m, by simp [hm', hm]⟩

/-- Two pieces one after the other. -/
theorem Stage.bind {r : PRes α} {k : α → State → PRes β} {v : α} {v' : β}
    (h : Stage B l s r v t) (hlog : Logged t u)
    (hk : Failing B l t → t.cfg = s.cfg → Stage B l t (k v t) v' u) :
    Stage B l s (r.bind k) v' u := by
  rcases h with ⟨rfl, hf, hfr⟩ | ⟨w, rfl, hst, hfr⟩
  · rcases hk hf hfr.cfg with ⟨he, hf', hfr'⟩ | ⟨w, he, hst, hfr'⟩
    · exact .inl ⟨he, hf', hfr.trans hfr'⟩
    · exact .inr ⟨w, he, hst, hfr.trans hfr'⟩
  · exact .inr ⟨w, rfl, hst.mono hlog, hfr⟩

theorem AbortFrame.refl (hp : paramsOk s.cfg = true) : AbortFrame s s :=
  (Quiet.refl s).abortFrame hp

/-- A piece that issues nothing. -/
theorem Failing.pure (h : Failing B l s) (v : α) : Stage B l s (.ok v s) v s :=
  .inl ⟨rfl, h, .refl h.ok⟩

theorem Failing.of_frame (h : Failing B l s) (hf : FailsAt B l t) (hfr : AbortFrame s t) :
    Failing B l t := ⟨hf, hfr.lock.trans h.lock, by rw [hfr.cfg]; exact h.ok⟩

/-- A primitive that finds the lock free. -/
theorem runPrim_free {a : AgentId} {p : Prim} (h : s.ctx.lock = none) :
    runPrim a p s = some (s.prim a p) := by simp [runPrim, State.prim, h]

/-- A primitive that has its effect or stops. -/
theorem Failing.call (h : Failing B l s) {p : Prim} {v : Byte}
    (hr : (runPrim (.port .host) p s = some (.ok v t) ∧ FailsAt B l t ∧ AbortRegs s t)
      ∨ ∃ w, runPrim (.port .host) p s = some (.err .ioError w) ∧ StoppedAt B t.bus w
        ∧ AbortRegs s w) :
    Stage B l s (s.callRun (.port .host) p) v t := by
  have hp := runPrim_free (a := .port .host) (p := p) h.lock
  rcases hr with ⟨hr, hf, hx⟩ | ⟨w, hr, hst, hx⟩
  · have hfr := AbortFrame.of_bus (runPrim_frame hr).2 hx
    refine .inl ⟨?_, h.of_frame hf hfr, hfr⟩
    rw [State.callRun, Option.some.inj (hp.symm.trans hr)]
  · refine .inr ⟨w, ?_, hst, .of_bus (runPrim_frame hr).2 hx⟩
    rw [State.callRun, Option.some.inj (hp.symm.trans hr)]

theorem Failing.rd (h : Failing B l s) {addr : Nat} (ha : addr ∈ namedAddrs s.cfg) :
    Stage B l s (s.callRun (.port .host) (.rd addr)) (s.rdValue addr) (s.rdAt addr) := by
  refine h.call ?_
  rcases h.fails.rd (.port .host) h.lock (paramsOk_named h.ok ha).1 with ⟨hr, hf⟩ | ⟨w, hr, hst, hx⟩
  · exact .inl ⟨hr, hf, .of_same h.ok fun _ hb => rdAt_read s addr hb⟩
  · exact .inr ⟨w, hr, hst, .of_same h.ok hx⟩

/-- A write whose effect on the registers DDC_ABORT may have. -/
theorem Failing.wr (h : Failing B l s) {addr : Nat} (ha : addr ∈ namedAddrs s.cfg) (v : Byte)
    (hx : AbortRegs s (s.wrAt addr v)) :
    Stage B l s (s.callRun (.port .host) (.wr addr v)) 0 (s.wrAt addr v) := by
  refine h.call ?_
  obtain ⟨hreg, hb⟩ := paramsOk_named h.ok ha
  rcases h.fails.wr (.port .host) h.lock hreg hb v with ⟨hr, hf⟩ | ⟨w, hr, hst, hw | hw⟩
  · exact .inl ⟨hr, hf, hx⟩
  · exact .inr ⟨w, hr, hst, .of_same h.ok hw⟩
  · exact .inr ⟨w, hr, hst, fun r h1 h2 => by rw [hw]; exact hx.others r h1 h2,
      fun hwf => by rw [hw]; exact hx.ddcm hwf⟩

/-! ## The pieces of DDC_ABORT -/

/-- Saving a latch is no transaction. -/
theorem FailsAt.save (h : FailsAt B l s) (r : SaveReg) (v : Byte) :
    FailsAt B l (s.save (.port .host) r v) := ⟨h.bank, h.agree, h.flags⟩

theorem Failing.saveRun (h : Failing B l s) (r : SaveReg) {addr : Nat}
    (ha : addr ∈ namedAddrs s.cfg) :
    Stage B l s (s.saveRun (.port .host) r addr) () (s.saveAt (.port .host) r addr) := by
  refine (h.rd ha).bind (.refl _) fun ht _ => .inl ⟨rfl, ?_, (AbortFrame.refl ht.ok).save r _⟩
  exact ht.of_frame (ht.fails.save r _) ((AbortFrame.refl ht.ok).save r _)

theorem rdAt_logged (s : State) (addr : Nat) : Logged s (s.rdAt addr) := rdAt_log s addr

theorem wrAt_logged (s : State) (addr : Nat) (v : Byte) : Logged s (s.wrAt addr v) :=
  wrAt_log s addr v

theorem saveAt_logged (s : State) (r : SaveReg) (addr : Nat) :
    Logged s (s.saveAt (.port .host) r addr) := rdAt_log s addr

theorem pollAt_logged (n : Nat) (s : State) : Logged s (s.pollAt n).2 := by
  induction n generalizing s with
  | zero => exact .refl s
  | succ n ih =>
    rw [State.pollAt]
    split
    · exact rdAt_logged s _
    · split
      · exact rdAt_logged s _
      · exact (rdAt_logged s _).trans (ih _)

theorem iterAt_logged (s : State) : Logged s s.iterAt.2 :=
  (wrAt_logged s _ _).trans (pollAt_logged 200 _)

/-- A poll, sample by sample. -/
theorem Failing.pollRun (n : Nat) {s : State} (h : Failing B l s) :
    Stage B l s (s.pollRun (.port .host) n) (s.pollAt n).1 (s.pollAt n).2 := by
  induction n generalizing s with
  | zero => exact h.pure _
  | succ n ih =>
    have hrd := h.rd (addr := s.cfg.ddc.statAddr) (by simp [namedAddrs])
    rw [State.pollRun, State.pollAt]
    split
    · next he => exact hrd.bind (.refl _) fun ht _ => by rw [if_pos he]; exact ht.pure _
    · next he =>
      split
      · next hd =>
        exact hrd.bind (.refl _) fun ht _ => by rw [if_neg he, if_pos hd]; exact ht.pure _
      · next hd =>
        exact hrd.bind (pollAt_logged n _) fun ht _ => by rw [if_neg he, if_neg hd]; exact ih ht

theorem Failing.iterRun (h : Failing B l s) :
    Stage B l s (s.iterRun (.port .host)) (decide (s.iterAt.1 = .done)) s.iterAt.2 :=
  (h.wr (by simp [namedAddrs]) _ (abortRegs_wrAt_cmd h.ok _)).bind (pollAt_logged 200 _) fun ht _ =>
    (ht.pollRun 200).bind (.refl _) fun hu _ => hu.pure _

/-- One step of a sequence, then the others. -/
theorem Stage.cons {f : State → PRes Unit} {fs : List (State → PRes Unit)}
    (h : Stage B l s (f s) () t) (hlog : Logged t u)
    (hk : Failing B l t → t.cfg = s.cfg → Stage B l t (State.inTurn fs t) () u) :
    Stage B l s (State.inTurn (f :: fs) s) () u := h.bind hlog hk

/-- The saves and the mastership write. -/
theorem Failing.abortStart (h : Failing B l s) :
    Stage B l s (State.inTurn
      [(·.saveRun (.port .host) .swrst s.cfg.rst.swrstAddr),
        (·.saveRun (.port .host) .hdcp s.cfg.rst.hdcpAddr),
        (·.saveRun (.port .host) .ddcm s.cfg.ddc.ddcmAddr),
        calls (.port .host) (.wr s.cfg.ddc.ddcmAddr s.cfg.ddc.ddcmHost)] s) ()
      (s.abortStart (.port .host)) := by
  rw [abortStart_eq_wrAt]
  have l2 := saveAt_logged (s.saveAt (.port .host) .swrst s.cfg.rst.swrstAddr) .hdcp
    s.cfg.rst.hdcpAddr
  have l3 := saveAt_logged ((s.saveAt (.port .host) .swrst s.cfg.rst.swrstAddr).saveAt (.port .host)
    .hdcp s.cfg.rst.hdcpAddr) .ddcm s.cfg.ddc.ddcmAddr
  have l4 := wrAt_logged s.savesAt s.cfg.ddc.ddcmAddr s.cfg.ddc.ddcmHost
  refine (h.saveRun .swrst (by simp [namedAddrs])).cons (l2.trans (l3.trans l4)) fun h1 c1 => ?_
  refine (h1.saveRun .hdcp (by rw [c1]; simp [namedAddrs])).cons (l3.trans l4) fun h2 c2 => ?_
  rw [c1] at c2
  refine (h2.saveRun .ddcm (by rw [c2]; simp [namedAddrs])).cons l4 fun h3 c3 => ?_
  rw [c2] at c3
  refine Stage.cons ?_ (.refl _) fun h4 _ => h4.pure ()
  rw [← c3]
  exact (h3.wr (by simp [namedAddrs]) _ (abortRegs_wrAt_ddcm h3.ok)).bind (.refl _)
    fun h4 _ => h4.pure ()

end

/-! ## The whole of DDC_ABORT -/

/-- DDC_ABORT up to its verdict. -/
def State.abortPolls (s : State) : PRes Bool :=
  (State.inTurn
    [(·.saveRun (.port .host) .swrst s.cfg.rst.swrstAddr),
      (·.saveRun (.port .host) .hdcp s.cfg.rst.hdcpAddr),
      (·.saveRun (.port .host) .ddcm s.cfg.ddc.ddcmAddr),
      calls (.port .host) (.wr s.cfg.ddc.ddcmAddr s.cfg.ddc.ddcmHost)] s).bind fun _ t =>
  (t.iterRun (.port .host)).bind fun first u =>
  (u.iterRun (.port .host)).bind fun second v => .ok (first || second) v

theorem abortRun_eq_abortPolls (s : State) :
    s.abortRun (.port .host) = s.abortPolls.bind fun b t =>
      if b = true then .ok () t else .err .protocolError t := by
  simp only [State.abortRun, State.abortPolls, PRes.bind_assoc, PRes.ok_bind, Bool.or_eq_true]

theorem Failing.abortPolls {B : Nat} {l : List Bool} {s : State} (h : Failing B l s) :
    Stage B l s s.abortPolls (s.abortAt (.port .host)).1 (s.abortAt (.port .host)).2 :=
  h.abortStart.bind ((iterAt_logged _).trans (iterAt_logged _)) fun h1 _ =>
    h1.iterRun.bind (iterAt_logged _) fun h2 _ =>
      h2.iterRun.bind (.refl _) fun h3 _ => h3.pure _

/-- Where transaction `k` of DDC_ABORT fails, the sequence stops there with `IoError`. -/
theorem abortRun_fails {s : State} {k : Nat} {l : List Bool}
    (h : Failing (s.bus.length + k) l s)
    (hk : s.bus.length + k < (s.abortAt (.port .host)).2.bus.length) :
    ∃ w, s.abortRun (.port .host) = .err .ioError w
      ∧ StoppedAt (s.bus.length + k) (s.abortAt (.port .host)).2.bus w ∧ AbortFrame s w := by
  rw [abortRun_eq_abortPolls]
  rcases h.abortPolls with ⟨_, hf, _⟩ | ⟨w, he, hst, hfr⟩
  · exact absurd hf.fails.le (by omega)
  · exact ⟨w, by rw [he]; rfl, hst, hfr⟩

/-- Settles O38: undisturbed each primitive gives its value; where a transaction fails, the piece it
belongs to stops there, and nothing after it is run. -/
theorem ddcAbortFollowsItsRule : Obligations.DdcAbortFollowsItsRule := by
  refine ⟨fun s h ha hf hp => ?_, fun s k l h ha hp hag hx hfl hk => ?_⟩
  · rw [execDdcAbort_undisturbed h ha hf hp]
    cases (s.abortAt (.port .host)).1 <;> rfl
  · have hf : Failing (s.bus.length + k) l s :=
      ⟨⟨paramsOk_bank hp, hag, k, hfl, rfl⟩, h.2.2.1, hp⟩
    obtain ⟨w, hw, ⟨op, done, later, hop, hbus, hfull, hlen⟩, hfr⟩ := abortRun_fails hf hk
    refine ⟨w.respond .host ⟨.ioError, 0⟩, by rw [execDdcAbort_eq h ha hp, hw]; rfl,
      hfr.respond h.payload_nil _, rfl, ⟨op, done, later, hop, hbus, hfull, hlen⟩,
      hfr.regs.ddcm hx, hfr.regs.others⟩

end Sys2Proof.Machine
end

section
/-! SUPPORT. A clean block read: what each step consumes of the environment's script, and what it puts on
the bus where the DDC registers are in the any-bank region. -/

namespace Sys2Proof.Machine

/-! ## The script -/

section
variable (e : Env) {a b : Nat}

/-- A register's first answer is the head of its script (rule R73). -/
theorem Env.answer_of_script {v : Byte} {l : List Byte} (h : e.scriptOf a = v :: l) :
    e.answer a = v := by
  unfold Env.answer
  unfold Env.scriptOf at h
  rw [← List.head?_filter]
  cases hf : e.answers.filter fun p => decide (p.1 = a) with
  | nil => rw [hf] at h; cases h
  | cons p ps =>
    rw [hf] at h
    exact (List.cons.inj h).1

/-- Taking a register's first answer takes the head of its script. -/
theorem Env.scriptOf_consume_self : (e.consume a).scriptOf a = (e.scriptOf a).tail := by
  unfold Env.scriptOf Env.consume
  simp only
  induction e.answers with
  | nil => rfl
  | cons p ps ih =>
    by_cases hp : p.1 = a
    · simp [hp]
    · simpa [hp] using ih

theorem Env.scriptOf_consume_other (h : b ≠ a) : (e.consume a).scriptOf b = e.scriptOf b := by
  unfold Env.scriptOf Env.consume
  simp only
  induction e.answers with
  | nil => rfl
  | cons p ps ih =>
    by_cases hp : p.1 = a
    · simp [hp, h.symm]
    · by_cases hpb : p.1 = b
      · simp [hpb, h, ih]
      · simp [hp, hpb, ih]

end

section
variable (s : State)

/-- The script of a register. -/
def State.script (s : State) (a : Nat) : List Byte := s.env.scriptOf a

theorem switched_script (need : Option Bank) (a : Nat) :
    (s.switched need).script a = s.script a := by
  unfold State.switched
  split
  · rfl
  · split <;> rfl

theorem wrAt_script (addr : Nat) (v : Byte) (a : Nat) : (s.wrAt addr v).script a = s.script a :=
  switched_script s _ a

/-- Registers that answer from the script (rule R73). -/
def Scripted (c : Params) (a : Nat) : Prop := readsDraw c a = true

variable {s}

theorem rdAt_script_self {a : Nat} (h : Scripted s.cfg a) :
    (s.rdAt a).script a = (s.script a).tail := by
  have he : (s.rdAt a).env = ((s.switched (needOf a)).env.consume a).afterTransaction := by
    simp only [State.rdAt, State.didRead_env, State.envAfterRead, switched_cfg]
    exact if_pos h
  have hc := Env.scriptOf_consume_self (s.switched (needOf a)).env (a := a)
  unfold State.script
  rw [he]
  exact hc.trans (congrArg List.tail (switched_script s _ a))

theorem rdAt_script_other {a b : Nat} (hb : b ≠ a) : (s.rdAt a).script b = s.script b := by
  have hc := Env.scriptOf_consume_other (s.switched (needOf a)).env hb
  refine Eq.trans ?_ (switched_script s (needOf a) b)
  simp only [State.script, State.rdAt, State.didRead_env, State.envAfterRead]
  split
  · exact hc
  · rfl

theorem rdValue_script {a : Nat} (h : Scripted s.cfg a) {v : Byte} {l : List Byte}
    (hs : s.script a = v :: l) : s.rdValue a = v := by
  have hsw : (s.switched (needOf a)).env.scriptOf a = v :: l := (switched_script s _ a).trans hs
  have hd : readsDraw (s.switched (needOf a)).cfg a = true := by rwa [switched_cfg]
  simp only [State.rdValue, State.busValue, hd, if_true]
  exact Env.answer_of_script _ hsw

end

/-- The volatile registers of PC1 to PC7 answer from the script. -/
theorem scripted_of_volatile {c : Params} (hp : paramsOk c = true) {a : Nat} (ha : a ∈ namedAddrs c)
    (hv : isVolatile c a = true) : Scripted c a := by
  simp [Scripted, readsDraw, isPlain, hv, (paramsOk_named hp ha).2]

/-! ## What a block read consumes and issues -/

/-- The DDC registers and the register of the hang check are in the any-bank region. -/
structure DdcAnyBank (c : Params) : Prop where
  hang : hangAddr c.irq < 0x30
  hdr : c.ddc.hdrAddr < 0x30
  off : c.ddc.offAddr < 0x30
  cnt : c.ddc.cntAddr < 0x30
  seg : c.ddc.segAddr < 0x30
  cmd : c.ddc.cmdAddr < 0x30
  stat : c.ddc.statAddr < 0x30
  fifo : c.ddc.fifoAddr < 0x30

/-- From `s` to `t` there were `n` transactions, and the single-byte writes among them were `ws`. -/
def Issued (n : Nat) (ws : List (Nat × Byte)) (s t : State) : Prop :=
  ∃ l, t.bus = l ++ s.bus ∧ l.length = n ∧ l.reverse.filterMap BusOp.written = ws

/-- From `s` to `t` a block read took `polls` status samples and the FIFO bytes `out`, with `n`
transactions whose writes were `ws` where no bank has to be selected for it. -/
structure Spent (s t : State) (polls : Nat) (out : List Byte) (n : Nat) (ws : List (Nat × Byte)) :
    Prop where
  cfg : t.cfg = s.cfg
  stat : t.script s.cfg.ddc.statAddr = (s.script s.cfg.ddc.statAddr).drop polls
  fifo : t.script s.cfg.ddc.fifoAddr = (s.script s.cfg.ddc.fifoAddr).drop out.length
  result : t.result = s.result ++ out
  issued : DdcAnyBank s.cfg → Issued n ws s t

section
variable {s t u : State} {j k m n : Nat} {v w : List Byte} {ws ws' : List (Nat × Byte)}

theorem Issued.trans (h : Issued m ws s t) (h' : Issued n ws' t u) :
    Issued (m + n) (ws ++ ws') s u := by
  obtain ⟨l, hl, hn, hw⟩ := h
  obtain ⟨l', hl', hn', hw'⟩ := h'
  exact ⟨l' ++ l, by simp [hl', hl], by simp [hn, hn', Nat.add_comm], by simp [hw, hw']⟩

theorem Spent.refl (s : State) : Spent s s 0 [] 0 [] :=
  ⟨rfl, rfl, rfl, (List.append_nil _).symm, fun _ => ⟨[], rfl, rfl, rfl⟩⟩

theorem Spent.trans (h : Spent s t j v m ws) (h' : Spent t u k w n ws') :
    Spent s u (j + k) (v ++ w) (m + n) (ws ++ ws') := by
  have hc := h.cfg
  refine ⟨h'.cfg.trans hc, ?_, ?_, by rw [h'.result, h.result, List.append_assoc],
    fun ha => (h.issued ha).trans (h'.issued (by rwa [hc]))⟩
  · rw [← hc, h'.stat, hc, h.stat, List.drop_drop]
  · rw [← hc, h'.fifo, hc, h.fifo, List.drop_drop, List.length_append]

/-- An any-bank address needs no bank and is its own offset (rule R65). -/
theorem any_region {addr : Nat} (h : addr < 0x30) : needOf addr = none ∧ offOf addr = addr := by
  have hb : addr < b0Base := h
  simp [needOf, offOf, translate, region, hb]

theorem Issued.rd {addr : Nat} (h : addr < 0x30) (s : State) : Issued 1 [] s (s.rdAt addr) := by
  obtain ⟨h1, h2⟩ := any_region h
  exact ⟨[.read addr (some (s.busValue addr))], by rw [State.rdAt, h1, h2]; rfl, rfl, rfl⟩

theorem Issued.wr {addr : Nat} (h : addr < 0x30) (v : Byte) (s : State) :
    Issued 1 [(addr, v)] s (s.wrAt addr v) := by
  obtain ⟨h1, h2⟩ := any_region h
  exact ⟨[.write addr v true], by rw [State.wrAt, h1, h2]; rfl, rfl, rfl⟩

theorem Spent.wr (s : State) {addr : Nat} (ha : DdcAnyBank s.cfg → addr < 0x30) (v : Byte) :
    Spent s (s.wrAt addr v) 0 [] 1 [(addr, v)] :=
  ⟨State.wrAt_cfg s _ _, wrAt_script s _ _ _, wrAt_script s _ _ _, by simp, fun h => .wr (ha h) v s⟩

/-- A read of a register that is neither polled nor drained. -/
theorem Spent.rd {addr : Nat} (ha : DdcAnyBank s.cfg → addr < 0x30) (hs : s.cfg.ddc.statAddr ≠ addr)
    (hf : s.cfg.ddc.fifoAddr ≠ addr) : Spent s (s.rdAt addr) 0 [] 1 [] :=
  ⟨State.rdAt_cfg s _, rdAt_script_other hs, rdAt_script_other hf, by simp, fun h => .rd (ha h) s⟩

theorem statAddr_scripted {c : Params} (hp : paramsOk c = true) : Scripted c c.ddc.statAddr :=
  scripted_of_volatile hp (by simp [namedAddrs]) (by simp [isVolatile])

theorem fifoAddr_scripted {c : Params} (hp : paramsOk c = true) : Scripted c c.ddc.fifoAddr :=
  scripted_of_volatile hp (by simp [namedAddrs]) (by simp [isVolatile])

theorem hangAddr_scripted {c : Params} (hp : paramsOk c = true) : Scripted c (hangAddr c.irq) := by
  refine scripted_of_volatile hp (hangAddr_named c) ?_
  unfold hangAddr
  cases c.irq.clearMap.busHang.group <;> simp [isVolatile, PerGroup.get]

/-- A status sample. -/
theorem Spent.sample (hp : paramsOk s.cfg = true) (hne : s.cfg.ddc.statAddr ≠ s.cfg.ddc.fifoAddr) :
    Spent s (s.rdAt s.cfg.ddc.statAddr) 1 [] 1 [] :=
  ⟨State.rdAt_cfg s _, by rw [rdAt_script_self (statAddr_scripted hp), List.drop_one],
    rdAt_script_other hne.symm, by simp, fun h => .rd h.stat s⟩

/-- A FIFO read whose byte is collected. -/
theorem Spent.fifoRead (hp : paramsOk s.cfg = true)
    (hne : s.cfg.ddc.statAddr ≠ s.cfg.ddc.fifoAddr) {b : Byte} {l : List Byte}
    (hs : s.script s.cfg.ddc.fifoAddr = b :: l) :
    Spent s ((s.rdAt s.cfg.ddc.fifoAddr).collect (s.rdValue s.cfg.ddc.fifoAddr)) 0 [b] 1 [] := by
  rw [rdValue_script (fifoAddr_scripted hp) hs]
  refine ⟨State.rdAt_cfg s _, rdAt_script_other hne, ?_, by simp [State.collect],
    fun h => Issued.rd h.fifo s⟩
  rw [List.length_singleton, List.drop_one]
  exact rdAt_script_self (fifoAddr_scripted hp)

/-! ## A clean chunk -/

/-- What a clean read of chunks needs: `polls` Done samples, and the FIFO bytes in the script. -/
structure CleanFor (polls : Nat) (bytes : List Byte) (s : State) : Prop where
  ok : paramsOk s.cfg = true
  ne : s.cfg.ddc.statAddr ≠ s.cfg.ddc.fifoAddr
  samples : polls ≤ (s.script s.cfg.ddc.statAddr).length
  done : ∀ b ∈ s.script s.cfg.ddc.statAddr, isDoneByte s.cfg.ddc b
  fifo : ∃ more, s.script s.cfg.ddc.fifoAddr = bytes ++ more

/-- What was taken is gone, the rest is still clean. -/
theorem CleanFor.spent (h : CleanFor (j + k) (v ++ w) s) (hd : Spent s t j v n ws) :
    CleanFor k w t := by
  obtain ⟨hok, hne, hsm, hdn, more, hf⟩ := h
  have hc := hd.cfg
  refine ⟨by rwa [hc], by rwa [hc], ?_, ?_, more, ?_⟩
  · rw [hc, hd.stat, List.length_drop]
    omega
  · rw [hc, hd.stat]
    exact fun b hb => hdn b (List.mem_of_mem_drop hb)
  · rw [hc, hd.fifo, hf, List.append_assoc, List.drop_left]

/-- Fewer samples and fewer of the bytes. -/
theorem CleanFor.mono (h : CleanFor (j + k) (v ++ w) s) : CleanFor j v s := by
  obtain ⟨more, hf⟩ := h.fifo
  exact ⟨h.ok, h.ne, Nat.le_trans (Nat.le_add_right j k) h.samples, h.done, w ++ more,
    hf.trans (List.append_assoc v w more)⟩

/-- The next sample is Done, which ends the poll (rule R141). -/
theorem CleanFor.pollAt (h : CleanFor (j + 1) v s) (n : Nat) :
    s.pollAt (n + 1) = (.done, s.rdAt s.cfg.ddc.statAddr) := by
  obtain ⟨b, l, hs⟩ := List.exists_cons_of_length_pos (Nat.lt_of_lt_of_le (Nat.succ_pos j) h.samples)
  obtain ⟨herr, hdone⟩ := h.done b (by simp [hs])
  rw [State.pollAt, rdValue_script (statAddr_scripted h.ok) hs, if_neg (by simp [herr]), if_pos hdone]

/-- The FIFO reads of a chunk. -/
theorem CleanFor.drainAt (v : List Byte) : ∀ {s : State}, CleanFor 0 v s →
    Spent s (s.drainAt v.length) 0 v v.length [] := by
  induction v with
  | nil => exact fun _ => .refl _
  | cons b v ih =>
    intro s h
    obtain ⟨more, hmore⟩ := h.fifo
    have hb := Spent.fifoRead h.ok h.ne hmore
    have hrest := ih (CleanFor.spent (j := 0) (v := [b]) h hb)
    rw [List.length_cons, drainAt_succ, Nat.add_comm]
    exact hb.trans hrest

/-- The writes of one clean chunk: the FIFO clear, then the read command (rule R150). -/
def chunkWrites (d : DdcParams) (segment offset n : Nat) : List (Nat × Byte) :=
  [(d.cmdAddr, d.cmdFifoClr), (d.hdrAddr, d.hdrEdid), (d.offAddr, BitVec.ofNat 8 offset),
    (d.cntAddr, BitVec.ofNat 8 n), (d.segAddr, BitVec.ofNat 8 segment), (d.cmdAddr, d.cmdRead)]

/-- The writes of the chunks of a clean block read. -/
def chunksWrites (d : DdcParams) (segment : Nat) : Nat → List Nat → List (Nat × Byte)
  | _, [] => []
  | offset, n :: ns => chunkWrites d segment offset n ++ chunksWrites d segment (offset + n) ns

/-- The five writes of a read command. -/
theorem Spent.program (s : State) (segment offset n : Nat) :
    Spent s (s.programAt segment offset n) 0 [] 5
      [(s.cfg.ddc.hdrAddr, s.cfg.ddc.hdrEdid), (s.cfg.ddc.offAddr, BitVec.ofNat 8 offset),
        (s.cfg.ddc.cntAddr, BitVec.ofNat 8 n), (s.cfg.ddc.segAddr, BitVec.ofNat 8 segment),
        (s.cfg.ddc.cmdAddr, s.cfg.ddc.cmdRead)] := by
  have h1 := Spent.wr s (·.hdr) s.cfg.ddc.hdrEdid
  have h2 := h1.trans (.wr _ (fun h => (h1.cfg ▸ h).off) (BitVec.ofNat 8 offset))
  have h3 := h2.trans (.wr _ (fun h => (h2.cfg ▸ h).cnt) (BitVec.ofNat 8 n))
  have h4 := h3.trans (.wr _ (fun h => (h3.cfg ▸ h).seg) (BitVec.ofNat 8 segment))
  exact h4.trans (.wr _ (fun h => (h4.cfg ▸ h).cmd) s.cfg.ddc.cmdRead)

/-- One clean chunk (rule R150). -/
theorem CleanFor.chunkAt (h : CleanFor 2 v s) (segment offset : Nat) :
    ∃ t, s.chunkAt segment offset v.length = (.ok, t)
      ∧ Spent s t 2 v (8 + v.length) (chunkWrites s.cfg.ddc segment offset v.length) := by
  have h1 := Spent.wr s (·.cmd) s.cfg.ddc.cmdFifoClr
  rw [State.chunkAt]
  generalize s.wrAt s.cfg.ddc.cmdAddr s.cfg.ddc.cmdFifoClr = s1 at *
  have k1 : CleanFor 2 v s1 := CleanFor.spent (j := 0) (v := []) (by simpa using h) h1
  have h2 := h1.trans (.sample k1.ok k1.ne)
  simp only [k1.pollAt (j := 1) 199]
  generalize s1.rdAt s1.cfg.ddc.statAddr = s2 at *
  have h3 := h2.trans (.program s2 segment offset v.length)
  rw [h2.cfg] at h3
  generalize s2.programAt segment offset v.length = s3 at *
  have k3 : CleanFor 1 v s3 := CleanFor.spent (j := 1) (v := []) h h3
  have h4 := h3.trans (.sample k3.ok k3.ne)
  simp only [k3.pollAt (j := 0) 249]
  generalize s3.rdAt s3.cfg.ddc.statAddr = s4 at *
  have k4 : CleanFor 0 v s4 := CleanFor.spent (j := 2) (v := []) h h4
  exact ⟨_, rfl, h4.trans k4.drainAt⟩

/-- The chunks of a clean block read. -/
theorem CleanFor.chunksAt (segment : Nat) (ns : List Nat) : ∀ (offset : Nat) {s : State}
    {bytes : List Byte}, CleanFor (2 * ns.length) bytes s → bytes.length = ns.sum →
    ∃ t, s.chunksAt segment offset ns = (.ok, t)
      ∧ Spent s t (2 * ns.length) bytes (8 * ns.length + ns.sum)
        (chunksWrites s.cfg.ddc segment offset ns) := by
  induction ns with
  | nil =>
    intro offset s bytes _ hlen
    obtain rfl := List.eq_nil_of_length_eq_zero hlen
    exact ⟨s, rfl, .refl s⟩
  | cons n ns ih =>
    intro offset s bytes h hlen
    rw [List.sum_cons] at hlen
    obtain ⟨v, w, rfl, rfl⟩ : ∃ v w, bytes = v ++ w ∧ v.length = n :=
      ⟨bytes.take n, bytes.drop n, (List.take_append_drop n bytes).symm, by
        rw [List.length_take]; omega⟩
    rw [List.length_append] at hlen
    have hpolls : 2 * (v.length :: ns).length = 2 + 2 * ns.length := by
      rw [List.length_cons]
      omega
    have hcount : 8 * (v.length :: ns).length + (v.length :: ns).sum
        = 8 + v.length + (8 * ns.length + ns.sum) := by
      rw [List.length_cons, List.sum_cons]
      omega
    rw [hpolls] at h ⊢
    obtain ⟨t, ht, hd⟩ := h.mono.chunkAt segment offset
    obtain ⟨u, hu, hd'⟩ := ih (offset + v.length) (h.spent hd) (by omega)
    rw [hd.cfg] at hd'
    rw [hcount]
    exact ⟨u, by rw [State.chunksAt, ht]; exact hu, hd.trans hd'⟩

end

/-! ## The chunks of a length -/

/-- What the chunks of a length add up to, how many they are, and the writes of each (rules R152, R155). -/
theorem chunks_of_length (d : DdcParams) (segment : Nat) (j : Nat) : ∀ offset length : Nat,
    (length + 31) / 32 = j →
    (chunkSizes length).length = j ∧ (chunkSizes length).sum = length
    ∧ chunksWrites d segment offset (chunkSizes length)
      = (List.range j).flatMap fun k =>
        chunkWrites d segment (offset + 32 * k) (min 32 (length - 32 * k)) := by
  induction j with
  | zero =>
    intro offset length hj
    obtain rfl : length = 0 := by omega
    exact ⟨rfl, rfl, rfl⟩
  | succ j ih =>
    intro offset length hj
    have hpos : length ≠ 0 := by omega
    have hc : chunkSize length = min 32 length := Nat.min_comm _ _
    obtain ⟨h1, h2, h3⟩ := ih (offset + chunkSize length) (length - chunkSize length) (by omega)
    rw [chunkSizes_pos hpos]
    refine ⟨by rw [List.length_cons, h1], by rw [List.sum_cons, h2]; omega, ?_⟩
    rw [chunksWrites, h3, List.range_succ_eq_map, List.flatMap_cons, List.flatMap_map]
    congr 1
    · rw [hc]
      rfl
    · refine List.flatMap_congr fun k hk => ?_
      have hk : k < j := List.mem_range.mp hk
      have hfull : chunkSize length = 32 := by omega
      have ho : offset + chunkSize length + 32 * k = offset + 32 * (k + 1) := by omega
      have hl : length - chunkSize length - 32 * k = length - 32 * (k + 1) := by omega
      rw [ho, hl]

/-! ## The whole block read -/

/-- Where the bit reads 0 the hang check is one read (rule R143). -/
theorem hangCheckedAt_clear {s : State} {hang : Byte} (hp : paramsOk s.cfg = true)
    (hh : (s.script (hangAddr s.cfg.irq)).head? = some hang)
    (hbit : hang &&& s.cfg.irq.clearMap.busHang.statusBit = 0) :
    s.hangCheckedAt = (true, s.rdAt (hangAddr s.cfg.irq)) := by
  obtain ⟨l, hl⟩ := List.head?_eq_some_iff.mp hh
  rw [State.hangCheckedAt, rdValue_script (hangAddr_scripted hp) hl, hbit]
  exact if_neg fun hne => hne rfl

/-- A clean block read, from the hang check on. -/
theorem rdblkAt_clean {s : State} {hang : Byte} {bytes : List Byte} (block length : Nat)
    (h : CleanFor (2 * ((length + 31) / 32)) bytes s) (hlen : bytes.length = length)
    (hs : s.cfg.ddc.statAddr ≠ hangAddr s.cfg.irq) (hf : s.cfg.ddc.fifoAddr ≠ hangAddr s.cfg.irq)
    (hh : (s.script (hangAddr s.cfg.irq)).head? = some hang)
    (hbit : hang &&& s.cfg.irq.clearMap.busHang.statusBit = 0) :
    ∃ t, s.rdblkAt block length = (.ok, t) ∧ t.result = bytes
      ∧ (DdcAnyBank s.cfg → Issued (2 + 8 * ((length + 31) / 32) + length)
        ((s.cfg.ddc.cmdAddr, s.cfg.ddc.cmdFifoClr) ::
          (List.range ((length + 31) / 32)).flatMap fun k =>
            chunkWrites s.cfg.ddc (block / 2) (block % 2 * length + 32 * k) (min 32 (length - 32 * k)))
        s t) := by
  obtain ⟨hcount, hsum, hwrites⟩ := chunks_of_length s.cfg.ddc (block / 2) _ (block % 2 * length)
    length rfl
  have h0 : CleanFor (2 * ((length + 31) / 32)) bytes { s with result := [] } :=
    ⟨h.ok, h.ne, h.samples, h.done, h.fifo⟩
  have hhang := hangCheckedAt_clear (s := { s with result := [] }) h.ok hh hbit
  have h1 := Spent.rd (s := { s with result := [] }) (·.hang) hs hf
  rw [State.rdblkAt, hhang]
  simp only [if_true]
  generalize ({ s with result := [] } : State).rdAt (hangAddr s.cfg.irq) = s1 at *
  have h2 := h1.trans (.wr s1 (fun ha => (h1.cfg ▸ ha).cmd) s.cfg.ddc.cmdFifoClr)
  generalize s1.wrAt s.cfg.ddc.cmdAddr s.cfg.ddc.cmdFifoClr = s2 at *
  have k2 : CleanFor (2 * (chunkSizes length).length) bytes s2 :=
    CleanFor.spent (j := 0) (v := []) (by rw [hcount]; simpa using h0) h2
  obtain ⟨t, ht, h3⟩ := k2.chunksAt (block / 2) _ (block % 2 * length) (hlen.trans hsum.symm)
  have hall := h2.trans h3
  refine ⟨t, ht, hall.result, fun ha => ?_⟩
  have hi := hall.issued ha
  have hc2 : s2.cfg = s.cfg := h2.cfg
  rw [hc2, hcount, hsum, hwrites, ← Nat.add_assoc] at hi
  exact hi

/-- Settles O40: the hang check, the FIFO clear, and for each chunk a Done sample, the read command, a Done
sample and the FIFO bytes; each step's share of the script and of the bus log adds up. -/
theorem rdblkCleanReadReturnsTheFifoBytes : Obligations.RdblkCleanReadReturnsTheFifoBytes := by
  intro block length s hang bytes more h ha hf hp hne hst hff hh hbit hpolls hdone hfifo hlen
  have hu : Undisturbed (.port .host) s := h.active_host rfl ▸ h.undisturbed ha hf hp
  obtain ⟨t, ht, hres, hiss⟩ := rdblkAt_clean block.toNat length.toNat
    ⟨hp, hne, hpolls, hdone, more, hfifo⟩ hlen hst.symm hff.symm hh hbit
  have hex : exec (.rdblk block length) s = .next (t.respond .host ⟨.ok, 0⟩) := by
    rw [execRdblk_eq h ha hp, rdblkRun_eq hu, hostOutcome_endedWith, ht]
  refine ⟨_, hex, rfl, hres, fun h1 h2 h3 h4 h5 h6 h7 h8 => ?_⟩
  exact hiss ⟨h1, h2, h3, h4, h5, h6, h7, h8⟩

end Sys2Proof.Machine
end

section
/-! SUPPORT. A command of one register access answers what the access's body gives, whoever holds which
position and whether the lock is held, and whichever transactions fail; addresses and their regions. -/

namespace Sys2Proof.Machine

/-! ## The three ends of a bus transaction (rules R69, R77) -/

section
variable {op : Bool → BusOp} {off : Nat} {bytes : List Byte} {s : State}

theorem busOut_unreached
    (hr : reachesAll s.cfg (Config.freeBank s.env.draws) off bytes (s.x, s.hwBank) = false) :
    busOut op off bytes s = .stop .outsideWindow := by
  simp [busOut, hr]

theorem busOut_completes
    (hr : reachesAll s.cfg (Config.freeBank s.env.draws) off bytes (s.x, s.hwBank) = true)
    (hf : s.env.nextFails = false) :
    busOut op off bytes s = .ok () { s.store (Config.freeBank s.env.draws) off bytes with
      env := s.env.afterTransaction, bus := op true :: s.bus } := by
  simp only [busOut, hr, hf]
  rfl

theorem busOut_fails
    (hr : reachesAll s.cfg (Config.freeBank s.env.draws) off bytes (s.x, s.hwBank) = true)
    (hf : s.env.nextFails = true) :
    busOut op off bytes s = .err .ioError
      { s.storeFailed (Config.freeBank s.env.draws) off bytes (Config.failTaken s.env.draws) with
        env := s.env.afterTransaction, bus := op false :: s.bus } := by
  simp only [busOut, hr, hf]
  rfl

theorem busRead_unreached (ht : target s.hwBank off = none) :
    busRead off s = .stop .outsideWindow := by
  simp only [busRead, ht]

end

/-! ## A primitive does not look at the lock -/

theorem busOut_setLock (op : Bool → BusOp) (off : Nat) (bytes : List Byte) (s : State)
    (l : Option AgentId) :
    busOut op off bytes (s.setLock l) = (busOut op off bytes s).onState (·.setLock l) := by
  cases hr : reachesAll s.cfg (Config.freeBank s.env.draws) off bytes (s.x, s.hwBank) with
  | false => rw [busOut_unreached hr, busOut_unreached (s := s.setLock l) hr]; rfl
  | true =>
    cases hf : s.env.nextFails with
    | false => rw [busOut_completes hr hf, busOut_completes (s := s.setLock l) hr hf]; rfl
    | true => rw [busOut_fails hr hf, busOut_fails (s := s.setLock l) hr hf]; rfl

theorem busRead_setLock (off : Nat) (s : State) (l : Option AgentId) :
    busRead off (s.setLock l) = (busRead off s).onState (·.setLock l) := by
  cases ht : target s.hwBank off with
  | none => rw [busRead_unreached ht, busRead_unreached (s := s.setLock l) ht]; rfl
  | some a =>
    cases hf : s.env.nextFails with
    | false => rw [busRead_completes hf ht, busRead_completes (s := s.setLock l) hf ht]; rfl
    | true => rw [busRead_fails hf ht, busRead_fails (s := s.setLock l) hf ht]; rfl

theorem ensureBank_same {b : Bank} {s : State} (hb : b = s.ctx.currentBank) :
    ensureBank (some b) s = .ok () s := if_pos hb

theorem ensureBank_other {b : Bank} {s : State} (hb : b ≠ s.ctx.currentBank) :
    ensureBank (some b) s = bankSelect b s := if_neg hb

theorem bankSelect_setLock (b : Bank) (s : State) (l : Option AgentId) :
    bankSelect b (s.setLock l) = (bankSelect b s).onState (·.setLock l) :=
  PRes.onState_bind (busOut_setLock _ _ _ _ _) fun _ _ => rfl

theorem ensureBank_setLock (need : Option Bank) (s : State) (l : Option AgentId) :
    ensureBank need (s.setLock l) = (ensureBank need s).onState (·.setLock l) := by
  cases need with
  | none => rfl
  | some b =>
    by_cases hb : b = s.ctx.currentBank
    · rw [ensureBank_same hb, ensureBank_same (s := s.setLock l) hb]
      rfl
    · rw [ensureBank_other hb, ensureBank_other (s := s.setLock l) hb]
      exact bankSelect_setLock b s l

theorem gapAccess_setLock (addr : Nat) (s : State) (l : Option AgentId) :
    gapAccess addr (s.setLock l) = (gapAccess addr s).onState (·.setLock l) := by
  unfold gapAccess
  simp only [State.setLock_cfg]
  split <;> rfl

theorem locate_setLock (addr : Nat) (s : State) (l : Option AgentId) :
    locate addr (s.setLock l) = (locate addr s).onState (·.setLock l) := by
  unfold locate
  split
  · rfl
  · split
    · rfl
    · exact gapAccess_setLock addr s l

theorem locateBulk_setLock (addr n : Nat) (s : State) (l : Option AgentId) :
    locateBulk addr n (s.setLock l) = (locateBulk addr n s).onState (·.setLock l) := by
  unfold locateBulk
  simp only [State.setLock_cfg]
  split
  · split
    · rfl
    · rfl
    · split <;> rfl
  · split
    · rfl
    · exact gapAccess_setLock addr s l

theorem prologue_setLock (addr : Nat) (s : State) (l : Option AgentId) :
    prologue addr (s.setLock l) = (prologue addr s).onState (·.setLock l) :=
  PRes.onState_bind (locate_setLock _ _ _) fun _ _ =>
    PRes.onState_bind (ensureBank_setLock _ _ _) fun _ _ => rfl

theorem primBody_setLock (p : Prim) (s : State) (l : Option AgentId) :
    primBody p (s.setLock l) = (primBody p s).onState (·.setLock l) := by
  cases p with
  | rd addr => exact PRes.onState_bind (prologue_setLock _ _ _) fun _ _ => busRead_setLock _ _ _
  | wr addr v =>
    exact PRes.onState_bind (prologue_setLock _ _ _) fun _ _ =>
      PRes.onState_bind (busOut_setLock _ _ _ _ _) fun _ _ => rfl
  | upd addr mask v =>
    exact PRes.onState_bind (prologue_setLock _ _ _) fun _ _ =>
      PRes.onState_bind (busRead_setLock _ _ _) fun _ _ =>
        PRes.onState_bind (busOut_setLock _ _ _ _ _) fun _ _ => rfl
  | bwr addr bytes =>
    show bwrBody addr bytes _ = (bwrBody addr bytes s).onState _
    unfold bwrBody
    split
    · rfl
    · split
      · rfl
      · exact PRes.onState_bind (locateBulk_setLock _ _ _ _) fun _ _ =>
          PRes.onState_bind (ensureBank_setLock _ _ _) fun _ _ =>
            PRes.onState_bind (busOut_setLock _ _ _ _ _) fun _ _ => rfl

/-- A primitive of an agent that finds the lock free is its body. -/
theorem runPrim_eq_primBody {a : AgentId} {p : Prim} {s : State} (hl : s.ctx.lock = none) :
    runPrim a p s = some (primBody p s) := by
  have hf := primBody_frame p s
  have free : ∀ t, BusFrame 3 s t → t.setLock none = t := fun t ht =>
    setLock_self (by rw [ht.frame]; exact hl)
  rw [runPrim_free hl, State.prim, primBody_setLock]
  cases hb : primBody p s with
  | ok v t => rw [hb] at hf; simp only [PRes.onState, PRes.release, setLock_setLock, free t hf]
  | err e t => rw [hb] at hf; simp only [PRes.onState, PRes.release, setLock_setLock, free t hf]
  | stop x => rfl

/-! ## Commands of one primitive, whatever it answers -/

/-- What a command of port `p` answers whose one primitive ended: its value, its error with data 0x00, or
no meaning (rules R99, R240). -/
def PRes.reply (p : PortId) : PRes Byte → Host.Outcome State Fault Refusal
  | .ok v t => .next (t.respond p (okResp v))
  | .err e t => .next (t.respond p ⟨e, 0⟩)
  | .stop x => .refused x

/-- The value a piece of a primitive gives, if any, has a property. -/
def PRes.Gives {α : Type} (P : α → Prop) : PRes α → Prop
  | .ok v _ => P v
  | .err _ _ => True
  | .stop _ => True

theorem PRes.Gives.bind {α β : Type} {P : β → Prop} (r : PRes α) {k : α → State → PRes β}
    (hk : ∀ v t, (k v t).Gives P) : (r.bind k).Gives P := by
  cases r with
  | ok v t => exact hk v t
  | err e t => trivial
  | stop x => trivial

/-- A primitive that reads for its caller. -/
def Prim.answers : Prim → Bool
  | .rd _ => true
  | .wr _ _ => false
  | .upd _ _ _ => false
  | .bwr _ _ => false

/-- Every primitive but RD gives the value 0x00. -/
theorem primBody_gives_zero {p : Prim} (hp : p.answers = false) (s : State) :
    (primBody p s).Gives (· = 0) := by
  cases p with
  | rd addr => cases hp
  | wr addr v => exact .bind _ fun _ _ => .bind _ fun _ _ => rfl
  | upd addr m v => exact .bind _ fun _ _ => .bind _ fun _ _ => .bind _ fun _ _ => rfl
  | bwr addr bytes =>
    show (bwrBody addr bytes s).Gives _
    unfold bwrBody
    split
    · trivial
    · split
      · rfl
      · exact .bind _ fun _ _ => .bind _ fun _ _ => .bind _ fun _ _ => rfl

/-- A ready command whose one statement raises answers the error. -/
theorem command_one_raise {i : Instr} {m : Stmt} {s u : State} {e : Status} (h : Ready i s)
    (hu : u.hasPort s.active = true)
    (hm : ∀ k, stmtStep (.port s.active) m (s.setPos (.port s.active) k)
      = .raise e (u.setPos (.port s.active) k)) :
    command i [m] s = .next (u.respond s.active ⟨e, 0⟩) := by
  have ht : tick (.port s.active) (s.setPos (.port s.active) [m])
      = .next (u.respond s.active ⟨e, 0⟩) := by
    rw [tick_raise (State.pos_setPos_self s [m] h.hasAgent) (hm [m])]
    simp [raiseError, afterAbsorb, endOp]
  rw [command_ready h]
  exact drive_end ht (goesOn_respond u s.active _ hu) (one_le_driveBound _)

/-- A ready command whose one statement has no meaning has none. -/
theorem command_one_stop {i : Instr} {m : Stmt} {s : State} {x : Refusal} (h : Ready i s)
    (hm : ∀ k, stmtStep (.port s.active) m (s.setPos (.port s.active) k) = .stop x) :
    command i [m] s = .refused x := by
  rw [command_ready h]
  exact EndsIn.stop (n := 0) (rest := []) h.hasAgent hm rfl _ (one_le_driveBound _)

/-- The state in which a primitive ended has the ports it had. -/
theorem BusFrame.hasPort {n : Nat} {s t : State} (h : BusFrame n s t) (p : PortId) :
    t.hasPort p = s.hasPort p := State.hasPort_congr (by rw [h.frame]) p

/-- A ready command of one statement that calls a primitive and passes its value on answers what the
primitive's body gives. -/
theorem command_one_call {i : Instr} {m : Stmt} {p : Prim} {s : State} {k : Byte → State → StepRes}
    (h : Ready i s)
    (hm : ∀ q, stmtStep (.port s.active) m (s.setPos (.port s.active) q)
      = callPrim (.port s.active) p (s.setPos (.port s.active) q) k)
    (hk : ∀ v t, primBody p s = .ok v t → (∀ w, k v w = .ret (okResp v) w)
      ∨ v = 0 ∧ ∀ w, k v w = .go [] w) :
    command i [m] s = (primBody p s).reply s.active := by
  have hf := primBody_frame p s
  have hr := runPrim_eq_primBody (a := .port s.active) (p := p) h.2.2.1
  cases hb : primBody p s with
  | ok v t =>
    rw [hb] at hf hr
    have hport := (hf.hasPort s.active).trans h.1
    rcases hk v t hb with hret | ⟨rfl, hgo⟩
    · refine command_one_ret h hport fun q => ?_
      simp only [hm, callPrim, withPrim, runPrim_setPos, hr, PRes.onState, Option.map_some, hret]
    · refine command_one_go h hport fun q => ?_
      simp only [hm, callPrim, withPrim, runPrim_setPos, hr, PRes.onState, Option.map_some, hgo]
  | err e t =>
    rw [hb] at hf hr
    refine command_one_raise h ((hf.hasPort s.active).trans h.1) fun q => ?_
    simp [hm, callPrim, withPrim, runPrim_setPos, hr, PRes.onState]
  | stop x =>
    rw [hb] at hr
    refine command_one_stop h fun q => ?_
    simp [hm, callPrim, withPrim, runPrim_setPos, hr, PRes.onState]

theorem command_prim_reply {i : Instr} {p : Prim} {s : State} (h : Ready i s)
    (hp : p.answers = false) : command i [.prim p] s = (primBody p s).reply s.active :=
  command_one_call (k := fun _ s' => .go [] s') h (fun _ => rfl) fun v t hb =>
    .inr ⟨by simpa [hb, PRes.Gives] using primBody_gives_zero hp s, fun _ => rfl⟩

theorem exec_rd_reply {addr : BitVec 12} {s : State} (h : Ready (.rd addr) s) :
    exec (.rd addr) s = (rdBody addr.toNat s).reply s.active :=
  command_one_call (m := .rdReturn addr.toNat) (p := .rd addr.toNat)
    (k := fun v s' => .ret ⟨.ok, v⟩ s') h (fun _ => rfl) fun _ _ _ => .inl fun _ => rfl

theorem exec_wr_reply {addr : BitVec 12} {v : Byte} {s : State} (h : Ready (.wr addr v) s) :
    exec (.wr addr v) s = (wrBody addr.toNat v s).reply s.active := command_prim_reply h rfl

theorem exec_upd_reply {addr : BitVec 12} {m v : Byte} {s : State} (h : Ready (.upd addr m v) s) :
    exec (.upd addr m v) s = (updBody addr.toNat m v s).reply s.active := command_prim_reply h rfl

theorem exec_bwr_reply {addr : BitVec 12} {len : BitVec 16} {s : State}
    (h : Ready (.bwr addr len) s) :
    exec (.bwr addr len) s = (bwrBody addr.toNat (s.payloadOf s.active) s).reply s.active :=
  command_prim_reply h rfl

/-- The payload of a ready command has the length its word states (rule R104). -/
theorem Ready.payload_length {i : Instr} {s : State} (h : Ready i s) :
    (s.payloadOf s.active).length = payloadLength i := by
  have hl := h.2.2.2
  simp only [legalCommand, Bool.and_eq_true, decide_eq_true_eq] at hl
  exact hl.1.2

theorem Ready.bwr_length {addr : BitVec 12} {len : BitVec 16} {s : State}
    (h : Ready (.bwr addr len) s) : (s.payloadOf s.active).length = len.toNat := h.payload_length

/-! ## The answer to a command -/

/-- What a command leaves whose primitive left `w`: the answer to the command and nothing else. -/
structure Ended (s w : State) (r : Response) (t : State) : Prop where
  frame : t = { w with payload := t.payload, resp := t.resp, events := t.events }
  answered : Answered s t r

theorem setPort_port_self (s : State) (p : PortId) : s.setPort p (s.port p) = s := by
  cases p with
  | host => rfl
  | aux k =>
    simp only [State.setPort, State.port, List.getD_eq_getElem?_getD]
    by_cases hk : k < s.auxPorts.length
    · simp [hk]
    · simp [List.set_eq_of_length_le (Nat.not_lt.mp hk)]

/-- Answering on an idle port leaves the ports. -/
theorem respond_idle {s : State} {p : PortId} (h : s.idle (.port p) = true) (r : Response) :
    s.respond p r = { s with
      payload := (s.respond p r).payload, resp := (s.respond p r).resp
      events := (s.respond p r).events } := by
  have hpos : (s.port p).seq.pos = [] := by simpa [State.idle, State.pos, State.seqOf] using h
  have hport : s.setPort p { s.port p with seq := { (s.port p).seq with pos := [] } } = s := by
    rw [← hpos]
    exact setPort_port_self s p
  unfold State.respond
  rw [hport]
  cases p <;> rfl

/-- A command that register traffic alone leads to its answer. -/
theorem Ready.ended {i : Instr} {n : Nat} {s w : State} (h : Ready i s) (hw : BusFrame n s w)
    (r : Response) : Ended s w r (w.respond s.active r) := by
  have hports : ∀ p, w.port p = s.port p :=
    State.port_congr (by rw [hw.frame]) (by rw [hw.frame])
  have hidle : w.idle (.port s.active) = true := by
    have := h.2.1
    simpa only [State.idle, State.pos, State.seqOf, hports] using this
  exact ⟨respond_idle hidle r, State.respond_answered r ((hw.hasPort _).trans h.1) hports h.2.1
    (by rw [hw.frame]) (by rw [hw.frame]) (by rw [hw.frame])⟩

/-- A ready command whose primitive gave a value answers it. -/
theorem Ready.gave {i : Instr} {p : Prim} {s w : State} {v : Byte} (h : Ready i s)
    (hb : primBody p s = .ok v w) :
    Nexts ((primBody p s).reply s.active) (Ended s w (okResp v)) := by
  have hf := primBody_frame p s
  rw [hb] at hf
  exact ⟨_, by rw [hb]; rfl, h.ended hf _⟩

/-- A ready command whose primitive raised answers the error. -/
theorem Ready.raised {i : Instr} {p : Prim} {s w : State} {e : Status} (h : Ready i s)
    (hb : primBody p s = .err e w) :
    Nexts ((primBody p s).reply s.active) (Ended s w ⟨e, 0⟩) := by
  have hf := primBody_frame p s
  rw [hb] at hf
  exact ⟨_, by rw [hb]; rfl, h.ended hf _⟩

theorem Nexts.imp {o : Host.Outcome State Fault Refusal} {P Q : State → Prop} (h : Nexts o P)
    (hPQ : ∀ t, P t → Q t) : Nexts o Q := by
  obtain ⟨t, ht, hp⟩ := h
  exact ⟨t, ht, hPQ t hp⟩

theorem Ended.x {s w t : State} {r : Response} (h : Ended s w r t) : t.x = w.x := by rw [h.frame]

theorem Ended.hwBank {s w t : State} {r : Response} (h : Ended s w r t) : t.hwBank = w.hwBank := by
  rw [h.frame]

/-! ## Addresses -/

/-- Settles O19: along the four bounds of the regions. -/
theorem regionsOfTheFlatAddressSpace : Obligations.RegionsOfTheFlatAddressSpace := by
  intro addr
  have hr : region addr = if addr < 0x30 then .any else if addr < 0x100 then .b0
      else if addr < 0x130 then .gap else if addr < 0x1C0 then .b1 else .invalid := rfl
  refine ⟨hr, ?_⟩
  rw [translate, hr]
  by_cases h1 : addr < 0x30
  · simp [h1]
  by_cases h2 : addr < 0x100
  · simp [h1, h2]
  by_cases h3 : addr < 0x130
  · simp [h1, h2, h3]
  by_cases h4 : addr < 0x1C0
  · simp [h1, h2, h3, h4, b1LocalSub]
  · simp [h1, h2, h3, h4]

theorem locate_invalid {addr : Nat} (h : 0x1C0 ≤ addr) (s : State) :
    locate addr s = .err .invalidAddress s := if_pos h

/-- Settles O26: the prologue is the first piece of RD, WR and UPD, and its address check comes first. -/
theorem invalidAddressHasNoEffect : Obligations.InvalidAddressHasNoEffect := by
  intro addr m v s ha
  have hp : prologue addr.toNat s = .err .invalidAddress s := by
    rw [prologue, locate_invalid ha]
    rfl
  refine ⟨fun h => ?_, fun h => ?_, fun h => ?_⟩
  · rw [exec_rd_reply h, rdBody, hp]
    rfl
  · rw [exec_wr_reply h, wrBody, hp]
    rfl
  · rw [exec_upd_reply h, updBody, hp]
    rfl

/-! ## A read after a write -/

/-- After a command of an existing port was answered, and the lock free, the port is ready for a RD. -/
theorem ready_rd_of_answered {s t : State} {r : Response} {i : Instr} (h : Ready i s)
    (hi : payloadLength i = 0) (ht : t.hasPort s.active = true) (ha : t.active = s.active)
    (hl : t.ctx.lock = none) (hg : t.given = s.given) (addr : BitVec 12) :
    Ready (.rd addr) (t.respond s.active r) := by
  have hlen : (s.payloadOf s.active).length = 0 := h.payload_length.trans hi
  have hpay : ((t.respond s.active r).payloadOf s.active).length = 0 := by
    cases hp : s.active with
    | host => rfl
    | aux k =>
      rw [hp] at hlen
      simpa [State.payloadOf, hg] using hlen
  have hidle : (t.respond s.active r).idle (.port s.active) = true := by
    simp [State.idle, State.pos, State.seqOf, State.respond_port_self t r ht]
  have hact : (t.respond s.active r).active = s.active := by simp [ha]
  unfold Ready
  rw [hact]
  refine ⟨by simpa using ht, hidle, by simpa using hl, ?_⟩
  simp [legalCommand, hostMayStart, auxMayStart, Instr.wellFormed, payloadLength,
    List.length_eq_zero_iff.mp hpay]

/-- Settles O24: WR leaves its byte in the register and the machine undisturbed, and RD of a plain
register answers what it holds. -/
theorem readAfterWriteAnswersTheByte : Obligations.ReadAfterWriteAnswersTheByte := by
  intro addr v s h hf hx hreg hb hp
  have hw := wrWritesTheRegister addr v s h hf hreg
  have hport : (s.wrAt addr.toNat v).hasPort s.active = true := by
    rw [State.hasPort_congr (State.wrAt_auxPorts s _ v)]
    exact h.1
  refine ⟨_, hw, ?_⟩
  generalize ht : (s.wrAt addr.toNat v).respond s.active (okResp 0) = t
  have hcfg : t.cfg = s.cfg := by simp [← ht]
  have hact : t.active = s.active := by simp [← ht]
  have hready : Ready (.rd addr) t :=
    ht ▸ ready_rd_of_answered h rfl hport (by simp) (by simpa using h.2.2.1) (by simp) addr
  have hfine : Fine t := by
    have hw := hf.wrAt hb v
    exact ht ▸ ⟨by simpa using hw.1, by simpa using hw.2.1, by simpa [BusFine] using hw.2.2⟩
  have hval : t.rdValue addr.toNat = v := by
    rw [rdValue_plain (by rwa [hcfg]) (by rwa [hcfg]), ← ht, State.respond_x]
    exact wrAt_read_self v hp hx.1
  refine ⟨_, rdAnswersTheRegister addr t hready hfine hreg, ?_, fun hh => ?_⟩
  · simp [hval, hact, okResp]
  · rw [hact, hh, hval]
    rfl

end Sys2Proof.Machine
end

section
/-! SUPPORT. Bursts: what a completed one stores, a burst inside the any-bank region that may cover the
bank select, and the accesses in the gap under each policy. -/

namespace Sys2Proof.Machine

/-! ## The registers after a burst -/

/-- One byte of a burst keeps the file sorted. -/
theorem storedByte_pairwise {m : Memory} (c : Params) (a : Nat) (b : Byte)
    (h : m.Pairwise fun c d => c.1 < d.1) :
    (if isPlain c a then m.write a b else m).Pairwise fun c d => c.1 < d.1 := by
  split
  · exact Memory.write_pairwise h a b
  · exact h

theorem storedByte_read_other (c : Params) (m : Memory) (b : Byte) {a a' : Nat} (h : a' ≠ a) :
    (if isPlain c a then m.write a b else m).read a' = m.read a' := by
  split
  · exact Memory.read_write_other b h
  · rfl

/-- A burst touches no register outside its range. -/
theorem storedList_read_outside (c : Params) (bytes : List Byte) {a : Nat} :
    ∀ (addr : Nat) (m : Memory), a < addr ∨ addr + bytes.length ≤ a →
      (storedList c addr bytes m).read a = m.read a := by
  induction bytes with
  | nil => exact fun _ _ _ => rfl
  | cons b bs ih =>
    intro addr m ha
    rw [List.length_cons] at ha
    have hstep := storedByte_read_other c m b (a := addr) (a' := a) (by omega)
    exact (ih (addr + 1) _ (by omega)).trans hstep

/-- Byte `i` of a burst is in the plain register `addr + i`: no later byte reaches it. -/
theorem storedList_read_inside (c : Params) (bytes : List Byte) :
    ∀ (addr : Nat) (m : Memory) (i : Nat) (h : i < bytes.length),
      m.Pairwise (fun c d => c.1 < d.1) → isPlain c (addr + i) = true →
      (storedList c addr bytes m).read (addr + i) = bytes[i] := by
  induction bytes with
  | nil => exact fun _ _ _ h => absurd h (Nat.not_lt_zero _)
  | cons b bs ih =>
    intro addr m i h hm hp
    cases i with
    | zero =>
      rw [Nat.add_zero] at hp ⊢
      rw [storedList, storedList_read_outside c bs (addr + 1) _ (by omega), if_pos hp]
      exact Memory.read_write_same hm addr b
    | succ i =>
      have hi : addr + (i + 1) = addr + 1 + i := by omega
      rw [hi] at hp ⊢
      exact ih (addr + 1) _ i _ (storedByte_pairwise c addr b hm) hp

/-- Settles O31: the switch writes the bank select alone, and the burst its range in order. -/
theorem bwrStoresBytesAscending : Obligations.BwrStoresBytesAscending := by
  intro addr bytes s hx _
  refine ⟨fun i h hp => ?_, fun a ha hout => ?_⟩
  · exact storedList_read_inside _ bytes addr _ i h (switched_pairwise _ hx.1) (by rwa [switched_cfg])
  · exact (storedList_read_outside _ bytes addr _ hout).trans (switched_read _ ha)

/-! ## Bursts inside the any-bank region -/

/-- An any-bank offset reaches its register whatever the bank (rule R74). -/
theorem target_any {off : Nat} (h : off < b0Base) (hw : Bank) : target hw off = some off := if_pos h

theorem isPlain_of_not_named {c : Params} {a : Nat} (h : a ∉ namedAddrs c) : isPlain c a = true := by
  simp only [namedAddrs, List.mem_append, List.mem_cons, not_or] at h
  simp_all [isPlain, isVolatile, isTriggered]

/-- By PC2 the bank select shares its address with no volatile or write-triggered register. -/
theorem isPlain_bank {s : State} (h : bankParamsOk s.cfg = true) :
    isPlain s.cfg s.cfg.bank.addr = true := by
  refine isPlain_of_not_named fun hm => ?_
  simp only [bankParamsOk, Bool.and_eq_true, List.all_eq_true, decide_eq_true_eq] at h
  exact h.2 _ hm rfl

/-- The downstream bank after bytes were stored from any-bank offset `a` on: a byte on the bank select
selects the bank (rule R74). -/
def burstBank (c : BankParams) (free : Bank) (a : Nat) (bytes : List Byte) (hw : Bank) : Bank :=
  match if a ≤ c.addr then bytes[c.addr - a]? else none with
  | some b => bankOf c b free
  | none => hw

theorem burstBank_of_covered {c : BankParams} {free : Bank} {a : Nat} {bytes : List Byte} {v : Byte}
    (hw : Bank) (ha : a ≤ c.addr) (hv : bytes[c.addr - a]? = some v) :
    burstBank c free a bytes hw = bankOf c v free := by
  rw [burstBank, if_pos ha, hv]

theorem burstBank_cons (c : BankParams) (free : Bank) (a : Nat) (b : Byte) (bs : List Byte)
    (hw : Bank) : burstBank c free a (b :: bs) hw
      = burstBank c free (a + 1) bs (if a = c.addr then bankOf c b free else hw) := by
  unfold burstBank
  rcases Nat.lt_trichotomy a c.addr with h | h | h
  · have hi : c.addr - a = c.addr - (a + 1) + 1 := by omega
    have hs : a + 1 ≤ c.addr := h
    rw [if_pos h.le, if_pos hs, if_neg h.ne, hi, List.getElem?_cons_succ]
  · simp [h]
  · rw [if_neg (by omega), if_neg (by omega), if_neg h.ne']

/-- The bytes of a burst inside the any-bank region, in order: each register of the range is reached
whatever bank an earlier byte selected. -/
theorem storeBytes_any {s : State} (hp : bankParamsOk s.cfg = true) (free : Bank)
    (bytes : List Byte) : ∀ (a : Nat) (m : Memory) (hw : Bank), a + bytes.length ≤ b0Base →
      storeBytes s.cfg free a bytes (m, hw)
          = (storedList s.cfg a bytes m, burstBank s.cfg.bank free a bytes hw)
        ∧ reachesAll s.cfg free a bytes (m, hw) = true := by
  induction bytes with
  | nil => exact fun a m hw _ => ⟨by simp [storeBytes, storedList, burstBank], rfl⟩
  | cons b bs ih =>
    intro a m hw ha
    rw [List.length_cons] at ha
    have ht := target_any (off := a) (by omega) hw
    have hs : storeByte s.cfg free a b (m, hw) = ((if isPlain s.cfg a then m.write a b else m),
        if a = s.cfg.bank.addr then bankOf s.cfg.bank b free else hw) := by
      simp only [storeByte, ht]
      by_cases hab : a = s.cfg.bank.addr
      · simp [hab, isPlain_bank hp]
      · simp only [hab, if_false]
        split <;> rfl
    rw [storeBytes, reachesAll, hs, storedList, burstBank_cons, ht, Option.isSome_some, Bool.true_and]
    exact ih (a + 1) _ _ (by omega)

/-- A completed burst at any-bank offset `a`, inside the region. -/
def State.anyBurst (s : State) (a : Nat) (bytes : List Byte) : State :=
  { s with
    x := storedList s.cfg a bytes s.x
    hwBank := burstBank s.cfg.bank (Config.freeBank s.env.draws) a bytes s.hwBank
    env := s.env.afterTransaction
    bus := .burst a bytes true :: s.bus }

theorem windowBurst_eq (s : State) (a : Nat) (bytes : List Byte) :
    s.windowBurst a bytes = (s.switched (some .bank1)).anyBurst a bytes := rfl

theorem busBurst_any {s : State} (hp : bankParamsOk s.cfg = true) (hf : BusFine s) {a : Nat}
    {bytes : List Byte} (ha : a + bytes.length ≤ b0Base) :
    busBurst a bytes s = .ok () (s.anyBurst a bytes) := by
  obtain ⟨hs, hr⟩ := storeBytes_any hp (Config.freeBank s.env.draws) bytes a s.x s.hwBank ha
  rw [busBurst, busOut_completes hr (nextFails_of_fine hf)]
  simp only [State.store, hs]
  rfl

/-- BWR of a range that is not empty and passes its range checks (rules R128, R130). -/
theorem bwrBody_eq {addr : Nat} {bytes : List Byte} (hr : rangeCheck addr bytes.length = none)
    (hn : 1 ≤ bytes.length) (s : State) :
    bwrBody addr bytes s = (locateBulk addr bytes.length s).bind fun t s1 =>
      (ensureBank t.1 s1).bind fun _ s2 => (busBurst t.2 bytes s2).bind fun _ s3 => .ok 0 s3 := by
  rw [bwrBody, hr]
  exact if_neg (by omega)

/-! ## A bulk write over the bank select -/

/-- What a range inside the any-bank region is checked for and needs. -/
theorem bulk_any {addr n : Nat} (h : addr + n ≤ 0x30) (hn : 1 ≤ n) :
    rangeCheck addr n = none ∧ ∀ s, locateBulk addr n s = .ok (none, addr) s := by
  have e1 : b0Base = 48 := rfl
  have e5 : b0End = 256 := rfl
  have e6 : b1Base = 304 := rfl
  have e7 : addrLimit = 448 := rfl
  have hr : rangeCheck addr n = none := by
    rw [rangeCheck, if_neg (by omega), if_neg (by omega), if_neg]
    simp only [crosses, decide_eq_true_eq]
    omega
  have hg : touchesGap addr n = false := by
    simp only [touchesGap, decide_eq_false_iff_not]
    omega
  obtain ⟨hneed, hoff⟩ := any_region (addr := addr) (by omega)
  refine ⟨hr, fun s => ?_⟩
  rw [locateBulk_register hr hn hg, hneed, hoff, bulkBank, if_neg (by omega)]

/-- Settles O32: the range needs no bank, and its one burst stores the byte on the bank select. -/
theorem bwrOverTheBankSelectChangesTheBank : Obligations.BwrOverTheBankSelectChangesTheBank := by
  intro addr len s v h hf hle hend hv
  obtain ⟨hp, _, hbus⟩ := hf
  have hlen := h.bwr_length
  have hn : 1 ≤ (s.payloadOf s.active).length := by
    have := (List.getElem?_eq_some_iff.mp hv).1
    omega
  rw [← hlen] at hend
  obtain ⟨hr, hloc⟩ := bulk_any hend hn
  have hbody : primBody (.bwr addr.toNat (s.payloadOf s.active)) s
      = .ok 0 (s.anyBurst addr.toNat (s.payloadOf s.active)) := by
    simp only [primBody, bwrBody_eq hr hn, hloc, PRes.bind, ensureBank, busBurst_any hp hbus hend]
  rw [exec_bwr_reply h]
  refine (h.gave hbody).imp fun t ht => ⟨?_, ?_, ?_, ht.answered⟩
  · rw [ht.frame]
    rfl
  · rw [ht.hwBank]
    exact burstBank_of_covered s.hwBank hle hv
  · rw [ht.frame]
    rfl

/-! ## The gap -/

/-- A body whose answer under each policy is the policy's gives the policy's outcome. -/
theorem reply_gapOutcome {s done : State} {v : Byte} {r : PRes Byte}
    (hrefuse : s.cfg.gapPolicy = .refuse → r = .stop .gapAddress)
    (hinvalid : s.cfg.gapPolicy = .invalidAddress → r = .err .invalidAddress s)
    (hwindow : s.cfg.gapPolicy = .bank1Window → r = .ok v done) :
    r.reply s.active = gapOutcome s done v := by
  cases hg : s.cfg.gapPolicy with
  | refuse => rw [hrefuse hg, gapOutcome, hg]; rfl
  | invalidAddress => rw [hinvalid hg, gapOutcome, hg]; rfl
  | bank1Window => rw [hwindow hg, gapOutcome, hg]; rfl

theorem translate_gap {addr : Nat} (h1 : 0x100 ≤ addr) (h2 : addr < 0x130) :
    translate addr = none := by
  rw [(regionsOfTheFlatAddressSpace addr).2, if_neg (by omega), if_neg (by omega), if_pos h2]

theorem locate_gap {addr : Nat} (h1 : 0x100 ≤ addr) (h2 : addr < 0x130) (s : State) :
    locate addr s = gapAccess addr s := by
  have e7 : addrLimit = 448 := rfl
  rw [locate, if_neg (by omega), translate_gap h1 h2]

/-- A single access in the gap, `rest` being what follows its prologue. -/
theorem prologue_gap {s done : State} {addr a : Nat} {v : Byte} (rest : Nat → State → PRes Byte)
    (hf : Fine s) (h1 : 0x100 ≤ addr) (h2 : addr < 0x130) (ha : a = addr - b1LocalSub)
    (hrest : rest a (s.switched (some .bank1)) = .ok v done) :
    ((prologue addr s).bind rest).reply s.active = gapOutcome s done v := by
  refine reply_gapOutcome (fun hg => ?_) (fun hg => ?_) fun hg => ?_
  · simp only [prologue, locate_gap h1 h2, gapAccess, hg, PRes.bind]
  · simp only [prologue, locate_gap h1 h2, gapAccess, hg, PRes.bind]
  · simp only [prologue, locate_gap h1 h2, gapAccess, hg, PRes.bind, ensureBank_fine hf, ← ha]
    exact hrest

/-- A range that touches the gap and passes its range checks ends in the gap or at its end (C1). -/
theorem gap_range {addr n : Nat} (hr : rangeCheck addr n = none) (hg : touchesGap addr n = true) :
    1 ≤ n ∧ addr < 0x130 ∧ addr + n ≤ 0x130 := by
  have e6 : b1Base = 304 := rfl
  simp only [touchesGap, decide_eq_true_eq] at hg
  unfold rangeCheck at hr
  split at hr
  · cases hr
  split at hr
  · cases hr
  split at hr
  · cases hr
  · next hc =>
    simp only [crosses, decide_eq_true_eq] at hc
    omega

/-- A bulk write with a byte in the gap, by its policy and its first address. -/
theorem bwrBody_gap {s : State} {addr a : Nat} {bytes : List Byte} (hf : Fine s)
    (ha : a = addr - b1LocalSub)
    (hr : rangeCheck addr bytes.length = none) (hg : touchesGap addr bytes.length = true) :
    (bwrBody addr bytes s).reply s.active
      = if s.cfg.gapPolicy = .bank1Window ∧ addr < 0x100 then .refused .gapStraddle
        else gapOutcome s (s.windowBurst a bytes) 0 := by
  obtain ⟨hn, _, hend⟩ := gap_range hr hg
  by_cases hs : s.cfg.gapPolicy = .bank1Window ∧ addr < 0x100
  · have hb : ¬ b0End ≤ addr := Nat.not_le.mpr hs.2
    rw [if_pos hs]
    simp only [bwrBody_eq hr hn, locateBulk, hg, hs.1, hb, if_true, if_false, PRes.bind]
    rfl
  · rw [if_neg hs]
    refine reply_gapOutcome (fun hp => ?_) (fun hp => ?_) fun hp => ?_
    · simp only [bwrBody_eq hr hn, locateBulk, hg, hp, if_true, PRes.bind]
    · simp only [bwrBody_eq hr hn, locateBulk, hg, hp, if_true, PRes.bind]
    · have hb : b0End ≤ addr := Nat.not_lt.mp fun h => hs ⟨hp, h⟩
      have hfs := hf.switched (some .bank1)
      have hrange : a + bytes.length ≤ b0Base := by
        have e1 : b0Base = 48 := rfl
        have e4 : b1LocalSub = 256 := rfl
        have e5 : b0End = 256 := rfl
        omega
      simp only [bwrBody_eq hr hn, locateBulk, hg, hp, hb, if_true, PRes.bind, ← ha, ensureBank_fine hf,
        busBurst_any hfs.1 hfs.2.2 hrange]
      rfl

/-- Settles O29: the policy decides the prologue, and under `bank1_window` the rest of the access is at
the any-bank offset `addr - 0x100`. -/
theorem gapPolicyDecidesGapAccesses : Obligations.GapPolicyDecidesGapAccesses := by
  rintro addr m v len s _ a hf rfl ha
  refine ⟨fun h1 h2 => ?_, fun h hr hg => ?_⟩
  · have hfs := hf.switched (some .bank1)
    have ht : ∀ hw, target hw a = some a := target_any (show a < 0x30 by omega)
    have hrd := busRead_fine hfs.2.2 (ht _)
    refine ⟨fun h => ?_, fun h => ?_, fun h => ?_⟩
    · rw [exec_rd_reply h]
      exact prologue_gap _ hf h1 h2 ha hrd
    · rw [exec_wr_reply h]
      refine prologue_gap _ hf h1 h2 ha ?_
      rw [busWrite_fine hfs.2.2 (ht _), PRes.ok_bind]
    · rw [exec_upd_reply h]
      refine prologue_gap _ hf h1 h2 ha ?_
      rw [hrd, PRes.ok_bind, busWrite_fine (hfs.didRead a a).2.2 (ht _), PRes.ok_bind]
      rfl
  · rw [← h.bwr_length] at hr hg
    rw [exec_bwr_reply h]
    exact bwrBody_gap hf ha hr hg

end Sys2Proof.Machine
end

section
/-! SUPPORT. Commands whose bank select or data transaction fails: what the failed transaction leaves, and
the answer with `IoError`. -/

namespace Sys2Proof.Machine

/-! ## What a failed transaction leaves (rule R77) -/

/-- A range whose offsets reach registers other than the bank select does not cover it. -/
theorem coversBanksel_of_targets {s : State} (hp : bankParamsOk s.cfg = true) {off addr n : Nat}
    {hw : Bank} (ht : ∀ i < n, target hw (off + i) = some (addr + i))
    (hb : ∀ i < n, addr + i ≠ s.cfg.bank.addr) : coversBanksel s.cfg off n = false := by
  simp only [coversBanksel, decide_eq_false_iff_not]
  rintro ⟨h1, h2⟩
  have hi : s.cfg.bank.addr - off < n := by omega
  have hreach := ht _ hi
  rw [Nat.add_sub_cancel' h1, target_any (bankParams_addr hp)] at hreach
  exact hb _ hi (Option.some.inj hreach).symm

/-- A failed burst over registers other than the bank select leaves some number of its first bytes stored. -/
theorem busOut_fails_run {s : State} (hp : bankParamsOk s.cfg = true) (hf : s.env.nextFails = true)
    {op : Bool → BusOp} {off addr : Nat} {bytes : List Byte}
    (ht : ∀ i < bytes.length, target s.hwBank (off + i) = some (addr + i))
    (hb : ∀ i < bytes.length, addr + i ≠ s.cfg.bank.addr) :
    ∃ k, k ≤ bytes.length ∧ busOut op off bytes s = .err .ioError
      { s with
        x := storedList s.cfg addr (bytes.take k) s.x, env := s.env.afterTransaction
        bus := op false :: s.bus } := by
  refine ⟨min (Config.failTaken s.env.draws) bytes.length, Nat.min_le_right _ _, ?_⟩
  have hlen : ∀ k, (bytes.take k).length ≤ bytes.length := fun k => by simp
  have hrun := fun k => (storeBytes_run (c := s.cfg) (free := Config.freeBank s.env.draws)
    (bytes.take k) off addr s.x (fun i hi => ht i (hi.trans_le (hlen k)))
    (fun i hi => hb i (hi.trans_le (hlen k)))).1
  rw [busOut_fails (storeBytes_run bytes off addr s.x ht hb).2 hf]
  simp only [State.storeFailed, hrun, coversBanksel_of_targets hp ht hb, ← List.take_eq_take_min]
  rfl

/-- A failed write leaves its register as it was or as a completed one would, and the bank unless that
register is the bank select. -/
theorem busWrite_fails_frame {s : State} (hp : bankParamsOk s.cfg = true)
    (hf : s.env.nextFails = true) {off a : Nat} (ht : target s.hwBank off = some a) (v : Byte) :
    ∃ x hw, busWrite off v s = .err .ioError
        { s with x := x, hwBank := hw, env := s.env.afterTransaction
                 bus := .write off v false :: s.bus }
      ∧ (x = s.x ∨ x = s.storedIn a v) ∧ (a ≠ s.cfg.bank.addr → hw = s.hwBank) := by
  have ht' : ∀ i < [v].length, target s.hwBank (off + i) = some (a + i) := fun i hi => by
    obtain rfl : i = 0 := by simpa using hi
    exact ht
  obtain ⟨w, hw, -, hx⟩ := busWrite_fails hf ht v
  have hr : reachesAll s.cfg (Config.freeBank s.env.draws) off [v] (s.x, s.hwBank) = true := by
    simp [reachesAll, ht]
  have he := busOut_fails (op := .write off v) hr hf
  rw [← (PRes.err.inj (he.symm.trans hw)).2] at hx
  refine ⟨_, _, he, hx, fun ha => ?_⟩
  obtain ⟨k, -, hk⟩ := busOut_fails_run hp hf (op := .write off v) ht' fun i hi => by
    obtain rfl : i = 0 := by simpa using hi
    exact ha
  rw [he] at hk
  have hbank := congrArg State.hwBank (PRes.err.inj hk).2
  exact hbank

theorem nextFails_cons {s : State} {b : Bool} {l : List Bool} (h : s.env.fails = b :: l) :
    s.env.nextFails = b := by simp [Env.nextFails, h]

/-! ## The bank select -/

theorem target_bank {s : State} (hp : bankParamsOk s.cfg = true) :
    target s.hwBank s.cfg.bank.addr = some s.cfg.bank.addr := target_any (bankParams_addr hp) _

theorem bankSelect_completes {s : State} (hp : bankParamsOk s.cfg = true)
    (hf : s.env.nextFails = false) (b : Bank) : bankSelect b s = .ok () (s.afterSelect b) := by
  simp only [bankSelect, busWrite_completes hf (target_bank hp), PRes.bind, State.didWrite,
    State.storedIn, bankOf_selectByte hp]
  rfl

/-- What a failed bank select leaves (rules R77, R124): the shadow, and every register but the bank
select. -/
def SelectLeft (s : State) (b : Bank) (w : State) : Prop :=
  w = { s with
    x := w.x, hwBank := w.hwBank, env := s.env.afterTransaction
    bus := .write s.cfg.bank.addr (selectByte s.cfg.bank b) false :: s.bus }
  ∧ ∀ a, a ≠ s.cfg.bank.addr → w.x.read a = s.x.read a

theorem bankSelect_fails {s : State} (hp : bankParamsOk s.cfg = true) (hf : s.env.nextFails = true)
    (b : Bank) : ∃ w, bankSelect b s = .err .ioError w ∧ SelectLeft s b w := by
  obtain ⟨x, hw, he, hx, -⟩ :=
    busWrite_fails_frame hp hf (target_bank hp) (selectByte s.cfg.bank b)
  refine ⟨_, by rw [bankSelect, he]; rfl, rfl, fun a ha => ?_⟩
  rcases hx with rfl | rfl
  · rfl
  · exact storedIn_read_other s _ ha

theorem prologue_selectFails {s : State} (hp : bankParamsOk s.cfg = true)
    (hf : s.env.nextFails = true) {b : Bank} (hb : b ≠ s.ctx.currentBank) {addr off : Nat}
    (hl : locate addr s = .ok (some b, off) s) :
    ∃ w, prologue addr s = .err .ioError w ∧ SelectLeft s b w := by
  obtain ⟨w, hw, hs⟩ := bankSelect_fails hp hf b
  exact ⟨w, by simp only [prologue, hl, PRes.bind, ensureBank_other hb, hw], hs⟩

/-- The bank a single access selects is the one its prologue finds. -/
theorem locate_of_selectNeed {s : State} {addr : Nat} {b : Bank} (h : selectNeed s addr = some b) :
    ∃ off, locate addr s = .ok (some b, off) s := by
  unfold selectNeed at h
  split at h
  · next hg =>
    obtain ⟨hg, h1, h2⟩ := hg
    cases h
    exact ⟨_, by rw [locate_gap h1 h2, gapAccess, hg]⟩
  · cases ht : translate addr with
    | none => simp [needOf, ht] at h
    | some t =>
      have hlim : ¬ addrLimit ≤ addr := fun hle => by
        have e1 : b0Base = 48 := rfl
        have e5 : b0End = 256 := rfl
        have e6 : b1Base = 304 := rfl
        have e7 : addrLimit = 448 := rfl
        rw [(regionsOfTheFlatAddressSpace addr).2, if_neg (by omega), if_neg (by omega),
          if_neg (by omega), if_neg (by omega)] at ht
        cases ht
      refine ⟨t.2, ?_⟩
      rw [locate, if_neg hlim, ht, ← h]
      simp [needOf, ht]

theorem locateBulk_of_selectNeedBulk {s : State} {addr n : Nat} {b : Bank}
    (hr : rangeCheck addr n = none) (hn : 1 ≤ n) (h : selectNeedBulk s addr n = some b) :
    ∃ off, locateBulk addr n s = .ok (some b, off) s := by
  unfold selectNeedBulk at h
  split at h
  · next hg =>
    split at h
    · next hw =>
      obtain ⟨hw, h1⟩ := hw
      have hb : b0End ≤ addr := h1
      cases h
      exact ⟨addr - b1LocalSub, by simp only [locateBulk, hg, hw, hb, if_true]⟩
    · cases h
  · next hg =>
    exact ⟨_, by rw [locateBulk_register hr hn (by simpa using hg), h]⟩

theorem Ended.selectFailed {s w t : State} {b : Bank} (h : Ended s w ⟨.ioError, 0⟩ t)
    (hw : SelectLeft s b w) : SelectFailed s b t := by
  obtain ⟨hframe, hread⟩ := hw
  refine ⟨?_, h.answered, by rwa [h.x]⟩
  rw [h.x, h.hwBank]
  have := h.frame
  rw [hframe] at this
  exact this

/-- A command whose body raises in its bank select. -/
theorem Ready.selectFailed {i : Instr} {p : Prim} {s : State} {b : Bank} (h : Ready i s)
    (hb : ∃ w, primBody p s = .err .ioError w ∧ SelectLeft s b w) :
    Nexts ((primBody p s).reply s.active) (SelectFailed s b) := by
  obtain ⟨w, hb, hw⟩ := hb
  exact (h.raised hb).imp fun _ ht => ht.selectFailed hw

/-- Settles O27: each body begins with the select, whose failure ends it. -/
theorem failedBankSelectKeepsTheShadow : Obligations.FailedBankSelectKeepsTheShadow := by
  intro addr m v len s b l hp hf hb
  have hfail := nextFails_cons hf
  refine ⟨fun hneed => ?_, fun h hn hr hneed => ?_⟩
  · obtain ⟨off, hl⟩ := locate_of_selectNeed hneed
    obtain ⟨w, hw, hs⟩ := prologue_selectFails hp hfail hb hl
    refine ⟨fun h => ?_, fun h => ?_, fun h => ?_⟩
    · rw [exec_rd_reply h]
      exact h.selectFailed (p := .rd addr.toNat) ⟨w, by rw [primBody, rdBody, hw]; rfl, hs⟩
    · rw [exec_wr_reply h]
      exact h.selectFailed (p := .wr addr.toNat v) ⟨w, by rw [primBody, wrBody, hw]; rfl, hs⟩
    · rw [exec_upd_reply h]
      exact h.selectFailed (p := .upd addr.toNat m v) ⟨w, by rw [primBody, updBody, hw]; rfl, hs⟩
  · rw [← h.bwr_length] at hn hr hneed
    obtain ⟨off, hl⟩ := locateBulk_of_selectNeedBulk hr hn hneed
    obtain ⟨w, hw, hs⟩ := bankSelect_fails hp hfail b
    rw [exec_bwr_reply h]
    refine h.selectFailed (p := .bwr addr.toNat (s.payloadOf s.active)) ⟨w, ?_, hs⟩
    rw [primBody, bwrBody_eq hr hn, hl, PRes.ok_bind, ensureBank_other hb, hw]
    rfl

/-! ## The data transaction -/

/-- The select of an access completes where one is needed; what the environment still holds of outcomes
is for the transactions after it. -/
theorem ensureBank_completes {s : State} (hp : bankParamsOk s.cfg = true) {need : Option Bank}
    {l : List Bool} (hf : s.env.fails = selectFlags s need ++ l) :
    ensureBank need s = .ok () (s.switched need) ∧ (s.switched need).env.fails = l := by
  cases need with
  | none => exact ⟨rfl, hf⟩
  | some b =>
    by_cases hb : b = s.ctx.currentBank
    · rw [ensureBank_same hb, State.switched, if_pos hb]
      exact ⟨rfl, by simpa [selectFlags, hb] using hf⟩
    · have hf' : s.env.fails = false :: l := by simpa [selectFlags, hb] using hf
      rw [ensureBank_other hb, State.switched, if_neg hb]
      exact ⟨bankSelect_completes hp (nextFails_cons hf') b, by simp [hf']⟩

@[simp] theorem PRes.bind_ok {α : Type} (r : PRes α) : r.bind .ok = r := by cases r <;> rfl

/-- The state with every coming transaction completing: what `Fine` asks beside PC1, PC2 and the agreement
of the banks. -/
def State.unfailing (s : State) : State := { s with env := { s.env with fails := [] } }

theorem unfailing_switched_hwBank (s : State) (need : Option Bank) :
    (s.unfailing.switched need).hwBank = (s.switched need).hwBank := by
  cases need with
  | none => rfl
  | some b =>
    by_cases hb : b = s.ctx.currentBank
    · simp only [State.switched, hb, State.unfailing, if_true]
    · simp only [State.switched, hb, State.unfailing, if_false]
      rfl

/-- The offsets of a bulk range that keeps off the gap, after the select, whatever fails later. -/
theorem target_bulk_agree {s : State} (hp : bankParamsOk s.cfg = true)
    (ha : s.ctx.currentBank = s.hwBank) {addr n : Nat} (hr : rangeCheck addr n = none) (hn : 1 ≤ n)
    (hg : touchesGap addr n = false) (i : Nat) (hi : i < n) :
    target (s.switched (bulkBank addr n (needOf addr))).hwBank (offOf addr + i)
      = some (addr + i) := by
  rw [← unfailing_switched_hwBank]
  exact target_bulk (s := s.unfailing) ⟨hp, ha, rfl⟩ hr hn hg i hi

/-- What a failed write of a register leaves, in the register file. -/
theorem Ended.writeFailed {s u t : State} {addr : Nat} {v : Byte} {x : Memory} {hw : Bank}
    (hcfg : u.cfg = s.cfg) (hm : u.x.Pairwise fun c d => c.1 < d.1)
    (hx : x = u.x ∨ x = u.storedIn addr v) (hhw : addr ≠ u.cfg.bank.addr → hw = u.hwBank)
    (h : Ended s { u with x := x, hwBank := hw, env := u.env.afterTransaction
                          bus := .write (offOf addr) v false :: u.bus } ⟨.ioError, 0⟩ t) :
    WriteFailed s u addr v t := by
  refine ⟨?_, h.answered, fun hne => ?_, ?_, fun a ha => ?_⟩
  · rw [h.x, h.hwBank]
    exact h.frame
  · rw [h.hwBank]
    exact hhw (by rwa [hcfg])
  · rw [h.x]
    rcases hx with rfl | rfl
    · exact .inl rfl
    · by_cases hpl : addr = u.cfg.bank.addr ∨ isPlain u.cfg addr = true
      · refine .inr ?_
        simp only [State.storedIn, if_pos hpl]
        exact Memory.read_write_same hm addr v
      · refine .inl ?_
        simp only [State.storedIn, if_neg hpl]
  · rw [h.x]
    rcases hx with rfl | rfl
    · rfl
    · exact storedIn_read_other u v ha

/-- A command whose body raises in the write of a register, from `u`. -/
theorem Ready.writeFailed {i : Instr} {p : Prim} {s u : State} {addr : Nat} {v : Byte}
    {l : List Bool} (h : Ready i s) (hp : bankParamsOk s.cfg = true) (hcfg : u.cfg = s.cfg)
    (hm : u.x.Pairwise fun c d => c.1 < d.1) (hf : u.env.fails = true :: l)
    (ht : target u.hwBank (offOf addr) = some addr)
    (hb : primBody p s = (busWrite (offOf addr) v u).bind fun _ w => .ok 0 w) :
    Nexts ((primBody p s).reply s.active) (WriteFailed s u addr v) := by
  obtain ⟨x, hw, he, hx, hhw⟩ :=
    busWrite_fails_frame (s := u) (by rwa [hcfg]) (nextFails_cons hf) ht v
  rw [he] at hb
  exact (h.raised hb).imp fun t h => h.writeFailed hcfg hm hx hhw

/-- A command whose body raises in the read of a register, from `u`. -/
theorem Ready.readFailed {i : Instr} {p : Prim} {s u : State} {addr : Nat} {l : List Bool}
    {k : Byte → State → PRes Byte} (h : Ready i s) (hf : u.env.fails = true :: l)
    (ht : target u.hwBank (offOf addr) = some addr)
    (hb : primBody p s = (busRead (offOf addr) u).bind k) :
    Nexts ((primBody p s).reply s.active) (ReadFailed s u addr) := by
  rw [busRead_fails (nextFails_cons hf) ht] at hb
  exact (h.raised hb).imp fun t h => ⟨h.frame, h.answered⟩

/-- A command whose body raises in its burst, from `u`. -/
theorem Ready.burstFailed {i : Instr} {p : Prim} {s u : State} {addr : Nat} {bytes : List Byte}
    {l : List Bool} (h : Ready i s) (hp : bankParamsOk u.cfg = true) (hf : u.env.fails = true :: l)
    (ht : ∀ i < bytes.length, target u.hwBank (offOf addr + i) = some (addr + i))
    (hoff : offBanksel u.cfg addr bytes.length = true)
    (hb : primBody p s = (busBurst (offOf addr) bytes u).bind fun _ w => .ok 0 w) :
    Nexts ((primBody p s).reply s.active) (BurstFailed s u addr bytes) := by
  have hne : ∀ i < bytes.length, addr + i ≠ u.cfg.bank.addr := fun i hi => by
    simp only [offBanksel, decide_eq_true_eq] at hoff
    omega
  obtain ⟨k, hk, he⟩ := busOut_fails_run hp (nextFails_cons hf) (op := .burst (offOf addr) bytes)
    ht hne
  rw [busBurst, he] at hb
  exact (h.raised hb).imp fun t h => ⟨by rw [h.x]; exact h.frame, h.answered, k, hk, h.x⟩

/-- The prologue of a register access whose select completes. -/
theorem prologue_completes {s : State} (hp : bankParamsOk s.cfg = true) {addr : Nat}
    (ha : isRegister addr = true) {l : List Bool}
    (hf : s.env.fails = selectFlags s (needOf addr) ++ l) :
    prologue addr s = .ok (offOf addr) (s.switched (needOf addr)) := by
  rw [prologue, locate_register ha, PRes.ok_bind, (ensureBank_completes hp hf).1, PRes.ok_bind]

/-- Settles O28: after the select each body is its data transactions, the first or, for UPD, the second of
which fails. -/
theorem failedWriteLeavesOldOrNewByte : Obligations.FailedWriteLeavesOldOrNewByte := by
  intro addr m v len s l hp hag hx
  refine ⟨fun ha => ⟨fun hf => ?_, fun hf h => ?_⟩, fun h hn hr hg hoff hf => ?_⟩
  · have hpro := prologue_completes hp ha hf
    have hfu := (ensureBank_completes hp hf).2
    have ht := target_agree hag ha
    refine ⟨fun h => ?_, fun h => ?_, fun h => ?_⟩
    · rw [exec_rd_reply h]
      refine h.readFailed (p := .rd addr.toNat) (k := .ok) hfu ht ?_
      rw [primBody, rdBody, hpro, PRes.ok_bind, PRes.bind_ok]
    · rw [exec_upd_reply h]
      refine h.readFailed (p := .upd addr.toNat m v) (k := fun old w =>
        (busWrite (offOf addr.toNat) (updValue old m v) w).bind fun _ w => .ok 0 w) hfu ht ?_
      rw [primBody, updBody, hpro, PRes.ok_bind]
    · rw [exec_wr_reply h]
      refine h.writeFailed (p := .wr addr.toNat v) hp (switched_cfg s _)
        (switched_pairwise _ hx.1) hfu ht ?_
      rw [primBody, wrBody, hpro, PRes.ok_bind]
  · have hpro := prologue_completes hp ha hf
    have hfu := (ensureBank_completes hp hf).2
    have ht := target_agree hag ha
    rw [exec_upd_reply h]
    refine h.writeFailed (p := .upd addr.toNat m v) (l := l) hp (rdAt_cfg s _)
      (switched_pairwise _ hx.1) ?_ ht ?_
    · simp only [State.rdAt, State.didRead_env, envAfterRead_fails, hfu, List.tail_cons]
    · rw [primBody, updBody, hpro, PRes.ok_bind, busRead_completes (nextFails_cons hfu) ht,
        PRes.ok_bind]
      rfl
  · rw [← h.bwr_length] at hn hr hg hoff hf
    have hsel := ensureBank_completes hp hf
    rw [exec_bwr_reply h, ← h.bwr_length]
    refine h.burstFailed (p := .bwr addr.toNat (s.payloadOf s.active)) (by rwa [switched_cfg]) hsel.2
      (target_bulk_agree hp hag hr hn hg) (by rwa [switched_cfg]) ?_
    rw [primBody, bwrBody_eq hr hn, locateBulk_register hr hn hg, PRes.ok_bind, hsel.1, PRes.ok_bind]

end Sys2Proof.Machine
end

section
/-! SUPPORT. Decoder and encoder: each is the other's inverse, and the words the decoder refuses. -/

namespace Sys2Proof

open Laws

/-! ## The format an opcode selects (rules R91, R96) -/

section
variable {w : CmdWord}

theorem decode_rd (h : opField w = 0x1) : decode w = decodeRd w := by simp [decode, h]

theorem decode_wr (h : opField w = 0x2) : decode w = decodeWr w := by simp [decode, h]

theorem decode_upd (h : opField w = 0x3) :
    decode w = .ok (.upd (addrField w) (midField w) (lowField w)) := by simp [decode, h]

theorem decode_bwr (h : opField w = 0x4) : decode w = .ok (.bwr (addrField w) (halfField w)) := by
  simp [decode, h]

theorem decode_rdblk (h : opField w = 0x5) : decode w = decodeRdblk w := by simp [decode, h]

theorem decode_ddcAbort (h : opField w = 0x6) : decode w = decodeFormatN w .ddcAbort := by
  simp [decode, h]

theorem decode_irqDispatch (h : opField w = 0x7) : decode w = decodeFormatN w .irqDispatch := by
  simp [decode, h]

theorem decode_hpdTask (h : opField w = 0x8) : decode w = decodeFormatN w .hpdTask := by
  simp [decode, h]

theorem decode_ldm (h : opField w = 0x9) : decode w = decodeLdm w := by simp [decode, h]

theorem decode_modeSet (h : opField w = 0xA) : decode w = decodeModeSet w := by simp [decode, h]

theorem decode_vidEn (h : opField w = 0xB) : decode w = decodeFormatN w .vidEn := by
  simp [decode, h]

theorem decode_cscCfg (h : opField w = 0xC) : decode w = decodeCscCfg w := by simp [decode, h]

theorem decode_brEnable (h : opField w = 0xD) : decode w = decodeFormatN w .brEnable := by
  simp [decode, h]

theorem decode_brDisable (h : opField w = 0xE) : decode w = decodeFormatN w .brDisable := by
  simp [decode, h]

theorem decode_reserved (h : opField w = 0x0 ∨ opField w = 0xF) :
    decode w = .error .reservedOpcode := by
  rcases h with h | h <;> simp [decode, h]

end

/-! ## From an operation to its word and back -/

theorem decodeSel_encodeSel (sel : LatchSel) : decodeSel (encodeSel sel) = some sel := by
  cases sel <;> rfl

theorem decodeColorimetry_encodeColorimetry (c : Colorimetry) :
    decodeColorimetry (encodeColorimetry c) = some c := by
  cases c <;> rfl

/-! What each format reads from a word put together with any opcode `o`. -/

section
variable (o : BitVec 4)

theorem decodeRd_fields (addr : BitVec 12) :
    decodeRd (o ++ addr ++ 0#8 ++ 0#8) = .ok (.rd addr) := by
  rw [decodeRd, midField_r, lowField_r, addrField_r]
  rfl

theorem decodeWr_fields (addr : BitVec 12) (val : Byte) :
    decodeWr (o ++ addr ++ 0#8 ++ val) = .ok (.wr addr val) := by
  rw [decodeWr, midField_r, lowField_r, addrField_r]
  rfl

theorem decodeRdblk_fields (block : BitVec 8) (length : BitVec 16) :
    decodeRdblk (o ++ 0#4 ++ block ++ length) = .ok (.rdblk block length) := by
  simp [decodeRdblk]

theorem decodeLdm_fields (sel : LatchSel) (value : BitVec 24) :
    decodeLdm (o ++ encodeSel sel ++ value) = .ok (.ldm sel value) := by
  simp [decodeLdm, decodeSel_encodeSel]

theorem decodeModeSet_fields (len : BitVec 8) (csum : Byte) :
    decodeModeSet (o ++ 0#12 ++ len ++ csum) = .ok (.modeSet len csum) := by
  simp [decodeModeSet]

theorem decodeCscCfg_fields (c : Colorimetry) (limited : Bool) :
    decodeCscCfg (o ++ 0#25 ++ encodeColorimetry c ++ BitVec.ofBool limited)
      = .ok (.cscCfg c limited) := by
  have hrange : decide (BitVec.ofBool limited = 1#1) = limited := by cases limited <;> rfl
  simp [decodeCscCfg, decodeColorimetry_encodeColorimetry, hrange]

theorem decodeFormatN_fields (i : Instr) : decodeFormatN (o ++ 0#28) i = .ok i := by
  simp [decodeFormatN]

end

/-- Settles O1: the opcode of the word selects the operation's format, and each field of the format
comes back as it was put in. -/
theorem decodeOfEncodeIsIdentity : Obligations.DecodeOfEncodeIsIdentity := by
  intro i
  cases i with
  | rd addr => exact (decode_rd (OpcodeField.rd addr)).trans (decodeRd_fields _ addr)
  | wr addr val => exact (decode_wr (OpcodeField.wr addr val)).trans (decodeWr_fields _ addr val)
  | upd addr mask val =>
    rw [decode_upd (OpcodeField.upd addr mask val), encode, addrField_r, midField_r, lowField_r]
  | bwr addr len => rw [decode_bwr (OpcodeField.bwr addr len), encode, addrField_b, halfField_b]
  | rdblk block length =>
    exact (decode_rdblk (OpcodeField.rdblk block length)).trans (decodeRdblk_fields _ block length)
  | ddcAbort => exact (decode_ddcAbort OpcodeField.ddcAbort).trans (decodeFormatN_fields _ _)
  | irqDispatch =>
    exact (decode_irqDispatch OpcodeField.irqDispatch).trans (decodeFormatN_fields _ _)
  | hpdTask => exact (decode_hpdTask OpcodeField.hpdTask).trans (decodeFormatN_fields _ _)
  | ldm sel value =>
    exact (decode_ldm (OpcodeField.ldm sel value)).trans (decodeLdm_fields _ sel value)
  | modeSet len csum =>
    exact (decode_modeSet (OpcodeField.modeSet len csum)).trans (decodeModeSet_fields _ len csum)
  | vidEn => exact (decode_vidEn OpcodeField.vidEn).trans (decodeFormatN_fields _ _)
  | cscCfg c limited =>
    exact (decode_cscCfg (OpcodeField.cscCfg c limited)).trans (decodeCscCfg_fields _ c limited)
  | brEnable => exact (decode_brEnable OpcodeField.brEnable).trans (decodeFormatN_fields _ _)
  | brDisable => exact (decode_brDisable OpcodeField.brDisable).trans (decodeFormatN_fields _ _)

/-- Settles O3. -/
theorem vectorWordsDecode : Obligations.VectorWordsDecode :=
  ⟨rfl, rfl, rfl, rfl, rfl, rfl, rfl, rfl, rfl, rfl, rfl, rfl⟩

/-! ## From a word to its operation and back -/

/-! A word is its fields put together, format by format. -/

section
variable (w : CmdWord)

theorem fields_r : opField w ++ addrField w ++ midField w ++ lowField w = w := by
  unfold opField addrField midField lowField
  ext i hi
  simp only [BitVec.getElem_append, BitVec.getElem_extractLsb']
  grind

theorem fields_b : opField w ++ addrField w ++ halfField w = w := by
  unfold opField addrField halfField
  ext i hi
  simp only [BitVec.getElem_append, BitVec.getElem_extractLsb']
  grind

theorem fields_d : opField w ++ selField w ++ blockField w ++ halfField w = w := by
  unfold opField selField blockField halfField
  ext i hi
  simp only [BitVec.getElem_append, BitVec.getElem_extractLsb']
  grind

theorem fields_l : opField w ++ selField w ++ valueField w = w := by
  unfold opField selField valueField
  ext i hi
  simp only [BitVec.getElem_append, BitVec.getElem_extractLsb']
  grind

theorem fields_c : opField w ++ zeroFieldC w ++ colorField w ++ rangeField w = w := by
  unfold opField zeroFieldC colorField rangeField
  ext i hi
  simp only [BitVec.getElem_append, BitVec.getElem_extractLsb']
  grind

theorem fields_n : opField w ++ restField w = w := by
  unfold opField restField
  ext i hi
  simp only [BitVec.getElem_append, BitVec.getElem_extractLsb']
  grind

end

theorem encodeSel_of_decodeSel {b : BitVec 4} {sel : LatchSel} (h : decodeSel b = some sel) :
    encodeSel sel = b := by
  revert b sel
  decide

theorem encodeColorimetry_of_decodeColorimetry {b : BitVec 2} {c : Colorimetry}
    (h : decodeColorimetry b = some c) : encodeColorimetry c = b := by
  revert b c
  decide

theorem ofBool_range (r : BitVec 1) : BitVec.ofBool (decide (r = 1)) = r := by
  revert r
  decide

/-! What a format read is the word it was read from. -/

section
variable {w : CmdWord} {i : Instr}

theorem encode_of_decodeRd (ho : opField w = 0x1) (h : decodeRd w = .ok i) : encode i = w := by
  unfold decodeRd at h
  split_ifs at h with hm hl
  cases h
  conv_rhs => rw [← fields_r w, ho, not_not.mp hm, not_not.mp hl]
  rfl

theorem encode_of_decodeWr (ho : opField w = 0x2) (h : decodeWr w = .ok i) : encode i = w := by
  unfold decodeWr at h
  split_ifs at h with hm
  cases h
  conv_rhs => rw [← fields_r w, ho, not_not.mp hm]
  rfl

theorem encode_of_decodeRdblk (ho : opField w = 0x5) (h : decodeRdblk w = .ok i) :
    encode i = w := by
  unfold decodeRdblk at h
  split_ifs at h with hs
  cases h
  conv_rhs => rw [← fields_d w, ho, hs]
  rfl

theorem encode_of_decodeLdm (ho : opField w = 0x9) (h : decodeLdm w = .ok i) : encode i = w := by
  unfold decodeLdm at h
  split at h
  · next sel hs =>
    cases h
    conv_rhs => rw [← fields_l w, ho, ← encodeSel_of_decodeSel hs]
    rfl
  · cases h

theorem encode_of_decodeModeSet (ho : opField w = 0xA) (h : decodeModeSet w = .ok i) :
    encode i = w := by
  unfold decodeModeSet at h
  split_ifs at h with ha
  cases h
  conv_rhs => rw [← fields_r w, ho, ha]
  rfl

theorem encode_of_decodeCscCfg (ho : opField w = 0xC) (h : decodeCscCfg w = .ok i) :
    encode i = w := by
  unfold decodeCscCfg at h
  split_ifs at h with hz
  split at h
  · next c hc =>
    cases h
    conv_rhs => rw [← fields_c w, ho, hz, ← encodeColorimetry_of_decodeColorimetry hc,
      ← ofBool_range (rangeField w)]
    rfl
  · cases h

theorem encode_of_decodeFormatN {j : Instr} (hj : encode j = opField w ++ 0#28)
    (h : decodeFormatN w j = .ok i) : encode i = w := by
  unfold decodeFormatN at h
  split_ifs at h with hr
  cases h
  rw [hj, show (0#28 : BitVec 28) = restField w from hr.symm, fields_n]

end

/-- Every word has one of the sixteen opcodes (rule R96). -/
theorem opcode_cases (o : BitVec 4) : o ∈ [0x0#4, 0x1, 0x2, 0x3, 0x4, 0x5, 0x6, 0x7, 0x8, 0x9, 0xA,
    0xB, 0xC, 0xD, 0xE, 0xF] := by
  revert o
  decide

/-- Settles O2: the opcode selects the format, and the word is its fields put together. -/
theorem encodeOfDecodeIsIdentity : Obligations.EncodeOfDecodeIsIdentity := by
  intro w i h
  unfold decode at h
  split at h
  case h_1 ho => exact encode_of_decodeRd (BitVec.eq_of_toNat_eq ho) h
  case h_2 ho => exact encode_of_decodeWr (BitVec.eq_of_toNat_eq ho) h
  case h_3 ho =>
    cases h
    conv_rhs => rw [← fields_r w, (BitVec.eq_of_toNat_eq ho : opField w = 0x3#4)]
    rfl
  case h_4 ho =>
    cases h
    conv_rhs => rw [← fields_b w, (BitVec.eq_of_toNat_eq ho : opField w = 0x4#4)]
    rfl
  case h_5 ho => exact encode_of_decodeRdblk (BitVec.eq_of_toNat_eq ho) h
  case h_9 ho => exact encode_of_decodeLdm (BitVec.eq_of_toNat_eq ho) h
  case h_10 ho => exact encode_of_decodeModeSet (BitVec.eq_of_toNat_eq ho) h
  case h_12 ho => exact encode_of_decodeCscCfg (BitVec.eq_of_toNat_eq ho) h
  case h_15 => cases h
  all_goals
    next ho =>
      exact encode_of_decodeFormatN (congrArg (· ++ 0#28) (BitVec.eq_of_toNat_eq ho).symm) h

/-! ## The words the decoder refuses -/

section
variable (w : CmdWord)

theorem decodeFormatN_refuses (i : Instr) :
    (∃ e, decodeFormatN w i = .error e) ↔ restField w ≠ 0 := by
  by_cases h : restField w = 0#28 <;> simp [decodeFormatN, h]

theorem decodeRd_refuses : (∃ e, decodeRd w = .error e) ↔ midField w ≠ 0 ∨ lowField w ≠ 0 := by
  by_cases hm : midField w = 0#8
  · by_cases hl : lowField w = 0#8 <;> simp [decodeRd, hm, hl]
  · simp [decodeRd, hm]

theorem decodeWr_refuses : (∃ e, decodeWr w = .error e) ↔ midField w ≠ 0 := by
  by_cases h : midField w = 0#8 <;> simp [decodeWr, h]

theorem decodeRdblk_refuses : (∃ e, decodeRdblk w = .error e) ↔ selField w ≠ 0 := by
  by_cases h : selField w = 0#4 <;> simp [decodeRdblk, h]

theorem decodeModeSet_refuses : (∃ e, decodeModeSet w = .error e) ↔ addrField w ≠ 0 := by
  by_cases h : addrField w = 0#12 <;> simp [decodeModeSet, h]

theorem decodeSel_eq_none (b : BitVec 4) : decodeSel b = none ↔ 8 < b.toNat := by
  revert b
  decide

theorem decodeColorimetry_eq_none (b : BitVec 2) : decodeColorimetry b = none ↔ b = 3 := by
  revert b
  decide

theorem decodeLdm_refuses : (∃ e, decodeLdm w = .error e) ↔ 8 < (selField w).toNat := by
  rw [← decodeSel_eq_none]
  cases hs : decodeSel (selField w) <;> simp [decodeLdm, hs]

theorem decodeCscCfg_refuses :
    (∃ e, decodeCscCfg w = .error e) ↔ zeroFieldC w ≠ 0 ∨ colorField w = 3 := by
  rw [← decodeColorimetry_eq_none]
  by_cases hz : zeroFieldC w = 0#25
  · cases hc : decodeColorimetry (colorField w) <;> simp [decodeCscCfg, hz, hc]
  · simp [decodeCscCfg, hz]

end

/-- Settles O4: under each opcode the words refused are those its format refuses, and no other
format's clause speaks of them. -/
theorem decoderRefusesExactlyTheReservedWords :
    Obligations.DecoderRefusesExactlyTheReservedWords := by
  intro w
  have ho := opcode_cases (opField w)
  simp only [List.mem_cons, List.not_mem_nil, or_false] at ho
  rcases ho with h | h | h | h | h | h | h | h | h | h | h | h | h | h | h | h
  · simp [decode_reserved (.inl h), h]
  · simp [decode_rd h, decodeRd_refuses, h]
  · simp [decode_wr h, decodeWr_refuses, h]
  · simp [decode_upd h, h]
  · simp [decode_bwr h, h]
  · simp [decode_rdblk h, decodeRdblk_refuses, h]
  · simp [decode_ddcAbort h, decodeFormatN_refuses, h]
  · simp [decode_irqDispatch h, decodeFormatN_refuses, h]
  · simp [decode_hpdTask h, decodeFormatN_refuses, h]
  · simp [decode_ldm h, decodeLdm_refuses, h]
  · simp [decode_modeSet h, decodeModeSet_refuses, h]
  · simp [decode_vidEn h, decodeFormatN_refuses, h]
  · simp [decode_cscCfg h, decodeCscCfg_refuses, h]
  · simp [decode_brEnable h, decodeFormatN_refuses, h]
  · simp [decode_brDisable h, decodeFormatN_refuses, h]
  · simp [decode_reserved (.inr h), h]

end Sys2Proof
end

section
/-! SUPPORT. What an idle agent's turn starts: a port's next command, run or refused, and the two
internal operations on their triggers. -/

namespace Sys2Proof.Machine

/-! ## An idle port's turn (rules R90, R100) -/

section
variable {s : State} {p : PortId} {c : Command} {cs : List Command}

/-- An idle port's turn runs the word of the next command presented to it. -/
theorem serve_presented (hid : s.idle (.port p) = true) (hin : (s.port p).inbox = c :: cs) :
    serve (.port p) s = runCommand p c.word (s.takeCommand p c cs) := by
  simp only [serve, hid, if_true, startAgent, acceptCommand, hin]

theorem step_turn {a : AgentId} {rest : List Turn} (h : s.env.sched = .run a :: rest) :
    step s = serve a (s.setSched rest) := by
  simp only [step, advance, h, takeTurn]

theorem step_onlyEnabled {a : AgentId} (h : s.env.sched = []) (ha : enabledAgents s = [a]) :
    step s = serve a s := by
  simp only [step, advance, h, freeTurn, ha]

theorem runCommand_runs {w : CmdWord} {i : Instr} (hd : decode w = .ok i)
    (hi : hostMayStart i = true) :
    runCommand p w s = exec i s := by
  simp only [runCommand, hd, hi, if_true]

/-- A word that names no operation, or an internal one (rule R101). -/
theorem runCommand_refuses {w : CmdWord} (hd : (∃ e, decode w = .error e)
      ∨ decode w = .ok .irqDispatch ∨ decode w = .ok .hpdTask) :
    runCommand p w s = .next (illegalCommand p s) := by
  rcases hd with ⟨e, hd⟩ | hd | hd <;> simp [runCommand, hd, hostMayStart]

/-- Settles O5: an idle port's turn takes the command and runs what its word names, whoever gave it
the turn. -/
theorem stepRunsDecodedCommand : Obligations.StepRunsDecodedCommand := by
  intro s p c cs i hid hin hd hi
  refine ⟨fun rest hs => ?_, fun hs ha => ?_⟩
  · rw [step_turn hs, serve_presented (s := s.setSched rest) hid hin, runCommand_runs hd hi]
  · rw [step_onlyEnabled hs ha, serve_presented hid hin, runCommand_runs hd hi]

end

/-! ## The two asynchronous starts (rules R190, R247) -/

/-- Settles O6: an idle internal agent's turn looks at its trigger and its running flag alone. -/
theorem turnsStartInternalOperations : Obligations.TurnsStartInternalOperations := by
  intro s rest
  refine ⟨fun hs hid => ?_, fun hs hid => ?_⟩
  · have hid' : (s.setSched rest).idle .dispatcher = true := hid
    rw [step_turn hs]
    simp [serve, hid', startAgent, dispatchTriggered]
  · have hid' : (s.setSched rest).idle .task = true := hid
    rw [step_turn hs]
    simp [serve, hid', startAgent, taskTriggered]

/-! ## A refused command -/

section
variable {s : State} {p : PortId} {c : Command} {cs : List Command}

@[simp] theorem State.hasPort_takeCommand (q : PortId) :
    (s.takeCommand p c cs).hasPort q = s.hasPort q := by
  rw [← State.hasPort_setPort s p q { s.port p with inbox := cs }]
  cases p <;> cases q <;> rfl

theorem State.port_takeCommand (q : PortId) :
    (s.takeCommand p c cs).port q = (s.setPort p { s.port p with inbox := cs }).port q := by
  cases p <;> cases q <;> rfl

/-- What a command taken and refused leaves of the port it was presented to: the rest of its
inbox. -/
theorem port_refused_self (hp : s.hasPort p = true) (hid : s.idle (.port p) = true) :
    (illegalCommand p (s.takeCommand p c cs)).port p = { s.port p with inbox := cs } := by
  have hpos : (s.port p).seq.pos = [] := List.isEmpty_iff.mp hid
  rw [illegalCommand, State.respond_port_self _ _ (by simpa using hp), State.port_takeCommand,
    State.port_setPort_self s _ hp, ← hpos]

theorem port_refused_other {q : PortId} (hq : q ≠ p) :
    (illegalCommand p (s.takeCommand p c cs)).port q = s.port q := by
  rw [illegalCommand, State.respond_port_other _ _ hq, State.port_takeCommand,
    State.port_setPort_other s _ hq]

/-- What answering a port's command leaves beside the ports (rules R37, R99, R255). -/
theorem State.respond_eq (s : State) (p : PortId) (r : Response) : s.respond p r = { s with
    hostPort := (s.respond p r).hostPort, auxPorts := (s.respond p r).auxPorts
    payload := if p = .host then [] else s.payload, resp := if p = .host then r else s.resp
    events := .resp p r :: s.events } := by cases p <;> rfl

/-- What else a command taken and refused changes. -/
theorem refused_frame : illegalCommand p (s.takeCommand p c cs) = { s with
    hostPort := (illegalCommand p (s.takeCommand p c cs)).hostPort
    auxPorts := (illegalCommand p (s.takeCommand p c cs)).auxPorts, active := p
    payload := if p = .host then [] else s.payload
    resp := if p = .host then ⟨.illegalCommand, 0⟩ else s.resp
    given := if p = .host then s.given else c.payload
    events := .resp p ⟨.illegalCommand, 0⟩ :: s.events } := by
  refine (State.respond_eq _ p _).trans ?_
  cases p <;> rfl

end

/-- Settles O7: the port takes the command, and its word is refused before anything runs. -/
theorem portsRefuseUndecodableAndInternalWords :
    Obligations.PortsRefuseUndecodableAndInternalWords := by
  intro s p c cs rest hp hid hin hs hd
  refine ⟨illegalCommand p ((s.setSched rest).takeCommand p c cs), ?_, refused_frame,
    port_refused_self (s := s.setSched rest) hp hid,
    fun q hq => port_refused_other (s := s.setSched rest) hq⟩
  rw [step_turn hs, serve_presented (s := s.setSched rest) hid hin, runCommand_refuses hd]

/-- A command of an idle port that fails the checks of rule R100. -/
theorem command_illegal {i : Instr} {k : List Stmt} {s : State}
    (hid : s.idle (.port s.active) = true)
    (hl : legalCommand i (decide (s.active = .host)) (s.payloadOf s.active) = false) :
    command i k s = .next (illegalCommand s.active s) := by
  simp [command, hid, hl]

/-- The three ways a command can fail the checks of rule R100. -/
theorem legalCommand_eq_false {i : Instr} {p : PortId} {payload : List Byte}
    (h : (p ≠ .host ∧ auxMayStart i = false) ∨ payload.length ≠ payloadLength i
      ∨ i.wellFormed = false) :
    legalCommand i (decide (p = .host)) payload = false := by
  rcases h with ⟨hp, ha⟩ | hlen | hw
  · simp [legalCommand, hp, ha]
  · simp [legalCommand, hlen]
  · simp [legalCommand, hw]

/-- Settles O8: every operation a port may start makes the checks of rule R100 before its first
statement. -/
theorem illegalOperandsHaveNoEffect : Obligations.IllegalOperandsHaveNoEffect := by
  intro i s hi hp hid h
  obtain ⟨k, _, he⟩ := exec_eq_command hi s
  refine ⟨illegalCommand s.active s, ?_, State.respond_frame s _ _,
    State.respond_answered _ hp (fun _ => rfl) hid rfl rfl rfl⟩
  rw [he, command_illegal hid (legalCommand_eq_false h)]

end Sys2Proof.Machine
end

section
/-! SUPPORT. Every operation ends: a bound on the statements each statement stands for (rule R155),
which every step of an agent that finds the lock free brings down. -/

namespace Sys2Proof.Machine

/-! ## The cost of a statement -/

/-- The statements of DDC_ABORT with `left` iterations to come: one write and at most 200 samples
each (rule R145). -/
def abortCost (left : Nat) : Nat := 203 * left + 1

/-- The statements a call site adds after its `Poll` (rules R145, R153). -/
def PollUse.cost : PollUse → Nat
  | .abort left _ => abortCost left
  | .pre => 2
  | .post => 1

/-- The statements of a handler (rules R177 to R181). -/
def Handler.cost : Handler → Nat
  | .fifoError => 1
  | .busHang => 5 + abortCost 2
  | .audioOverflow => 2
  | .videoStable => 1
  | .hotplug => 0

/-- The statements of RDBLK with `remaining` bytes to come, in chunks of 32 (rules R150, R152). -/
def chunkCost (remaining : Nat) : Nat := 463 * ((remaining + 31) / 32) + remaining + 1

/-- How many statements one statement stands for at most, with what replaces it, where the AFE table
has `rows` rows. -/
def Stmt.cost (rows : Nat) : Stmt → Nat
  | .rdblk _ length => 7 + abortCost 2 + chunkCost length
  | .hangCheck => 5 + abortCost 2
  | .chunk _ _ remaining => chunkCost remaining
  | .poll use left => left + 1 + use.cost
  | .drain left => left + 1
  | .abortIter left _ => abortCost left
  | .clearRow _ => 2
  | .extClear => 2
  | .handler h => 1 + h.cost
  | .hpdRead => 2
  | .vidEn => 6 + rows
  | .csc _ _ => 4
  | _ => 1

/-- How many statements a program stands for at most. -/
def programCost (rows : Nat) (k : List Stmt) : Nat := (k.map (Stmt.cost rows)).sum

section
variable (rows : Nat)

@[simp] theorem programCost_nil : programCost rows [] = 0 := rfl

@[simp] theorem programCost_cons (m : Stmt) (k : List Stmt) :
    programCost rows (m :: k) = m.cost rows + programCost rows k := by simp [programCost]

@[simp] theorem programCost_append (k l : List Stmt) :
    programCost rows (k ++ l) = programCost rows k + programCost rows l := by simp [programCost]

theorem Stmt.cost_pos (m : Stmt) : 0 < m.cost rows := by
  cases m <;> simp [Stmt.cost, abortCost, chunkCost]

theorem programCost_suffix {k l : List Stmt} (h : k <:+ l) :
    programCost rows k ≤ programCost rows l := by
  obtain ⟨l', rfl⟩ := h
  simp

theorem programCost_abortProgram (c : Params) :
    programCost rows (abortProgram c) = 4 + abortCost 2 := by
  simp only [abortProgram, abortIters, programCost_cons, programCost_nil, Stmt.cost]
  omega

theorem programCost_afterPoll (c : Params) (use : PollUse) (r : PollResult) :
    programCost rows (afterPoll c use r) ≤ use.cost := by
  cases use <;> cases r <;> simp [afterPoll, Stmt.cost, PollUse.cost]

theorem programCost_chunkProgram (d : DdcParams) (segment offset : Nat) {remaining : Nat}
    (h : remaining ≠ 0) :
    programCost rows (chunkProgram d segment offset remaining) < chunkCost remaining := by
  simp only [chunkProgram, programCost_cons, programCost_nil, Stmt.cost, PollUse.cost,
    chunkCost, chunkSize, fifoMax, pollPre, pollRead]
  omega

theorem programCost_handlerProgram (c : Params) (h : Handler) :
    programCost rows (handlerProgram c h) = h.cost := by
  cases h with
  | busHang =>
    simp only [handlerProgram, programCost_append, programCost_abortProgram, programCost_cons,
      programCost_nil, Stmt.cost, Handler.cost]
    omega
  | _ => simp [handlerProgram, Stmt.cost, Handler.cost]

theorem programCost_afeProgram (b : BridgeParams) (high : Bool) :
    programCost rows (afeProgram b high) = b.afeTable.length := by
  simp [afeProgram, programCost, Function.comp_def, Stmt.cost]

theorem programCost_cscProgram (b : BridgeParams) (inMode outMode : ColorMode) (c : Colorimetry)
    (limited : Bool) : programCost rows (cscProgram b inMode outMode c limited) ≤ 3 := by
  unfold cscProgram
  split <;> simp [Stmt.cost]

theorem programCost_dispatchProgram (c : Params) : programCost rows (dispatchProgram c) ≤ 3000 := by
  simp [dispatchProgram, groupOrder, clearOrder, handlerOrder, Stmt.cost, Handler.cost, abortCost]

theorem programCost_modeSetProgram (b : BridgeParams) (csum : Byte) (d : List Byte) :
    programCost rows (modeSetProgram b csum d) ≤ 10 + rows := by
  unfold modeSetProgram
  split <;> simp [Stmt.cost] <;> omega

end

/-! ## A statement costs more than what replaces it -/

/-- The statement did not wait, and what replaces it costs less than `n`. -/
def StepRes.CostsUnder (rows n : Nat) : StepRes → Prop
  | .go push _ => programCost rows push < n
  | .ret _ _ => True
  | .raise _ _ => True
  | .wait => False
  | .stop _ => True

theorem withPrim_costsUnder {rows n : Nat} {a : AgentId} {p : Prim} {s : State}
    {k : Byte → State → StepRes} {h : Status → State → StepRes} (hl : s.ctx.lock = none)
    (hk : ∀ v t, (k v t).CostsUnder rows n) (hh : ∀ e t, (h e t).CostsUnder rows n) :
    (withPrim a p s k h).CostsUnder rows n := by
  unfold withPrim
  rw [runPrim_free hl]
  cases s.prim a p with
  | ok v t => exact hk v t
  | err e t => exact hh e t
  | stop x => trivial

theorem callPrim_costsUnder {rows n : Nat} {a : AgentId} {p : Prim} {s : State}
    {k : Byte → State → StepRes} (hl : s.ctx.lock = none)
    (hk : ∀ v t, (k v t).CostsUnder rows n) : (callPrim a p s k).CostsUnder rows n :=
  withPrim_costsUnder hl hk fun _ _ => trivial

/-- A statement that is replaced by nothing. -/
theorem StepRes.CostsUnder.gone {rows : Nat} {m : Stmt} {s : State} :
    (StepRes.go [] s).CostsUnder rows (m.cost rows) := m.cost_pos rows

theorem stepPoll_costsUnder {rows : Nat} (a : AgentId) (use : PollUse) (left : Nat) {s : State}
    (hl : s.ctx.lock = none) :
    (stepPoll a use left s).CostsUnder rows ((Stmt.poll use left).cost rows) := by
  have hafter : ∀ c r, programCost rows (afterPoll c use r) < (Stmt.poll use left).cost rows := by
    intro c r
    have := programCost_afterPoll rows c use r
    simp only [Stmt.cost]
    omega
  cases left with
  | zero => exact hafter _ _
  | succ left =>
    refine callPrim_costsUnder hl fun v t => ?_
    split
    · exact hafter _ _
    · exact hafter _ _
    · split
      · exact hafter _ _
      · simp [StepRes.CostsUnder, Stmt.cost]

/-- Where the lock is free every statement of every agent brings the cost down, whatever the
environment answers. -/
theorem stmtStep_costsUnder (a : AgentId) (m : Stmt) {s : State} (hl : s.ctx.lock = none) :
    (stmtStep a m s).CostsUnder s.cfg.bridge.afeTable.length
      (m.cost s.cfg.bridge.afeTable.length) := by
  cases m with
  | rdReturn addr => exact callPrim_costsUnder hl fun _ _ => trivial
  | prim p => exact callPrim_costsUnder hl fun _ _ => .gone
  | tryPrim p => exact withPrim_costsUnder hl (fun _ _ => .gone) fun _ _ => .gone
  | fail e => trivial
  | absorb => exact .gone
  | close => exact .gone
  | load sel value => exact .gone
  | rdblk block length =>
    simp only [stmtStep, stepRdblk, StepRes.CostsUnder, programCost_cons, programCost_nil,
      Stmt.cost]
    omega
  | hangCheck =>
    refine callPrim_costsUnder hl fun v t => ?_
    split
    · simp [StepRes.CostsUnder, programCost_abortProgram, Stmt.cost]
    · exact .gone
  | chunk segment offset remaining =>
    simp only [stmtStep, stepChunk]
    split
    · exact .gone
    · next h => exact programCost_chunkProgram _ _ segment offset h
  | poll use left => exact stepPoll_costsUnder a use left hl
  | drain left =>
    cases left with
    | zero => exact .gone
    | succ left =>
      refine callPrim_costsUnder hl fun v t => ?_
      split
      · exact .gone
      · simp [StepRes.CostsUnder, Stmt.cost]
  | save r => exact callPrim_costsUnder hl fun _ _ => .gone
  | abortIter left anyDone =>
    cases left with
    | zero =>
      cases anyDone with
      | true => exact .gone
      | false => trivial
    | succ left =>
      simp only [stmtStep, stepAbortIter, StepRes.CostsUnder, programCost_cons, programCost_nil,
        Stmt.cost, PollUse.cost, abortCost, pollAbort]
      omega
  | snapRead g => exact withPrim_costsUnder hl (fun _ _ => .gone) fun _ _ => .gone
  | clearRow src =>
    simp only [stmtStep, stepClearRow]
    split
    · simp [StepRes.CostsUnder, Stmt.cost]
    · exact .gone
  | extClear =>
    simp only [stmtStep, stepExtClear]
    split
    · exact .gone
    · simp [StepRes.CostsUnder, Stmt.cost]
  | handler h =>
    simp only [stmtStep, stepHandler]
    split
    · simp [StepRes.CostsUnder, programCost_handlerProgram, Stmt.cost]
    · exact .gone
  | hpdRead =>
    exact withPrim_costsUnder hl (fun _ _ => by simp [StepRes.CostsUnder, Stmt.cost])
      fun _ _ => .gone
  | hpdUpdate present => exact .gone
  | modeBit => exact callPrim_costsUnder hl fun _ _ => .gone
  | vidEn =>
    simp only [stmtStep, stepVidEn, StepRes.CostsUnder, programCost_append, programCost_afeProgram,
      programCost_cons, programCost_nil, Stmt.cost]
    omega
  | inMode => exact callPrim_costsUnder hl fun _ _ => .gone
  | csc c limited => exact Nat.lt_succ_of_le (programCost_cscProgram _ _ _ _ _ _)
  | setNeedCsc b => exact .gone
  | gate off =>
    simp only [stmtStep, stepGate]
    split
    · exact callPrim_costsUnder hl fun _ _ => .gone
    · exact .gone

/-! ## A run alone ends -/

/-- How many statements an agent still has to execute at most. -/
def State.costLeft (s : State) (a : AgentId) : Nat :=
  programCost s.cfg.bridge.afeTable.length (s.pos a)

/-- An agent that does not exist is inside no operation. -/
theorem State.pos_missing {s : State} {a : AgentId} (h : s.hasAgent a = false) : s.pos a = [] := by
  cases a with
  | port p =>
    cases p with
    | host => cases h
    | aux k =>
      have hk : s.auxPorts.length ≤ k := by simpa [State.hasAgent, State.hasPort] using h
      simp [State.pos, State.seqOf, State.port, List.getD, hk, Port.idle, Sequencer.idle]
  | dispatcher => cases h
  | task => cases h

theorem State.pos_setPos_nil (s : State) (a : AgentId) : (s.setPos a []).pos a = [] := by
  cases h : s.hasAgent a with
  | true => exact State.pos_setPos_self s [] h
  | false => rw [State.setPos_missing [] h, State.pos_missing h]

/-- An agent whose operation ended is idle. -/
theorem idle_endOp_self (a : AgentId) (r : Response) (s : State) : (endOp a r s).idle a = true :=
  congrArg List.isEmpty ((pos_endOp a a r s).trans (s.pos_setPos_nil a))

theorem costLeft_setPos_le (s : State) (a : AgentId) (k : List Stmt) :
    (s.setPos a k).costLeft a ≤ programCost s.cfg.bridge.afeTable.length k := by
  unfold State.costLeft
  cases h : s.hasAgent a with
  | true => rw [State.pos_setPos_self s k h, State.setPos_cfg]
  | false => simp [State.setPos_missing k h, State.pos_missing h]

theorem idle_of_costLeft_zero {s : State} {a : AgentId} (h : s.costLeft a = 0) :
    s.idle a = true := by
  unfold State.costLeft at h
  unfold State.idle
  cases hp : s.pos a with
  | nil => rfl
  | cons m k =>
    have := m.cost_pos s.cfg.bridge.afeTable.length
    rw [hp, programCost_cons] at h
    omega

/-- Nobody else is scheduled and the lock is free after a step of an agent, if it was so before. -/
theorem tick_alone {a : AgentId} {s t : State} (hs : Alone s) (hl : s.ctx.lock = none)
    (h : tick a s = .next t) : Alone t ∧ t.ctx.lock = none := by
  rcases tick_stands h with rfl | ⟨m, k, u, _, hf, _, hst⟩
  · exact ⟨hs, hl⟩
  · refine ⟨(congrArg Env.sched hst.env).trans (hf.sched.trans hs), ?_⟩
    rcases hst with ⟨r, rfl⟩ | ⟨k', rfl, _⟩
    · rw [endOp_ctx, hf.lock, hl]
    · rw [State.setPos_ctx, hf.lock, hl]

/-- An agent that goes on with statements `k` is idle or has no more than those to execute. -/
theorem resumeWith_costLeft (a : AgentId) (k : List Stmt) (s : State) :
    (resumeWith a k s).idle a = true
      ∨ (resumeWith a k s).costLeft a ≤ programCost s.cfg.bridge.afeTable.length k := by
  rcases resumeWith_cases a k s with ⟨r, hr⟩ | hr
  · exact .inl (hr ▸ idle_endOp_self a r s)
  · exact .inr (hr ▸ costLeft_setPos_le s a k)

theorem raiseError_costLeft (a : AgentId) (e : Status) (k : List Stmt) (s : State) :
    (raiseError a e k s).idle a = true
      ∨ (raiseError a e k s).costLeft a ≤ programCost s.cfg.bridge.afeTable.length k := by
  unfold raiseError
  split
  · next k' hk =>
    exact (resumeWith_costLeft a k' s).imp_right
      (le_trans · (programCost_suffix _ (afterAbsorb_suffix hk)))
  · exact .inl (idle_endOp_self a _ s)

/-- A step of an agent that finds the lock free leaves it idle or with less to execute. -/
theorem tick_costLeft {a : AgentId} {s t : State} (hl : s.ctx.lock = none)
    (h : tick a s = .next t) : t.idle a = true ∨ t.costLeft a < s.costLeft a := by
  unfold tick at h
  split at h
  · next hp =>
    cases h
    exact .inl (congrArg List.isEmpty hp)
  · next m k hp =>
    have hcost := stmtStep_costsUnder a m hl
    have hframe := stmtStep_frame a m s
    have hpos := m.cost_pos s.cfg.bridge.afeTable.length
    have hleft : s.costLeft a = m.cost s.cfg.bridge.afeTable.length
        + programCost s.cfg.bridge.afeTable.length k := by
      rw [State.costLeft, hp, programCost_cons]
    generalize stmtStep a m s = r at h hcost hframe
    cases r with
    | go push u =>
      cases h
      have hr := resumeWith_costLeft a (push ++ k) u
      rw [programCost_append, StmtFrame.cfg hframe] at hr
      refine hr.imp_right fun hr => ?_
      rw [hleft]
      exact hr.trans_lt (Nat.add_lt_add_right hcost _)
    | ret r u =>
      cases h
      exact .inl (idle_endOp_self a r u)
    | raise e u =>
      cases h
      have hr := raiseError_costLeft a e k u
      rw [StmtFrame.cfg hframe] at hr
      exact hr.imp_right fun hr => by omega
    | wait => exact hcost.elim
    | stop x => cases h

/-- A run alone whose agent has no more to execute than the run may take ends. -/
theorem drive_ends {a : AgentId} {n : Nat} {s t : State} (hs : Alone s) (hl : s.ctx.lock = none)
    (hn : s.costLeft a ≤ n) (h : drive a n s = .next t) : t.idle a = true := by
  induction n generalizing s with
  | zero =>
    cases h
    exact idle_of_costLeft_zero (Nat.le_zero.mp hn)
  | succ n ih =>
    unfold drive at h
    cases hu : tick a s with
    | next u =>
      obtain ⟨hus, hul⟩ := tick_alone hs hl hu
      simp only [hu] at h
      split at h
      · next hg =>
        have hbusy : u.idle a ≠ true := fun hid => by simp [goesOn, hid] at hg
        have hless := (tick_costLeft hl hu).resolve_left hbusy
        exact ih hus hul (by omega) h
      · next hg =>
        cases h
        simpa [goesOn, hus, hul] using hg
    | fault r => simp [hu] at h
    | refused r => simp [hu] at h

/-! ## Every operation ends -/

/-- An operation with legal operands is within the bound of a run (rules R100, R155). -/
theorem exec_command_cost {i : Instr} (h : hostMayStart i = true) (s : State) :
    ∃ k, exec i s = command i k s ∧ (i.wellFormed = true →
      programCost s.cfg.bridge.afeTable.length k ≤ driveBound s.cfg) := by
  cases i with
  | irqDispatch => cases h
  | hpdTask => cases h
  | rdblk block length =>
    refine ⟨_, rfl, fun hw => ?_⟩
    have hle : length.toNat ≤ 128 := of_decide_eq_true hw
    simp only [programCost_cons, programCost_nil, Stmt.cost, abortCost, chunkCost, driveBound]
    omega
  | ddcAbort =>
    refine ⟨_, rfl, fun _ => ?_⟩
    simp only [programCost_abortProgram, abortCost, driveBound]
    omega
  | modeSet len csum =>
    refine ⟨_, rfl, fun _ => (programCost_modeSetProgram _ _ _ _).trans ?_⟩
    simp only [driveBound]
    omega
  | brEnable =>
    refine ⟨_, rfl, fun _ => ?_⟩
    simp only [enableProgram, programCost_cons, programCost_nil, Stmt.cost, driveBound]
    omega
  | brDisable =>
    refine ⟨_, rfl, fun _ => ?_⟩
    simp only [disableProgram, programCost_cons, programCost_nil, Stmt.cost, driveBound]
    omega
  | _ =>
    refine ⟨_, rfl, fun _ => ?_⟩
    simp only [programCost_cons, programCost_nil, Stmt.cost, driveBound]
    omega

/-- A command of a port that runs alone ends, or was refused. -/
theorem command_idle {i : Instr} {k : List Stmt} {s t : State} (hs : Alone s)
    (hl : s.ctx.lock = none) (hid : s.idle (.port s.active) = true)
    (hk : i.wellFormed = true → programCost s.cfg.bridge.afeTable.length k ≤ driveBound s.cfg)
    (h : command i k s = .next t) : t.idle (.port s.active) = true := by
  unfold command at h
  rw [if_pos hid] at h
  split at h
  · next hlegal =>
    simp only [legalCommand, Bool.and_eq_true] at hlegal
    refine drive_ends ((congrArg Env.sched (State.setPos_env s _ k)).trans hs)
      (by simpa using hl) ?_ h
    rw [State.setPos_cfg]
    exact (costLeft_setPos_le s _ k).trans (hk hlegal.2)
  · cases h
    exact idle_endOp_self (.port s.active) _ s

/-- An internal operation that starts alone ends. -/
theorem startInternal_idle {a : AgentId} {s t : State} (hs : Alone s) (hl : s.ctx.lock = none)
    (hn : s.costLeft a ≤ driveBound s.cfg) (h : startInternal a s = .next t) : t.idle a = true := by
  unfold startInternal at h
  split at h
  · exact drive_ends hs hl hn h
  · next hg =>
    cases h
    simpa [goesOn, hs, hl] using hg

theorem execIrqDispatch_idle {s t : State} (hs : Alone s) (hl : s.ctx.lock = none)
    (hid : s.idle .dispatcher = true) (h : execIrqDispatch s = .next t) :
    t.idle .dispatcher = true := by
  unfold execIrqDispatch at h
  split at h
  · cases h
    exact hid
  · refine startInternal_idle (s := s.enterDispatch (dispatchProgram s.cfg)) hs hl ?_ h
    exact (programCost_dispatchProgram s.cfg.bridge.afeTable.length s.cfg).trans
      (Nat.le_add_right _ _)

theorem execHpdTask_idle {s t : State} (hs : Alone s) (hl : s.ctx.lock = none)
    (hid : s.idle .task = true) (h : execHpdTask s = .next t) : t.idle .task = true := by
  unfold execHpdTask at h
  split at h
  · cases h
    exact hid
  · refine startInternal_idle (s := s.enterTask taskProgram) hs hl ?_ h
    exact (show 3 ≤ 3000 by decide).trans (Nat.le_add_right _ _)

/-- A port operation's agent is the port being served. -/
theorem agentOf_port {i : Instr} (h : hostMayStart i = true) (s : State) :
    agentOf i s = .port s.active := by
  cases i with
  | irqDispatch => cases h
  | hpdTask => cases h
  | _ => rfl

/-- Settles O17: the statements of every operation are bounded by its program's cost, every step
that finds the lock free brings it down, and a run may take as many as any legal operation costs. -/
theorem everyOperationEnds : Obligations.EveryOperationEnds := by
  intro i s t hs hl hid h
  cases hm : hostMayStart i with
  | true =>
    rw [agentOf_port hm] at hid ⊢
    obtain ⟨k, he, hk⟩ := exec_command_cost hm s
    exact command_idle hs hl hid hk (he ▸ h)
  | false =>
    cases i with
    | irqDispatch => exact execIrqDispatch_idle hs hl hid h
    | hpdTask => exact execHpdTask_idle hs hl hid h
    | _ => cases hm

end Sys2Proof.Machine
end

section
/-! SUPPORT. The range checks of a bulk write and what they let through, and a run of HPD_TASK whose read
of the detect bit fails. -/

namespace Sys2Proof.Machine

/-! ## The range checks -/

/-- Settles O33: the three checks one after the other; the last address reaches 0x130 where the range
ends past it (rule R129). -/
theorem rangeCheckOrder : Obligations.RangeCheckOrder := by
  intro addr n
  have hcross : (crosses addr n = true) = (1 ≤ n ∧ addr < 0x130 ∧ addr + n - 1 ≥ 0x130) := by
    have e6 : b1Base = 304 := rfl
    simp only [crosses, decide_eq_true_eq, eq_iff_iff]
    omega
  simp only [rangeCheck, hcross]
  rfl

/-- Settles O30: a ready BWR is its one primitive, whose range keeps off the gap and the bank select. -/
theorem bwrIssuesOneBurst : Obligations.BwrIssuesOneBurst := by
  intro addr len s h hf hn hr hg hoff
  rw [← h.bwr_length] at hn hr hg hoff
  exact command_one_prim h (runPrim_bwr _ hf h.2.2.1 hr hn hg fun i hi => by omega)

/-- A range check that fails is all a bulk write does (rules R126, R130). -/
theorem bwrBody_checkFails {addr : Nat} {bytes : List Byte} {e : Status}
    (hr : rangeCheck addr bytes.length = some e) (s : State) :
    bwrBody addr bytes s = .err e s := by
  rw [bwrBody, hr]

/-- An empty range at a valid address passes the range checks. -/
theorem rangeCheck_empty {addr : Nat} (h : addr < 0x1C0) : rangeCheck addr 0 = none := by
  simp [rangeCheckOrder addr 0, h]

/-- An empty bulk write ends after its range checks (rule R128, D12). -/
theorem bwrBody_empty {addr : Nat} (h : addr < 0x1C0) (s : State) :
    bwrBody addr [] s = .ok 0 s := by
  rw [bwrBody, List.length_nil, rangeCheck_empty h]
  rfl

/-- Settles O34: the body of BWR begins with the range checks, and the empty write ends there. -/
theorem bwrChecksPrecedeAnyTransaction : Obligations.BwrChecksPrecedeAnyTransaction := by
  intro addr len s h
  rw [exec_bwr_reply h]
  refine ⟨fun e he => ?_, fun hlen ha => ?_⟩
  · rw [← h.bwr_length] at he
    rw [bwrBody_checkFails he]
    rfl
  · have hnil : s.payloadOf s.active = [] :=
      List.eq_nil_of_length_eq_zero (by rw [h.bwr_length, hlen]; rfl)
    rw [hnil, bwrBody_empty ha]
    rfl

/-! ## A run of HPD_TASK -/

/-- HPD_TASK alone: step A, then its statements (rules R190, R191). -/
theorem exec_hpdTask_alone {s : State} (hrun : s.taskRunning = false) (hid : s.idle .task = true)
    (hl : s.ctx.lock = none) (ha : Alone s) :
    exec .hpdTask s = drive .task (driveBound s.cfg) (s.enterTask taskProgram) := by
  have hgo : goesOn .task (s.enterTask taskProgram) = true :=
    goesOn_setPos (s := s.enterTask []) rfl ha hl
  simp only [exec, execHpdTask, hrun, hid, startInternal, hgo]
  rfl

/-- Step B whose read fails goes on to step D, which ends the run (rules R191, R196). -/
theorem drive_task_readFails {s w : State} {e : Status} {n : Nat} (hn : 2 ≤ n)
    (hpos : s.task.pos = taskProgram) (ha : Alone s)
    (hr : runPrim .task (.rd s.cfg.irq.hpdDetAddr) s = some (.err e w)) :
    drive .task n s = .next (endOp .task ⟨.ok, 0⟩ w) := by
  obtain ⟨hl, hf⟩ : s.ctx.lock = none ∧ BusFrame 3 s w := runPrim_frame hr
  have hlw : w.ctx.lock = none := by rw [hf.frame]; exact hl
  have hstep : stmtStep .task .hpdRead s = .go [] w := by
    simp only [stmtStep, stepHpdRead, withPrim, hr]
  have hread : Reaches .task 1 s (w.setPos .task [.close]) :=
    Reaches.go (k := [.close]) hpos hstep rfl rfl (hf.sched.trans ha) hlw
  have hclose : tick .task (w.setPos .task [.close]) = .next (endOp .task ⟨.ok, 0⟩ w) :=
    tick_go (m := .close) (k := []) (push := []) (u := w.setPos .task [.close]) rfl rfl
  exact hread.drive_end hclose (goesOn_endOp rfl _) hn

/-- RD looks at nothing that step A changes, and changes none of it. -/
theorem enterTask_rdAt (s : State) (k : List Stmt) (addr : Nat) :
    (s.enterTask k).rdAt addr = (s.rdAt addr).enterTask k := by
  have hsw : (s.enterTask k).switched (needOf addr) = (s.switched (needOf addr)).enterTask k := by
    cases needOf addr with
    | none => rfl
    | some b =>
      by_cases hb : b = s.ctx.currentBank
      · simp [State.switched, hb]
      · simp only [State.switched, State.enterTask_ctx, hb, if_false]
        rfl
  rw [State.rdAt, hsw]
  rfl

/-- What a run of the task leaves of which only register traffic remains: the pending flag down, and the
register file, the banks, the environment and the bus log as the traffic left them. -/
theorem endOp_task_frame {s w : State} {n : Nat} {k : List Stmt} (r : Response)
    (hrun : s.taskRunning = false) (hid : s.idle .task = true)
    (hf : BusFrame n (s.enterTask k) w) :
    endOp .task r w = { s with
      x := w.x, hwBank := w.hwBank
      ctx := { s.ctx with hotplugPending := false, currentBank := w.ctx.currentBank }
      bus := w.bus, env := w.env } := by
  have hseq : { s.task with pos := [] } = s.task := by
    rw [← show s.task.pos = [] by simpa [State.idle, State.pos, State.seqOf] using hid]
  rw [hf.frame]
  simp only [endOp, State.enterTask, hrun, hseq]

/-- Settles O49: the read of step B stops at the failing transaction, and step D ends the run. -/
theorem hpdTaskFailedReadChangesNothing : Obligations.HpdTaskFailedReadChangesNothing := by
  intro s k l hrun hid hl ha hfails hp hag hreg hlt
  have hF : FailsAt (s.bus.length + k) l (s.enterTask taskProgram) := ⟨hp, hag, k, hfails, rfl⟩
  rcases hF.rd .task hl hreg with ⟨-, hdone⟩ | ⟨w, hr, hstop, hread⟩
  · have hle := hdone.le
    rw [enterTask_rdAt, State.enterTask_bus] at hle
    omega
  · have hbound : 2 ≤ driveBound s.cfg := by unfold driveBound; omega
    refine ⟨endOp .task ⟨.ok, 0⟩ w, ?_, endOp_task_frame _ hrun hid (runPrim_frame hr).2, ?_, hread⟩
    · rw [exec_hpdTask_alone hrun hid hl ha]
      exact drive_task_readFails hbound rfl ha hr
    · obtain ⟨op, done, -, -, hbus, -, hlen⟩ := hstop
      show w.bus.length = _
      rw [hbus, List.length_cons, hlen]

end Sys2Proof.Machine
end

section
/-! SUPPORT. The addressing of a block read: its segment, its offsets and the sizes of its chunks. -/

namespace Sys2Proof.Machine

/-- Chunk `k` takes what the chunks before it left, at most 32 bytes (rule R152). -/
theorem chunkSizes_getElem {length k : Nat} (h : k < (chunkSizes length).length) :
    (chunkSizes length)[k] = min (length - 32 * k) 32 := by
  by_cases hm : length % 32 = 0
  · simp only [chunkSizes, hm, if_true, List.append_nil, List.length_replicate,
      List.getElem_replicate] at h ⊢
    omega
  · simp only [chunkSizes, hm, if_false, List.length_append, List.length_replicate,
      List.length_singleton] at h ⊢
    rw [List.getElem_append]
    split
    · next hfull =>
      rw [List.length_replicate] at hfull
      rw [List.getElem_replicate]
      omega
    · next hlast =>
      rw [List.length_replicate] at hlast
      rw [List.getElem_singleton]
      omega

/-- The offset a block starts at is 0 or `length` (rule R152). -/
theorem edidOffset_le (block length : Nat) : edidOffset block length ≤ length := by
  have hpar : block % 2 ≤ 1 := by omega
  simpa [edidOffset] using Nat.mul_le_mul_right length hpar

/-- Settles O43: a block starts at 0 or `length`, and its last chunk at most 96 bytes further. -/
theorem edidAddressingNeverTruncates : Obligations.EdidAddressingNeverTruncates := by
  intro block length hlen
  obtain ⟨hcount, hsum, -⟩ := chunks_of_length Params.ref.ddc 0 _ 0 length rfl
  have hblock : block.toNat < 256 := block.isLt
  refine ⟨rfl, rfl, ?_, fun _ => rfl, hcount, hsum, fun k h => chunkSizes_getElem h, fun k hk => ?_⟩
  · rw [BitVec.toNat_ofNat, edidSegment]
    omega
  · have hoff := edidOffset_le block.toNat length
    refine ⟨by omega, ?_⟩
    rw [BitVec.toNat_ofNat]
    omega

end Sys2Proof.Machine
end

section
/-! SUPPORT. The verdict of DDC_ABORT from the script of the status register. -/

namespace Sys2Proof.Machine

/-! ## A poll on the script -/

/-- A poll takes at most one byte of the script for each of its samples. -/
theorem pollScript_length (d : DdcParams) (n : Nat) (l : List Byte) :
    l.length ≤ (pollScript d n l).2.length + n := by
  induction n generalizing l with
  | zero => exact Nat.le_refl _
  | succ n ih =>
    cases l with
    | nil => exact Nat.zero_le _
    | cons b l =>
      have hrest := ih l
      simp only [pollScript, List.length_cons]
      split_ifs
      · exact Nat.add_le_add_left (Nat.le_add_left 1 n) _
      · exact Nat.add_le_add_left (Nat.le_add_left 1 n) _
      · omega

/-- A poll is the poll of the script where the script has a byte for each sample (rules R73, R141). -/
theorem pollAt_script (n : Nat) : ∀ {s : State}, paramsOk s.cfg = true →
    n ≤ (s.script s.cfg.ddc.statAddr).length →
    (s.pollAt n).1 = (pollScript s.cfg.ddc n (s.script s.cfg.ddc.statAddr)).1
    ∧ (s.pollAt n).2.script s.cfg.ddc.statAddr
      = (pollScript s.cfg.ddc n (s.script s.cfg.ddc.statAddr)).2 := by
  induction n with
  | zero => exact fun _ _ => ⟨rfl, rfl⟩
  | succ n ih =>
    intro s hp hn
    obtain ⟨b, l, hs⟩ := List.exists_cons_of_length_pos (Nat.lt_of_lt_of_le (Nat.succ_pos n) hn)
    have hv := rdValue_script (statAddr_scripted hp) hs
    have hrest : (s.rdAt s.cfg.ddc.statAddr).script s.cfg.ddc.statAddr = l := by
      rw [rdAt_script_self (statAddr_scripted hp), hs, List.tail_cons]
    rw [State.pollAt, hs, pollScript, hv]
    split
    · exact ⟨rfl, hrest⟩
    · split
      · exact ⟨rfl, hrest⟩
      · have hlen : n ≤ l.length := by simpa [hs] using hn
        have hpoll := ih (s := s.rdAt s.cfg.ddc.statAddr) (by rwa [State.rdAt_cfg])
          (by rwa [State.rdAt_cfg, hrest])
        rwa [State.rdAt_cfg, hrest] at hpoll

/-- An abort iteration on a script that holds its 200 samples (rule R145). -/
theorem iterAt_script {s : State} (hp : paramsOk s.cfg = true)
    (hn : 200 ≤ (s.script s.cfg.ddc.statAddr).length) :
    s.iterAt.1 = (pollScript s.cfg.ddc 200 (s.script s.cfg.ddc.statAddr)).1
    ∧ s.iterAt.2.script s.cfg.ddc.statAddr
      = (pollScript s.cfg.ddc 200 (s.script s.cfg.ddc.statAddr)).2 := by
  have hpoll := pollAt_script 200 (s := s.wrAt s.cfg.ddc.cmdAddr s.cfg.ddc.cmdAbort)
    (by rwa [State.wrAt_cfg]) (by rwa [State.wrAt_cfg, wrAt_script])
  rwa [State.wrAt_cfg, wrAt_script] at hpoll

/-- A save takes nothing from the script of another register. -/
theorem saveAt_script_other {s : State} (r : SaveReg) {addr b : Nat} (h : b ≠ addr) :
    (s.saveAt (.port .host) r addr).script b = s.script b := rdAt_script_other h

/-- The start of DDC_ABORT leaves the script of every register alone but those it saves. -/
theorem abortStart_script {s : State} {b : Nat} (hsw : b ≠ s.cfg.rst.swrstAddr)
    (hhd : b ≠ s.cfg.rst.hdcpAddr) (hdd : b ≠ s.cfg.ddc.ddcmAddr) :
    (s.abortStart (.port .host)).script b = s.script b := by
  rw [abortStart_eq_wrAt, wrAt_script, State.savesAt, saveAt_script_other _ hdd,
    saveAt_script_other _ hhd, saveAt_script_other _ hsw]

/-- The verdict of DDC_ABORT is that of its two polls of the script (rules R145, R147). -/
theorem abortAt_script {s : State} (hu : Undisturbed (.port .host) s)
    (hn : 400 ≤ (s.script s.cfg.ddc.statAddr).length)
    (hsw : s.cfg.ddc.statAddr ≠ s.cfg.rst.swrstAddr) (hhd : s.cfg.ddc.statAddr ≠ s.cfg.rst.hdcpAddr)
    (hdd : s.cfg.ddc.statAddr ≠ s.cfg.ddc.ddcmAddr) :
    (s.abortAt (.port .host)).1 = true ↔
      (pollScript s.cfg.ddc 200 (s.script s.cfg.ddc.statAddr)).1 = .done
      ∨ (pollScript s.cfg.ddc 200
          (pollScript s.cfg.ddc 200 (s.script s.cfg.ddc.statAddr)).2).1 = .done := by
  obtain ⟨hst, hcs⟩ := hu.abortStart
  obtain ⟨hit, hci⟩ := hst.iterAt
  have hscript := abortStart_script hsw hhd hdd
  have hleft := pollScript_length s.cfg.ddc 200 (s.script s.cfg.ddc.statAddr)
  have h1 := iterAt_script hst.ok (by rw [hcs, hscript]; omega)
  rw [hcs, hscript] at h1
  have hc2 := hci.trans hcs
  have h2 := iterAt_script hit.ok (by rw [hc2, h1.2]; omega)
  rw [hc2, h1.2] at h2
  rw [State.abortAt, h1.1, h2.1, Bool.or_eq_true, decide_eq_true_eq, decide_eq_true_eq]

/-! ## One sample -/

/-- Bytes differ nowhere under a mask where they agree under it. -/
theorem xor_and_eq_zero_iff {v w m : Byte} : (v ^^^ w) &&& m = 0#8 ↔ v &&& m = w &&& m := by
  have hdistrib : (v ^^^ w) &&& m = (v &&& m) ^^^ (w &&& m) := by
    ext i hi
    simp [Bool.and_xor_distrib_right]
  rw [hdistrib, BitVec.xor_eq_zero_iff]

/-- Bytes that differ nowhere under a mask agree under each of its parts. -/
theorem and_eq_of_xor_and_or {v w a b : Byte} (h : (v ^^^ w) &&& (a ||| b) = 0#8) :
    v &&& a = w &&& a ∧ v &&& b = w &&& b := by
  rw [BitVec.and_or_distrib_left, BitVec.or_eq_zero_iff] at h
  exact ⟨xor_and_eq_zero_iff.mp h.1, xor_and_eq_zero_iff.mp h.2⟩

/-- The error bits of a sample are tested first. -/
theorem pollSample_error {d : DdcParams} {v : Byte} (h : v &&& stErr d ≠ 0) :
    pollSample d v = .error (v &&& stErr d) := if_pos h

theorem pollSample_done {d : DdcParams} {v : Byte} (h : v &&& stErr d = 0)
    (hd : v &&& d.stDone ≠ 0) : pollSample d v = .done := by
  rw [pollSample, if_neg (not_not.mpr h), if_pos hd]

theorem pollSample_undecided {d : DdcParams} {v : Byte} (h : v &&& stErr d = 0)
    (hd : v &&& d.stDone = 0) : pollSample d v = .undecided := by
  rw [pollSample, if_neg (not_not.mpr h), if_neg (not_not.mpr hd)]

/-- A sample says what its error bits and its done bit say (rule R141). -/
theorem pollSample_congr {d : DdcParams} {v w : Byte}
    (h : (v ^^^ w) &&& (d.stDone ||| stErr d) = 0) : pollSample d v = pollSample d w := by
  obtain ⟨hdone, herr⟩ := and_eq_of_xor_and_or h
  simp only [pollSample, hdone, herr]

/-- Settles O37: each poll is the poll of the script, and a sample tests the error bits first. -/
theorem ddcAbortSucceedsIffAPollIsDone : Obligations.DdcAbortSucceedsIffAPollIsDone := by
  refine ⟨fun s h ha hf hp hn hdd hsw hhd => ?_, fun d v w => ⟨pollSample_error,
    fun he => ⟨pollSample_done he, pollSample_undecided he⟩, fun hx => pollSample_congr ?_⟩⟩
  · have hu : Undisturbed (.port .host) s := h.active_host rfl ▸ h.undisturbed ha hf hp
    refine ⟨_, execDdcAbort_undisturbed h ha hf hp, ?_⟩
    have hv := abortAt_script hu hn hsw.symm hhd.symm hdd.symm
    split
    · next hd => rw [hv.mpr hd]; rfl
    · next hd => rw [Bool.eq_false_iff.mpr (mt hv.mp hd)]; rfl
  · rwa [stErr, ← BitVec.or_assoc, ← BitVec.or_assoc]

end Sys2Proof.Machine
end

section
/-! SUPPORT. The abort commands and the status reads DDC_ABORT puts on the bus. -/

namespace Sys2Proof.Machine

/-- From `s` to `t` the log grew by `aborts` completed abort commands, by at least `lo` and at most
`hi` status reads, and by other transactions. -/
def AbortTraffic (c : Params) (aborts lo hi : Nat) (s t : State) : Prop :=
  ∃ l, t.bus = l ++ s.bus ∧ l.countP (BusOp.isWriteOf c.ddc.cmdAddr c.ddc.cmdAbort) = aborts
    ∧ lo ≤ l.countP (BusOp.isReadAt c.ddc.statAddr) ∧ l.countP (BusOp.isReadAt c.ddc.statAddr) ≤ hi

/-- Only an any-bank address has an offset below 0x30 (rule R65). -/
theorem offOf_ne {addr x : Nat} (ha : isRegister addr = true) (hx : x < 0x30) (hne : addr ≠ x) :
    offOf addr ≠ x := by
  intro he
  have hreach : target ((needOf addr).getD .bank0) (offOf addr) = some addr :=
    target_of_translate (translate_of_isRegister ha) fun b hb => by rw [hb]; rfl
  rw [he, target_any hx] at hreach
  exact hne (Option.some.inj hreach).symm

section
variable {c : Params} {m n lo lo' hi hi' : Nat} {s t u : State}

theorem AbortTraffic.refl (c : Params) (s : State) : AbortTraffic c 0 0 0 s s :=
  ⟨[], rfl, rfl, Nat.le_refl 0, Nat.le_refl 0⟩

theorem AbortTraffic.trans (h : AbortTraffic c m lo hi s t) (h' : AbortTraffic c n lo' hi' t u) :
    AbortTraffic c (m + n) (lo + lo') (hi + hi') s u := by
  obtain ⟨l, hl, hw, hlo, hhi⟩ := h
  obtain ⟨l', hl', hw', hlo', hhi'⟩ := h'
  simp only [AbortTraffic, hl', hl, ← List.append_assoc]
  refine ⟨l' ++ l, rfl, ?_⟩
  simp only [List.countP_append]
  omega

theorem AbortTraffic.mono (h : AbortTraffic c n lo hi s t) (hlo : lo' ≤ lo) (hhi : hi ≤ hi') :
    AbortTraffic c n lo' hi' s t := by
  obtain ⟨l, hl, hw, h1, h2⟩ := h
  exact ⟨l, hl, hw, hlo.trans h1, h2.trans hhi⟩

/-- What one more transaction adds. -/
theorem AbortTraffic.op (h : AbortTraffic c n lo hi s t) {op : BusOp} (hu : u.bus = op :: t.bus) :
    AbortTraffic c (n + [op].countP (BusOp.isWriteOf c.ddc.cmdAddr c.ddc.cmdAbort))
      (lo + [op].countP (BusOp.isReadAt c.ddc.statAddr))
      (hi + [op].countP (BusOp.isReadAt c.ddc.statAddr)) s u :=
  h.trans ⟨[op], hu, rfl, Nat.le_refl _, Nat.le_refl _⟩

/-- A bank select is neither an abort command nor a status read. -/
theorem AbortTraffic.switched (hp : paramsOk s.cfg = true) (need : Option Bank) :
    AbortTraffic s.cfg 0 0 0 s (s.switched need) := by
  have hne : s.cfg.bank.addr ≠ s.cfg.ddc.cmdAddr :=
    (paramsOk_named hp (by simp [namedAddrs])).2.symm
  unfold State.switched
  split
  · exact .refl _ s
  · split
    · exact .refl _ s
    · next b _ =>
      exact ⟨[.write s.cfg.bank.addr (selectByte s.cfg.bank b) true], rfl,
        by simp [BusOp.isWriteOf, hne], by simp, by simp [BusOp.isReadAt]⟩

/-- A read is no abort command, and a status read where its offset is the status register's. -/
theorem AbortTraffic.rd (hp : paramsOk s.cfg = true) (addr : Nat) :
    AbortTraffic s.cfg 0 (if offOf addr = s.cfg.ddc.statAddr then 1 else 0)
      (if offOf addr = s.cfg.ddc.statAddr then 1 else 0) s (s.rdAt addr) := by
  have h := (AbortTraffic.switched hp (needOf addr)).op (u := s.rdAt addr) rfl
  simpa [BusOp.isWriteOf, BusOp.isReadAt, List.countP_cons] using h

/-- A write is no status read, and an abort command where its offset and byte are. -/
theorem AbortTraffic.wr (hp : paramsOk s.cfg = true) (addr : Nat) (v : Byte) :
    AbortTraffic s.cfg (if offOf addr = s.cfg.ddc.cmdAddr ∧ v = s.cfg.ddc.cmdAbort then 1 else 0)
      0 0 s (s.wrAt addr v) := by
  have h := (AbortTraffic.switched hp (needOf addr)).op (u := s.wrAt addr v) rfl
  simpa [BusOp.isWriteOf, BusOp.isReadAt, List.countP_cons] using h

/-- A poll of at least one sample reads the status register between one and `n` times (rule R141). -/
theorem AbortTraffic.poll (n : Nat) : ∀ {s : State}, paramsOk s.cfg = true →
    s.cfg.ddc.statAddr < 0x30 → AbortTraffic s.cfg 0 (min n 1) n s (s.pollAt n).2 := by
  induction n with
  | zero => exact fun _ _ => .refl _ _
  | succ n ih =>
    intro s hp hst
    have hr := AbortTraffic.rd hp s.cfg.ddc.statAddr
    rw [if_pos (any_region hst).2] at hr
    rw [State.pollAt]
    split
    · exact hr.mono (by omega) (by omega)
    · split
      · exact hr.mono (by omega) (by omega)
      · have hrest := ih (s := s.rdAt s.cfg.ddc.statAddr) (by rwa [State.rdAt_cfg])
          (by rwa [State.rdAt_cfg])
        rw [State.rdAt_cfg] at hrest
        exact (hr.trans hrest).mono (by omega) (by omega)

/-- An abort iteration issues its command once and samples 1 to 200 times (rule R145). -/
theorem AbortTraffic.iteration (hp : paramsOk s.cfg = true) (hcmd : s.cfg.ddc.cmdAddr < 0x30)
    (hst : s.cfg.ddc.statAddr < 0x30) : AbortTraffic s.cfg 1 1 200 s s.iterAt.2 := by
  have hw := AbortTraffic.wr hp s.cfg.ddc.cmdAddr s.cfg.ddc.cmdAbort
  rw [if_pos ⟨(any_region hcmd).2, rfl⟩] at hw
  have hpoll := AbortTraffic.poll 200 (s := s.wrAt s.cfg.ddc.cmdAddr s.cfg.ddc.cmdAbort)
    (by rwa [State.wrAt_cfg]) (by rwa [State.wrAt_cfg])
  rw [State.wrAt_cfg] at hpoll
  rw [State.iterAt]
  exact (hw.trans hpoll).mono (by simp) (by simp)

/-- A save of another register than the status register adds nothing. -/
theorem AbortTraffic.save (h : AbortTraffic c n lo hi s t) (hc : t.cfg = c) (hp : paramsOk c = true)
    (hst : c.ddc.statAddr < 0x30) (r : SaveReg) {addr : Nat} (ha : addr ∈ namedAddrs c)
    (hne : addr ≠ c.ddc.statAddr) :
    AbortTraffic c n lo hi s (t.saveAt (.port .host) r addr) := by
  subst hc
  have hr := AbortTraffic.rd hp addr
  rw [if_neg (offOf_ne (paramsOk_named hp ha).1 hst hne)] at hr
  exact h.trans hr

/-- The start of DDC_ABORT issues neither an abort command nor a status read. -/
theorem AbortTraffic.start (hp : paramsOk s.cfg = true) (hcmd : s.cfg.ddc.cmdAddr < 0x30)
    (hst : s.cfg.ddc.statAddr < 0x30) (hdc : s.cfg.ddc.ddcmAddr ≠ s.cfg.ddc.cmdAddr)
    (hds : s.cfg.ddc.ddcmAddr ≠ s.cfg.ddc.statAddr) (hsw : s.cfg.rst.swrstAddr ≠ s.cfg.ddc.statAddr)
    (hhd : s.cfg.rst.hdcpAddr ≠ s.cfg.ddc.statAddr) :
    AbortTraffic s.cfg 0 0 0 s (s.abortStart (.port .host)) := by
  have hc (t : State) (r : SaveReg) (addr : Nat) : (t.saveAt (.port .host) r addr).cfg = t.cfg :=
    (State.save_cfg _ _ _ _).trans (State.rdAt_cfg t addr)
  have hcs : s.savesAt.cfg = s.cfg := by simp only [State.savesAt, hc]
  have hsaves : AbortTraffic s.cfg 0 0 0 s s.savesAt :=
    (((AbortTraffic.refl s.cfg s).save rfl hp hst .swrst (by simp [namedAddrs]) hsw).save
      (by simp only [hc]) hp hst .hdcp (by simp [namedAddrs]) hhd).save
      (by simp only [hc]) hp hst .ddcm (by simp [namedAddrs]) hds
  have hoff : offOf s.cfg.ddc.ddcmAddr ≠ s.cfg.ddc.cmdAddr :=
    offOf_ne (paramsOk_named hp (by simp [namedAddrs])).1 hcmd hdc
  have hw := AbortTraffic.wr (s := s.savesAt) (by rwa [hcs]) s.cfg.ddc.ddcmAddr s.cfg.ddc.ddcmHost
  rw [hcs, if_neg fun hboth => hoff hboth.1] at hw
  exact hsaves.trans hw

end

/-- Settles O36: the start issues neither, and each of the two iterations one command and 1 to 200
samples. -/
theorem ddcAbortIssuesExactlyTwoAborts : Obligations.DdcAbortIssuesExactlyTwoAborts := by
  intro s h ha hf hp hcmd hst hdc hds hsw hhd
  have hu : Undisturbed (.port .host) s := h.active_host rfl ▸ h.undisturbed ha hf hp
  obtain ⟨h1, c1⟩ := hu.abortStart
  obtain ⟨h2, c2⟩ := h1.iterAt
  refine ⟨_, execDdcAbort_undisturbed h ha hf hp, ?_⟩
  have t0 := AbortTraffic.start hp hcmd hst hdc hds hsw hhd
  have t1 := AbortTraffic.iteration h1.ok (by rwa [c1]) (by rwa [c1])
  have t2 := AbortTraffic.iteration h2.ok (by rwa [c2, c1]) (by rwa [c2, c1])
  rw [c2, c1] at t2
  rw [c1] at t1
  obtain ⟨l, hl, hcount⟩ := (t0.trans t1).trans t2
  refine ⟨l, ?_, hcount⟩
  rw [State.respond_bus]
  exact hl

end Sys2Proof.Machine
end

section
/-! SUPPORT. RDBLK whose clean-up FIFO clear fails: the pieces before that clear complete, since their
transactions end before the failing one, and the clear absorbs its failure. -/

namespace Sys2Proof.Machine

/-! ## Pieces that end before the failing transaction -/

/-- A piece of the host's operation from `s` whose effect by the rules is `t`: where the log of `t` ends
at or before transaction `B`, the piece completes with `v` and `t`, and `B` is still to fail. -/
def Completes {α : Type} (B : Nat) (l : List Bool) (s : State) (r : PRes α) (v : α) (t : State) :
    Prop :=
  t.bus.length ≤ B → r = .ok v t ∧ Failing B l t ∧ t.cfg = s.cfg

section
variable {B : Nat} {l : List Bool} {s t u : State} {α β : Type}

theorem Logged.length_le (h : Logged s t) : s.bus.length ≤ t.bus.length := by
  obtain ⟨m, hm⟩ := h
  simp [hm]

/-- A piece that issues nothing. -/
theorem Failing.completes_pure (h : Failing B l s) (v : α) : Completes B l s (.ok v s) v s :=
  fun _ => ⟨rfl, h, rfl⟩

/-- Two pieces one after the other. -/
theorem Completes.bind {r : PRes α} {k : α → State → PRes β} {v : α} {v' : β}
    (h : Completes B l s r v t) (hlog : Logged t u)
    (hk : Failing B l t → t.cfg = s.cfg → Completes B l t (k v t) v' u) :
    Completes B l s (r.bind k) v' u := by
  intro hB
  obtain ⟨rfl, hf, hc⟩ := h (hlog.length_le.trans hB)
  obtain ⟨he, hf', hc'⟩ := hk hf hc hB
  exact ⟨he, hf', hc'.trans hc⟩

/-! ## The primitives -/

/-- A primitive that finds the lock free is its body, whoever calls it. -/
theorem prim_eq_primBody {a : AgentId} {p : Prim} (hl : s.ctx.lock = none) :
    s.prim a p = primBody p s :=
  Option.some.inj ((runPrim_free hl).symm.trans (runPrim_eq_primBody hl))

theorem callRun_of_primBody {a : AgentId} {p : Prim} {v : Byte} (hl : s.ctx.lock = none)
    (h : primBody p s = .ok v t) : s.callRun a p = .ok v t := by
  rw [State.callRun, prim_eq_primBody hl, h]

/-- Before transaction `B` the prologue of a register access completes. -/
theorem FailsAt.prologue_completes (h : FailsAt B l s) (hB : s.bus.length < B) {addr : Nat}
    (ha : isRegister addr = true) :
    Machine.prologue addr s = .ok (offOf addr) (s.switched (needOf addr))
      ∧ FailsAt B l (s.switched (needOf addr)) := by
  rcases h.prologue ha with hpro | ⟨w, -, ⟨op, done, later, -, -, hfull, hlen⟩, -⟩
  · exact hpro
  · have hlong : done.length ≤ s.bus.length := by simp [hfull]
    omega

theorem rdAt_bus_length (s : State) (addr : Nat) :
    (s.rdAt addr).bus.length = (s.switched (needOf addr)).bus.length + 1 := rfl

theorem wrAt_bus_length (s : State) (addr : Nat) (v : Byte) :
    (s.wrAt addr v).bus.length = (s.switched (needOf addr)).bus.length + 1 := rfl

theorem Failing.completes_rd (h : Failing B l s) {addr : Nat} (ha : addr ∈ namedAddrs s.cfg) :
    Completes B l s (s.callRun (.port .host) (.rd addr)) (s.rdValue addr) (s.rdAt addr) := by
  intro hB
  rw [rdAt_bus_length] at hB
  have hlog : Logged s (s.switched (needOf addr)) := switched_log s _
  have hreg := (paramsOk_named h.ok ha).1
  obtain ⟨hpro, hf⟩ := h.fails.prologue_completes (by have := hlog.length_le; omega) hreg
  obtain ⟨hnext, hrest⟩ := hf.completes (by omega)
  refine ⟨callRun_of_primBody h.lock ?_, ⟨⟨hf.bank, hf.agree, ?_⟩, by simpa using h.lock,
    by rw [State.rdAt_cfg]; exact h.ok⟩, State.rdAt_cfg s _⟩
  · rw [primBody, rdBody, hpro, PRes.ok_bind,
      busRead_completes hnext (target_agree h.fails.agree hreg)]
    rfl
  · simpa [State.rdAt] using hrest

theorem Failing.completes_wr (h : Failing B l s) {addr : Nat} (ha : addr ∈ namedAddrs s.cfg)
    (v : Byte) : Completes B l s (s.callRun (.port .host) (.wr addr v)) 0 (s.wrAt addr v) := by
  intro hB
  rw [wrAt_bus_length] at hB
  have hlog : Logged s (s.switched (needOf addr)) := switched_log s _
  obtain ⟨hreg, hne⟩ := paramsOk_named h.ok ha
  obtain ⟨hpro, hf⟩ := h.fails.prologue_completes (by have := hlog.length_le; omega) hreg
  obtain ⟨hnext, hrest⟩ := hf.completes (by omega)
  refine ⟨callRun_of_primBody h.lock ?_, ⟨⟨hf.bank, ?_, ?_⟩, by simpa using h.lock,
    by rw [State.wrAt_cfg]; exact h.ok⟩, State.wrAt_cfg s _ _⟩
  · rw [primBody, wrBody, hpro, PRes.ok_bind,
      busWrite_completes hnext (target_agree h.fails.agree hreg), PRes.ok_bind]
    rfl
  · simpa [State.wrAt, hne] using hf.agree
  · simpa [State.wrAt] using hrest

/-- A write whose value is dropped. -/
theorem Failing.completes_calls (h : Failing B l s) {addr : Nat} (ha : addr ∈ namedAddrs s.cfg)
    (v : Byte) : Completes B l s (calls (.port .host) (.wr addr v) s) () (s.wrAt addr v) :=
  (h.completes_wr ha v).bind (.refl _) fun ht _ => ht.completes_pure ()

/-! ## DDC_ABORT -/

theorem Failing.completes_poll (n : Nat) {s : State} (h : Failing B l s) :
    Completes B l s (s.pollRun (.port .host) n) (s.pollAt n).1 (s.pollAt n).2 := by
  induction n generalizing s with
  | zero => exact h.completes_pure _
  | succ n ih =>
    have hrd := h.completes_rd (addr := s.cfg.ddc.statAddr) (by simp [namedAddrs])
    rw [State.pollRun, State.pollAt]
    split
    · next he => exact hrd.bind (.refl _) fun ht _ => by rw [if_pos he]; exact ht.completes_pure _
    · next he =>
      split
      · next hd =>
        exact hrd.bind (.refl _) fun ht _ => by
          rw [if_neg he, if_pos hd]; exact ht.completes_pure _
      · next hd =>
        exact hrd.bind (pollAt_logged n _) fun ht _ => by rw [if_neg he, if_neg hd]; exact ih ht

theorem Failing.completes_save (h : Failing B l s) (r : SaveReg) {addr : Nat}
    (ha : addr ∈ namedAddrs s.cfg) :
    Completes B l s (s.saveRun (.port .host) r addr) () (s.saveAt (.port .host) r addr) :=
  (h.completes_rd ha).bind (.refl _) fun ht _ _ =>
    ⟨rfl, ⟨ht.fails.save r _, ht.lock, ht.ok⟩, rfl⟩

/-- One step of a sequence, then the others. -/
theorem Completes.cons {f : State → PRes Unit} {fs : List (State → PRes Unit)}
    (h : Completes B l s (f s) () t) (hlog : Logged t u)
    (hk : Failing B l t → t.cfg = s.cfg → Completes B l t (State.inTurn fs t) () u) :
    Completes B l s (State.inTurn (f :: fs) s) () u := h.bind hlog hk

/-- The last step of a sequence. -/
theorem Completes.last {f : State → PRes Unit} (h : Completes B l s (f s) () t) :
    Completes B l s (State.inTurn [f] s) () t := h.cons (.refl _) fun ht _ => ht.completes_pure ()

/-- The saves and the mastership write. -/
theorem Failing.completes_abortStart (h : Failing B l s) :
    Completes B l s (State.inTurn
      [(·.saveRun (.port .host) .swrst s.cfg.rst.swrstAddr),
        (·.saveRun (.port .host) .hdcp s.cfg.rst.hdcpAddr),
        (·.saveRun (.port .host) .ddcm s.cfg.ddc.ddcmAddr),
        calls (.port .host) (.wr s.cfg.ddc.ddcmAddr s.cfg.ddc.ddcmHost)] s) ()
      (s.abortStart (.port .host)) := by
  have l4 := wrAt_logged s.savesAt s.cfg.ddc.ddcmAddr s.cfg.ddc.ddcmHost
  have l3 := (saveAt_logged _ .ddcm s.cfg.ddc.ddcmAddr).trans l4
  have l2 := (saveAt_logged _ .hdcp s.cfg.rst.hdcpAddr).trans l3
  refine (h.completes_save .swrst (by simp [namedAddrs])).cons l2 fun h1 c1 => ?_
  refine (h1.completes_save .hdcp (by rw [c1]; simp [namedAddrs])).cons l3 fun h2 c2 => ?_
  rw [c1] at c2
  refine (h2.completes_save .ddcm (by rw [c2]; simp [namedAddrs])).cons l4 fun h3 c3 => ?_
  rw [c2] at c3
  exact (h3.completes_calls (by rw [c3]; simp [namedAddrs]) _).last

theorem Failing.completes_iter (h : Failing B l s) :
    Completes B l s (s.iterRun (.port .host)) (decide (s.iterAt.1 = .done)) s.iterAt.2 :=
  (h.completes_wr (by simp [namedAddrs]) _).bind (pollAt_logged 200 _) fun ht _ =>
    (ht.completes_poll 200).bind (.refl _) fun hu _ => hu.completes_pure _

/-- DDC_ABORT with a poll that ends Done (rule R147). -/
theorem Failing.completes_abort (h : Failing B l s) (hd : (s.abortAt (.port .host)).1 = true) :
    Completes B l s (s.abortRun (.port .host)) () (s.abortAt (.port .host)).2 := by
  have hpolls : Completes B l s s.abortPolls (s.abortAt (.port .host)).1
      (s.abortAt (.port .host)).2 :=
    h.completes_abortStart.bind ((iterAt_logged _).trans (iterAt_logged _)) fun h1 _ =>
      h1.completes_iter.bind (iterAt_logged _) fun h2 _ =>
        h2.completes_iter.bind (.refl _) fun h3 _ => h3.completes_pure _
  rw [abortRun_eq_abortPolls]
  exact hpolls.bind (.refl _) fun ht _ => by rw [if_pos hd]; exact ht.completes_pure ()

theorem abortAt_logged (s : State) : Logged s (s.abortAt (.port .host)).2 :=
  ((saveAt_logged _ _ _).trans <| (saveAt_logged _ _ _).trans <| (saveAt_logged _ _ _).trans <|
    wrAt_logged s.savesAt _ _).trans ((iterAt_logged _).trans (iterAt_logged _))

/-! ## RDBLK -/

/-- The entry check of RDBLK by the host (rules R143, R150). -/
def State.hangRun (s : State) : PRes Unit :=
  (s.callRun (.port .host) (.rd (hangAddr s.cfg.irq))).bind fun v t =>
    if v &&& s.cfg.irq.clearMap.busHang.statusBit ≠ 0 then t.abortRun (.port .host) else .ok () t

theorem rdblkRun_eq_hangRun (s : State) (block length : Nat) :
    s.rdblkRun (.port .host) block length
      = ({ s with result := [] } : State).hangRun.bind fun _ u =>
        (u.callRun (.port .host) (fifoClearOf s.cfg)).bind fun _ w =>
          w.chunksRun (.port .host) (block / 2) ((block % 2) * length) (chunkSizes length) := by
  rw [State.rdblkRun, ← PRes.bind_assoc]
  rfl

/-- The entry check that lets the read go on. -/
theorem Failing.completes_hang (h : Failing B l s) (hh : s.hangCheckedAt = (true, t)) :
    Completes B l s s.hangRun () t := by
  have hrd := h.completes_rd (hangAddr_named s.cfg)
  rw [State.hangCheckedAt] at hh
  split at hh
  · next hb =>
    obtain ⟨hd, rfl⟩ := Prod.mk.inj hh
    exact hrd.bind (abortAt_logged _) fun ht _ => by rw [if_pos hb]; exact ht.completes_abort hd
  · next hb =>
    obtain ⟨-, rfl⟩ := Prod.mk.inj hh
    exact hrd.bind (.refl _) fun ht _ => by rw [if_neg hb]; exact ht.completes_pure ()

/-- The five writes of one read command. -/
theorem Failing.completes_program (h : Failing B l s) (segment offset n : Nat) :
    Completes B l s (State.inTurn
      [calls (.port .host) (.wr s.cfg.ddc.hdrAddr s.cfg.ddc.hdrEdid),
        calls (.port .host) (.wr s.cfg.ddc.offAddr (BitVec.ofNat 8 offset)),
        calls (.port .host) (.wr s.cfg.ddc.cntAddr (BitVec.ofNat 8 n)),
        calls (.port .host) (.wr s.cfg.ddc.segAddr (BitVec.ofNat 8 segment)),
        calls (.port .host) (.wr s.cfg.ddc.cmdAddr s.cfg.ddc.cmdRead)] s) ()
      (s.programAt segment offset n) := by
  have l5 := wrAt_logged
    ((((s.wrAt s.cfg.ddc.hdrAddr s.cfg.ddc.hdrEdid).wrAt
      s.cfg.ddc.offAddr (BitVec.ofNat 8 offset)).wrAt
      s.cfg.ddc.cntAddr (BitVec.ofNat 8 n)).wrAt s.cfg.ddc.segAddr (BitVec.ofNat 8 segment))
    s.cfg.ddc.cmdAddr s.cfg.ddc.cmdRead
  have l4 := (wrAt_logged _ _ _).trans l5
  have l3 := (wrAt_logged _ _ _).trans l4
  have l2 := (wrAt_logged _ _ _).trans l3
  refine (h.completes_calls (by simp [namedAddrs]) _).cons l2 fun h1 _ => ?_
  refine (h1.completes_calls (by simp [namedAddrs]) _).cons l3 fun h2 _ => ?_
  refine (h2.completes_calls (by simp [namedAddrs]) _).cons l4 fun h3 _ => ?_
  refine (h3.completes_calls (by simp [namedAddrs]) _).cons l5 fun h4 _ => ?_
  exact (h4.completes_calls (by simp [namedAddrs]) _).last

theorem programAt_logged (s : State) (segment offset n : Nat) :
    Logged s (s.programAt segment offset n) :=
  (wrAt_logged _ _ _).trans <| (wrAt_logged _ _ _).trans <| (wrAt_logged _ _ _).trans <|
    (wrAt_logged _ _ _).trans (wrAt_logged _ _ _)

theorem drainAt_logged (n : Nat) (s : State) : Logged s (s.drainAt n) := by
  induction n generalizing s with
  | zero => exact .refl s
  | succ n ih =>
    rw [drainAt_succ]
    exact (rdAt_logged s _).trans (ih ((s.rdAt s.cfg.ddc.fifoAddr).collect _))

theorem Failing.completes_drain (n : Nat) {s : State} (h : Failing B l s) :
    Completes B l s (s.drainRun (.port .host) n) () (s.drainAt n) := by
  induction n generalizing s with
  | zero => exact h.completes_pure ()
  | succ n ih =>
    rw [drainRun_succ, drainAt_succ]
    refine (h.completes_rd (by simp [namedAddrs])).bind (drainAt_logged n (State.collect _ _))
      fun ht _ => ?_
    exact ih ⟨⟨ht.fails.bank, ht.fails.agree, ht.fails.flags⟩, ht.lock, ht.ok⟩

/-- A chunk that ends with OK had a Done in both its polls (rule R150). -/
theorem chunkAt_ok {segment offset n : Nat} (h : s.chunkAt segment offset n = (.ok, t)) :
    ∃ u w, (s.wrAt s.cfg.ddc.cmdAddr s.cfg.ddc.cmdFifoClr).pollAt 200 = (.done, u)
      ∧ (u.programAt segment offset n).pollAt 250 = (.done, w) ∧ t = w.drainAt n := by
  rw [State.chunkAt] at h
  generalize (s.wrAt s.cfg.ddc.cmdAddr s.cfg.ddc.cmdFifoClr).pollAt 200 = p at h ⊢
  obtain ⟨r, u⟩ := p
  cases r with
  | error b => cases h
  | exhausted => cases h
  | done =>
    simp only at h
    generalize hq : (u.programAt segment offset n).pollAt 250 = q at h
    obtain ⟨r', w⟩ := q
    cases r' with
    | error b => cases h
    | exhausted => cases h
    | done => exact ⟨u, w, rfl, hq, (Prod.mk.inj h).2.symm⟩

/-- The log of a poll with its result. -/
theorem pollAt_logged_of_eq {n : Nat} {r : PollResult} (h : s.pollAt n = (r, t)) : Logged s t := by
  have hlog := pollAt_logged n s
  rwa [h] at hlog

theorem Failing.completes_poll_of_eq {n : Nat} {r : PollResult} (h : Failing B l s)
    (hr : s.pollAt n = (r, t)) : Completes B l s (s.pollRun (.port .host) n) r t := by
  have hpoll := h.completes_poll n
  rwa [hr] at hpoll

theorem chunkAt_logged {segment offset n : Nat} (h : s.chunkAt segment offset n = (.ok, t)) :
    Logged s t := by
  obtain ⟨u, w, hu, hw, rfl⟩ := chunkAt_ok h
  exact (wrAt_logged s _ _).trans <| (pollAt_logged_of_eq hu).trans <|
    (programAt_logged u segment offset n).trans <| (pollAt_logged_of_eq hw).trans <|
    drainAt_logged n w

/-- A chunk that ends with OK. -/
theorem Failing.completes_chunk (h : Failing B l s) {segment offset n : Nat}
    (hok : s.chunkAt segment offset n = (.ok, t)) :
    Completes B l s (s.chunkRun (.port .host) segment offset n) () t := by
  obtain ⟨u, w, hu, hw, rfl⟩ := chunkAt_ok hok
  have ldrain := (pollAt_logged_of_eq hw).trans (drainAt_logged n w)
  have lprog := (programAt_logged u segment offset n).trans ldrain
  refine (h.completes_wr (by simp [namedAddrs]) _).bind ((pollAt_logged_of_eq hu).trans lprog)
    fun h1 c1 => (h1.completes_poll_of_eq hu).bind lprog fun h2 c2 => ?_
  rw [c1] at c2
  simp only [← c2]
  exact (h2.completes_program segment offset n).bind ldrain fun h3 _ =>
    (h3.completes_poll_of_eq hw).bind (drainAt_logged n w) fun h4 _ => h4.completes_drain n

/-- Chunks that end with OK: the first does, and so do the others after it. -/
theorem chunksAt_cons_ok {segment offset n : Nat} {ns : List Nat}
    (h : s.chunksAt segment offset (n :: ns) = (.ok, u)) :
    ∃ t, s.chunkAt segment offset n = (.ok, t) ∧ t.chunksAt segment (offset + n) ns = (.ok, u) := by
  rw [State.chunksAt] at h
  generalize s.chunkAt segment offset n = r at h ⊢
  obtain ⟨e, t⟩ := r
  by_cases he : e = .ok
  · subst he
    exact ⟨t, rfl, h⟩
  · simp only [if_neg he] at h
    exact absurd (Prod.mk.inj h).1 he

theorem chunksAt_logged {segment : Nat} (ns : List Nat) : ∀ {offset : Nat} {s : State},
    s.chunksAt segment offset ns = (.ok, u) → Logged s u := by
  induction ns with
  | nil =>
    intro offset s h
    obtain rfl := (Prod.mk.inj h).2
    exact .refl s
  | cons n ns ih =>
    intro offset s h
    obtain ⟨t, ht, hu⟩ := chunksAt_cons_ok h
    exact (chunkAt_logged ht).trans (ih hu)

/-- Chunks that end with OK. -/
theorem Failing.completes_chunks {segment : Nat} (ns : List Nat) : ∀ {offset : Nat} {s : State},
    Failing B l s → s.chunksAt segment offset ns = (.ok, u) →
    Completes B l s (s.chunksRun (.port .host) segment offset ns) () u := by
  induction ns with
  | nil =>
    intro offset s h hok
    obtain rfl := (Prod.mk.inj hok).2
    exact h.completes_pure ()
  | cons n ns ih =>
    intro offset s h hok
    obtain ⟨t, ht, hu⟩ := chunksAt_cons_ok hok
    exact (h.completes_chunk ht).bind (chunksAt_logged ns hu) fun h' _ => ih h' hu

theorem chunksRun_append (a : AgentId) (segment : Nat) (ms ns : List Nat) :
    ∀ (offset : Nat) (s : State), s.chunksRun a segment offset (ms ++ ns)
      = (s.chunksRun a segment offset ms).bind fun _ t =>
        t.chunksRun a segment (offset + ms.sum) ns := by
  induction ms with
  | nil => exact fun _ _ => rfl
  | cons m ms ih =>
    intro offset s
    simp only [List.cons_append, State.chunksRun, ih, PRes.bind_assoc, List.sum_cons, Nat.add_assoc]

/-! ## The clean-up -/

/-- What the failed clean-up FIFO clear leaves: the transactions up to the failed one, the result, and
every register but possibly the bank select. -/
structure CleanupFailed (B : Nat) (u w : State) : Prop where
  count : w.bus.length = B + 1
  log : Logged u w
  result : w.result = u.result
  regs : ∀ a, a ≠ u.cfg.bank.addr → w.x.read a = u.x.read a

/-- The clear that transaction `B` belongs to fails there, and its failure is absorbed (rule R156). -/
theorem Failing.cleanup (h : Failing B l u) {v : Byte}
    (hB : B < (u.wrAt u.cfg.ddc.cmdAddr v).bus.length) :
    ∃ w, u.attemptRun (.port .host) (.wr u.cfg.ddc.cmdAddr v) = .ok 0 w ∧ CleanupFailed B u w := by
  obtain ⟨hreg, hne⟩ := paramsOk_named h.ok (a := u.cfg.ddc.cmdAddr) (by simp [namedAddrs])
  rcases h.fails.wr (.port .host) h.lock hreg hne v with
    ⟨-, hf⟩ | ⟨w, hr, ⟨op, done, later, -, hbus, -, hlen⟩, hx⟩
  · exact absurd hf.le (by omega)
  · have hfr : BusFrame 3 u w := (runPrim_frame hr).2
    have hprim := Option.some.inj ((runPrim_free h.lock).symm.trans hr)
    refine ⟨w, by rw [State.attemptRun, hprim], by rw [hbus, List.length_cons, hlen], ?_,
      by rw [hfr.frame], fun a ha => ?_⟩
    · obtain ⟨m, -, hm⟩ := hfr.log
      exact ⟨m, hm⟩
    · rcases hx with hx | hx
      · exact hx a ha
      · rw [hx]
        exact wrAt_read_not_plain u v hne (isPlain_cmdAddr u.cfg) ha

/-- A chunk whose poll before the command ends with an error bit, the clean-up after it failing. -/
theorem Failing.chunk_cleanup (h : Failing B l s) {segment offset n : Nat} {bits : Byte}
    (hpoll : (s.wrAt s.cfg.ddc.cmdAddr s.cfg.ddc.cmdFifoClr).pollAt 200 = (.error bits, u))
    (hle : u.bus.length ≤ B)
    (hlt : B < (u.wrAt s.cfg.ddc.cmdAddr s.cfg.ddc.cmdFifoClr).bus.length) :
    u.cfg = s.cfg ∧ ∃ w, s.chunkRun (.port .host) segment offset n = .err .protocolError w
      ∧ CleanupFailed B u w := by
  have hclear : Completes B l s
      ((s.callRun (.port .host) (fifoClearOf s.cfg)).bind fun _ t => t.pollRun (.port .host) 200)
      (.error bits) u :=
    (h.completes_wr (by simp [namedAddrs]) _).bind (pollAt_logged_of_eq hpoll) fun h1 _ =>
      h1.completes_poll_of_eq hpoll
  obtain ⟨hrun, hu, hc⟩ := hclear hle
  rw [← hc] at hlt
  obtain ⟨w, hw, hleft⟩ := hu.cleanup hlt
  refine ⟨hc, w, ?_, hleft⟩
  rw [State.chunkRun, ← PRes.bind_assoc, hrun, PRes.ok_bind, ← hc]
  simp only
  rw [fifoClearOf, hw, PRes.ok_bind]

end

/-- Settles O42: everything up to the poll completes, the clear fails, and the chunk raises what its
poll decided. -/
theorem rdblkCleanupFailureIsAbsorbed : Obligations.RdblkCleanupFailureIsAbsorbed := by
  intro block length s h u0 u bits j k l hready ha hp hag hfl hh hj hchunks hpoll hle hlt
  have h0 : Failing (s.bus.length + k) l { s with result := [] } :=
    ⟨⟨paramsOk_bank hp, hag, k, hfl, rfl⟩, hready.2.2.1, hp⟩
  have lclear := (wrAt_logged u0 s.cfg.ddc.cmdAddr s.cfg.ddc.cmdFifoClr).trans
    (pollAt_logged_of_eq hpoll)
  have lchunks := (chunksAt_logged _ hchunks).trans lclear
  have lhang := (wrAt_logged h s.cfg.ddc.cmdAddr s.cfg.ddc.cmdFifoClr).trans lchunks
  obtain ⟨ehang, fh, ch⟩ := h0.completes_hang hh (lhang.length_le.trans hle)
  have hcmd : s.cfg.ddc.cmdAddr ∈ namedAddrs h.cfg := by rw [ch]; simp [namedAddrs]
  obtain ⟨eclr, fclr, cclr⟩ :=
    fh.completes_wr hcmd s.cfg.ddc.cmdFifoClr (lchunks.length_le.trans hle)
  obtain ⟨echunks, f0, c0⟩ := fclr.completes_chunks _ hchunks (lclear.length_le.trans hle)
  have hc0 : u0.cfg = s.cfg := (c0.trans cclr).trans ch
  rw [← hc0] at hpoll hlt
  obtain ⟨hcu, w, hchunk, hleft⟩ := f0.chunk_cleanup (segment := block.toNat / 2)
    (offset := (block.toNat % 2) * length.toNat + ((chunkSizes length.toNat).take j).sum)
    (n := (chunkSizes length.toNat)[j]) hpoll hle hlt
  have hrun : s.rdblkRun (.port .host) block.toNat length.toNat = .err .protocolError w := by
    rw [rdblkRun_eq_hangRun, ehang, PRes.ok_bind, fifoClearOf, eclr, PRes.ok_bind,
      ← List.take_append_drop j (chunkSizes length.toNat), chunksRun_append, echunks, PRes.ok_bind,
      List.drop_eq_getElem_cons hj, State.chunksRun, hchunk]
    rfl
  refine ⟨w.respond .host ⟨.protocolError, 0⟩, by rw [execRdblk_eq hready ha hp, hrun]; rfl, rfl,
    hleft.result, hleft.count, hleft.log, fun a hne => hleft.regs a ?_⟩
  rwa [hcu, hc0]

end Sys2Proof.Machine
end

section
/-! SUPPORT. What an undisturbed RDBLK leaves: how it ends, how many bytes it collects, and the registers
it may write. -/

namespace Sys2Proof.Machine

/-! ## What a block read touches -/

/-- The registers a block read may write beside the command register, which stores nothing, and the bank
select. -/
def readRegs (c : Params) : List Nat :=
  [c.bank.addr, c.ddc.ddcmAddr, c.ddc.hdrAddr, c.ddc.offAddr, c.ddc.cntAddr, c.ddc.segAddr]

/-- What a block read of the host may touch from `s` to `t`: `readRegs`, the banks, `result`, the save
latches, the draws and the bus log. -/
structure ReadFrame (s t : State) : Prop where
  frame : t = { s with
    x := t.x, hwBank := t.hwBank, ctx := { s.ctx with currentBank := t.ctx.currentBank }
    result := t.result, hostPort := t.hostPort, bus := t.bus, env := t.env }
  regs : ∀ a, a ∉ readRegs s.cfg → t.x.read a = s.x.read a

section
variable {s t u : State} {n : Nat}

theorem ReadFrame.refl (s : State) : ReadFrame s s := ⟨rfl, fun _ _ => rfl⟩

theorem ReadFrame.cfg (h : ReadFrame s t) : t.cfg = s.cfg := by rw [h.frame]

theorem ReadFrame.trans (h : ReadFrame s t) (h' : ReadFrame t u) : ReadFrame s u := by
  refine ⟨?_, fun a ha => (h'.regs a (h.cfg ▸ ha)).trans (h.regs a ha)⟩
  have h1 := h.frame
  have h2 := h'.frame
  rw [h1] at h2
  exact h2

/-- The bytes collected are no register. -/
theorem ReadFrame.collect (h : ReadFrame s t) (l : List Byte) :
    ReadFrame s { t with result := l } := by
  refine ⟨?_, h.regs⟩
  have h1 := h.frame
  rw [h1]

theorem AbortFrame.readFrame (h : AbortFrame s t) : ReadFrame s t := by
  have hr : t.result = s.result := by rw [h.frame]
  refine ⟨h.frame.trans (by rw [hr]), fun a ha => h.regs.others a ?_ ?_⟩
  · exact fun he => ha (by simp [readRegs, he])
  · exact fun he => ha (by simp [readRegs, he])

theorem Quiet.readFrame (h : Quiet s t) (hp : paramsOk s.cfg = true) : ReadFrame s t :=
  (h.abortFrame hp).readFrame

theorem Quiet.result (h : Quiet s t) : t.result = s.result := by
  obtain ⟨_, hf⟩ := h.traffic
  rw [hf.frame]

theorem BusFrame.readFrame (h : BusFrame n s t)
    (hr : ∀ a, a ∉ readRegs s.cfg → t.x.read a = s.x.read a) : ReadFrame s t := by
  have hp : t.hostPort = s.hostPort := by rw [h.frame]
  have hres : t.result = s.result := by rw [h.frame]
  exact ⟨h.frame.trans (by rw [hp, hres]), hr⟩

/-- A write of one of the registers a block read may write. -/
theorem ReadFrame.wr {a : AgentId} (h : ReadFrame s t) (ht : Undisturbed a t) {addr : Nat}
    (ha : addr ∈ namedAddrs s.cfg) (hr : addr ∈ readRegs s.cfg) (v : Byte) :
    ReadFrame s (t.wrAt addr v) ∧ Undisturbed a (t.wrAt addr v) := by
  have hc := h.cfg
  have hat : addr ∈ namedAddrs t.cfg := by rwa [hc]
  refine ⟨h.trans ((ht.wrAt_traffic hat v).readFrame fun r hne => ?_), (ht.wr hat v).2⟩
  exact wrAt_read_other t v (fun he => hne (by simp [readRegs, he]))
    fun he => hne (by rwa [he, hc])

/-- A command changes no register but possibly the bank select. -/
theorem Undisturbed.quiet_cmd {a : AgentId} (h : Undisturbed a s) (v : Byte) :
    Quiet s (s.wrAt s.cfg.ddc.cmdAddr v) := by
  have hcmd : s.cfg.ddc.cmdAddr ∈ namedAddrs s.cfg := by simp [namedAddrs]
  exact ⟨⟨3, h.wrAt_traffic hcmd v⟩, fun _ hr =>
    wrAt_read_not_plain s v (paramsOk_named h.ok hcmd).2 (isPlain_cmdAddr s.cfg) hr⟩

theorem programAt_result (s : State) (segment offset n : Nat) :
    (s.programAt segment offset n).result = s.result := by simp [State.programAt]

/-- The five writes of one read command. -/
theorem Undisturbed.readFrame_program {a : AgentId} (h : Undisturbed a s) (segment offset n : Nat) :
    ReadFrame s (s.programAt segment offset n) := by
  obtain ⟨f1, h1⟩ := (ReadFrame.refl s).wr h (addr := s.cfg.ddc.hdrAddr) (by simp [namedAddrs])
    (by simp [readRegs]) s.cfg.ddc.hdrEdid
  obtain ⟨f2, h2⟩ := f1.wr h1 (addr := s.cfg.ddc.offAddr) (by simp [namedAddrs])
    (by simp [readRegs]) (BitVec.ofNat 8 offset)
  obtain ⟨f3, h3⟩ := f2.wr h2 (addr := s.cfg.ddc.cntAddr) (by simp [namedAddrs])
    (by simp [readRegs]) (BitVec.ofNat 8 n)
  obtain ⟨f4, h4⟩ := f3.wr h3 (addr := s.cfg.ddc.segAddr) (by simp [namedAddrs])
    (by simp [readRegs]) (BitVec.ofNat 8 segment)
  have hcmd := h4.quiet_cmd s.cfg.ddc.cmdRead
  rw [f4.cfg] at hcmd
  exact f4.trans (hcmd.readFrame h4.ok)

/-- The FIFO reads of a chunk: one byte collected for each. -/
theorem Undisturbed.readFrame_drain {a : AgentId} (n : Nat) {s : State} (h : Undisturbed a s) :
    ReadFrame s (s.drainAt n) ∧ (s.drainAt n).result.length = s.result.length + n := by
  induction n generalizing s with
  | zero => exact ⟨.refl s, rfl⟩
  | succ n ih =>
    rw [drainAt_succ]
    have hrd := (h.rdAt_quiet (addr := s.cfg.ddc.fifoAddr) (by simp [namedAddrs])).readFrame h.ok
    obtain ⟨hf, hlen⟩ := ih h.fifoRead
    have hone : ((s.rdAt s.cfg.ddc.fifoAddr).collect (s.rdValue s.cfg.ddc.fifoAddr)).result.length
        = s.result.length + 1 := by simp [State.collect]
    exact ⟨(hrd.collect _).trans hf, by omega⟩

/-! ## How a block read ends -/

/-- How a part of a block read that is to collect `n` bytes ended, from `s`. -/
structure ReadEnds (s : State) (n : Nat) (r : Status × State) : Prop where
  undisturbed : Undisturbed (.port .host) r.2
  frame : ReadFrame s r.2
  status : r.1 ∈ [Status.ok, .protocolTimeout, .protocolError]
  collected : r.1 = .ok → r.2.result.length = s.result.length + n

/-- One chunk, whichever way its polls end (rules R150, R153). -/
theorem Undisturbed.readEnds_chunk (h : Undisturbed (.port .host) s) (segment offset n : Nat) :
    ReadEnds s n (s.chunkAt segment offset n) := by
  have hu := (h.chunkRun_eq segment offset n).2.1
  have hclr := h.quiet_cmd s.cfg.ddc.cmdFifoClr
  have hw := (h.wr (addr := s.cfg.ddc.cmdAddr) (by simp [namedAddrs]) s.cfg.ddc.cmdFifoClr).2
  have hpoll := hclr.trans (hw.pollAt_quiet 200)
  have hp := (hw.pollAt 200).1
  rw [State.chunkAt] at hu ⊢
  generalize (s.wrAt s.cfg.ddc.cmdAddr s.cfg.ddc.cmdFifoClr).pollAt 200 = p at *
  obtain ⟨r, v⟩ := p
  have hfv := hpoll.readFrame h.ok
  cases r with
  | error b =>
    have hclr2 := hp.quiet_cmd s.cfg.ddc.cmdFifoClr
    rw [hpoll.cfg] at hclr2
    exact ⟨hu, hfv.trans (hclr2.readFrame hp.ok), by simp, nofun⟩
  | exhausted => exact ⟨hu, hfv, by simp, nofun⟩
  | done =>
    have hprog := hfv.trans (hp.readFrame_program segment offset n)
    have hup := (hp.program segment offset n).2.1
    have hpoll2 := hup.pollAt_quiet 250
    have hq := (hup.pollAt 250).1
    have hres := hpoll2.result.trans ((programAt_result v segment offset n).trans hpoll.result)
    simp only at hu ⊢
    generalize (v.programAt segment offset n).pollAt 250 = q at *
    obtain ⟨r', w⟩ := q
    have hfw := hprog.trans (hpoll2.readFrame hup.ok)
    cases r' with
    | error b => exact ⟨hu, hfw, by simp, nofun⟩
    | exhausted => exact ⟨hu, hfw, by simp, nofun⟩
    | done =>
      obtain ⟨hdrain, hlen⟩ := hq.readFrame_drain n
      exact ⟨hu, hfw.trans hdrain, by simp, fun _ => hlen.trans (by rw [hres])⟩

/-- The chunks, up to the first that fails. -/
theorem readEnds_chunks (segment : Nat) (ns : List Nat) : ∀ (offset : Nat) {s : State},
    Undisturbed (.port .host) s → ReadEnds s ns.sum (s.chunksAt segment offset ns) := by
  induction ns with
  | nil => exact fun _ s h => ⟨h, .refl s, by simp [State.chunksAt], fun _ => rfl⟩
  | cons n ns ih =>
    intro offset s h
    have hfirst := h.readEnds_chunk segment offset n
    have hrest := ih (offset + n) hfirst.undisturbed
    simp only [State.chunksAt]
    split
    · next hok =>
      refine ⟨hrest.undisturbed, hfirst.frame.trans hrest.frame, hrest.status, fun he => ?_⟩
      rw [hrest.collected he, hfirst.collected hok, List.sum_cons, Nat.add_assoc]
    · next hok =>
      exact ⟨hfirst.undisturbed, hfirst.frame, hfirst.status, fun he => absurd he hok⟩

/-- The hang check, and DDC_ABORT where the bit is set. -/
theorem Undisturbed.readFrame_hang (h : Undisturbed (.port .host) s) :
    ReadFrame s s.hangCheckedAt.2 := by
  have hrd := h.rdAt_quiet (hangAddr_named s.cfg)
  have hu := (h.rd (hangAddr_named s.cfg)).2
  rw [State.hangCheckedAt]
  split
  · exact (hrd.readFrame h.ok).trans hu.abortAt_frame.1.readFrame
  · exact hrd.readFrame h.ok

/-- The entry check collects nothing. -/
theorem Undisturbed.result_hang (h : Undisturbed (.port .host) s) :
    s.hangCheckedAt.2.result = s.result := by
  have hrd := h.rdAt_quiet (hangAddr_named s.cfg)
  have hu := (h.rd (hangAddr_named s.cfg)).2
  rw [State.hangCheckedAt]
  split
  · have hab : ((s.rdAt (hangAddr s.cfg.irq)).abortAt (.port .host)).2.result
        = (s.rdAt (hangAddr s.cfg.irq)).result := by rw [hu.abortAt_frame.1.frame]
    exact hab.trans hrd.result
  · exact hrd.result

/-- The whole block read from an empty result. -/
theorem Undisturbed.readEnds_rdblk (h : Undisturbed (.port .host) s) (block length : Nat) :
    ReadEnds { s with result := [] } length (s.rdblkAt block length) := by
  obtain ⟨-, hu, hc⟩ := hangCheckRun_eq (h.result [])
  have hhang := (h.result []).readFrame_hang
  have hres := (h.result []).result_hang
  have hsum : (chunkSizes length).sum = length := (chunks_of_length s.cfg.ddc 0 _ 0 length rfl).2.1
  rw [State.rdblkAt]
  generalize ({ s with result := [] } : State).hangCheckedAt = r at *
  obtain ⟨b, v⟩ := r
  cases b with
  | false => exact ⟨hu, hhang, by simp, nofun⟩
  | true =>
    have hclr := hu.quiet_cmd s.cfg.ddc.cmdFifoClr
    have hw := (hu.wr (addr := v.cfg.ddc.cmdAddr) (by simp [namedAddrs]) s.cfg.ddc.cmdFifoClr).2
    rw [hc] at hclr hw
    have hends := readEnds_chunks (block / 2) (chunkSizes length) ((block % 2) * length) hw
    rw [hsum] at hends
    refine ⟨hends.undisturbed, (hhang.trans (hclr.readFrame hu.ok)).trans hends.frame, hends.status,
      fun hok => ?_⟩
    rw [if_pos rfl, hends.collected hok, hclr.result, hres]

end

/-- The payload of RDBLK is empty (rule R104). -/
theorem Ready.rdblk_payload_nil {block : BitVec 8} {length : BitVec 16} {s : State}
    (h : Ready (.rdblk block length) s) : s.payload = [] := by
  have hlen := h.payload_length
  rw [h.active_host rfl] at hlen
  exact List.eq_nil_of_length_eq_zero hlen

/-- The host's answer after a block read. -/
theorem ReadFrame.respond {s t : State} (h : ReadFrame { s with result := [] } t)
    (hpl : s.payload = []) (r : Response) :
    t.respond .host r = { s with
      x := t.x, hwBank := t.hwBank, ctx := { s.ctx with currentBank := t.ctx.currentBank }
      result := t.result, resp := r, hostPort := (t.respond .host r).hostPort, bus := t.bus
      env := t.env, events := (t.respond .host r).events } := by
  have hempty : t.respond .host r = { s with
      x := t.x, hwBank := t.hwBank, ctx := { s.ctx with currentBank := t.ctx.currentBank }
      result := t.result, payload := [], resp := r, hostPort := (t.respond .host r).hostPort
      bus := t.bus, env := t.env, events := (t.respond .host r).events } := by
    have hf := h.frame
    generalize t.x = x, t.hwBank = hw, t.ctx.currentBank = b, t.result = res, t.hostPort = port,
      t.bus = bus, t.env = env at hf
    rw [hf]
    rfl
  rw [← hpl] at hempty
  exact hempty

/-- Settles O39: every chunk ends one of three ways, collects its bytes where it ends with OK, and
writes only the registers of the read command. -/
theorem rdblkCompletes : Obligations.RdblkCompletes := by
  intro block length s h ha hf hp
  have hu : Undisturbed (.port .host) s := h.active_host rfl ▸ h.undisturbed ha hf hp
  have hends := hu.readEnds_rdblk block.toNat length.toNat
  have hex : exec (.rdblk block length) s
      = .next ((s.rdblkAt block.toNat length.toNat).2.respond .host
        ⟨(s.rdblkAt block.toNat length.toNat).1, 0⟩) := by
    rw [execRdblk_eq h ha hp, rdblkRun_eq hu, hostOutcome_endedWith]
  generalize s.rdblkAt block.toNat length.toNat = r at hends hex
  obtain ⟨e, t⟩ := r
  have hbank : t.ctx.currentBank = t.hwBank := hends.undisturbed.fine.2.1
  have hstatus : e = .ok ∨ e = .protocolTimeout ∨ e = .protocolError := by
    simpa using hends.status
  refine ⟨t.respond .host ⟨e, 0⟩, hex, hends.frame.respond h.rdblk_payload_nil _, hbank, rfl, ?_,
    fun hok => ?_, hends.frame.regs⟩
  · show (⟨e, 0⟩ : Response) ∈ _
    rcases hstatus with rfl | rfl | rfl <;> simp [okResp]
  · have hlen : t.result.length = 0 + length.toNat :=
      hends.collected (congrArg Response.status hok)
    rwa [Nat.zero_add] at hlen

end Sys2Proof.Machine
end

section
/-! SUPPORT. IRQ_DISPATCH whichever transactions fail: the run of the dispatcher is the steps the rules
give, one statement of the program after the other. -/

namespace Sys2Proof.Machine

section
variable {c : Params} {n m : Nat} {p q : List Stmt} {x : Stmt} {f : State → PRes Unit}
  {fs : List (State → PRes Unit)}

/-! ## Programs that perform a step -/

/-- In the dispatcher `program` is what the step `f` says, in at most `n` statements, whatever statements
are still to come after it. -/
structure Performs (c : Params) (n : Nat) (program : List Stmt) (f : State → PRes Unit) : Prop where
  run : ∀ {k : Nat} {rest : List Stmt} {s : State} {o : Host.Outcome State Fault Refusal}, rest ≠ [] →
    Calm .dispatcher s → s.cfg = c →
    Then .dispatcher c k rest (f s) o (fun _ t => GoesOn .dispatcher k rest t o) →
    EndsIn .dispatcher (k + n) (program ++ rest) s o

theorem Performs.nil : Performs c 0 [] (State.inTurn []) := by
  refine ⟨fun {k rest s o} hr hs hc h => ?_⟩
  obtain ⟨y, ys, rfl⟩ := List.exists_cons_of_ne_nil hr
  exact (h hs hc).cons

/-- One statement performs the first step, the others the steps after it; they hold no absorbing
invoker of their own. -/
theorem Performs.cons (h : Performs c m [x] f) (hq : Performs c n q (State.inTurn fs))
    (ht : ∀ rest, afterAbsorb (q ++ rest) = afterAbsorb rest := by intro _; rfl) :
    Performs c (n + m) (x :: q) (State.inTurn (f :: fs)) := by
  refine ⟨fun {k rest s o} hr hs hc ho => ?_⟩
  rw [← Nat.add_assoc]
  have hne : q ++ rest ≠ [] := by simp [hr]
  exact h.run (rest := q ++ rest) hne hs hc
    (Then.first ho (ht rest) (Nat.le_add_right k n) fun _ _ hs' hc' ho' =>
      GoesOn.of_endsIn (hq.run hr hs' hc' ho') hne)

/-- A best-effort primitive. -/
theorem performs_tryPrim (r : Prim) : Performs c 1 [.tryPrim r] (attempts .dispatcher r) :=
  ⟨fun _ hs hc h => EndsIn.tryPrim hs hc h⟩

/-- A statement that is replaced by `p` where the snapshot shows a source, and by nothing else. -/
theorem performs_whereShown {row : ClearRow}
    (hx : ∀ (s : State) (k : List Stmt), s.cfg = c → stmtStep .dispatcher x (s.setPos .dispatcher k)
      = .go (if s.shows row then p else []) (s.setPos .dispatcher k))
    (hp : Performs c n p f) : Performs c (n + 1) [x] (whereShown row f) := by
  refine ⟨fun {k rest s o} hr hs hc h => EndsIn.go (n := k + n) hs.1 (fun k => hx s k hc) hs ?_⟩
  unfold whereShown at h
  split at h
  · next hshow =>
    rw [if_pos hshow]
    exact GoesOn.of_endsIn (hp.run hr hs hc h) (by simp [hr])
  · next hshow =>
    rw [if_neg hshow]
    exact (h hs hc).mono (Nat.le_add_right k n)

/-! ## The statements of IRQ_DISPATCH -/

/-- One status read of the snapshot (rule R172). -/
theorem performs_snapRead (g : Group) : Performs c 1 [.snapRead g] (snapReads g) := by
  refine ⟨fun {k rest s o} hr hs hc h => ?_⟩
  subst hc
  exact EndsIn.attempt hs rfl (p := .rd (s.cfg.irq.statAddr.get g))
    (k := fun v s' => .go [] { s' with snap := s'.snap.set g v }) (fun _ => rfl) (fun _ _ => rfl)
    ((Then.bind h).imp fun v t ht hct h =>
      ⟨[], { t with snap := t.snap.set g v }, fun _ => rfl, ht, h ht hct⟩)

/-- One row of the clear loop (rule R173). -/
theorem performs_clearRow (src : Source) :
    Performs c 2 [.clearRow src] (clears (c.irq.clearMap.row src)) :=
  performs_whereShown
    (p := [.tryPrim (.wr (c.irq.clearMap.row src).clearRegister (c.irq.clearMap.row src).clearBit)])
    (fun _ _ hc => by subst hc; rfl) (performs_tryPrim _)

/-- The ext self-clear (rule R174). -/
theorem performs_extClear : Performs c 2 [.extClear] extClears := by
  refine ⟨fun {k rest s o} hr hs hc h => EndsIn.go (n := k + 1) (u := s)
    (push := if s.snap.ext = 0 then [] else [.tryPrim (.wr s.cfg.irq.statAddr.ext s.snap.ext)])
    hs.1 (fun _ => rfl) hs ?_⟩
  unfold extClears at h
  split at h
  · next hz =>
    rw [if_pos hz]
    exact (h hs hc).mono (Nat.le_succ k)
  · next hz =>
    rw [if_neg hz]
    exact GoesOn.of_endsIn ((performs_tryPrim _).run hr hs hc h) nofun

/-- A pulse (rules R175, R179). -/
theorem performs_pulse (addr : Nat) (bit : Byte) :
    Performs c 2 [.tryPrim (.upd addr bit bit), .tryPrim (.upd addr bit 0)]
      (State.inTurn (pulses addr bit)) :=
  (performs_tryPrim _).cons <| (performs_tryPrim _).cons .nil

/-- DDC_ABORT with its absorbing invoker (rule R178). -/
theorem performs_abort (hp : paramsOk c = true) :
    Performs c 410 (abortProgram c ++ [.absorb]) abortsAbsorbed := by
  refine ⟨fun {k rest s o} hr hs hc h => ?_⟩
  rw [List.append_assoc]
  refine (EndsIn.abort (m := k + 1) (rest := .absorb :: rest) hp hs hc ?_).mono (by omega)
  unfold abortsAbsorbed at h
  generalize s.abortRun .dispatcher = r at h
  cases r with
  | ok _ t =>
    exact fun ht hct => GoesOn.of_endsIn (EndsIn.go (push := []) rfl (fun _ => rfl) ht (h ht hct)) nofun
  | err e t => exact fun ht hct => GoesOn.mono (h ht hct) (Nat.le_succ k)
  | stop r => exact h

/-- A handler that runs statements (rules R176 to R180). -/
theorem performs_handler {h : Handler} (hh : h ≠ .hotplug) (hp : Performs c n (handlerProgram c h) f) :
    Performs c (n + 1) [.handler h] (whereShown (c.irq.clearMap.row (handlerSource h)) f) := by
  refine performs_whereShown (p := handlerProgram c h) (fun s k hc => ?_) hp
  subst hc
  show stepHandler h (s.setPos .dispatcher k)
    = .go (if asserted s.cfg.irq s.snap (handlerSource h) then handlerProgram s.cfg h else []) _
  rw [stepHandler, if_neg hh]
  show (if asserted s.cfg.irq s.snap (handlerSource h) then _ else _) = _
  split <;> rfl

/-- The hotplug handler (rule R181). -/
theorem performs_hotplug : Performs c 1 [.handler .hotplug]
    (whereShown c.irq.clearMap.hotplug fun s => .ok () s.setPending) := by
  refine ⟨fun {k rest s o} hr hs hc h => ?_⟩
  subst hc
  refine EndsIn.go (n := k) (u := if s.shows s.cfg.irq.clearMap.hotplug then s.setPending else s)
    (push := []) hs.1 (fun q => ?_) (by split <;> exact hs) ?_
  · show (if s.shows s.cfg.irq.clearMap.hotplug = true then _ else _) = _
    split <;> rfl
  · unfold whereShown at h
    split at h
    · next hshow => exact if_pos hshow ▸ h hs rfl
    · next hshow => exact if_neg hshow ▸ h hs rfl

/-! ## The whole dispatch -/

/-- IRQ_DISPATCH up to its last statement. -/
def dispatchBody (c : Params) : List Stmt :=
  groupOrder.map .snapRead ++ clearOrder.map .clearRow
    ++ [.extClear, .tryPrim (.upd c.irq.ackAddr c.irq.ackBit c.irq.ackBit),
      .tryPrim (.upd c.irq.ackAddr c.irq.ackBit 0)]
    ++ handlerOrder.map .handler

theorem dispatchProgram_eq (c : Params) : dispatchProgram c = dispatchBody c ++ [.close] := rfl

/-- The program of IRQ_DISPATCH performs the steps of the rules (rule R170). -/
theorem performs_dispatch (hp : paramsOk c = true) :
    Performs c 439 (dispatchBody c) (State.inTurn (dispatchSteps c)) :=
  (performs_snapRead .core).cons <| (performs_snapRead .stat0).cons <|
    (performs_snapRead .stat1).cons <| (performs_snapRead .ext).cons <|
    (performs_clearRow .hotplug).cons <| (performs_clearRow .rxSense).cons <|
    (performs_clearRow .fifoError).cons <| (performs_clearRow .busHang).cons <|
    (performs_clearRow .audioOverflow).cons <| (performs_clearRow .videoStable).cons <|
    performs_extClear.cons <| (performs_tryPrim _).cons <| (performs_tryPrim _).cons <|
    (performs_handler (h := .fifoError) nofun (performs_tryPrim _)).cons <|
    (performs_handler (h := .busHang) nofun (performs_abort hp)).cons <|
    (performs_handler (h := .audioOverflow) nofun (performs_pulse _ _)).cons <|
    (performs_handler (h := .videoStable) nofun (performs_tryPrim _)).cons <|
    performs_hotplug.cons .nil

/-- How the run ends is how the steps ended: the last statement follows, or nobody absorbs an error. -/
theorem Then.dispatchOutcome (c : Params) (r : PRes Unit) :
    Then .dispatcher c 1 [.close] r (dispatchOutcome r) fun _ t =>
      GoesOn .dispatcher 1 [.close] t (dispatchOutcome r) := by
  cases r with
  | ok _ t =>
    exact fun ht _ => GoesOn.of_endsIn (EndsIn.go (n := 0) (push := []) rfl (fun _ => rfl) ht rfl) nofun
  | err e t => exact fun _ _ => rfl
  | stop x => rfl

end

/-- IRQ_DISPATCH alone, whichever transactions fail. -/
theorem execIrqDispatch_eq {s : State} (hrun : s.dispRunning = false)
    (hid : s.idle .dispatcher = true) (hl : s.ctx.lock = none) (ha : Alone s)
    (hp : paramsOk s.cfg = true) :
    exec .irqDispatch s
      = dispatchOutcome (State.inTurn (dispatchSteps s.cfg) { s with dispRunning := true }) := by
  have hs : Calm .dispatcher { s with dispRunning := true } := ⟨rfl, ha, hl⟩
  have hgo : goesOn .dispatcher (s.enterDispatch (dispatchProgram s.cfg)) = true :=
    goesOn_setPos (s := { s with dispRunning := true }) hs.1 hs.2.1 hs.2.2
  have hex : exec .irqDispatch s = drive .dispatcher (driveBound s.cfg)
      (State.setPos { s with dispRunning := true } .dispatcher (dispatchProgram s.cfg)) := by
    simp only [exec, execIrqDispatch, hrun, hid, startInternal, hgo]
    rfl
  rw [hex, dispatchProgram_eq]
  exact (performs_dispatch hp).run (by simp) hs rfl (Then.dispatchOutcome s.cfg _) _
    (by unfold driveBound; omega)

end Sys2Proof.Machine
end

section
/-! SUPPORT. Updates of the state that no register access looks at, such as the dispatcher's running flag
and its snapshot: they may be made before or after the accesses. -/

namespace Sys2Proof.Machine

/-- `f` changes nothing that a register access of the dispatcher looks at or changes. -/
structure Outside (f : State → State) : Prop where
  cfg : ∀ s, (f s).cfg = s.cfg
  currentBank : ∀ s, (f s).ctx.currentBank = s.ctx.currentBank
  busValue : ∀ s a, (f s).busValue a = s.busValue a
  afterSelect : ∀ s b, (f s).afterSelect b = f (s.afterSelect b)
  didRead : ∀ s off a, (f s).didRead off a = f (s.didRead off a)
  didWrite : ∀ s off a v, (f s).didWrite off a v = f (s.didWrite off a v)
  save : ∀ s r v, (f s).save .dispatcher r v = f (s.save .dispatcher r v)

/-- The running flag of the dispatcher (rule R36). -/
def State.running (b : Bool) (s : State) : State := { s with dispRunning := b }

/-- The snapshot of the dispatcher (rule R36). -/
def State.withSnap (p : PerGroup Byte) (s : State) : State := { s with snap := p }

theorem outside_running (b : Bool) : Outside (State.running b) :=
  ⟨fun _ => rfl, fun _ => rfl, fun _ _ => rfl, fun _ _ => rfl, fun _ _ _ => rfl, fun _ _ _ _ => rfl,
    fun _ _ _ => rfl⟩

theorem outside_withSnap (p : PerGroup Byte) : Outside (State.withSnap p) :=
  ⟨fun _ => rfl, fun _ => rfl, fun _ _ => rfl, fun _ _ => rfl, fun _ _ _ => rfl, fun _ _ _ _ => rfl,
    fun _ _ _ => rfl⟩

section
variable {f : State → State}

/-! ## The primitives -/

theorem Outside.switched (h : Outside f) (s : State) (need : Option Bank) :
    (f s).switched need = f (s.switched need) := by
  cases need with
  | none => rfl
  | some b =>
    simp only [State.switched, h.currentBank, h.afterSelect]
    split <;> rfl

theorem Outside.rdAt (h : Outside f) (s : State) (addr : Nat) : (f s).rdAt addr = f (s.rdAt addr) := by
  rw [State.rdAt, h.switched, h.didRead, State.rdAt]

theorem Outside.rdValue (h : Outside f) (s : State) (addr : Nat) :
    (f s).rdValue addr = s.rdValue addr := by
  rw [State.rdValue, h.switched, h.busValue, State.rdValue]

theorem Outside.wrAt (h : Outside f) (s : State) (addr : Nat) (v : Byte) :
    (f s).wrAt addr v = f (s.wrAt addr v) := by
  rw [State.wrAt, h.switched, h.didWrite, State.wrAt]

theorem Outside.updAt (h : Outside f) (s : State) (addr : Nat) (m v : Byte) :
    (f s).updAt addr m v = f (s.updAt addr m v) := by
  rw [State.updAt, h.rdAt, h.rdValue, h.didWrite, State.updAt]

theorem Outside.pulseAt (h : Outside f) (s : State) (addr : Nat) (bit : Byte) :
    (f s).pulseAt addr bit = f (s.pulseAt addr bit) := by
  rw [State.pulseAt, h.updAt, h.updAt, State.pulseAt]

/-! ## DDC_ABORT -/

theorem Outside.pollAt (h : Outside f) (n : Nat) (s : State) :
    (f s).pollAt n = ((s.pollAt n).1, f (s.pollAt n).2) := by
  induction n generalizing s with
  | zero => rfl
  | succ n ih =>
    simp only [State.pollAt, h.cfg, h.rdValue, h.rdAt, ih]
    split
    · rfl
    · split <;> rfl

theorem Outside.iterAt (h : Outside f) (s : State) : (f s).iterAt = (s.iterAt.1, f s.iterAt.2) := by
  rw [State.iterAt, h.cfg, h.wrAt, h.pollAt, State.iterAt]

theorem Outside.saveAt (h : Outside f) (s : State) (r : SaveReg) (addr : Nat) :
    (f s).saveAt .dispatcher r addr = f (s.saveAt .dispatcher r addr) := by
  rw [State.saveAt, h.rdAt, h.rdValue, h.save, State.saveAt]

theorem Outside.abortStart (h : Outside f) (s : State) :
    (f s).abortStart .dispatcher = f (s.abortStart .dispatcher) := by
  rw [State.abortStart, h.cfg, h.saveAt, h.saveAt, h.saveAt, h.wrAt, State.abortStart]

theorem Outside.abortAt (h : Outside f) (s : State) :
    (f s).abortAt .dispatcher = ((s.abortAt .dispatcher).1, f (s.abortAt .dispatcher).2) := by
  simp only [State.abortAt, h.abortStart, h.iterAt]

end

/-! ## The snapshot of a dispatch -/

/-- The four status reads of a dispatch (rule R172). -/
def State.readsAt (s : State) : State :=
  (((s.rdAt s.cfg.irq.statAddr.core).rdAt s.cfg.irq.statAddr.stat0).rdAt s.cfg.irq.statAddr.stat1).rdAt
    s.cfg.irq.statAddr.ext

/-- The bytes they answer (rule R172). -/
def State.readsValue (s : State) : PerGroup Byte where
  core := s.rdValue s.cfg.irq.statAddr.core
  stat0 := (s.rdAt s.cfg.irq.statAddr.core).rdValue s.cfg.irq.statAddr.stat0
  stat1 := ((s.rdAt s.cfg.irq.statAddr.core).rdAt s.cfg.irq.statAddr.stat0).rdValue
    s.cfg.irq.statAddr.stat1
  ext := (((s.rdAt s.cfg.irq.statAddr.core).rdAt s.cfg.irq.statAddr.stat0).rdAt
    s.cfg.irq.statAddr.stat1).rdValue s.cfg.irq.statAddr.ext

/-- One more status read after others whose bytes stand in the snapshot. -/
theorem withSnap_snapReadAt (p : PerGroup Byte) (s : State) (g : Group) :
    (s.withSnap p).snapReadAt g = (s.rdAt (s.cfg.irq.statAddr.get g)).withSnap
      (p.set g (s.rdValue (s.cfg.irq.statAddr.get g))) := by
  have h := outside_withSnap p
  rw [State.snapReadAt, h.cfg, h.rdAt, h.rdValue]
  rfl

/-- The reads of the snapshot come first; the snapshot itself may be taken after them. -/
theorem snapAt_eq (s : State) : s.snapAt = s.readsAt.withSnap s.readsValue := by
  show ((((s.withSnap s.snap).snapReadAt .core).snapReadAt .stat0).snapReadAt .stat1).snapReadAt .ext = _
  simp only [withSnap_snapReadAt, State.rdAt_cfg]
  rfl

end Sys2Proof.Machine
end

section
/-! SUPPORT. IRQ_DISPATCH undisturbed: every access of the rule's steps gives its value, and what it may
touch. -/

namespace Sys2Proof.Machine

section
variable {s t u : State} {n : Nat}

/-! ## What a dispatch may touch after its snapshot -/

/-- A register that a dispatch with the snapshot of `s` has no business with. -/
structure Untouched (s : State) (a : Nat) : Prop where
  bank : a ≠ s.cfg.bank.addr
  swrst : s.shows s.cfg.irq.clearMap.audioOverflow = true → a ≠ s.cfg.rst.swrstAddr
  ddcm : s.shows s.cfg.irq.clearMap.busHang = true → a ≠ s.cfg.ddc.ddcmAddr

/-- From `s`, which holds the snapshot, an undisturbed dispatch came to `t`: the registers it has business
with, the banks, its save latches, the draws and the bus log changed. -/
structure DispatchRun (s t : State) : Prop where
  undisturbed : Undisturbed .dispatcher t
  frame : t = { s with
    x := t.x, hwBank := t.hwBank, ctx := { s.ctx with currentBank := t.ctx.currentBank }
    disp := { s.disp with sav := t.disp.sav }, bus := t.bus, env := t.env }
  regs : ∀ a, Untouched s a → t.x.read a = s.x.read a

theorem DispatchRun.refl (h : Undisturbed .dispatcher s) : DispatchRun s s := ⟨h, rfl, fun _ _ => rfl⟩

theorem DispatchRun.cfg (h : DispatchRun s t) : t.cfg = s.cfg := by rw [h.frame]

theorem DispatchRun.snap (h : DispatchRun s t) : t.snap = s.snap := by rw [h.frame]

theorem DispatchRun.shows (h : DispatchRun s t) (row : ClearRow) : t.shows row = s.shows row := by
  rw [State.shows, h.snap, State.shows]

/-- The frame with the fields touched as unknowns. -/
theorem DispatchRun.exists (h : DispatchRun s t) : ∃ x hw b sav bus env,
    t = { s with
      x := x, hwBank := hw, ctx := { s.ctx with currentBank := b }, disp := { s.disp with sav := sav }
      bus := bus, env := env } := ⟨_, _, _, _, _, _, h.frame⟩

/-- Register traffic that keeps the untouched registers. -/
theorem DispatchRun.traffic (h : DispatchRun s t) (hu : Undisturbed .dispatcher u)
    (hf : BusFrame n t u) (hr : ∀ a, Untouched s a → u.x.read a = t.x.read a) : DispatchRun s u := by
  refine ⟨hu, ?_, fun a ha => (hr a ha).trans (h.regs a ha)⟩
  have hd : u.disp = t.disp := by rw [hf.frame]
  rw [hd]
  obtain ⟨x, hw, b, sav, bus, env, rfl⟩ := h.exists
  exact hf.frame

theorem DispatchRun.quiet (h : DispatchRun s t) (hu : Undisturbed .dispatcher u) (hq : Quiet t u) :
    DispatchRun s u := by
  obtain ⟨_, hf⟩ := hq.traffic
  exact h.traffic hu hf fun a ha => hq.regs a (h.cfg ▸ ha.bank)

/-- A register a dispatch may write: it stores nothing, or it is none of the untouched ones. -/
def MayWrite (s : State) (addr : Nat) : Prop :=
  isPlain s.cfg addr = false ∨ ∀ a, Untouched s a → a ≠ addr

/-- A write of such a register, whatever byte. -/
theorem MayWrite.storedIn {v : Byte} {addr a : Nat} (h : MayWrite s addr) (ha : Untouched s a)
    (hc : t.cfg = s.cfg) (hb : addr ≠ s.cfg.bank.addr) :
    (t.storedIn addr v).read a = t.x.read a := by
  rcases h with hp | hne
  · rw [storedIn_not_plain v (hc ▸ hb) (hc ▸ hp)]
  · exact storedIn_read_other t v (hne a ha)

theorem DispatchRun.rd (h : DispatchRun s t) {addr : Nat} (ha : addr ∈ namedAddrs s.cfg) :
    DispatchRun s (t.rdAt addr) := by
  rw [← h.cfg] at ha
  exact h.quiet (h.undisturbed.rd ha).2 (h.undisturbed.rdAt_quiet ha)

theorem DispatchRun.wr (h : DispatchRun s t) {addr : Nat} (ha : addr ∈ namedAddrs s.cfg)
    (hw : MayWrite s addr) (v : Byte) : DispatchRun s (t.wrAt addr v) := by
  have hb := (paramsOk_named (h.cfg ▸ h.undisturbed.ok) ha).2
  rw [← h.cfg] at ha
  refine h.traffic (h.undisturbed.wr ha v).2 (h.undisturbed.wrAt_traffic ha v) fun a hu => ?_
  exact (hw.storedIn hu ((switched_cfg t _).trans h.cfg) hb).trans
    (switched_read _ (h.cfg ▸ hu.bank))

theorem DispatchRun.upd (h : DispatchRun s t) {addr : Nat} (ha : addr ∈ namedAddrs s.cfg)
    (hw : MayWrite s addr) (m v : Byte) : DispatchRun s (t.updAt addr m v) := by
  have hb := (paramsOk_named (h.cfg ▸ h.undisturbed.ok) ha).2
  rw [← h.cfg] at ha
  have hr := h.undisturbed.upd ha m v
  refine h.traffic hr.2 (runPrim_frame hr.1).2 fun a hu => ?_
  exact (hw.storedIn hu ((State.rdAt_cfg t _).trans h.cfg) hb).trans
    (rdAt_read t addr (h.cfg ▸ hu.bank))

/-- A save writes a latch of the dispatcher alone (rule R35). -/
theorem DispatchRun.save (h : DispatchRun s t) (r : SaveReg) (v : Byte) :
    DispatchRun s (t.save .dispatcher r v) := by
  refine ⟨h.undisturbed.save r v, ?_, h.regs⟩
  obtain ⟨x, hw, b, sav, bus, env, rfl⟩ := h.exists
  rfl

/-- DDC_ABORT writes `DDCM`, which the bus-hang handler may (rules R145, R178). -/
theorem DispatchRun.abort (h : DispatchRun s t)
    (hshow : s.shows s.cfg.irq.clearMap.busHang = true) :
    DispatchRun s (t.abortAt .dispatcher).2 := by
  have h1 := (h.rd (addr := t.cfg.rst.swrstAddr) (by simp [h.cfg, namedAddrs])).save .swrst
    (t.rdValue t.cfg.rst.swrstAddr)
  have h2 := (h1.rd (addr := t.cfg.rst.hdcpAddr) (by simp [h.cfg, namedAddrs])).save .hdcp
    ((t.saveAt .dispatcher .swrst t.cfg.rst.swrstAddr).rdValue t.cfg.rst.hdcpAddr)
  have h3 := (h2.rd (addr := t.cfg.ddc.ddcmAddr) (by simp [h.cfg, namedAddrs])).save .ddcm
    (((t.saveAt .dispatcher .swrst t.cfg.rst.swrstAddr).saveAt .dispatcher .hdcp
      t.cfg.rst.hdcpAddr).rdValue t.cfg.ddc.ddcmAddr)
  have h4 : DispatchRun s (t.abortStart .dispatcher) :=
    h3.wr (addr := t.cfg.ddc.ddcmAddr) (by simp [h.cfg, namedAddrs])
      (.inr fun a ha => h.cfg ▸ ha.ddcm hshow) t.cfg.ddc.ddcmHost
  have h5 := h4.quiet h4.undisturbed.iterAt.1 h4.undisturbed.iterAt_quiet
  exact h5.quiet h5.undisturbed.iterAt.1 h5.undisturbed.iterAt_quiet

/-! ## The steps after the snapshot -/

/-- In a dispatch that holds the snapshot of `s` the step `f` completes and leaves what `g` says. -/
def Does (s : State) (f : State → PRes Unit) (g : State → State) : Prop :=
  ∀ t, DispatchRun s t → f t = .ok () (g t) ∧ DispatchRun s (g t)

variable {f : State → PRes Unit} {fs : List (State → PRes Unit)} {g g' : State → State}

theorem Does.nil : Does s (State.inTurn []) id := fun _ h => ⟨rfl, h⟩

theorem Does.cons (hf : Does s f g) (hfs : Does s (State.inTurn fs) g') :
    Does s (State.inTurn (f :: fs)) (g' ∘ g) := fun t h => by
  rw [State.inTurn, (hf t h).1, PRes.ok_bind]
  exact hfs (g t) (hf t h).2

theorem attempts_of_runPrim {a : AgentId} {p : Prim} {v : Byte} (h : Undisturbed a t)
    (hr : runPrim a p t = some (.ok v u)) : attempts a p t = .ok () u := by
  have hp := (runPrim_prim h.calm).symm.trans hr
  rw [attempts, State.attemptRun, Option.some.inj hp, PRes.ok_bind]

theorem does_rd {addr : Nat} (ha : addr ∈ namedAddrs s.cfg) :
    Does s (attempts .dispatcher (.rd addr)) (·.rdAt addr) := fun _ h =>
  ⟨attempts_of_runPrim h.undisturbed (h.undisturbed.rd (h.cfg ▸ ha)).1, h.rd ha⟩

theorem does_wr {addr : Nat} (ha : addr ∈ namedAddrs s.cfg) (hw : MayWrite s addr) (v : Byte) :
    Does s (attempts .dispatcher (.wr addr v)) (·.wrAt addr v) := fun _ h =>
  ⟨attempts_of_runPrim h.undisturbed (h.undisturbed.wr (h.cfg ▸ ha) v).1, h.wr ha hw v⟩

theorem does_upd {addr : Nat} (ha : addr ∈ namedAddrs s.cfg) (hw : MayWrite s addr) (m v : Byte) :
    Does s (attempts .dispatcher (.upd addr m v)) (·.updAt addr m v) := fun _ h =>
  ⟨attempts_of_runPrim h.undisturbed (h.undisturbed.upd (h.cfg ▸ ha) m v).1, h.upd ha hw m v⟩

/-- A step that runs where the snapshot shows its source. -/
theorem does_whereShown (row : ClearRow) (hf : s.shows row = true → Does s f g) :
    Does s (whereShown row f) (·.ifShown row g) := fun t h => by
  cases hshow : s.shows row with
  | true => simpa [whereShown, State.ifShown, h.shows, hshow] using hf hshow t h
  | false => simpa [whereShown, State.ifShown, h.shows, hshow] using h

/-- The clear registers store nothing (rules R72, R76). -/
theorem isPlain_clearRegister (c : Params) (src : Source) :
    isPlain c (c.irq.clearMap.row src).clearRegister = false := by
  have : (c.irq.clearMap.row src).clearRegister
      ∈ clearOrder.map fun s => (c.irq.clearMap.row s).clearRegister :=
    List.mem_map_of_mem (by cases src <;> decide)
  simp [isPlain, isTriggered, this]

theorem clearRegister_named (c : Params) (src : Source) :
    (c.irq.clearMap.row src).clearRegister ∈ namedAddrs c :=
  List.mem_append_left _ (List.mem_append_right _ (List.mem_map_of_mem (by cases src <;> decide)))

/-- One row of the clear loop (rule R173). -/
theorem does_clears (src : Source) : Does s (clears (s.cfg.irq.clearMap.row src))
    (·.clearAt (s.cfg.irq.clearMap.row src)) :=
  does_whereShown _ fun _ =>
    does_wr (clearRegister_named s.cfg src) (.inl (isPlain_clearRegister s.cfg src)) _

/-- The ext self-clear (rule R174). -/
theorem does_extClears : Does s extClears
    (fun t => if s.snap.ext = 0 then t else t.wrAt s.cfg.irq.statAddr.ext s.snap.ext) := fun t h => by
  have hw := does_wr (s := s) (addr := s.cfg.irq.statAddr.ext) (by simp [namedAddrs])
    (.inl (by simp [isPlain, isVolatile])) s.snap.ext t h
  rw [extClears, h.snap, h.cfg]
  split
  · exact ⟨rfl, h⟩
  · exact hw

/-- DDC_ABORT, its verdict ignored (rule R178). -/
theorem does_abort (hshow : s.shows s.cfg.irq.clearMap.busHang = true) :
    Does s abortsAbsorbed fun u => (u.abortAt .dispatcher).2 := fun t h => by
  refine ⟨?_, h.abort hshow⟩
  rw [abortsAbsorbed, h.undisturbed.abortRun_eq]
  cases (t.abortAt .dispatcher).1 <;> rfl

/-- The two halves of a pulse (rules R175, R179). -/
theorem does_pulses {addr : Nat} (ha : addr ∈ namedAddrs s.cfg) (hw : MayWrite s addr) (bit : Byte) :
    Does s (State.inTurn (pulses addr bit)) (·.pulseAt addr bit) :=
  (does_upd ha hw bit bit).cons <| (does_upd ha hw bit 0).cons .nil

/-- The steps of IRQ_DISPATCH between the snapshot and the pending flag. -/
def accessSteps (c : Params) : List (State → PRes Unit) :=
  [clears c.irq.clearMap.hotplug, clears c.irq.clearMap.rxSense, clears c.irq.clearMap.fifoError,
    clears c.irq.clearMap.busHang, clears c.irq.clearMap.audioOverflow,
    clears c.irq.clearMap.videoStable, extClears]
    ++ pulses c.irq.ackAddr c.irq.ackBit
    ++ [whereShown c.irq.clearMap.fifoError (attempts .dispatcher (fifoClearOf c)),
      whereShown c.irq.clearMap.busHang abortsAbsorbed,
      whereShown c.irq.clearMap.audioOverflow
        (State.inTurn (pulses c.rst.swrstAddr c.rst.swrstAudFifo)),
      whereShown c.irq.clearMap.videoStable (attempts .dispatcher (.rd c.irq.vidStableAddr))]

/-- What they leave, from the state that holds the snapshot. -/
def State.accessedAt (s : State) : State :=
  ((((s.clearsAt.pulseAt s.cfg.irq.ackAddr s.cfg.irq.ackBit).ifShown s.cfg.irq.clearMap.fifoError
    fun u => u.wrAt s.cfg.ddc.cmdAddr s.cfg.ddc.cmdFifoClr).ifShown s.cfg.irq.clearMap.busHang
    fun u => (u.abortAt .dispatcher).2).ifShown s.cfg.irq.clearMap.audioOverflow
    fun u => u.pulseAt s.cfg.rst.swrstAddr s.cfg.rst.swrstAudFifo).ifShown
    s.cfg.irq.clearMap.videoStable fun u => u.rdAt s.cfg.irq.vidStableAddr

/-- The steps between the snapshot and the pending flag complete (rules R173 to R180). -/
theorem Undisturbed.accessed (h : Undisturbed .dispatcher s) :
    State.inTurn (accessSteps s.cfg) s = .ok () s.accessedAt ∧ DispatchRun s s.accessedAt := by
  have hack : MayWrite s s.cfg.irq.ackAddr := .inl (by simp [isPlain, isTriggered])
  have mack : s.cfg.irq.ackAddr ∈ namedAddrs s.cfg := by simp [namedAddrs]
  have all :=
    (does_clears (s := s) .hotplug).cons <| (does_clears .rxSense).cons <|
    (does_clears .fifoError).cons <| (does_clears .busHang).cons <|
    (does_clears .audioOverflow).cons <| (does_clears .videoStable).cons <| does_extClears.cons <|
    (does_upd mack hack s.cfg.irq.ackBit s.cfg.irq.ackBit).cons <|
    (does_upd mack hack s.cfg.irq.ackBit 0).cons <|
    (does_whereShown s.cfg.irq.clearMap.fifoError fun _ => does_wr (addr := s.cfg.ddc.cmdAddr)
      (by simp [namedAddrs]) (.inl (isPlain_cmdAddr s.cfg)) s.cfg.ddc.cmdFifoClr).cons <|
    (does_whereShown s.cfg.irq.clearMap.busHang does_abort).cons <|
    (does_whereShown s.cfg.irq.clearMap.audioOverflow fun hshow =>
      does_pulses (addr := s.cfg.rst.swrstAddr) (by simp [namedAddrs])
        (.inr fun _ ha => ha.swrst hshow) s.cfg.rst.swrstAudFifo).cons <|
    (does_whereShown s.cfg.irq.clearMap.videoStable fun _ =>
      does_rd (addr := s.cfg.irq.vidStableAddr) (by simp [namedAddrs])).cons .nil
  exact all s (.refl h)

/-! ## The snapshot -/

theorem Undisturbed.withSnap (h : Undisturbed .dispatcher s) (p : PerGroup Byte) :
    Undisturbed .dispatcher (s.withSnap p) := h.congr rfl rfl rfl rfl rfl rfl

theorem statAddr_named (c : Params) (g : Group) : c.irq.statAddr.get g ∈ namedAddrs c := by
  cases g <;> simp [namedAddrs, PerGroup.get]

/-- One status read of the snapshot (rule R172). -/
theorem Undisturbed.snapReadAt (h : Undisturbed .dispatcher s) (g : Group) :
    snapReads g s = .ok () (s.snapReadAt g) ∧ Undisturbed .dispatcher (s.snapReadAt g) := by
  have hr := h.rd (statAddr_named s.cfg g)
  have hp := (runPrim_prim h.calm).symm.trans hr.1
  have hsnap : (s.rdAt (s.cfg.irq.statAddr.get g)).snap = s.snap := State.rdAt_snap s _
  refine ⟨?_, hr.2.withSnap _⟩
  rw [snapReads, State.attemptRun, Option.some.inj hp, PRes.ok_bind, hsnap, State.snapReadAt]

/-- The four status reads (rule R172). -/
def snapSteps : List (State → PRes Unit) :=
  [snapReads .core, snapReads .stat0, snapReads .stat1, snapReads .ext]

/-- The four status reads complete (rule R172). -/
theorem Undisturbed.snapped (h : Undisturbed .dispatcher s) :
    State.inTurn snapSteps s = .ok () s.snapAt ∧ Undisturbed .dispatcher s.snapAt := by
  obtain ⟨e1, h1⟩ := h.snapReadAt .core
  obtain ⟨e2, h2⟩ := h1.snapReadAt .stat0
  obtain ⟨e3, h3⟩ := h2.snapReadAt .stat1
  obtain ⟨e4, h4⟩ := h3.snapReadAt .ext
  refine ⟨?_, h4⟩
  simp only [snapSteps, State.inTurn, e1, e2, e3, e4, PRes.ok_bind]
  rfl

/-- The status reads change no register but possibly the bank select. -/
theorem Undisturbed.readsAt_quiet (h : Undisturbed .dispatcher s) : Quiet s s.readsAt := by
  have h1 := (h.rd (statAddr_named s.cfg .core)).2
  have m2 : s.cfg.irq.statAddr.stat0 ∈ namedAddrs (s.rdAt s.cfg.irq.statAddr.core).cfg := by
    simp [namedAddrs]
  have h2 := (h1.rd m2).2
  have m3 : s.cfg.irq.statAddr.stat1
      ∈ namedAddrs ((s.rdAt s.cfg.irq.statAddr.core).rdAt s.cfg.irq.statAddr.stat0).cfg := by
    simp [namedAddrs]
  have h3 := (h2.rd m3).2
  exact ((h.rdAt_quiet (statAddr_named s.cfg .core)).trans
    ((h1.rdAt_quiet m2).trans (h2.rdAt_quiet m3))).trans
      (h3.rdAt_quiet (by simp [namedAddrs]))

/-! ## The whole dispatch -/

theorem State.inTurn_append (fs gs : List (State → PRes Unit)) (s : State) :
    State.inTurn (fs ++ gs) s = (State.inTurn fs s).bind fun _ t => State.inTurn gs t := by
  induction fs generalizing s with
  | nil => rfl
  | cons f fs ih =>
    simp only [List.cons_append, State.inTurn, PRes.bind_assoc, ih]

theorem State.ifShown_cfg (row : ClearRow) (hg : ∀ u : State, (g u).cfg = u.cfg) :
    (s.ifShown row g).cfg = s.cfg := by
  unfold State.ifShown
  split
  · exact hg s
  · rfl

theorem snapAt_cfg (s : State) : s.snapAt.cfg = s.cfg := by
  simp [snapAt_eq, State.withSnap, State.readsAt]

theorem clearsAt_cfg (s : State) : s.clearsAt.cfg = s.cfg := by
  have hrow : ∀ (u : State) (row : ClearRow), (u.clearAt row).cfg = u.cfg := fun u row =>
    State.ifShown_cfg (g := fun u => u.wrAt row.clearRegister row.clearBit) row
      fun u => State.wrAt_cfg u _ _
  unfold State.clearsAt
  split
  · simp only [hrow]
  · simp only [State.wrAt_cfg, hrow]

/-- The rule's effect: the snapshot, the accesses, the pending flag (rule R170). -/
theorem dispatchAt_eq (s : State) : s.dispatchAt
    = s.snapAt.accessedAt.ifShown s.cfg.irq.clearMap.hotplug State.setPending := by
  have hcfg : (s.snapAt.clearsAt.pulseAt s.cfg.irq.ackAddr s.cfg.irq.ackBit).cfg = s.cfg := by
    simp only [State.pulseAt, State.updAt_cfg, clearsAt_cfg, snapAt_cfg]
  simp only [State.dispatchAt, State.handlersAt, State.accessedAt, hcfg, snapAt_cfg]

theorem dispatchSteps_eq (c : Params) : dispatchSteps c
    = snapSteps ++ (accessSteps c ++
      [whereShown c.irq.clearMap.hotplug fun s => .ok () s.setPending]) := rfl

/-- Undisturbed, the steps of a dispatch complete (rule R170). -/
theorem Undisturbed.dispatched (h : Undisturbed .dispatcher s) :
    State.inTurn (dispatchSteps s.cfg) s = .ok () s.dispatchAt := by
  obtain ⟨hsnap, hu⟩ := h.snapped
  have hacc := hu.accessed.1
  rw [snapAt_cfg] at hacc
  rw [dispatchSteps_eq, State.inTurn_append, hsnap, PRes.ok_bind, State.inTurn_append, hacc,
    PRes.ok_bind, dispatchAt_eq]
  simp only [State.inTurn, whereShown, State.ifShown]
  split <;> rfl

end

end Sys2Proof.Machine
end

section
/-! SUPPORT. The statements on IRQ_DISPATCH: the rule's effect, what it touches, and a snapshot that shows
hotplug alone. -/

namespace Sys2Proof.Machine

/-! ## The running flag -/

section
variable {b : Bool} {g : State → State}

theorem running_ifShown (s : State) (row : ClearRow)
    (hg : ∀ u : State, g (u.running b) = (g u).running b) :
    (s.running b).ifShown row g = (s.ifShown row g).running b := by
  simp only [State.ifShown, hg]
  show (if s.shows row = true then _ else _) = _
  split <;> rfl

theorem running_clearAt (s : State) (row : ClearRow) :
    (s.running b).clearAt row = (s.clearAt row).running b :=
  running_ifShown (g := (·.wrAt row.clearRegister row.clearBit)) s row
    fun u => (outside_running b).wrAt u _ _

theorem running_snapAt (s : State) : (s.running b).snapAt = s.snapAt.running b := by
  have h := outside_running b
  simp only [snapAt_eq, State.readsAt, State.readsValue, h.cfg, h.rdAt, h.rdValue]
  rfl

theorem running_clearsAt (s : State) : (s.running b).clearsAt = s.clearsAt.running b := by
  have h := outside_running b
  simp only [State.clearsAt, h.cfg, running_clearAt, h.wrAt]
  show (if s.snap.ext = 0 then _ else _) = _
  split <;> rfl

theorem running_accessedAt (s : State) : (s.running b).accessedAt = s.accessedAt.running b := by
  have h := outside_running b
  simp only [State.accessedAt, h.cfg, running_clearsAt, h.pulseAt]
  rw [running_ifShown _ _ fun u => h.wrAt u _ _, running_ifShown _ _ fun u => by rw [h.abortAt],
    running_ifShown _ _ fun u => h.pulseAt u _ _, running_ifShown _ _ fun u => h.rdAt u _]

/-- The effect of a dispatch does not depend on its running flag. -/
theorem running_dispatchAt (s : State) : (s.running b).dispatchAt = s.dispatchAt.running b := by
  rw [dispatchAt_eq, running_snapAt, running_accessedAt, (outside_running b).cfg,
    running_ifShown (g := State.setPending) _ _ fun _ => rfl, dispatchAt_eq]

end

/-! ## The frame of a dispatch -/

/-- What a dispatch leaves: register traffic, the snapshot, the save latches, and the pending flag where
the snapshot shows the hotplug bit (rules R170, R181). -/
structure Dispatched (s t : State) : Prop where
  frame : t = { s with
    x := t.x, hwBank := t.hwBank
    ctx := { s.ctx with
      currentBank := t.ctx.currentBank
      hotplugPending := s.ctx.hotplugPending || asserted s.cfg.irq t.snap .hotplug }
    snap := t.snap, disp := { s.disp with sav := t.disp.sav }, bus := t.bus, env := t.env }
  banks : t.ctx.currentBank = t.hwBank
  regs : ∀ a, a ≠ s.cfg.bank.addr →
    (asserted s.cfg.irq t.snap .audioOverflow = true → a ≠ s.cfg.rst.swrstAddr) →
    (asserted s.cfg.irq t.snap .busHang = true → a ≠ s.cfg.ddc.ddcmAddr) →
    t.x.read a = s.x.read a

/-- The pending flag rises where the snapshot shows the hotplug bit (rule R181). -/
theorem ifShown_setPending (t : State) (row : ClearRow) :
    t.ifShown row State.setPending
      = { t with ctx := { t.ctx with hotplugPending := t.ctx.hotplugPending || t.shows row } } := by
  unfold State.ifShown
  cases hshow : t.shows row with
  | true => simp [State.setPending]
  | false => simp

theorem Undisturbed.dispatchAt {s : State} (h : Undisturbed .dispatcher s) :
    Dispatched s s.dispatchAt := by
  have hq := h.readsAt_quiet
  obtain ⟨_, hf⟩ := hq.traffic
  have hr := h.snapped.2.accessed.2
  rw [dispatchAt_eq, ifShown_setPending]
  refine ⟨?_, hr.undisturbed.fine.2.1, fun a hb hsw hdd => ?_⟩
  · rw [hr.shows]
    obtain ⟨x, hw, b, sav, bus, env, he⟩ := hr.exists
    rw [he, snapAt_eq, hf.frame]
    rfl
  · have hsnap := hr.snap
    have hun : Untouched s.snapAt a := by
      refine ⟨snapAt_cfg s ▸ hb, fun hshow => ?_, fun hshow => ?_⟩
      · rw [snapAt_cfg] at hshow ⊢
        exact hsw (hsnap ▸ hshow)
      · rw [snapAt_cfg] at hshow ⊢
        exact hdd (hsnap ▸ hshow)
    refine (hr.regs a hun).trans ?_
    rw [snapAt_eq]
    exact hq.regs a hb

/-! ## The statements -/

theorem disp_pos_of_idle {s : State} (h : s.idle .dispatcher = true) : s.disp.pos = [] :=
  List.isEmpty_iff.mp h

/-- IRQ_DISPATCH alone and undisturbed has the effect the rule gives. -/
theorem execIrqDispatch_undisturbed {s : State} (hrun : s.dispRunning = false)
    (hid : s.idle .dispatcher = true) (h : Undisturbed .dispatcher s) :
    exec .irqDispatch s = .next s.dispatchAt := by
  have hu : Undisturbed .dispatcher (s.running true) := h.congr rfl rfl rfl rfl rfl rfl
  have hsteps : State.inTurn (dispatchSteps s.cfg) (s.running true)
      = .ok () (s.dispatchAt.running true) := hu.dispatched.trans (by rw [running_dispatchAt])
  have hr : s.dispatchAt.dispRunning = false := by rw [h.dispatchAt.frame]; exact hrun
  have hd : s.dispatchAt.disp.pos = [] := by rw [h.dispatchAt.frame]; exact disp_pos_of_idle hid
  refine (execIrqDispatch_eq hrun hid h.calm.2.2 h.calm.2.1 h.ok).trans ?_
  show dispatchOutcome (State.inTurn (dispatchSteps s.cfg) (s.running true)) = _
  rw [hsteps]
  show Host.Outcome.next { s.dispatchAt with
    dispRunning := false, disp := { s.dispatchAt.disp with pos := [] } } = _
  rw [← hr, ← hd]

/-- Settles O46: the dispatcher's program performs the rule's steps, and undisturbed each of them gives
its value. -/
theorem dispatchFollowsItsRule : Obligations.DispatchFollowsItsRule := fun _ hrun hid hl ha hp =>
  ⟨fun hf => execIrqDispatch_undisturbed hrun hid ⟨⟨rfl, ha, hl⟩, hf, hp⟩,
    execIrqDispatch_eq hrun hid hl ha hp⟩

/-- Settles O44: of the rule's steps only the bus-hang and the audio-overflow handler write a register
that stores what is written. -/
theorem irqDispatchCompletes : Obligations.IrqDispatchCompletes := by
  intro s hrun hid hl ha hf hp
  have hu : Undisturbed .dispatcher s := ⟨⟨rfl, ha, hl⟩, hf, hp⟩
  have hd := hu.dispatchAt
  refine ⟨s.dispatchAt, execIrqDispatch_undisturbed hrun hid hu, ?_, hd.banks, hd.regs⟩
  rw [← disp_pos_of_idle hid]
  exact hd.frame

/-! ## Hotplug alone -/

@[simp] theorem State.shows_wrAt (s : State) (addr : Nat) (v : Byte) (row : ClearRow) :
    (s.wrAt addr v).shows row = s.shows row := by rw [State.shows, State.wrAt_snap, State.shows]

@[simp] theorem State.shows_updAt (s : State) (addr : Nat) (m v : Byte) (row : ClearRow) :
    (s.updAt addr m v).shows row = s.shows row := by rw [State.shows, State.updAt_snap, State.shows]

/-- A snapshot of hotplug alone: its clear write and the acknowledge pulse, no handler's access. -/
theorem accessedAt_hotplug {s : State} (hext : s.snap.ext = 0)
    (hshow : ∀ src, s.shows (s.cfg.irq.clearMap.row src) = decide (src = .hotplug)) :
    s.accessedAt = (s.wrAt s.cfg.irq.clearMap.hotplug.clearRegister
      s.cfg.irq.clearMap.hotplug.clearBit).pulseAt s.cfg.irq.ackAddr s.cfg.irq.ackBit := by
  have h1 : s.shows s.cfg.irq.clearMap.hotplug = true := hshow .hotplug
  have h2 : s.shows s.cfg.irq.clearMap.rxSense = false := hshow .rxSense
  have h3 : s.shows s.cfg.irq.clearMap.fifoError = false := hshow .fifoError
  have h4 : s.shows s.cfg.irq.clearMap.busHang = false := hshow .busHang
  have h5 : s.shows s.cfg.irq.clearMap.audioOverflow = false := hshow .audioOverflow
  have h6 : s.shows s.cfg.irq.clearMap.videoStable = false := hshow .videoStable
  simp [State.accessedAt, State.clearsAt, State.clearAt, State.ifShown, State.pulseAt, hext, h1, h2, h3,
    h4, h5, h6]

/-- Settles O45: the rule's effect for that snapshot, which may be taken after the accesses. -/
theorem hotplugOnlyDispatch : Obligations.HotplugOnlyDispatch := by
  rintro s _ _ _ _ snap hrun hid hl ha hf hp rfl rfl rfl rfl hsnap hshow hext
  have hat : s.snapAt = s.readsAt.withSnap snap := hsnap ▸ snapAt_eq s
  have hcfg : (s.readsAt.withSnap snap).cfg = s.cfg := hat ▸ snapAt_cfg s
  have hout := outside_withSnap snap
  have hacc := accessedAt_hotplug (s := s.readsAt.withSnap snap) hext
    (fun src => (congrArg (fun c : Params => (s.readsAt.withSnap snap).shows (c.irq.clearMap.row src))
      hcfg).trans (hshow src))
  rw [execIrqDispatch_undisturbed hrun hid ⟨⟨rfl, ha, hl⟩, hf, hp⟩, dispatchAt_eq, hat, hacc, hcfg,
    State.ifShown, if_pos, hout.wrAt, hout.pulseAt]
  · rfl
  · rw [State.pulseAt, State.shows_updAt, State.shows_updAt, State.shows_wrAt]
    exact hshow .hotplug

end Sys2Proof.Machine
end

section
/-! SUPPORT. The run of HPD_TASK whose read completes: the sample of the detect bit, the status it gives,
and the notification of a change. -/

namespace Sys2Proof.Machine

/-- A position of an agent is nothing that step C of HPD_TASK looks at or changes. -/
theorem updateConnector_setPos (s : State) (new : ConnStatus) (a : AgentId) (k : List Stmt) :
    (s.setPos a k).updateConnector new = (s.updateConnector new).setPos a k := by
  rcases a with (_ | i) | _ | _ <;> rfl

/-- Step B whose read completes samples the detect bit for step C (rules R191, R193). -/
theorem stmtStep_hpdRead {a : AgentId} {s t : State} {v : Byte}
    (h : runPrim a (.rd s.cfg.irq.hpdDetAddr) s = some (.ok v t)) (k : List Stmt) :
    stmtStep a .hpdRead (s.setPos a k) = .go [.hpdUpdate (hpdLevel t.cfg.irq v)] (t.setPos a k) := by
  simp only [stmtStep, stepHpdRead, withPrim, State.setPos_cfg, runPrim_setPos, h, Option.map_some,
    PRes.onState]

/-- What steps B and C of HPD_TASK leave: the detect bit was read and the status is what it says
(rules R191, R193, R194). -/
def State.sampledAt (s : State) : State :=
  (s.rdAt s.cfg.irq.hpdDetAddr).updateConnector
    (connOf (hpdLevel s.cfg.irq (s.rdValue s.cfg.irq.hpdDetAddr)))

/-- Steps B, C and D of an undisturbed HPD_TASK (rule R191). -/
theorem chain_taskProgram {s : State} (h : Calm .task s) (hf : Fine s)
    (hreg : isRegister s.cfg.irq.hpdDetAddr = true) : Chain .task 3 taskProgram s s.sampledAt := by
  have hread := runPrim_rd .task hf h.2.2 hreg
  have hcalm : Calm .task (s.rdAt s.cfg.irq.hpdDetAddr) := h.of_prim hread
  have hsampled : Calm .task s.sampledAt := hcalm
  have hclose : Chain .task 1 [.close] s.sampledAt s.sampledAt :=
    .cons (push := []) (fun _ => rfl) rfl hsampled (.nil hsampled)
  have hupdate : Chain .task 2
      [.hpdUpdate (hpdLevel s.cfg.irq (s.rdValue s.cfg.irq.hpdDetAddr)), .close]
      (s.rdAt s.cfg.irq.hpdDetAddr) s.sampledAt :=
    .cons (push := []) (fun _ => congrArg (StepRes.go []) (updateConnector_setPos ..)) rfl hsampled hclose
  refine .cons (push := [_]) (fun k => ?_) rfl hcalm hupdate
  rw [stmtStep_hpdRead hread, State.rdAt_cfg]

/-- Step A changes nothing that a register access looks at (rule R192). -/
theorem outside_enterTask (k : List Stmt) : Outside (State.enterTask · k) :=
  ⟨fun _ => rfl, fun _ => rfl, fun _ _ => rfl, fun _ _ => rfl, fun _ _ _ => rfl, fun _ _ _ _ => rfl,
    fun _ _ _ => rfl⟩

/-- Steps B and C look at nothing that step A changes, and change none of it. -/
theorem enterTask_sampledAt (s : State) (k : List Stmt) :
    (s.enterTask k).sampledAt = s.sampledAt.enterTask k := by
  simp only [State.sampledAt, State.enterTask_cfg, enterTask_rdAt, (outside_enterTask k).rdValue]
  rfl

/-- Steps A and D of HPD_TASK: together they lower the pending flag and leave the rest (rules R191, R192). -/
theorem endOp_enterTask {s : State} (hrun : s.taskRunning = false) (hpos : s.task.pos = [])
    (r : Response) (k : List Stmt) :
    endOp .task r (s.enterTask k) = { s with ctx := { s.ctx with hotplugPending := false } } := by
  have hseq : { s.task with pos := [] } = s.task := by rw [← hpos]
  simp only [endOp, State.enterTask, hrun, hseq]

/-- HPD_TASK alone and undisturbed: the pending flag falls, the detect bit is sampled. -/
theorem execHpdTask_undisturbed {s : State} (hrun : s.taskRunning = false)
    (hid : s.idle .task = true) (hl : s.ctx.lock = none) (ha : Alone s) (hf : Fine s)
    (hreg : isRegister s.cfg.irq.hpdDetAddr = true) :
    exec .hpdTask s = .next { s.sampledAt with
      ctx := { s.sampledAt.ctx with hotplugPending := false } } := by
  have hchain := chain_taskProgram (s := s.enterTask []) ⟨rfl, ha, hl⟩ hf hreg
  have hbound : 3 ≤ driveBound s.cfg := by unfold driveBound; omega
  have hrun' : s.sampledAt.taskRunning = false := by simpa [State.sampledAt] using hrun
  have hpos : s.sampledAt.task.pos = [] := by
    simpa [State.sampledAt, State.idle, State.pos, State.seqOf] using hid
  calc exec .hpdTask s
      = drive .task (driveBound s.cfg) (s.enterTask taskProgram) :=
        exec_hpdTask_alone hrun hid hl ha
    _ = .next (endOp .task ⟨.ok, 0⟩ (s.enterTask []).sampledAt) :=
        hchain.ends (List.cons_ne_nil _ _) _ hbound
    _ = _ := by rw [enterTask_sampledAt, endOp_enterTask hrun' hpos]

/-- A read keeps the connector status (rule R121). -/
theorem rdAt_connectorStatus (s : State) (addr : Nat) :
    (s.rdAt addr).ctx.connectorStatus = s.ctx.connectorStatus := by
  rw [State.rdAt, State.didRead_ctx, switched_ctx]

/-- The status the detect bit gives (rule R193). -/
theorem connOf_hpdLevel (q : IrqParams) (v : Byte) :
    connOf (hpdLevel q v) = if v &&& q.hpdDetBit ≠ 0 then .connected else .disconnected := by
  simp only [connOf, hpdLevel, decide_eq_true_eq]

/-- Settles O48: what the sample leaves, with its status written out. -/
theorem hpdTaskSamplesAndNotifiesOnChange : Obligations.HpdTaskSamplesAndNotifiesOnChange := by
  rintro s _ hrun hid hl ha hf hreg rfl
  rw [execHpdTask_undisturbed hrun hid hl ha hf hreg, ← connOf_hpdLevel]
  simp only [State.sampledAt, State.updateConnector, rdAt_connectorStatus, State.rdAt_events]

end Sys2Proof.Machine
end


section
/-! SUPPORT. The tables and derivations of the bridge sequencer: the colour conversion, its matrix
and control byte, as the model picks them and as the rules give them; the video derivations. -/

namespace Sys2Proof.Machine

/-! ## The colour conversion (rules R218 to R222) -/

/-- The `csc_op` table is the one the rules give. -/
theorem cscOp_eq_cscCell (inMode outMode : ColorMode) :
    cscOp inMode outMode = cscCell inMode outMode := by
  cases inMode <;> cases outMode <;> rfl

/-- Unset shares the matrices of ITU601 (rule R220, D42). -/
theorem pick_eq_matrixBy (m : MatrixSet) (c : Colorimetry) (limited : Bool) :
    MatrixSet.pick m c limited = matrixBy m c limited := by
  cases c <;> cases limited <;> rfl

theorem cscOpEnc_eq (b : BridgeParams) (op : CscOp) : cscOpEnc b op
    = if op = .rgb2yuv then b.cscRgb2Yuv
      else if op = .yuv2rgb then b.cscYuv2Rgb else b.cscBypass := by
  cases op <;> rfl

theorem cscCtrl_eq_ctrlBy (b : BridgeParams) (inMode outMode : ColorMode) :
    cscCtrl b inMode outMode = ctrlBy b inMode outMode := by
  rw [cscCtrl, cscOpEnc_eq, cscOp_eq_cscCell, ctrlBy]

/-- The matrix step of CSC_CFG, operation by operation. -/
theorem matrixSteps_eq (b : BridgeParams) (op : CscOp) (c : Colorimetry) (limited : Bool) :
    matrixSteps b op c limited
      = ((cscMatrix b op c limited).map fun m => Prim.bwr b.cscCoefAddr m).toList := by
  cases op with
  | bypass => rfl
  | rgb2yuv => simp [matrixSteps, cscMatrix, pick_eq_matrixBy]
  | yuv2rgb => simp [matrixSteps, cscMatrix, pick_eq_matrixBy]

/-- Settles O56: the nine cells by evaluation, then CSC_CFG at each operation of the table. -/
theorem cscCfgBypassAndConversion : Obligations.CscCfgBypassAndConversion := by
  intro c limited s
  refine ⟨rfl, ?_⟩
  simp only [State.cscAt, matrixSteps_eq, ← cscCtrl_eq_ctrlBy, ← cscOp_eq_cscCell, cscCtrl]
  cases cscOp s.latches.cfgInMode s.latches.cfgOutMode with
  | bypass => rfl
  | rgb2yuv => cases c <;> cases limited <;> rfl
  | yuv2rgb => cases c <;> cases limited <;> rfl

/-! ## The video derivations (rules R213 to R215) -/

theorem highClock_iff (l : Latches) :
    highClock l = true ↔ (l.dmPixrep.toNat + 1) * l.dmClockKhz.toNat > 80000 := by
  have e : highClockHz = 80000000 := rfl
  simp only [highClock, decide_eq_true_eq]
  omega

theorem deriveColorimetry_eq_itu709 (l : Latches) :
    deriveColorimetry l = .itu709 ↔ l.dmWidth.toNat * 9 = l.dmHeight.toNat * 16 := by
  unfold deriveColorimetry
  split_ifs <;> simp_all

theorem deriveColorimetry_eq_itu601 (l : Latches) : deriveColorimetry l = .itu601 ↔
    l.dmWidth.toNat * 9 ≠ l.dmHeight.toNat * 16 ∧ l.dmWidth.toNat * 3 = l.dmHeight.toNat * 4 := by
  unfold deriveColorimetry
  split_ifs <;> simp_all

theorem limitedRange_iff (l : Latches) : limitedRange l = true ↔
    l.dmWidth = 640 ∧ l.dmHeight = 480 ∧ l.dmRefresh = 60 ∧ l.dmProgressive = 1 := by
  simp only [limitedRange, decide_eq_true_eq, BitVec.toNat_eq]
  rfl

/-- Settles O54: 640 x 480 is 4:3 and not 16:9. -/
theorem videoDerivations : Obligations.VideoDerivations := by
  intro l
  refine ⟨highClock_iff l, deriveColorimetry_eq_itu709 l, deriveColorimetry_eq_itu601 l,
    limitedRange_iff l, fun h => ?_⟩
  obtain ⟨hw, hh, -, -⟩ := (limitedRange_iff l).mp h
  rw [deriveColorimetry_eq_itu601, hw, hh]
  decide

end Sys2Proof.Machine
end


section
/-! SUPPORT. The run of a bridge operation, whichever transactions fail: it does the steps the rules
list, one after the other, up to the first that raises. -/

namespace Sys2Proof.Machine

/-! ## The steps one after the other -/

/-- The steps of a bridge sequence, up to the first primitive that raises (rule R210, D38). -/
def State.stepsRun : List BridgeStep → State → PRes Byte
  | [], s => .ok 0 s
  | .prim p :: l, s => (primBody p s).bind fun _ t => State.stepsRun l t
  | .needCsc b :: l, s => State.stepsRun l (s.setNeedCsc b)

/-- The statement that does a step. -/
def BridgeStep.stmt : BridgeStep → Stmt
  | .prim p => .prim p
  | .needCsc b => .setNeedCsc b

theorem stepsRun_append (l l' : List BridgeStep) (s : State) :
    s.stepsRun (l ++ l') = (s.stepsRun l).bind fun _ t => t.stepsRun l' := by
  induction l generalizing s with
  | nil => rfl
  | cons x l ih =>
    cases x with
    | prim p =>
      show (primBody p s).bind (fun _ t => t.stepsRun (l ++ l')) = _
      simp only [ih]
      exact (PRes.bind_assoc _ _ _).symm
    | needCsc b => exact ih (s.setNeedCsc b)

theorem afterAbsorb_cons {x : Stmt} (hx : x ≠ .absorb) (k : List Stmt) :
    afterAbsorb (x :: k) = afterAbsorb k := by
  cases x with
  | absorb => exact absurd rfl hx
  | _ => rfl

/-! ## A statement that does a step -/

section
variable {a : AgentId} {q : PortId} {n m : Nat} {s t : State} {x : Stmt} {p : Prim} {k : List Stmt}
  {l : List BridgeStep}

theorem Calm.of_bus (h : Calm a s) (hf : BusFrame n s t) : Calm a t := by
  refine ⟨?_, hf.sched.trans h.2.1, ?_⟩
  · rw [hf.frame]
    rcases a with (_ | i) | _ | _ <;> exact h.1
  · rw [hf.frame]
    exact h.2.2

theorem Calm.setNeedCsc (h : Calm a s) (b : Bool) : Calm a (s.setNeedCsc b) := by
  refine ⟨?_, h.2.1, h.2.2⟩
  rcases a with (_ | i) | _ | _ <;> exact h.1

theorem setNeedCsc_setPos (s : State) (b : Bool) (a : AgentId) (k : List Stmt) :
    (s.setPos a k).setNeedCsc b = (s.setNeedCsc b).setPos a k := by
  rcases a with (_ | i) | _ | _ <;> rfl

/-- The statement calls the primitive and goes on. -/
def Calls (a : AgentId) (x : Stmt) (p : Prim) (s : State) : Prop :=
  ∀ k, stmtStep a x (s.setPos a k) = callPrim a p (s.setPos a k) fun _ t => .go [] t

/-- A statement that calls the primitive of the next step: the port's run goes on with the other
steps, or answers the error the primitive raised. -/
theorem EndsIn.callStep (hs : Calm (.port q) s) (hx : Calls (.port q) x p s)
    (hk : afterAbsorb k = none)
    (h : ∀ t, BusFrame 3 s t → GoesOn (.port q) n k t ((t.stepsRun l).reply q)) :
    EndsIn (.port q) (n + 1) (x :: k) s ((s.stepsRun (.prim p :: l)).reply q) := by
  have hf := primBody_frame p s
  have hr := runPrim_eq_primBody (a := .port q) (p := p) hs.2.2
  rw [State.stepsRun]
  cases hb : primBody p s with
  | ok v t =>
    rw [hb] at hf hr
    refine EndsIn.go hs.1 (push := []) (fun k => ?_) (hs.of_bus hf) (h t hf)
    simp [hx k, callPrim, withPrim, runPrim_setPos, hr, PRes.onState]
  | err e t =>
    rw [hb] at hf hr
    refine EndsIn.raise hs.1 (e := e) (fun k => ?_) (hs.of_bus hf) ?_
    · simp [hx k, callPrim, withPrim, runPrim_setPos, hr, PRes.onState]
    · rw [Raised, hk]
      rfl
  | stop r =>
    rw [hb] at hr
    refine EndsIn.stop hs.1 (fun k => ?_) rfl
    simp [hx k, callPrim, withPrim, runPrim_setPos, hr, PRes.onState]

/-! ## Programs that do steps -/

/-- A state of the operation that port `s.active` started in `s`: the configuration and the latches
are those it started with. -/
structure Within (s t : State) : Prop where
  calm : Calm (.port s.active) t
  cfg : t.cfg = s.cfg
  latches : t.latches = s.latches

/-- In the operation started in `s`, the program `k` does the steps `l` in at most `n` statements.
-/
structure Follows (s : State) (n : Nat) (k : List Stmt) (l : List BridgeStep) : Prop where
  unabsorbed : afterAbsorb k = none
  runs : ∀ t, Within s t → GoesOn (.port s.active) n k t ((t.stepsRun l).reply s.active)

theorem Within.of_bus {u : State} (h : Within s t) (hf : BusFrame n t u) : Within s u :=
  ⟨h.calm.of_bus hf, by rw [hf.frame]; exact h.cfg, by rw [hf.frame]; exact h.latches⟩

theorem Follows.mono (h : Follows s m k l) (hn : m ≤ n) : Follows s n k l :=
  ⟨h.unabsorbed, fun t ht => (h.runs t ht).mono hn⟩

theorem Follows.nil (s : State) : Follows s 0 [] [] := ⟨rfl, fun _ _ => rfl⟩

/-- The first statement of an operation, which may look at anything of the state. -/
theorem Follows.first (h : Follows s n k l) (hs : Within s s) (hx : Calls (.port s.active) x p s) :
    EndsIn (.port s.active) (n + 1) (x :: k) s ((s.stepsRun (.prim p :: l)).reply s.active) :=
  EndsIn.callStep hs.calm hx h.unabsorbed fun t ht => h.runs t (hs.of_bus ht)

theorem Follows.call (h : Follows s n k l) (hne : x ≠ .absorb)
    (hx : ∀ t, Within s t → Calls (.port s.active) x p t) :
    Follows s (n + 1) (x :: k) (.prim p :: l) := by
  refine ⟨(afterAbsorb_cons hne k).trans h.unabsorbed, fun t ht => .of_endsIn ?_ (by simp)⟩
  exact EndsIn.callStep ht.calm (hx t ht) h.unabsorbed fun u hu => h.runs u (ht.of_bus hu)

theorem Follows.step (h : Follows s n k l) (x : BridgeStep) :
    Follows s (n + 1) (x.stmt :: k) (x :: l) := by
  cases x with
  | prim p => exact h.call nofun fun _ _ _ => rfl
  | needCsc b =>
    refine ⟨h.unabsorbed, fun t ht => .of_endsIn ?_ (by simp [BridgeStep.stmt])⟩
    have hu : Within s (t.setNeedCsc b) := ⟨ht.calm.setNeedCsc b, ht.cfg, ht.latches⟩
    exact EndsIn.go ht.calm.1 (push := []) (fun k => by
      simp only [BridgeStep.stmt, stmtStep, setNeedCsc_setPos]) hu.calm (h.runs _ hu)

theorem Follows.steps (h : Follows s n k l) (l' : List BridgeStep) :
    Follows s (l'.length + n) (l'.map BridgeStep.stmt ++ k) (l' ++ l) := by
  induction l' with
  | nil => exact h.mono (Nat.le_add_left ..)
  | cons x l' ih => exact (ih.step x).mono (by simp)

/-- A statement that unfolds to others. -/
theorem Follows.unfold {push : List Stmt} (h : Follows s n (push ++ k) l) (hne : x ≠ .absorb)
    (hk : afterAbsorb k = none)
    (hx : ∀ t, Within s t → ∀ q,
      stmtStep (.port s.active) x (t.setPos (.port s.active) q)
        = .go push (t.setPos (.port s.active) q)) :
    Follows s (n + 1) (x :: k) l :=
  ⟨(afterAbsorb_cons hne k).trans hk, fun t ht =>
    .of_endsIn (.go ht.calm.1 (hx t ht) ht.calm (h.runs t ht)) (by simp)⟩

end

/-! ## The programs of the bridge sequencer -/

section
variable {s : State} {n : Nat} {k : List Stmt} {l : List BridgeStep}

/-- The program CSC_CFG unfolds to (rule R218). -/
theorem cscProgram_eq (s : State) (c : Colorimetry) (limited : Bool) :
    cscProgram s.cfg.bridge s.latches.cfgInMode s.latches.cfgOutMode c limited
      = (cscSteps s c limited).map BridgeStep.stmt := by
  unfold cscProgram cscSteps
  rw [cscCtrl_eq_ctrlBy, matrixSteps_eq, ← cscOp_eq_cscCell]
  cases cscMatrix s.cfg.bridge (cscOp s.latches.cfgInMode s.latches.cfgOutMode) c limited <;> rfl

theorem length_matrixSteps (b : BridgeParams) (op : CscOp) (c : Colorimetry) (limited : Bool) :
    (matrixSteps b op c limited).length ≤ 1 := by
  rw [matrixSteps_eq]
  cases cscMatrix b op c limited <;> simp

theorem length_cscSteps (s : State) (c : Colorimetry) (limited : Bool) :
    (cscSteps s c limited).length ≤ 3 := by
  have hmatrix := length_matrixSteps s.cfg.bridge
    (cscCell s.latches.cfgInMode s.latches.cfgOutMode) c limited
  simp only [cscSteps, List.length_append, List.length_map, List.length_cons, List.length_nil]
  omega

theorem Follows.csc (h : Follows s n k l) (c : Colorimetry) (limited : Bool) :
    Follows s (n + 4) (.csc c limited :: k) (cscSteps s c limited ++ l) := by
  have hlen := length_cscSteps s c limited
  have hsteps := (h.steps (cscSteps s c limited)).mono (n := n + 3) (by omega)
  refine hsteps.unfold nofun h.unabsorbed fun t ht q => ?_
  rw [← cscProgram_eq, ← ht.cfg, ← ht.latches]
  simp only [stmtStep, stepCsc, State.setPos_cfg, State.setPos_latches]

/-- The AFE updates (rule R217). -/
theorem follows_afe (s : State) (high : Bool) :
    Follows s s.cfg.bridge.afeTable.length (afeProgram s.cfg.bridge high)
      (s.cfg.bridge.afeTable.map fun r =>
        .prim (.upd r.addr r.mask (if high then r.valHigh else r.valLow))) := by
  have h := (Follows.nil s).steps (s.cfg.bridge.afeTable.map fun r =>
    .prim (.upd r.addr r.mask (if high then r.valHigh else r.valLow)))
  simp only [List.append_nil, List.map_map, List.length_map, Nat.add_zero] at h
  exact h

/-- VID_EN unfolds to the input mode, CSC_CFG and the AFE updates (rule R212). -/
theorem follows_vidEn (s : State) :
    Follows s (s.cfg.bridge.afeTable.length + 6) [.vidEn] (vidSteps s) := by
  have hcsc := (follows_afe s (highClock s.latches)).csc (deriveColorimetry s.latches)
    (limitedRange s.latches)
  have hmode := hcsc.call (x := .inMode) (p := .upd s.cfg.bridge.inModeAddr s.cfg.bridge.inModeMask
    (s.cfg.bridge.inModeEnc.get s.latches.cfgInMode)) nofun fun t ht q => by
      rw [← ht.cfg, ← ht.latches]
      simp only [stmtStep, stepInMode, State.setPos_cfg, State.setPos_latches]
  have hprogram : Follows s (s.cfg.bridge.afeTable.length + 5)
      (([.inMode, .csc (deriveColorimetry s.latches) (limitedRange s.latches)]
        ++ afeProgram s.cfg.bridge (highClock s.latches)) ++ []) (vidSteps s) := by
    simpa [vidSteps] using hmode
  refine hprogram.unfold nofun rfl fun t ht q => ?_
  rw [← ht.cfg, ← ht.latches]
  simp only [stmtStep, stepVidEn, State.setPos_cfg, State.setPos_latches]

/-- What MODE_SET does between its mode bit and VID_EN: the two bursts and the checksum (rules R208,
R209). -/
def infoframeSteps (b : BridgeParams) (csum : Byte) (d : List Byte) : List BridgeStep :=
  .prim (.bwr b.aviAAddr (d.take 5))
    :: (if 5 < d.length then [.prim (.bwr b.aviBAddr (d.drop 5))] else [])
    ++ [.prim (.wr b.aviCsumAddr csum)]

/-- The update of the mode bit (rule R207). -/
def State.modePrim (s : State) : Prim :=
  .upd s.cfg.bridge.hdmiModeAddr s.cfg.bridge.hdmiModeBit
    (if s.ctx.dviMode then 0 else s.cfg.bridge.hdmiModeBit)

theorem modeSetProgram_eq (b : BridgeParams) (csum : Byte) (d : List Byte) :
    modeSetProgram b csum d
      = .modeBit :: ((infoframeSteps b csum d).map BridgeStep.stmt ++ [.vidEn]) := by
  have hsplit : ifSplit = 5 := rfl
  unfold modeSetProgram infoframeSteps
  rw [hsplit]
  split <;> rfl

theorem modeSetSteps_eq (s : State) (csum : Byte) (d : List Byte) :
    modeSetSteps s csum d
      = .prim s.modePrim :: (infoframeSteps s.cfg.bridge csum d ++ vidSteps s) := by
  simp [modeSetSteps, infoframeSteps, State.modePrim]

theorem length_infoframeSteps (b : BridgeParams) (csum : Byte) (d : List Byte) :
    (infoframeSteps b csum d).length ≤ 3 := by
  unfold infoframeSteps
  split <;> simp

/-- The clock gate, where it is touched, then the two other updates of BR_ENABLE and BR_DISABLE
(rules R226, R227). -/
theorem endsIn_toggle (hs : Within s s) (off : Bool) (avi vid : Byte) :
    EndsIn (.port s.active) 3
      [.gate off,
        .prim (.upd s.cfg.bridge.aviCtrlAddr (s.cfg.bridge.aviEn ||| s.cfg.bridge.aviRpt) avi),
        .prim (.upd s.cfg.rst.swrstAddr s.cfg.rst.swrstVid vid)] s
      ((s.stepsRun (toggleSteps s (if off then s.cfg.bridge.clkgateCsc else 0) avi vid)).reply
        s.active) := by
  have hrest := (Follows.nil s).steps
    [.prim (.upd s.cfg.bridge.aviCtrlAddr (s.cfg.bridge.aviEn ||| s.cfg.bridge.aviRpt) avi),
      .prim (.upd s.cfg.rst.swrstAddr s.cfg.rst.swrstVid vid)]
  have hgate : ∀ k, stmtStep (.port s.active) (.gate off) (s.setPos (.port s.active) k)
      = stepGate (.port s.active) off (s.setPos (.port s.active) k) := fun _ => rfl
  unfold toggleSteps
  split
  · next hneed =>
    refine hrest.first hs fun k => ?_
    rw [hgate]
    simp only [stepGate, State.setPos_ctx, State.setPos_cfg, hneed, if_true]
  · next hneed =>
    refine EndsIn.go hs.calm.1 (push := []) (fun k => ?_) hs.calm (hrest.runs s hs)
    rw [hgate]
    simp only [stepGate, State.setPos_ctx, hneed]
    rfl

end

/-! ## The operations -/

/-- A ready command whose program answers `o` alone. -/
theorem command_endsIn {i : Instr} {s : State} {o : Host.Outcome State Fault Refusal}
    {program : List Stmt} {n : Nat} (h : Ready i s) (he : EndsIn (.port s.active) n program s o)
    (hn : n ≤ driveBound s.cfg) : command i program s = o := by
  rw [command_ready h]
  exact he _ hn

theorem Ready.within {i : Instr} {s : State} (h : Ready i s) (ha : Alone s) : Within s s :=
  ⟨⟨h.1, ha, h.2.2.1⟩, rfl, rfl⟩

/-- A program that follows its steps from the state it starts in. -/
theorem command_follows {i : Instr} {s : State} {n : Nat} {k : List Stmt} {l : List BridgeStep}
    (h : Ready i s) (ha : Alone s) (hf : Follows s n k l) (hk : k ≠ [])
    (hn : n ≤ driveBound s.cfg) :
    command i k s = (s.stepsRun l).reply s.active := by
  have hgo := hf.runs s (h.within ha)
  rw [GoesOn, if_neg hk] at hgo
  exact command_endsIn h hgo hn

/-- A bridge operation alone on its port does its steps one after the other and answers as they end,
whichever transactions fail (rules R208, R210, R212, R218, R226, R227). -/
theorem exec_bridge {i : Instr} {s : State} (h : Ready i s) (ha : Alone s)
    (hi : bridgeSteps s i ≠ []) : exec i s = (s.stepsRun (bridgeSteps s i)).reply s.active := by
  have hw := h.within ha
  have hbound : driveBound s.cfg = 3000 + s.cfg.bridge.afeTable.length := rfl
  cases i with
  | modeSet len csum =>
    have hlen := length_infoframeSteps s.cfg.bridge csum (s.payloadOf s.active)
    have hf := (follows_vidEn s).steps (infoframeSteps s.cfg.bridge csum (s.payloadOf s.active))
    show command _ (modeSetProgram s.cfg.bridge csum (s.payloadOf s.active)) s
      = (s.stepsRun (modeSetSteps s csum (s.payloadOf s.active))).reply s.active
    rw [modeSetProgram_eq, modeSetSteps_eq]
    refine command_endsIn h (hf.first hw fun k => ?_) (by omega)
    simp only [stmtStep, stepModeBit, State.setPos_cfg, State.setPos_ctx, State.modePrim]
  | vidEn => exact command_follows h ha (follows_vidEn s) (by simp) (by omega)
  | cscCfg c limited =>
    have hf := (Follows.nil s).csc c limited
    rw [List.append_nil] at hf
    exact command_follows h ha hf (by simp) (by omega)
  | brEnable => exact command_endsIn h (endsIn_toggle hw false _ _) (by omega)
  | brDisable => exact command_endsIn h (endsIn_toggle hw true _ _) (by omega)
  | _ => exact absurd rfl hi

end Sys2Proof.Machine
end


section
/-! SUPPORT. The bridge operations undisturbed: every step has the effect the rules give, and the
steps one after the other are the effect of the whole sequence. -/

namespace Sys2Proof.Machine

/-! ## Steps that complete where nothing fails -/

/-- A primitive of a bridge sequence whose checks pass: its target keeps off the gap and off the
bank select (PC2 to PC4). -/
def Prim.Fits (c : Params) : Prim → Prop
  | .rd _ => False
  | .wr addr _ => isRegister addr = true ∧ addr ≠ c.bank.addr
  | .upd addr _ _ => isRegister addr = true ∧ addr ≠ c.bank.addr
  | .bwr addr bytes => 1 ≤ bytes.length ∧ rangeCheck addr bytes.length = none
      ∧ touchesGap addr bytes.length = false ∧ ∀ i < bytes.length, addr + i ≠ c.bank.addr

/-- The assignment of `need_csc` has nothing to fit. -/
def BridgeStep.Fits (c : Params) (x : BridgeStep) : Prop := ∀ p, x = .prim p → p.Fits c

section
variable {s : State} {p : Prim} {l : List BridgeStep}

theorem primAt_cfg (s : State) (p : Prim) : (s.primAt p).cfg = s.cfg := by
  cases p <;> simp [State.primAt]

theorem bridgeStepAt_cfg (s : State) (x : BridgeStep) : (s.bridgeStepAt x).cfg = s.cfg := by
  cases x with
  | prim p => exact primAt_cfg s p
  | needCsc b => rfl

theorem foldl_bridgeStepAt_cfg (s : State) (l : List BridgeStep) :
    (l.foldl State.bridgeStepAt s).cfg = s.cfg := by
  induction l generalizing s with
  | nil => rfl
  | cons x l ih => exact (ih _).trans (bridgeStepAt_cfg s x)

theorem Prim.Fits.completes (h : p.Fits s.cfg) (hf : Fine s) :
    primBody p s = .ok 0 (s.primAt p) ∧ Fine (s.primAt p) := by
  cases p with
  | rd addr => exact h.elim
  | wr addr v => exact ⟨wrBody_fine hf h.1 v, hf.wrAt h.2 v⟩
  | upd addr m v => exact ⟨updBody_fine hf h.1 m v, hf.updAt h.2 m v⟩
  | bwr addr bytes =>
    obtain ⟨hn, hr, hg, hb⟩ := h
    exact ⟨bwrBody_fine hf hr hn hg hb, hf.bwrAt addr bytes⟩

/-- Where nothing fails every step completes. -/
theorem stepsRun_fine (hf : Fine s) (hl : ∀ x ∈ l, x.Fits s.cfg) :
    s.stepsRun l = .ok 0 (l.foldl State.bridgeStepAt s) ∧ Fine (l.foldl State.bridgeStepAt s) := by
  induction l generalizing s with
  | nil => exact ⟨rfl, hf⟩
  | cons x l ih =>
    obtain ⟨hx, hrest⟩ := List.forall_mem_cons.mp hl
    cases x with
    | prim p =>
      obtain ⟨hb, hf'⟩ := (hx p rfl).completes hf
      rw [State.stepsRun, hb, PRes.ok_bind]
      exact ih hf' (by rwa [primAt_cfg])
    | needCsc b => exact ih (s := s.setNeedCsc b) hf hrest

end

/-- A bridge operation alone and undisturbed does its steps and answers OK. -/
theorem exec_bridge_fine {i : Instr} {s t : State} (h : Ready i s) (ha : Alone s) (hf : Fine s)
    (hi : bridgeSteps s i ≠ []) (hl : ∀ x ∈ bridgeSteps s i, x.Fits s.cfg)
    (ht : (bridgeSteps s i).foldl State.bridgeStepAt s = t) :
    exec i s = .next (t.respond s.active (okResp 0)) := by
  rw [exec_bridge h ha hi, (stepsRun_fine hf hl).1, ht]
  rfl

/-! ## The steps of the bridge sequences fit (rule R10) -/

section
variable {s : State} {c : Params}

theorem fits_upd (hp : paramsOk c = true) {addr : Nat} (ha : addr ∈ namedAddrs c) (m v : Byte) :
    (BridgeStep.prim (.upd addr m v)).Fits c := by
  rintro _ ⟨⟩
  exact paramsOk_named hp ha

theorem fits_wr (hp : paramsOk c = true) {addr : Nat} (ha : addr ∈ namedAddrs c) (v : Byte) :
    (BridgeStep.prim (.wr addr v)).Fits c := by
  rintro _ ⟨⟩
  exact paramsOk_named hp ha

theorem fits_bwr {addr : Nat} {bytes : List Byte} (hn : 1 ≤ bytes.length)
    (hb : bulkFits addr bytes.length = true) (ho : offBanksel c addr bytes.length = true) :
    (BridgeStep.prim (.bwr addr bytes)).Fits c := by
  rintro _ ⟨⟩
  obtain ⟨hr, hg⟩ := bulkFits_cases hb hn
  exact ⟨hn, hr, hg, offBanksel_ne ho⟩

theorem fits_needCsc (b : Bool) : (BridgeStep.needCsc b).Fits c := nofun

theorem bulksOffBanksel_parts (h : bulksOffBanksel c = true) :
    offBanksel c c.bridge.aviAAddr ifSplit = true
      ∧ offBanksel c c.bridge.cscCoefAddr cscMatrixLen = true := by
  simpa only [bulksOffBanksel, Bool.and_eq_true] using h

theorem toggleSteps_fit (hp : paramsOk s.cfg = true) (gate avi vid : Byte) :
    ∀ x ∈ toggleSteps s gate avi vid, x.Fits s.cfg := by
  have hgate := fits_upd hp (addr := s.cfg.bridge.clkgateAddr) (by simp [namedAddrs])
  have havi := fits_upd hp (addr := s.cfg.bridge.aviCtrlAddr) (by simp [namedAddrs])
  have hrst := fits_upd hp (addr := s.cfg.rst.swrstAddr) (by simp [namedAddrs])
  unfold toggleSteps
  split <;> simp [hgate, havi, hrst]

theorem matrixSteps_fit (hp : paramsOk c = true) (ho : bulksOffBanksel c = true) (op : CscOp)
    (co : Colorimetry) (limited : Bool) :
    ∀ x ∈ (matrixSteps c.bridge op co limited).map BridgeStep.prim, x.Fits c := by
  rw [matrixSteps_eq]
  cases hm : cscMatrix c.bridge op co limited with
  | none => simp
  | some m =>
    have hlen := paramsOk_matrix hp hm
    have hfit := fits_bwr (c := c) (addr := c.bridge.cscCoefAddr) (bytes := m)
      (by rw [hlen]; decide) (by rw [hlen]; exact paramsOk_coef hp)
      (by rw [hlen]; exact (bulksOffBanksel_parts ho).2)
    simpa using hfit

theorem cscSteps_fit (hp : paramsOk s.cfg = true) (ho : bulksOffBanksel s.cfg = true)
    (co : Colorimetry) (limited : Bool) : ∀ x ∈ cscSteps s co limited, x.Fits s.cfg := by
  have hctrl := fits_upd hp (addr := s.cfg.bridge.cscCtrlAddr) (by simp [namedAddrs])
  refine List.forall_mem_append.mpr ⟨matrixSteps_fit hp ho _ co limited, ?_⟩
  simp [hctrl, fits_needCsc]

theorem vidSteps_fit (hp : paramsOk s.cfg = true) (ho : bulksOffBanksel s.cfg = true) :
    ∀ x ∈ vidSteps s, x.Fits s.cfg := by
  have hmode := fits_upd hp (addr := s.cfg.bridge.inModeAddr) (by simp [namedAddrs])
  have hafe : ∀ r ∈ s.cfg.bridge.afeTable, r.addr ∈ namedAddrs s.cfg := fun r hr =>
    List.mem_append_right _ (List.mem_map_of_mem hr)
  refine List.forall_mem_append.mpr
    ⟨List.forall_mem_cons.mpr ⟨hmode _ _, cscSteps_fit hp ho _ _⟩, ?_⟩
  intro x hx
  obtain ⟨r, hr, rfl⟩ := List.mem_map.mp hx
  exact fits_upd hp (hafe r hr) _ _

theorem modePrim_fits (hp : paramsOk s.cfg = true) : (BridgeStep.prim s.modePrim).Fits s.cfg :=
  fits_upd hp (by simp [namedAddrs]) _ _

/-- The first infoframe block: five bytes in one region (PC4). -/
theorem firstBlock_fits (hp : paramsOk c = true) (ho : bulksOffBanksel c = true) {d : List Byte}
    (hd : 5 ≤ d.length) : (BridgeStep.prim (.bwr c.bridge.aviAAddr (d.take 5))).Fits c := by
  have hlen : (d.take 5).length = ifSplit := by
    rw [List.length_take]
    exact Nat.min_eq_left hd
  exact fits_bwr (by rw [hlen]; decide) (by rw [hlen]; exact paramsOk_aviA hp)
    (by rw [hlen]; exact (bulksOffBanksel_parts ho).1)

theorem modeSetSteps_fit {d : List Byte} (hp : paramsOkFor s.cfg d.length = true)
    (ho : bulksOffBanksel s.cfg = true)
    (hB : offBanksel s.cfg s.cfg.bridge.aviBAddr (d.length - 5) = true) (hd : 5 ≤ d.length)
    (csum : Byte) : ∀ x ∈ modeSetSteps s csum d, x.Fits s.cfg := by
  have hok := paramsOk_of_for hp
  have hcsum := fits_wr hok (addr := s.cfg.bridge.aviCsumAddr) (by simp [namedAddrs]) csum
  have hblockA := firstBlock_fits hok ho hd
  have hblockB : 5 < d.length →
      (BridgeStep.prim (.bwr s.cfg.bridge.aviBAddr (d.drop 5))).Fits s.cfg :=
    fun hlt => fits_bwr (by rw [List.length_drop]; omega)
      (by rw [List.length_drop]; exact paramsOkFor_aviB hp hlt) (by rwa [List.length_drop])
  rw [modeSetSteps_eq]
  refine List.forall_mem_cons.mpr ⟨modePrim_fits hok,
    List.forall_mem_append.mpr ⟨?_, vidSteps_fit hok ho⟩⟩
  unfold infoframeSteps
  split
  · next hlt => simp [hblockA, hblockB hlt, hcsum]
  · simp [hblockA, hcsum]

end

/-- The payload of MODE_SET has at least the bytes of the first block (rules R97, R104). -/
theorem Ready.modeSet_length {len : BitVec 8} {csum : Byte} {s : State}
    (h : Ready (.modeSet len csum) s) : 5 ≤ (s.payloadOf s.active).length := by
  have hlegal := h.2.2.2
  simp only [legalCommand, Bool.and_eq_true] at hlegal
  rw [h.payload_length]
  exact of_decide_eq_true hlegal.2

/-- With a legal payload and its targets in order every step of a bridge operation fits. -/
theorem bridgeSteps_fit {i : Instr} {s : State} (h : Ready i s) (ht : TargetsOk s) :
    ∀ x ∈ bridgeSteps s i, x.Fits s.cfg := by
  obtain ⟨hp, ho, hB⟩ := ht
  have hok := paramsOk_of_for hp
  cases i with
  | modeSet len csum => exact modeSetSteps_fit hp ho hB h.modeSet_length csum
  | vidEn => exact vidSteps_fit hok ho
  | cscCfg c limited => exact cscSteps_fit hok ho c limited
  | brEnable => exact toggleSteps_fit hok _ _ _
  | brDisable => exact toggleSteps_fit hok _ _ _
  | _ => exact fun x hx => absurd hx List.not_mem_nil

/-! ## The steps one after the other are the sequence -/

section
variable (s : State)

theorem bridgeStepAt_latches (x : BridgeStep) : (s.bridgeStepAt x).latches = s.latches := by
  cases x with
  | prim p => cases p <;> simp [State.bridgeStepAt, State.primAt]
  | needCsc b => rfl

theorem foldl_bridgeStepAt_latches (l : List BridgeStep) :
    (l.foldl State.bridgeStepAt s).latches = s.latches := by
  induction l generalizing s with
  | nil => rfl
  | cons x l ih => exact (ih _).trans (bridgeStepAt_latches s x)

theorem cscSteps_congr {s t : State} (hc : t.cfg = s.cfg) (hl : t.latches = s.latches)
    (c : Colorimetry) (limited : Bool) : cscSteps t c limited = cscSteps s c limited := by
  simp only [cscSteps, hc, hl]

theorem vidSteps_congr {s t : State} (hc : t.cfg = s.cfg) (hl : t.latches = s.latches) :
    vidSteps t = vidSteps s := by
  simp only [vidSteps, cscSteps_congr hc hl, hc, hl]

theorem foldl_cscSteps (c : Colorimetry) (limited : Bool) :
    (cscSteps s c limited).foldl State.bridgeStepAt s = s.cscAt c limited := by
  simp only [cscSteps, List.foldl_append, List.foldl_map]
  rfl

theorem foldl_vidSteps : (vidSteps s).foldl State.bridgeStepAt s = s.vidAt := by
  simp only [vidSteps, List.foldl_append, List.foldl_cons, List.foldl_map]
  rw [← cscSteps_congr (bridgeStepAt_cfg s _) (bridgeStepAt_latches s _), foldl_cscSteps]
  rfl

theorem foldl_infoframeSteps (csum : Byte) (d : List Byte) :
    (infoframeSteps s.cfg.bridge csum d).foldl State.bridgeStepAt s
      = (s.infoframeAt d).wrAt s.cfg.bridge.aviCsumAddr csum := by
  have hsplit : ifSplit = 5 := rfl
  unfold infoframeSteps State.infoframeAt
  rw [hsplit]
  split <;> rfl

theorem foldl_modeSetSteps (csum : Byte) (d : List Byte) :
    (modeSetSteps s csum d).foldl State.bridgeStepAt s = s.modeSetAt csum d := by
  have hinfo := foldl_infoframeSteps (s.primAt s.modePrim) csum d
  rw [primAt_cfg] at hinfo
  have hvid := foldl_vidSteps (((s.primAt s.modePrim).infoframeAt d).wrAt
    s.cfg.bridge.aviCsumAddr csum)
  rw [← hinfo, vidSteps_congr (s := s)
    ((foldl_bridgeStepAt_cfg _ _).trans (primAt_cfg s _))
    ((foldl_bridgeStepAt_latches _ _).trans (bridgeStepAt_latches s (.prim s.modePrim)))] at hvid
  rw [modeSetSteps_eq, List.foldl_cons, List.foldl_append]
  refine hvid.trans ?_
  rw [hinfo]
  simp [State.modeSetAt, State.primAt, State.modePrim]

theorem foldl_enable : (bridgeSteps s .brEnable).foldl State.bridgeStepAt s = s.enabledAt := by
  simp only [bridgeSteps, toggleSteps, State.enabledAt, State.gateAt]
  split <;> rfl

theorem foldl_disable : (bridgeSteps s .brDisable).foldl State.bridgeStepAt s = s.disabledAt := by
  simp only [bridgeSteps, toggleSteps, State.disabledAt, State.gateAt]
  split <;> rfl

end

/-! ## The statements -/

theorem vidSteps_ne_nil (s : State) : vidSteps s ≠ [] := List.cons_ne_nil _ _

theorem cscSteps_ne_nil (s : State) (c : Colorimetry) (limited : Bool) :
    cscSteps s c limited ≠ [] := by
  simp [cscSteps]

theorem toggleSteps_ne_nil (s : State) (gate avi vid : Byte) : toggleSteps s gate avi vid ≠ [] := by
  simp [toggleSteps]

/-- Settles O57: the steps with the values BR_ENABLE forces. -/
theorem brEnableForcesEnabledBits : Obligations.BrEnableForcesEnabledBits := fun s h ha hf hp =>
  exec_bridge_fine h ha hf (toggleSteps_ne_nil s _ _ _) (toggleSteps_fit hp _ _ _) (foldl_enable s)

/-- Settles O58: the steps with the values BR_DISABLE forces. -/
theorem brDisableForcesDisabledBits : Obligations.BrDisableForcesDisabledBits := fun s h ha hf hp =>
  exec_bridge_fine h ha hf (toggleSteps_ne_nil s _ _ _) (toggleSteps_fit hp _ _ _) (foldl_disable s)

/-- Settles O55: the matrix, the control register and `need_csc` are the steps of CSC_CFG. -/
theorem cscCfgWritesMatrixAndControl : Obligations.CscCfgWritesMatrixAndControl :=
  fun c limited s h ha hf hp ho =>
    exec_bridge_fine h ha hf (cscSteps_ne_nil s c limited) (cscSteps_fit hp ho c limited)
      (foldl_cscSteps s c limited)

/-- Settles O53: the input mode, CSC_CFG and the AFE updates are the steps of VID_EN. -/
theorem vidEnProgramsTheVideoPath : Obligations.VidEnProgramsTheVideoPath := fun s h ha hf hp ho =>
  exec_bridge_fine h ha hf (vidSteps_ne_nil s) (vidSteps_fit hp ho) (foldl_vidSteps s)

/-- MODE_SET is the host's, and so is its payload (rules R96, R255). -/
theorem Ready.modeSet_payload {len : BitVec 8} {csum : Byte} {s : State}
    (h : Ready (.modeSet len csum) s) : s.payloadOf s.active = s.payload := by
  rw [h.active_host rfl, State.payloadOf]

theorem modeSetSteps_ne_nil (s : State) (csum : Byte) (d : List Byte) :
    modeSetSteps s csum d ≠ [] := by
  rw [modeSetSteps_eq]
  exact List.cons_ne_nil _ _

/-- Settles O51: the mode bit, the infoframe, the checksum and VID_EN are the steps of MODE_SET. -/
theorem modeSetWritesModeInfoframeAndVideo : Obligations.ModeSetWritesModeInfoframeAndVideo := by
  intro len csum s h ha hf ht
  rw [← h.modeSet_payload]
  exact exec_bridge_fine h ha hf (modeSetSteps_ne_nil s csum _) (bridgeSteps_fit h ht)
    (foldl_modeSetSteps s csum _)

/-- Settles O52: the mode bit and block A complete, and the range check of block B ends the
sequence. -/
theorem modeSetOverlongPayloadFails : Obligations.ModeSetOverlongPayloadFails := by
  intro len csum s e h ha hf hp ho hlen he
  have hpay := h.modeSet_payload
  have hd : s.payload.length = len.toNat := by rw [← hpay]; exact h.payload_length
  have hsplit : modeSetSteps s csum s.payload
      = [.prim s.modePrim, .prim (.bwr s.cfg.bridge.aviAAddr (s.payload.take 5))]
        ++ .prim (.bwr s.cfg.bridge.aviBAddr (s.payload.drop 5))
        :: .prim (.wr s.cfg.bridge.aviCsumAddr csum) :: vidSteps s := by
    simp [modeSetSteps_eq, infoframeSteps, show 5 < s.payload.length by omega]
  have hfirst := stepsRun_fine (s := s)
    (l := [.prim s.modePrim, .prim (.bwr s.cfg.bridge.aviAAddr (s.payload.take 5))]) hf
    (by simp [modePrim_fits hp, firstBlock_fits hp ho (d := s.payload) (by omega)])
  have hcheck : rangeCheck s.cfg.bridge.aviBAddr (s.payload.drop 5).length = some e := by
    rwa [List.length_drop, hd]
  rw [exec_bridge h ha (modeSetSteps_ne_nil s csum _), bridgeSteps, hpay, hsplit,
    stepsRun_append, hfirst.1, PRes.ok_bind, State.stepsRun, primBody, bwrBody_checkFails hcheck]
  rfl

end Sys2Proof.Machine
end


section
/-! SUPPORT. BR_ENABLE and BR_DISABLE twice: every register they write is updated under a mask, and
an update done twice is done once. -/

namespace Sys2Proof.Machine

/-! ## What the steps may touch -/

/-- What the steps of a bridge sequence may touch: the register file, the banks, `need_csc`, the
draws and the bus log. -/
structure BridgeFrame (s t : State) : Prop where
  frame : t = { s with
    x := t.x, hwBank := t.hwBank, env := t.env, bus := t.bus
    ctx := { s.ctx with currentBank := t.ctx.currentBank, needCsc := t.ctx.needCsc } }
  sched : t.env.sched = s.env.sched

theorem BridgeFrame.refl (s : State) : BridgeFrame s s := ⟨rfl, rfl⟩

theorem BridgeFrame.trans {s t u : State} (h : BridgeFrame s t) (h' : BridgeFrame t u) :
    BridgeFrame s u := by
  refine ⟨?_, h'.sched.trans h.sched⟩
  have h1 := h.frame
  have h2 := h'.frame
  rw [h1] at h2
  exact h2

theorem BusFrame.bridgeFrame {n : Nat} {s t : State} (h : BusFrame n s t) : BridgeFrame s t := by
  have hn : t.ctx.needCsc = s.ctx.needCsc := by rw [h.frame]
  exact ⟨h.frame.trans (by rw [hn]), h.sched⟩

section
variable (s : State)

theorem switched_frame (need : Option Bank) : BridgeFrame s (s.switched need) := by
  unfold State.switched
  split
  · exact .refl s
  · split
    · exact .refl s
    · exact ⟨rfl, rfl⟩

theorem didRead_frame (off a : Nat) : BridgeFrame s (s.didRead off a) :=
  ⟨rfl, envAfterRead_sched s a⟩

theorem didWrite_frame (off a : Nat) (v : Byte) : BridgeFrame s (s.didWrite off a v) := ⟨rfl, rfl⟩

theorem primAt_frame (p : Prim) : BridgeFrame s (s.primAt p) := by
  cases p with
  | rd addr => exact (switched_frame s _).trans (didRead_frame _ _ _)
  | wr addr v => exact (switched_frame s _).trans (didWrite_frame _ _ _ _)
  | upd addr m v =>
    exact ((switched_frame s _).trans (didRead_frame _ _ _)).trans (didWrite_frame _ _ _ _)
  | bwr addr bytes =>
    exact (switched_frame s (bulkBank addr bytes.length (needOf addr))).trans ⟨rfl, rfl⟩

theorem foldl_bridgeFrame (l : List BridgeStep) : BridgeFrame s (l.foldl State.bridgeStepAt s) := by
  induction l generalizing s with
  | nil => exact .refl s
  | cons x l ih =>
    refine BridgeFrame.trans ?_ (ih _)
    cases x with
    | prim p => exact primAt_frame s p
    | needCsc b => exact ⟨rfl, rfl⟩

end

/-! ## Updates of one byte (rule R125) -/

/-- Two updates one after the other are one update. -/
theorem updValue_updValue (old m v m' v' : Byte) :
    updValue (updValue old m v) m' v' = updValue old (m ||| m') (updValue v m' v') := by
  ext i
  simp only [updValue, BitVec.getElem_or, BitVec.getElem_and, BitVec.getElem_not]
  cases m[i] <;> cases m'[i] <;> simp

theorem updValue_zero (old v : Byte) : updValue old 0 v = old := by
  show (old &&& ~~~0#8) ||| (v &&& 0#8) = old
  rw [BitVec.not_zero, BitVec.and_allOnes, BitVec.and_zero, BitVec.or_zero]

theorem updValue_idem (old m v : Byte) : updValue (updValue old m v) m v = updValue old m v := by
  ext i
  simp only [updValue, BitVec.getElem_or, BitVec.getElem_and, BitVec.getElem_not]
  cases m[i] <;> simp

/-! ## Updates of plain registers -/

/-- An update of a plain register other than the bank select. -/
def BridgeStep.UpdatesPlain (c : Params) (x : BridgeStep) : Prop :=
  ∃ addr m v, x = .prim (.upd addr m v) ∧ addr ≠ c.bank.addr ∧ isPlain c addr = true

theorem updAt_pairwise {s : State} (addr : Nat) (m v : Byte)
    (hx : s.x.Pairwise fun c d => c.1 < d.1) :
    (s.updAt addr m v).x.Pairwise fun c d => c.1 < d.1 := by
  have hr : (s.rdAt addr).x.Pairwise fun c d => c.1 < d.1 := switched_pairwise _ hx
  rw [State.updAt, State.didWrite_x, State.storedIn]
  split
  · exact Memory.write_pairwise hr _ _
  · exact hr

/-- What a list of such updates does to a register is one update, the same from every state. -/
theorem foldl_updates {c : Params} {l : List BridgeStep} (hl : ∀ x ∈ l, x.UpdatesPlain c) {a : Nat}
    (ha : a ≠ c.bank.addr) : ∃ m v, ∀ s : State, s.cfg = c → s.x.Pairwise (fun c d => c.1 < d.1) →
      (l.foldl State.bridgeStepAt s).x.Pairwise (fun c d => c.1 < d.1)
      ∧ (l.foldl State.bridgeStepAt s).x.read a = updValue (s.x.read a) m v := by
  induction l with
  | nil => exact ⟨0, 0, fun s _ hx => ⟨hx, (updValue_zero _ _).symm⟩⟩
  | cons x l ih =>
    obtain ⟨⟨addr, m, v, rfl, hb, hp⟩, hrest⟩ := List.forall_mem_cons.mp hl
    obtain ⟨m', v', ih⟩ := ih hrest
    have hstep : ∀ s : State, s.cfg = c → s.x.Pairwise (fun c d => c.1 < d.1) → _ := fun s hc hx =>
      ih (s.updAt addr m v) ((State.updAt_cfg ..).trans hc) (updAt_pairwise addr m v hx)
    by_cases hne : a = addr
    · subst hne
      refine ⟨m ||| m', updValue v m' v', fun s hc hx =>
        ⟨(hstep s hc hx).1, (hstep s hc hx).2.trans ?_⟩⟩
      rw [← hc] at ha hp
      rw [updAt_read_self m v ha hp hx, updValue_updValue]
    · refine ⟨m', v', fun s hc hx => ⟨(hstep s hc hx).1, (hstep s hc hx).2.trans ?_⟩⟩
      rw [updAt_read_other s m v (hc ▸ ha) hne]

/-! ## The two operations -/

theorem toggleSteps_update {s : State} (hp : paramsOk s.cfg = true)
    (hgate : isPlain s.cfg s.cfg.bridge.clkgateAddr = true)
    (havi : isPlain s.cfg s.cfg.bridge.aviCtrlAddr = true)
    (hrst : isPlain s.cfg s.cfg.rst.swrstAddr = true) (gate avi vid : Byte) :
    ∀ x ∈ toggleSteps s gate avi vid, x.UpdatesPlain s.cfg := by
  have hupd : ∀ {addr : Nat}, addr ∈ namedAddrs s.cfg → isPlain s.cfg addr = true → ∀ m v,
      (BridgeStep.prim (.upd addr m v)).UpdatesPlain s.cfg := fun ha hpl m v =>
    ⟨_, m, v, rfl, (paramsOk_named hp ha).2, hpl⟩
  have h1 := hupd (by simp [namedAddrs]) hgate
  have h2 := hupd (by simp [namedAddrs]) havi
  have h3 := hupd (by simp [namedAddrs]) hrst
  unfold toggleSteps
  split <;> simp [h1, h2, h3]

theorem primAt_needCsc (s : State) (p : Prim) : (s.primAt p).ctx.needCsc = s.ctx.needCsc := by
  cases p <;>
    simp only [State.primAt, State.rdAt, State.wrAt, State.updAt, State.bwrAt, State.didRead_ctx,
      State.didWrite_ctx, switched_ctx]

/-- Steps without an assignment keep `need_csc`. -/
theorem foldl_needCsc {l : List BridgeStep} (hl : ∀ x ∈ l, ∃ p, x = .prim p) (s : State) :
    (l.foldl State.bridgeStepAt s).ctx.needCsc = s.ctx.needCsc := by
  induction l generalizing s with
  | nil => rfl
  | cons x l ih =>
    obtain ⟨⟨p, rfl⟩, hrest⟩ := List.forall_mem_cons.mp hl
    exact (ih hrest _).trans (primAt_needCsc s p)

/-- After an operation without a payload ended, the port is ready for it again. -/
theorem Ready.again {i : Instr} {s v : State} (h : Ready i s) (hi : payloadLength i = 0)
    (hv : BridgeFrame s v) (r : Response) : Ready i (v.respond s.active r) := by
  have hactive : v.active = s.active := by rw [hv.frame]
  have hrd := ready_rd_of_answered (r := r) h hi
    (by rw [State.hasPort_congr (by rw [hv.frame])]; exact h.1) hactive
    (by rw [hv.frame]; exact h.2.2.1) (by rw [hv.frame]) 0
  have hact : (v.respond s.active r).active = s.active := by simpa using hactive
  have hnow := List.eq_nil_of_length_eq_zero hrd.payload_length
  have hthen := List.eq_nil_of_length_eq_zero (h.payload_length.trans hi)
  have hlegal := h.2.2.2
  refine ⟨hrd.1, hrd.2.1, hrd.2.2.1, ?_⟩
  rwa [hnow, hact, ← hthen]

/-- The steps of BR_ENABLE and BR_DISABLE depend on the configuration and `need_csc` alone. -/
theorem bridgeSteps_toggle_congr {i : Instr} (hi : i ∈ [Instr.brEnable, .brDisable]) {s t : State}
    (hc : t.cfg = s.cfg) (hn : t.ctx.needCsc = s.ctx.needCsc) :
    bridgeSteps t i = bridgeSteps s i := by
  rcases List.mem_pair.mp hi with rfl | rfl <;> simp only [bridgeSteps, toggleSteps, hc, hn]

theorem toggle_steps {i : Instr} (hi : i ∈ [Instr.brEnable, .brDisable]) (s : State) :
    payloadLength i = 0 ∧ ∃ gate avi vid, bridgeSteps s i = toggleSteps s gate avi vid := by
  rcases List.mem_pair.mp hi with rfl | rfl <;> exact ⟨rfl, _, _, _, rfl⟩

/-- BR_ENABLE and BR_DISABLE undisturbed. -/
theorem exec_toggle {i : Instr} {s : State} (hi : i ∈ [Instr.brEnable, .brDisable]) (h : Ready i s)
    (ha : Alone s) (hf : Fine s) (hp : paramsOk s.cfg = true) :
    exec i s = .next (((bridgeSteps s i).foldl State.bridgeStepAt s).respond s.active (okResp 0))
      ∧ Fine ((bridgeSteps s i).foldl State.bridgeStepAt s) := by
  obtain ⟨-, gate, avi, vid, hl⟩ := toggle_steps hi s
  have hne : bridgeSteps s i ≠ [] := hl ▸ toggleSteps_ne_nil s gate avi vid
  have hfit : ∀ x ∈ bridgeSteps s i, x.Fits s.cfg := hl ▸ toggleSteps_fit hp gate avi vid
  exact ⟨exec_bridge_fine h ha hf hne hfit rfl, (stepsRun_fine hf hfit).2⟩

/-- Answering disturbs nothing. -/
theorem Fine.respond {s : State} (h : Fine s) (p : PortId) (r : Response) : Fine (s.respond p r) :=
  ⟨by simpa using h.1, by simpa using h.2.1, by simpa [BusFine] using h.2.2⟩

/-- Settles O59: both calls do the same updates, which together are one update of each register. -/
theorem brEnableIsIdempotent : Obligations.BrEnableIsIdempotent := by
  intro i s t u hi h ha hf hp hx hgate havi hrst ht hu a hab
  obtain ⟨hpay, gate, avi, vid, hl⟩ := toggle_steps hi s
  have hplain : ∀ x ∈ bridgeSteps s i, x.UpdatesPlain s.cfg :=
    hl ▸ toggleSteps_update hp hgate havi hrst gate avi vid
  have hframe := foldl_bridgeFrame s (bridgeSteps s i)
  have hneed := foldl_needCsc (fun x hx => let ⟨_, _, _, he, _⟩ := hplain x hx; ⟨_, he⟩) s
  obtain ⟨m, w, hupd⟩ := foldl_updates hplain hab
  obtain ⟨hxv, hreadv⟩ := hupd s rfl hx.1
  obtain ⟨hfirst, hfine⟩ := exec_toggle hi h ha hf hp
  generalize (bridgeSteps s i).foldl State.bridgeStepAt s = v at *
  obtain rfl := Host.Outcome.next.inj (ht.symm.trans hfirst)
  have hcfg : (v.respond s.active (okResp 0)).cfg = s.cfg := by rw [State.respond_cfg, hframe.frame]
  have halone : Alone (v.respond s.active (okResp 0)) :=
    (congrArg Env.sched (State.respond_env v _ _)).trans (hframe.sched.trans ha)
  have hsame : bridgeSteps (v.respond s.active (okResp 0)) i = bridgeSteps s i :=
    bridgeSteps_toggle_congr hi hcfg ((congrArg _ (State.respond_ctx v _ _)).trans hneed)
  have hsecond := (exec_toggle hi (h.again hpay hframe (okResp 0)) halone (hfine.respond _ _)
    (by rwa [hcfg])).1
  obtain rfl := Host.Outcome.next.inj (hu.symm.trans hsecond)
  have hreadu := (hupd (v.respond s.active (okResp 0)) hcfg (by rwa [State.respond_x])).2
  rw [State.respond_x, hsame, hreadu, State.respond_x, hreadv, updValue_idem]

end Sys2Proof.Machine
end


section
/-! SUPPORT. A bridge sequence in which a transaction fails: the steps before it complete, the
primitive it belongs to raises `IoError`, and that ends the operation. -/

namespace Sys2Proof.Machine

/-! ## Pieces of a primitive up to the failing transaction -/

/-- No register but the bank select and those of `W` changed. -/
def KeepsBut (c : Params) (W : Nat → Prop) (s t : State) : Prop :=
  ∀ a, a ≠ c.bank.addr → ¬W a → t.x.read a = s.x.read a

/-- A piece from `s` completes with `v` and `t`, or raises `IoError` in transaction `B`, which is
one of the completed piece; then no register but the bank select and those of `W` changed. -/
def Upto {α : Type} (B : Nat) (l : List Bool) (W : Nat → Prop) (s : State) (r : PRes α) (v : α)
    (t : State) : Prop :=
  (r = .ok v t ∧ FailsAt B l t)
    ∨ (B < t.bus.length ∧ ∃ w, r = .err .ioError w ∧ w.bus.length = B + 1 ∧ KeepsBut s.cfg W s w)

section
variable {B : Nat} {l : List Bool} {W : Nat → Prop} {s t u : State} {α β : Type}

/-- Two pieces one after the other. -/
theorem Upto.bind {r : PRes α} {k : α → State → PRes β} {v : α} {v' : β} (h : Upto B l W s r v t)
    (hlog : t.bus.length ≤ u.bus.length) (hc : t.cfg = s.cfg) (hx : KeepsBut s.cfg W s t)
    (hk : FailsAt B l t → Upto B l W t (k v t) v' u) : Upto B l W s (r.bind k) v' u := by
  rcases h with ⟨rfl, hf⟩ | ⟨hlt, w, rfl, hw⟩
  · rcases hk hf with hk | ⟨hlt, w, hk, hB, hw⟩
    · exact .inl hk
    · exact .inr ⟨hlt, w, hk, hB, fun a ha hW => (hw a (hc ▸ ha) hW).trans (hx a ha hW)⟩
  · exact .inr ⟨hlt.trans_le hlog, w, rfl, hw⟩

/-- A piece that drops the value of another. -/
theorem Upto.drop {r : PRes α} {v : α} (h : Upto B l W s r v t) (b : β) :
    Upto B l W s (r.bind fun _ w => .ok b w) b t := by
  rcases h with ⟨rfl, hf⟩ | ⟨hlt, w, rfl, hw⟩
  · exact .inl ⟨rfl, hf⟩
  · exact .inr ⟨hlt, w, rfl, hw⟩

/-! ## The transactions -/

theorem FailsAt.lt_or_eq (h : FailsAt B l s) : s.bus.length < B ∨ s.bus.length = B :=
  lt_or_eq_of_le h.le

theorem FailsAt.read (h : FailsAt B l s) {off a : Nat} (ht : target s.hwBank off = some a) :
    Upto B l W s (busRead off s) (s.busValue a) (s.didRead off a) := by
  rcases h.lt_or_eq with hlt | heq
  · obtain ⟨hn, hrest⟩ := h.completes hlt
    exact .inl ⟨busRead_completes hn ht, h.bank, h.agree, by simpa using hrest⟩
  · exact .inr ⟨by simp [heq], _, busRead_fails (h.fails heq) ht, by simp [heq], fun _ _ _ => rfl⟩

theorem FailsAt.write (h : FailsAt B l s) {off a : Nat} (ht : target s.hwBank off = some a)
    (ha : a ≠ s.cfg.bank.addr) (hW : W a) (v : Byte) :
    Upto B l W s (busWrite off v s) () (s.didWrite off a v) := by
  rcases h.lt_or_eq with hlt | heq
  · obtain ⟨hn, hrest⟩ := h.completes hlt
    exact .inl
      ⟨busWrite_completes hn ht v, h.bank, by simpa [ha] using h.agree, by simpa using hrest⟩
  · obtain ⟨w, hw, hbus, hx⟩ := busWrite_fails (h.fails heq) ht v
    refine .inr ⟨by simp [heq], w, hw, by simp [hbus, heq], fun r _ hr => ?_⟩
    rcases hx with hx | hx
    · rw [hx]
    · rw [hx]
      exact storedIn_read_other s v fun he => hr (he ▸ hW)

theorem FailsAt.burst (h : FailsAt B l s) {off addr : Nat} {bytes : List Byte}
    (ht : ∀ i < bytes.length, target s.hwBank (off + i) = some (addr + i))
    (hb : ∀ i < bytes.length, addr + i ≠ s.cfg.bank.addr)
    (hW : ∀ a, addr ≤ a → a < addr + bytes.length → W a) :
    Upto B l W s (busBurst off bytes s) ()
      { s with x := storedList s.cfg addr bytes s.x, env := s.env.afterTransaction
               bus := .burst off bytes true :: s.bus } := by
  rcases h.lt_or_eq with hlt | heq
  · obtain ⟨hn, hrest⟩ := h.completes hlt
    have hrun := storeBytes_run (c := s.cfg) (free := Config.freeBank s.env.draws) bytes off addr
      s.x ht hb
    refine .inl ⟨?_, h.bank, h.agree, by simpa using hrest⟩
    rw [busBurst, busOut_completes hrun.2 hn, State.store, hrun.1]
  · obtain ⟨k, hk, he⟩ := busOut_fails_run h.bank (h.fails heq) (op := .burst off bytes) ht hb
    refine .inr ⟨by simp [heq], _, he, by simp [heq], fun a _ ha => ?_⟩
    refine storedList_read_outside _ _ _ _ ?_
    by_contra hin
    rw [not_or, Nat.not_lt, Nat.not_le, List.length_take, Nat.min_eq_left hk] at hin
    exact ha (hW a hin.1 (by omega))

/-! ## The primitives -/

/-- The bank select an access begins with, then its data transactions, at least one. -/
theorem FailsAt.access (h : FailsAt B l s) {need : Option Bank} {k : State → PRes Byte}
    (hlog : (s.switched need).bus.length < t.bus.length)
    (hk : FailsAt B l (s.switched need) → Upto B l W (s.switched need) (k (s.switched need)) 0 t) :
    Upto B l W s ((Machine.ensureBank need s).bind fun _ u => k u) 0 t := by
  rcases h.ensureBank need with ⟨he, hf⟩ | ⟨w, he, ⟨op, done, later, -, hbus, hfull, hlen⟩, hx⟩
  · rw [he, PRes.ok_bind]
    rcases hk hf with hk | ⟨hlt, w, hk, hB, hw⟩
    · exact .inl hk
    · exact .inr ⟨hlt, w, hk, hB, fun a ha hW =>
        (hw a (by rwa [switched_cfg]) hW).trans (switched_read _ ha)⟩
  · obtain ⟨m, hm⟩ := switched_log s need
    have hlong : B ≤ (s.switched need).bus.length := by
      rw [hm, hfull, ← hlen, List.length_append, List.length_append]
      omega
    exact .inr ⟨by omega, w, by rw [he]; rfl, by simp [hbus, hlen], fun a ha _ => hx a ha⟩

theorem wrBody_register {addr : Nat} (ha : isRegister addr = true) (v : Byte) (s : State) :
    wrBody addr v s = (ensureBank (needOf addr) s).bind fun _ u =>
      (busWrite (offOf addr) v u).bind fun _ w => .ok 0 w := by
  simp only [wrBody, prologue, locate_register ha, PRes.ok_bind, PRes.bind_assoc]

theorem updBody_register {addr : Nat} (ha : isRegister addr = true) (m v : Byte) (s : State) :
    updBody addr m v s = (ensureBank (needOf addr) s).bind fun _ u =>
      (busRead (offOf addr) u).bind fun old w =>
        (busWrite (offOf addr) (updValue old m v) w).bind fun _ x => .ok 0 x := by
  simp only [updBody, prologue, locate_register ha, PRes.ok_bind, PRes.bind_assoc]

/-- A primitive that fits has its effect or raises at the failing transaction, having written none
but its own registers. -/
theorem FailsAt.prim (h : FailsAt B l s) {p : Prim} (hp : p.Fits s.cfg) :
    Upto B l p.writes s (primBody p s) 0 (s.primAt p) := by
  cases p with
  | rd addr => exact hp.elim
  | wr addr v =>
    obtain ⟨hreg, hne⟩ := hp
    have ht := target_agree h.agree hreg
    rw [primBody, wrBody_register hreg]
    exact h.access (Nat.lt_succ_self _) fun hf =>
      (hf.write (W := (Prim.wr addr v).writes) ht (by rwa [switched_cfg]) rfl v).drop 0
  | upd addr m v =>
    obtain ⟨hreg, hne⟩ := hp
    have ht := target_agree h.agree hreg
    rw [primBody, updBody_register hreg]
    refine h.access ?_ fun hf => (hf.read ht).bind ?_ rfl (fun _ _ _ => rfl) fun hr =>
      (hr.write (W := (Prim.upd addr m v).writes) ht
        (by rwa [State.didRead_cfg, switched_cfg]) rfl _).drop 0
    · simp [State.primAt, State.updAt, State.rdAt]
    · simp [State.primAt, State.updAt, State.rdAt]
  | bwr addr bytes =>
    obtain ⟨hn, hr, hg, hb⟩ := hp
    rw [primBody, bwrBody_eq hr hn, locateBulk_register hr hn hg, PRes.ok_bind]
    exact h.access (Nat.lt_succ_self _) fun hf =>
      (hf.burst (target_bulk_agree h.bank h.agree hr hn hg) (by rwa [switched_cfg])
        fun a h1 h2 => ⟨h1, h2⟩).drop 0

/-! ## The steps before the failing one -/

theorem primAt_logged (s : State) (p : Prim) : Logged s (s.primAt p) := by
  cases p with
  | rd addr => exact rdAt_logged s addr
  | wr addr v => exact wrAt_logged s addr v
  | upd addr m v => exact (rdAt_logged s addr).trans ⟨[_], rfl⟩
  | bwr addr bytes =>
    exact Logged.trans (switched_log s (bulkBank addr bytes.length (needOf addr))) ⟨[_], rfl⟩

theorem foldl_logged (l : List BridgeStep) (s : State) :
    Logged s (l.foldl State.bridgeStepAt s) := by
  induction l generalizing s with
  | nil => exact .refl s
  | cons x l ih =>
    cases x with
    | prim p => exact (primAt_logged s p).trans (ih _)
    | needCsc b => exact ih (s.setNeedCsc b)

/-- Steps whose transactions end before the failing one complete. -/
theorem FailsAt.steps (h : FailsAt B l s) {steps : List BridgeStep}
    (hl : ∀ x ∈ steps, x.Fits s.cfg) (hB : (steps.foldl State.bridgeStepAt s).bus.length ≤ B) :
    s.stepsRun steps = .ok 0 (steps.foldl State.bridgeStepAt s)
      ∧ FailsAt B l (steps.foldl State.bridgeStepAt s) := by
  induction steps generalizing s with
  | nil => exact ⟨rfl, h⟩
  | cons x steps ih =>
    obtain ⟨hx, hrest⟩ := List.forall_mem_cons.mp hl
    cases x with
    | prim p =>
      have hlen := (foldl_logged steps (s.primAt p)).length_le
      rcases h.prim (hx p rfl) with ⟨hb, hf⟩ | ⟨hlt, -⟩
      · rw [State.stepsRun, hb, PRes.ok_bind]
        exact ih hf (by rwa [primAt_cfg]) hB
      · exact absurd (hlt.trans_le hlen) (Nat.not_lt.mpr hB)
    | needCsc b => exact ih (s := s.setNeedCsc b) ⟨h.bank, h.agree, h.flags⟩ hrest hB

/-- The primitive that holds the failing transaction ends the sequence. -/
theorem FailsAt.stops (h : FailsAt B l s) {done rest : List BridgeStep} {p : Prim}
    (hl : ∀ x ∈ done ++ .prim p :: rest, x.Fits s.cfg)
    (hle : (done.foldl State.bridgeStepAt s).bus.length ≤ B)
    (hlt : B < ((done.foldl State.bridgeStepAt s).primAt p).bus.length) :
    ∃ w, s.stepsRun (done ++ .prim p :: rest) = .err .ioError w
      ∧ BusFrame 3 (done.foldl State.bridgeStepAt s) w ∧ w.bus.length = B + 1
      ∧ KeepsBut s.cfg p.writes (done.foldl State.bridgeStepAt s) w := by
  obtain ⟨hdone, hrest⟩ := List.forall_mem_append.mp hl
  have hp := (List.forall_mem_cons.mp hrest).1 p rfl
  obtain ⟨hrun, hf⟩ := h.steps hdone hle
  have hc := foldl_bridgeStepAt_cfg s done
  generalize done.foldl State.bridgeStepAt s = u at *
  rcases hf.prim (by rwa [hc]) with ⟨-, hf'⟩ | ⟨-, w, hb, hlen, hx⟩
  · exact absurd hf'.le (Nat.not_le.mpr hlt)
  · have hframe := primBody_frame p u
    rw [hb] at hframe
    refine ⟨w, ?_, hframe, hlen, hc ▸ hx⟩
    rw [stepsRun_append, hrun, PRes.ok_bind, State.stepsRun, hb]
    rfl

end

/-! ## The answer -/

/-- A command whose steps led to its answer. -/
theorem Ready.endedFrom {i : Instr} {s w : State} (h : Ready i s) (hw : BridgeFrame s w)
    (r : Response) : Ended s w r (w.respond s.active r) := by
  have hports : ∀ p, w.port p = s.port p :=
    State.port_congr (by rw [hw.frame]) (by rw [hw.frame])
  have hidle : w.idle (.port s.active) = true := by
    have := h.2.1
    simpa only [State.idle, State.pos, State.seqOf, hports] using this
  exact ⟨respond_idle hidle r, State.respond_answered r
    ((State.hasPort_congr (by rw [hw.frame]) _).trans h.1) hports h.2.1
    (by rw [hw.frame]) (by rw [hw.frame]) (by rw [hw.frame])⟩

/-- Before a primitive of CSC_CFG nothing was assigned: the assignment is its last step (rule R223).
-/
theorem cscSteps_prims {s : State} {c : Colorimetry} {limited : Bool} {done rest : List BridgeStep}
    {p : Prim} (h : cscSteps s c limited = done ++ .prim p :: rest) :
    ∀ x ∈ done, ∃ q, x = .prim q := by
  have hprims : ∀ l : List Prim, ∀ x ∈ l.map BridgeStep.prim, ∃ q, x = .prim q := fun l x hx =>
    let ⟨q, _, he⟩ := List.mem_map.mp hx
    ⟨q, he.symm⟩
  rw [cscSteps, List.append_cons, ← List.map_singleton, ← List.map_append] at h
  rcases List.eq_nil_or_concat rest with rfl | ⟨front, last, rfl⟩
  · cases List.append_inj_right' h rfl
  · rw [List.concat_eq_append, ← List.cons_append, ← List.append_assoc] at h
    have hfront := List.append_inj_left' h rfl
    exact fun x hx => hprims _ x (hfront ▸ List.mem_append_left _ hx)

/-- Settles O60: the steps before the failing transaction complete, and the primitive it belongs to
raises. -/
theorem bridgeSequenceStopsAtFirstError : Obligations.BridgeSequenceStopsAtFirstError := by
  rintro i s _ done rest p k l h ha ht hag - hsteps rfl hfails hle hlt
  have hok := paramsOk_of_for ht.1
  have hfail : FailsAt (s.bus.length + k) l s := ⟨paramsOk_bank hok, hag, k, hfails, rfl⟩
  have hfit := hsteps ▸ bridgeSteps_fit h ht
  obtain ⟨w, hrun, hframe, hlen, hkeeps⟩ := hfail.stops hfit hle hlt
  have hexec := exec_bridge h ha (by simp [hsteps])
  rw [hsteps, hrun] at hexec
  have hended := h.endedFrom ((foldl_bridgeFrame s done).trans hframe.bridgeFrame) ⟨.ioError, 0⟩
  have hneed : ∀ c limited, i = .cscCfg c limited →
      (done.foldl State.bridgeStepAt s).ctx.needCsc = s.ctx.needCsc := by
    rintro c limited rfl
    exact foldl_needCsc (cscSteps_prims hsteps) s
  generalize done.foldl State.bridgeStepAt s = u at *
  change exec i s = .next (w.respond s.active ⟨.ioError, 0⟩) at hexec
  generalize w.respond s.active ⟨.ioError, 0⟩ = t at *
  obtain ⟨m, -, hlog⟩ := hframe.log
  obtain ⟨x, hw, b, env, bus, rfl⟩ : ∃ x hw b env bus, w = { u with
      x := x, hwBank := hw, ctx := { u.ctx with currentBank := b }, env := env, bus := bus } :=
    ⟨_, _, _, _, _, hframe.frame⟩
  obtain ⟨payload, resp, events, rfl⟩ : ∃ payload resp events, t = { u with
      x := x, hwBank := hw, ctx := { u.ctx with currentBank := b }, env := env, bus := bus
      payload := payload, resp := resp, events := events } := ⟨_, _, _, hended.frame⟩
  exact ⟨_, hexec, rfl, hended.answered, hlen, ⟨m, hlog⟩, hneed, hkeeps⟩

end Sys2Proof.Machine
end


section
/-! SUPPORT. The faults of the machine: nothing an agent runs or starts faults, and of the turns a
schedule may give only the detach of the device does (rules R240, R270). -/

namespace Sys2Proof.Machine

/-! ## What an agent runs -/

theorem command_no_fault (i : Instr) (k : List Stmt) (s : State) (f : Fault) :
    command i k s ≠ .fault f := by
  unfold command
  split
  · split
    · exact drive_no_fault _ _ _ f
    · nofun
  · nofun

theorem startInternal_no_fault (a : AgentId) (s : State) (f : Fault) :
    startInternal a s ≠ .fault f := by
  unfold startInternal
  split
  · exact drive_no_fault _ _ _ f
  · nofun

/-- An operation a port may start is a command; the other two are the internal ones. -/
theorem exec_no_fault (i : Instr) (s : State) (f : Fault) : exec i s ≠ .fault f := by
  cases hi : hostMayStart i with
  | true =>
    obtain ⟨k, -, he⟩ := exec_eq_command hi s
    exact he ▸ command_no_fault i k s f
  | false =>
    cases i with
    | irqDispatch =>
      simp only [exec, execIrqDispatch]
      split
      · nofun
      · exact startInternal_no_fault _ _ f
    | hpdTask =>
      simp only [exec, execHpdTask]
      split
      · nofun
      · exact startInternal_no_fault _ _ f
    | _ => cases hi

/-! ## The turns of the scheduler -/

/-- A word that is refused is answered, not a fault (rules R100, R101). -/
theorem runCommand_no_fault (p : PortId) (w : CmdWord) (s : State) (f : Fault) :
    runCommand p w s ≠ .fault f := by
  unfold runCommand
  split
  · nofun
  · split
    · exact exec_no_fault _ s f
    · nofun

theorem acceptCommand_no_fault (p : PortId) (s : State) (f : Fault) :
    acceptCommand p s ≠ .fault f := by
  unfold acceptCommand
  split
  · nofun
  · exact runCommand_no_fault p _ _ f

theorem startAgent_no_fault (a : AgentId) (s : State) (f : Fault) : startAgent a s ≠ .fault f := by
  cases a with
  | port p => exact acceptCommand_no_fault p s f
  | dispatcher =>
    simp only [startAgent]
    split
    · exact exec_no_fault _ s f
    · nofun
  | task =>
    simp only [startAgent]
    split
    · exact exec_no_fault _ s f
    · nofun

theorem serve_no_fault (a : AgentId) (s : State) (f : Fault) : serve a s ≠ .fault f := by
  unfold serve
  split
  · exact startAgent_no_fault a s f
  · exact drive_no_fault a _ s f

theorem freeTurn_no_fault (s : State) (f : Fault) : freeTurn s ≠ .fault f := by
  unfold freeTurn
  split
  · nofun
  · exact serve_no_fault _ _ f
  · exact serve_no_fault _ _ f

/-- Of the turns a schedule may give, the detach of the device alone stops the machine (rule R270). -/
theorem takeTurn_fault_iff (t : Turn) (s : State) (f : Fault) :
    takeTurn t s = .fault f ↔ f = .detached ∧ t = .detach := by
  cases t with
  | run a => simp [takeTurn, serve_no_fault]
  | irq level => simp [takeTurn]
  | detach => simp [takeTurn]

/-- Settles O10: a step is a free turn, which never faults, or the next given turn. -/
theorem onlyDetachStopsTheMachine : Obligations.OnlyDetachStopsTheMachine := by
  intro s f
  unfold step advance
  split
  next hs => simp [hs, freeTurn_no_fault]
  next t rest hs => simp [hs, takeTurn_fault_iff]

end Sys2Proof.Machine
end


section
/-! SUPPORT. The values of the state after reset (rule R58). -/

namespace Sys2Proof.Machine

/-- Every sequencer is idle after reset, that of a port the machine does not have among them. -/
theorem idle_reset (a : AgentId) : State.reset.idle a = true := by
  rw [State.idle, pos_reset, List.isEmpty_nil]

/-- Settles O18: the fields of the reset state carry the values of the table, and no agent has a
statement left. -/
theorem resetValues : Obligations.ResetValues :=
  ⟨rfl, rfl, rfl, rfl, rfl, rfl, rfl, idle_reset⟩

end Sys2Proof.Machine
end
